-- ==== Sys2Proof/Word.lean ====
section
/-! DEFINITION. The bytes and the 16-bit words of the LJQ512 (00_scope, Conventions; R87). -/

namespace Sys2Proof

/-- One byte of the array or of a register half. -/
abbrev Byte := BitVec 8

/-- One 16-bit word: a register, a parameter or result word, the data lines of a port. -/
abbrev Word := BitVec 16

/-- The low byte of a word, which lies at the even offset (R87). -/
def lowByte (w : Word) : Byte := w.extractLsb' 0 8

/-- The high byte of a word, which lies at the odd offset (R87). -/
def highByte (w : Word) : Byte := w.extractLsb' 8 8

/-- The word whose low byte is `lo` and whose high byte is `hi` (R87). -/
def wordOf (lo hi : Byte) : Word := hi ++ lo

end Sys2Proof
end

