-- ==== Sys2Proof/Config.lean ====
section
/-! DEFINITION. The fixed quantities of Table 1-2. The spec leaves no choice to an implementation and no result of a
command open (DEDUCED, log 17); the one free value is what the array holds after a device reset. -/

namespace Sys2Proof.Config

/-- Granule size in bytes (R25). -/
abbrev granuleBytes : Nat := 256

/-- Granules of the array (R25). -/
abbrev granules : Nat := 2048

/-- Array size in bytes (R25). -/
abbrev arrayBytes : Nat := 524288

/-- Greatest region length in granules (Table 1-3). -/
abbrev maxLength : Nat := 256

/-- Greatest quota in granules (R171). -/
abbrev maxQuota : Nat := 2048

/-- Entries the name directory can hold (R42). -/
abbrev maxNames : Nat := 64

/-- Granules of one boot extent (R35). -/
abbrev bootLength : Nat := 256

/-- Greatest count of regions moved in a report (R149). -/
abbrev maxMoved : Nat := 128

/-- Greatest count of granules moved in a report (R149). -/
abbrev maxGranulesMoved : Nat := 2048

/-- FREE VALUE: the byte at each address of the array after the device reset of a number: what was there before the reset,
or nothing defined (section 2.7, log 6). -/
opaque arrayAfterReset : Nat → Nat → Byte

end Sys2Proof.Config
end

