-- ==== Sys2Proof/Syntax.lean ====
section
/-! DEFINITION. The commands of the block: one constructor of `Instr` for each row of spec/opcode_table.json, with the
operands the rows need. Meaning is in Machine/ alone. -/

namespace Sys2Proof

/-- The four ports; P0 is the supervisor port (R170). -/
inductive PortId where
  | p0 | p1 | p2 | p3
deriving DecidableEq, Repr

/-- The direction of an access (R85). -/
inductive Dir where
  | read | write
deriving DecidableEq, Repr

/-- The size of an access: 1 byte or 2 bytes (R85). -/
inductive Size where
  | byte | word
deriving DecidableEq, Repr

/-- One access as a host presents it (R85): a 20-bit byte address, a direction, a size, and what the host drives on
data lines 15-0 (used by writes only; a byte write uses lines 7-0 alone, R88). -/
structure Access where
  addr : BitVec 20
  dir  : Dir
  size : Size
  data : Word
deriving DecidableEq, Repr

/-- The five claimants on the array: the Access Checkers of the four ports and the Granule Engine (R86). -/
inductive Claimant where
  | port (p : PortId)
  | engine
deriving DecidableEq, Repr

/-- A claim on the array as it comes to wait at the Array Arbiter: a port's data-window access, or the engine's next
granule step (R86, R115). -/
inductive Claim where
  | port (p : PortId) (a : Access)
  | engine
deriving DecidableEq, Repr

/-- The commands, in the order of spec/opcode_table.json. `arrivals` are the claims that come to wait at the Array Arbiter
before the event, beside those the state says wait already (R86; DESIGN CHOICE, log 1). A take names the port whose PENDING command is taken (R159). -/
inductive Instr where
  /-- DEVICE_RESET (R183). -/
  | deviceReset
  /-- PORT_RESET_INPUT_ASSERT (R168). -/
  | portResetInputAssert (p : PortId)
  /-- PORT_RESET_INPUT_RELEASE (R168). -/
  | portResetInputRelease (p : PortId)
  /-- HELD_ACCESS_DISCARD (R169). -/
  | heldAccessDiscard (p : PortId) (a : Access)
  /-- DATA_ACCESS (R91). -/
  | dataAccess (p : PortId) (a : Access) (arrivals : List Claim)
  /-- UNMAPPED_ACCESS (R89). -/
  | unmappedAccess (p : PortId) (a : Access)
  /-- COMMAND_WRITE (R156). -/
  | commandWrite (p : PortId) (a : Access)
  /-- PARAM_WRITE (R155). -/
  | paramWrite (p : PortId) (a : Access)
  /-- BANK_WRITE (R55). -/
  | bankWrite (p : PortId) (a : Access)
  /-- EVENTS_WRITE (R177). -/
  | eventsWrite (p : PortId) (a : Access)
  /-- EVENT_ENABLE_WRITE (R176). -/
  | eventEnableWrite (p : PortId) (a : Access)
  /-- IGNORED_WRITE (R188). -/
  | ignoredWrite (p : PortId) (a : Access)
  /-- CREATE (R15). -/
  | takeCreate (p : PortId)
  /-- OPEN (R61). -/
  | takeOpen (p : PortId)
  /-- CLOSE (R64). -/
  | takeClose (p : PortId)
  /-- GRANT (R76). -/
  | takeGrant (p : PortId)
  /-- RETIRE (R18). -/
  | takeRetire (p : PortId)
  /-- INQUIRE (R21). -/
  | takeInquire (p : PortId)
  /-- COMPACT (R133). -/
  | takeCompact (p : PortId)
  /-- HALT (R144). -/
  | takeHalt (p : PortId)
  /-- SET_PORT (R173). -/
  | takeSetPort (p : PortId)
  /-- RESET_PORT (R181). -/
  | takeResetPort (p : PortId)
  /-- UNKNOWN_COMMAND (R164). -/
  | takeUnknown (p : PortId)
  /-- SCRUB_STEP (R120). -/
  | scrubStep (arrivals : List Claim)
  /-- REGION_SCRUB_END (R124). -/
  | regionScrubEnd
  /-- BOOT_SCRUB_END (R125). -/
  | bootScrubEnd
  /-- ROUND_TEST (R135). -/
  | roundTest
  /-- COPY_STEP (R138). -/
  | copyStep (arrivals : List Claim)
  /-- COPY_END (R139). -/
  | copyEnd
  /-- CLEAR_STEP (R140). -/
  | clearStep (arrivals : List Claim)
  /-- CLEAR_END (R141). -/
  | clearEnd
  /-- CONTROL_MISALIGNED_READ (R90). -/
  | controlMisalignedRead (p : PortId) (a : Access)
deriving DecidableEq, Repr

end Sys2Proof
end

