-- ==== Sys2Proof/Machine/AddressMap.lean ====
section
/-! DEFINITION. The port address map (Table 6-1) and the places of the control-window registers (Table 12-4). -/

namespace Sys2Proof.Machine

/-- The registers of the control window (Table 12-4); `unnamed` is an offset that names none. -/
inductive Register where
  | status | events | eventEnable | bank | command
  | param (i : Fin 6) | result (i : Fin 6)
  | faultInfo | faultOffset | faultCount
  | report0 | report1 | report2
  | slotView (i : Fin 32)
  | unnamed
deriving DecidableEq, Repr

/-- The register at word `k` of the control window, that is at offsets 2k and 2k+1 (Table 12-4). -/
def Register.ofWord (k : Nat) : Register :=
  if k = 0 then .status
  else if k = 1 then .events
  else if k = 2 then .eventEnable
  else if k = 3 then .bank
  else if k = 4 then .command
  else if h : 8 ≤ k ∧ k < 14 then .param ⟨k - 8, by omega⟩
  else if h : 16 ≤ k ∧ k < 22 then .result ⟨k - 16, by omega⟩
  else if k = 24 then .faultInfo
  else if k = 25 then .faultOffset
  else if k = 26 then .faultCount
  else if k = 28 then .report0
  else if k = 29 then .report1
  else if k = 30 then .report2
  else if h : 32 ≤ k ∧ k < 64 then .slotView ⟨k - 32, by omega⟩
  else .unnamed

/-- Where an access goes: one of the three ranges of Table 6-1, with a word access at an odd address of the control
window set apart (R90). -/
inductive Target where
  | dataWindow
  | register (r : Register) (high : Bool)
  | controlMisaligned
  | unmapped
deriving DecidableEq, Repr

end Sys2Proof.Machine

namespace Sys2Proof

/-- Whether the address is odd. -/
def Access.odd (a : Access) : Bool := a.addr.toNat % 2 = 1

/-- The register offset of an access to the control window: address bits 6-0 (Table 6-1). -/
def Access.offset (a : Access) : Nat := a.addr.toNat % 128

/-- The range of Table 6-1 and the register an access goes to; `high` is whether its address is odd (R85, R89, R90,
R188). -/
def Access.target (a : Access) : Machine.Target :=
  if a.addr.toNat < 0x80000 then .dataWindow
  else if a.addr.toNat < 0x80080 then
    if a.size = .word ∧ a.odd then .controlMisaligned
    else .register (Machine.Register.ofWord (a.offset / 2)) a.odd
  else .unmapped

/-- Whether the address lies in the control window (Table 6-1). -/
def Access.inControl (a : Access) : Bool := 0x80000 ≤ a.addr.toNat ∧ a.addr.toNat < 0x80080

/-- The register whose word holds the address of an access to the control window, misaligned or not. -/
def Access.register (a : Access) : Machine.Register := Machine.Register.ofWord (a.offset / 2)

/-- The number of bytes of an access, 1 or 2 (R85). -/
def Size.bytes : Size → Nat
  | .byte => 1
  | .word => 2

/-- The window offset of a data-window access, address bits 15-0 (R56). -/
def Access.windowOffset (a : Access) : Word := a.addr.extractLsb' 0 16

/-- The slot number of a data-window access, address bits 18-16 (R56). -/
def Access.slotNumber (a : Access) : Fin 8 := (a.addr.extractLsb' 16 3).toFin

end Sys2Proof
end

