-- ==== Sys2Proof/Machine/State.lean ====
section
/-! DEFINITION. The state of the LJQ512 as plain data, block by block as Table 1-1 names them, and its value after
device reset. -/

namespace Sys2Proof.Machine

/-- Why the machine stops. -/
inductive Fault where
  /-- Raised by a served data access, a scrub step, a copy step or a clear step whose array byte `addr` lies outside
  0 to 524,287, which R25 says does not exist. No state reachable from reset raises it (R25, R26). Safe (DESIGN CHOICE, log 13). -/
  | outsideArray (addr : Nat)
deriving DecidableEq, Repr

/-- Why the machine refuses a command. -/
inductive Refusal where
  /-- Raised by `exec` for a row that has no meaning yet; no arm does so now. Safe. -/
  | notModelled (mnemonic : String)
deriving DecidableEq, Repr

/-- One value for each of the four ports. -/
structure PerPort (α : Type) where
  p0 : α
  p1 : α
  p2 : α
  p3 : α
deriving DecidableEq, Repr

/-- A region record's number, 0 to 127 (R1). -/
abbrev RegionId := Fin 128

/-- A slot index, bank × 8 + slot, 0 to 31 (00_scope, Slot notation; R69). -/
abbrev SlotIndex := Fin 32

/-- An urgency level, 0 the most urgent (R108, R171). -/
abbrev Level := Fin 4

/-- The state of a Port Interface, which follows the port's reset input (R168). -/
inductive PortState where
  | attached | held
deriving DecidableEq, Repr

/-- The rights of a binding or of a grant list entry (R53, R72). -/
inductive Rights where
  | read | readWrite
deriving DecidableEq, Repr

/-- Why a slot lapsed (R66). -/
inductive LapseCause where
  | revoked | retired | ownerReset
deriving DecidableEq, Repr

/-- One handle slot (Table 4-1). -/
inductive Slot where
  | empty
  | bound (region : RegionId) (rights : Rights) (origin : Word)
  | lapsed (region : RegionId) (cause : LapseCause)
deriving DecidableEq, Repr

/-- Command state (Table 9-2). -/
inductive CommandState where
  | idle | pending
deriving DecidableEq, Repr

/-- A port's Command Unit (Table 9-2). -/
structure CommandUnit where
  state    : CommandState
  params   : Vector Word 6
  lastCode : Word
  results  : Vector Word 6
  overrun  : Bool
deriving DecidableEq, Repr

/-- The cause of a faulted access (Table 6-3). -/
inductive FaultCause where
  | unmapped | emptySlot | lapsed | misaligned | bound | readOnly
deriving DecidableEq, Repr

/-- Where a faulted access pointed: slot form for a data-window fault, address form otherwise (Table 6-3). -/
inductive FaultPlace where
  | slot (bank : Fin 4) (slot : Fin 8) (offset : Word)
  | address (addr : BitVec 20)
deriving DecidableEq, Repr

/-- A captured fault (Table 6-3). -/
structure FaultRecord where
  cause : FaultCause
  dir   : Dir
  size  : Size
  place : FaultPlace
deriving DecidableEq, Repr

/-- How a compaction ended, as its report shows it (R149). -/
inductive Ending where
  | none | complete | halted
deriving DecidableEq, Repr

/-- A port's compaction report (R149). -/
structure Report where
  regionsMoved  : Nat
  granulesMoved : Nat
  largestFree   : Nat
  ending        : Ending
deriving DecidableEq, Repr

/-- A port's Event Block (Table 1-1): flags and enables at the positions of Table 12-5, the fault record with its
further-count, and the compaction report. The event line is computed from it (R176). -/
structure EventBlock where
  flags   : BitVec 6
  enables : BitVec 6
  fault   : Option FaultRecord
  further : Byte
  report  : Report
deriving DecidableEq, Repr

/-- The data a read returns: one byte on lines 7-0, or one word (R85, R88; lines 15-8 of a byte read are left out, DESIGN
CHOICE, log 11). -/
inductive ReadData where
  | byte (b : Byte)
  | word (w : Word)
deriving DecidableEq, Repr

/-- The response to an access: OK or ERROR, with the data of a read (R85, R100). -/
structure Response where
  ok   : Bool
  data : Option ReadData
deriving DecidableEq, Repr

/-- The state that one port has: its Port Interface, Slot Bank, Command Unit and Event Block, and what the Table
Controller keeps for it (level, quota, holdings, space watch). -/
structure Port where
  portState : PortState
  response  : Option Response
  slots     : Vector Slot 32
  bank      : Fin 4
  unit      : CommandUnit
  events    : EventBlock
  level     : Level
  quota     : Nat
  holdings  : Nat
  watch     : Option Nat
deriving DecidableEq, Repr

/-- The state of a region record (Table 1-4). -/
inductive RegionState where
  | vacant | live | draining | scrubbing
deriving DecidableEq, Repr

/-- A run of granules: base and length (R25). -/
structure Extent where
  base   : Nat
  length : Nat
deriving DecidableEq, Repr

/-- The move record of a region in the COPY phase of a move (Table 1-3, R97). -/
structure MoveRecord where
  dest   : Nat
  cursor : Nat
deriving DecidableEq, Repr

/-- A region record (Table 1-3). The grant list is held by grantee: it has no order and at most one entry for each
port (R72). -/
structure Region where
  state      : RegionState
  owner      : PortId
  base       : Nat
  length     : Nat
  generation : Byte
  name       : Option Word
  fixed      : Bool
  grants     : PerPort (Option Rights)
  bindings   : Nat
  move       : Option MoveRecord
deriving DecidableEq, Repr

/-- An entry of the name directory (R42). -/
structure DirEntry where
  name   : Word
  region : RegionId
deriving DecidableEq, Repr

/-- What the compaction state holds about a move in either phase (Table 8-1): subject, move extent F, source base and
move length. -/
structure Move where
  subject : RegionId
  extent  : Extent
  source  : Nat
  length  : Nat
deriving DecidableEq, Repr

/-- The phase of the compaction job with the fields present in it alone (Table 8-1). -/
inductive Phase where
  | scan
  | copy (m : Move)
  | clear (m : Move) (vacated dirty : Extent) (cursor : Nat)
deriving DecidableEq, Repr

/-- The compaction state of the COMPACTION job (Table 8-1). -/
structure Compaction where
  issuer        : Option PortId
  halt          : Bool
  scanPoint     : Nat
  phase         : Phase
  regionsMoved  : Nat
  granulesMoved : Nat
deriving DecidableEq, Repr

/-- What a scrub job answers for: a SCRUBBING region or a boot extent (Table 7-1). -/
inductive ScrubTarget where
  | region (r : RegionId)
  | boot (k : Fin 8)
deriving DecidableEq, Repr

/-- The kind of a job with the fields of its kind (Table 7-1). -/
inductive Work where
  | scrub (target : ScrubTarget) (span : Extent) (cursor : Nat)
  | compaction (c : Compaction)
deriving DecidableEq, Repr

/-- A job of the Granule Engine (Table 7-1). -/
structure Job where
  level : Level
  order : Nat
  work  : Work
deriving DecidableEq, Repr

/-- The Granule Engine (R113): the running job, the suspension stack with its top first, the queue with its head first,
and the making order of the next job made. -/
structure Engine where
  running   : Option Job
  stack     : List Job
  queue     : List Job
  nextOrder : Nat
deriving DecidableEq, Repr

/-- The two kinds of event that take turns at the Table Controller (R160). -/
inductive TakeKind where
  | command | completion
deriving DecidableEq, Repr

/-- The array: byte addresses strictly rising, no entry equal to 00h, which is what an unlisted byte reads as
(DESIGN CHOICE, log 5). -/
abbrev Memory := List Host.Cell

/-- The claims held at the Array Arbiter: each port's access and the engine's granule step, at most one of each (R86). -/
structure Waits where
  ports : PerPort (Option Access)
  step  : Bool
deriving DecidableEq, Repr

/-- The whole machine. `lastPort` is the port whose command was taken last (R159), `lastTaken` the kind of event that
was taken last of the two that take turns (R160; none since reset, DEDUCED, log 3), `lastServed` the claimant the Array Arbiter
served last and `waits` the claims it holds (R86), `pending` the queue of commands that wait, the front first, `resets` the model's own count of device
resets, which numbers the free contents of the array after each (log 6). -/
structure State where
  ports      : PerPort Port
  regions    : Vector Region 128
  directory  : List DirEntry
  freeList   : List Extent
  lastPort   : PortId
  lastTaken  : Option TakeKind
  engine     : Engine
  array      : Memory
  lastServed : Claimant
  waits      : Waits
  pending    : List Instr
  resets     : Nat
deriving DecidableEq, Repr

/-- The value of a Command Unit after either reset (R154). -/
def CommandUnit.reset : CommandUnit :=
  { state := .idle, params := Vector.replicate 6 0, lastCode := 0, results := Vector.replicate 6 0, overrun := false }

/-- The value of a compaction report after either reset (R149). -/
def Report.reset : Report :=
  { regionsMoved := 0, granulesMoved := 0, largestFree := 0, ending := .none }

/-- The value of an Event Block after either reset (R175, R176, R103, R149). -/
def EventBlock.reset : EventBlock :=
  { flags := 0, enables := 0, fault := none, further := 0, report := Report.reset }

/-- A port after device reset with its reset input released; `level` is the reset level of R171. -/
def Port.reset (level : Level) : Port :=
  { portState := .attached, response := none, slots := Vector.replicate 32 .empty, bank := 0,
    unit := CommandUnit.reset, events := EventBlock.reset, level := level, quota := 512, holdings := 0, watch := none }

/-- A VACANT record with generation `g` and every other field at its cleared value (R1). -/
def Region.cleared (g : Byte) : Region :=
  { state := .vacant, owner := .p0, base := 0, length := 0, generation := g, name := none, fixed := false,
    grants := ⟨none, none, none, none⟩, bindings := 0, move := none }

/-- BOOT_SCRUB job `k` as device reset makes it (R35, R108, R129). -/
def Job.boot (k : Fin 8) : Job :=
  { level := 3, order := k.val, work := .scrub (.boot k) ⟨256 * k.val, 256⟩ 0 }

/-- The engine after device reset: boot job 0 runs, boot jobs 1 to 7 are queued (R129). -/
def Engine.reset : Engine :=
  { running := some (Job.boot 0), stack := [],
    queue := [Job.boot 1, Job.boot 2, Job.boot 3, Job.boot 4, Job.boot 5, Job.boot 6, Job.boot 7], nextOrder := 8 }

/-- No claim waits: a device reset ends every access and granule step not yet taken (R107, R129). -/
def Waits.reset : Waits := { ports := ⟨none, none, none, none⟩, step := false }

/-- The machine right after device reset with every reset input released (R2, R28, R35, R43, R54, R129, R154, R159,
R171, R183, R86, R107; DEDUCED: log 3; DESIGN CHOICE: log 5, log 6, log 7,
log 9). -/
def State.reset : State :=
  { ports := ⟨Port.reset 1, Port.reset 2, Port.reset 2, Port.reset 2⟩,
    regions := Vector.replicate 128 (Region.cleared 0),
    directory := [], freeList := [], lastPort := .p3, lastTaken := none,
    engine := Engine.reset, array := [], lastServed := .engine, waits := Waits.reset, pending := [],
    resets := 0 }

end Sys2Proof.Machine
end

