-- ==== Sys2Proof/Machine/Flags.lean ====
section
/-! DEFINITION. Event flags, enables and the event line, and the fault record (section 10.5, section 6.6). -/

namespace Sys2Proof.Machine

/-- The six kinds of event (Table 10-1). -/
inductive EventKind where
  | done | fault | lapse | space | compactEnd | overrun
deriving DecidableEq, Repr

/-- The position of a kind in EVENTS and EVENT_ENABLE (Table 12-5). -/
def EventKind.bit : EventKind → Nat
  | .done => 0
  | .fault => 1
  | .lapse => 2
  | .space => 3
  | .compactEnd => 4
  | .overrun => 5

/-- The value with the position of kind `k` alone set. -/
def EventKind.mask (k : EventKind) : BitVec 6 := 1#6 <<< k.bit

/-- Whether the flag of kind `k` is set (R175). -/
def EventBlock.flag (e : EventBlock) (k : EventKind) : Bool := e.flags.getLsbD k.bit

/-- Whether the enable of kind `k` is set (R176). -/
def EventBlock.enable (e : EventBlock) (k : EventKind) : Bool := e.enables.getLsbD k.bit

/-- An event of kind `k` is raised: its flag is set, the others stay (R175). -/
def EventBlock.raise (e : EventBlock) (k : EventKind) : EventBlock := { e with flags := e.flags ||| k.mask }

/-- The fault record becomes absent and the further-count 0 (R103). -/
def EventBlock.clearFault (e : EventBlock) : EventBlock := { e with fault := none, further := 0 }

/-- A write to EVENTS of the six positions `v`: each flag whose position is 1 is cleared, and a FAULT position of 1
also clears the fault record (R177). -/
def EventBlock.clearFlags (e : EventBlock) (v : BitVec 6) : EventBlock :=
  let e' := { e with flags := e.flags &&& ~~~v }
  if v.getLsbD EventKind.fault.bit then e'.clearFault else e'

/-- A write to EVENT_ENABLE of the six positions `v` (R176). -/
def EventBlock.setEnables (e : EventBlock) (v : BitVec 6) : EventBlock := { e with enables := v }

/-- A faulted access reaches the fault record: captured where it is absent, counted where it is present, the count
stopping at 255 (R101, R102); FAULT is raised in either case (R104). -/
def EventBlock.recordFault (e : EventBlock) (f : FaultRecord) : EventBlock :=
  let e' := e.raise .fault
  match e.fault with
  | none => { e' with fault := some f, further := 0 }
  | some _ => { e' with further := if e.further.toNat < 255 then e.further + 1 else e.further }

/-- The event line: asserted while a flag is set whose enable is also set (R176); deasserted throughout the time the
port is HELD (R169). -/
def Port.eventLine (q : Port) : Bool :=
  q.portState = .attached ∧ q.events.flags &&& q.events.enables ≠ 0

end Sys2Proof.Machine
end

