-- ==== Sys2Proof/Machine/Ops.lean ====
section
/-! DEFINITION. The named operations over the state: ports, records, slots, the array, the Array Arbiter and the
rotation of the Table Controller. -/

namespace Sys2Proof

/-- The port after `p`, P0 following P3 (R159). -/
def PortId.next : PortId → PortId
  | .p0 => .p1
  | .p1 => .p2
  | .p2 => .p3
  | .p3 => .p0

/-- The number of a port, 0 to 3 (Table 12-1). -/
def PortId.toNat : PortId → Nat
  | .p0 => 0
  | .p1 => 1
  | .p2 => 2
  | .p3 => 3

/-- The port of a number; none above 3 (Table 12-1). -/
def PortId.ofNat? : Nat → Option PortId
  | 0 => some .p0
  | 1 => some .p1
  | 2 => some .p2
  | 3 => some .p3
  | _ => none

/-- The four ports in ascending order. -/
def PortId.all : List PortId := [.p0, .p1, .p2, .p3]

/-- The number of a claimant in the arbiter's rotation (R86): the ports in order, then the Granule Engine. -/
def Claimant.index : Claimant → Nat
  | .port p => p.toNat
  | .engine => 4

end Sys2Proof

namespace Sys2Proof.Machine

/-- The value of port `p`. -/
def PerPort.get {α : Type} (v : PerPort α) : PortId → α
  | .p0 => v.p0
  | .p1 => v.p1
  | .p2 => v.p2
  | .p3 => v.p3

/-- The same values with that of port `p` replaced. -/
def PerPort.set {α : Type} (v : PerPort α) (p : PortId) (x : α) : PerPort α :=
  match p with
  | .p0 => { v with p0 := x }
  | .p1 => { v with p1 := x }
  | .p2 => { v with p2 := x }
  | .p3 => { v with p3 := x }

/-- Each port's value changed by `f`. -/
def PerPort.map {α : Type} (v : PerPort α) (f : PortId → α → α) : PerPort α :=
  ⟨f .p0 v.p0, f .p1 v.p1, f .p2 v.p2, f .p3 v.p3⟩

/-! ### Ports -/

/-- The state of port `p`. -/
def State.port (s : State) (p : PortId) : Port := s.ports.get p

/-- `s` with the state of port `p` replaced. -/
def State.setPort (s : State) (p : PortId) (q : Port) : State := { s with ports := s.ports.set p q }

/-- `s` with the state of port `p` changed by `f`. -/
def State.modifyPort (s : State) (p : PortId) (f : Port → Port) : State := s.setPort p (f (s.port p))

/-- `s` with the state of every port changed by `f`. -/
def State.mapPorts (s : State) (f : PortId → Port → Port) : State := { s with ports := s.ports.map f }

/-- A port with its Event Block changed by `f`. -/
def Port.withEvents (q : Port) (f : EventBlock → EventBlock) : Port := { q with events := f q.events }

/-- A port with its Command Unit changed by `f`. -/
def Port.withUnit (q : Port) (f : CommandUnit → CommandUnit) : Port := { q with unit := f q.unit }

/-- An event of kind `k` is raised at port `p` (R175). -/
def State.raise (s : State) (p : PortId) (k : EventKind) : State :=
  s.modifyPort p fun q => q.withEvents fun e => e.raise k

/-- The claims without that of `c`. -/
def Waits.drop (w : Waits) : Claimant → Waits
  | .port p => { w with ports := w.ports.set p none }
  | .engine => { w with step := false }

/-- Port `p` gives the response `r` to the access being taken, which waits no more (R85). -/
def State.respond (s : State) (p : PortId) (r : Response) : State :=
  { s.modifyPort p fun q => { q with response := some r } with waits := s.waits.drop (.port p) }

/-! ### Region records -/

/-- Record `r` of the region table. -/
def State.region (s : State) (r : RegionId) : Region := s.regions[r.val]'r.isLt

/-- `s` with record `r` replaced. -/
def State.setRegion (s : State) (r : RegionId) (x : Region) : State :=
  { s with regions := s.regions.set r.val x r.isLt }

/-- `s` with record `r` changed by `f`. -/
def State.modifyRegion (s : State) (r : RegionId) (f : Region → Region) : State := s.setRegion r (f (s.region r))

/-- `s` with every record changed by `f`. -/
def State.mapRegions (s : State) (f : RegionId → Region → Region) : State :=
  { s with regions := Vector.ofFn fun r => f r (s.region r) }

/-- The granule just past an extent (00_scope, Spans). -/
def Extent.stop (e : Extent) : Nat := e.base + e.length

/-- Whether a region is in use, LIVE or DRAINING. -/
def RegionState.inUse : RegionState → Bool
  | .live | .draining => true
  | .vacant | .scrubbing => false

/-! ### Slots -/

/-- The index of (bank, slot), bank × 8 + slot (R69). -/
def slotIndex (bank : Fin 4) (slot : Fin 8) : SlotIndex := ⟨bank.val * 8 + slot.val, by omega⟩

/-- Slot `i` of a port. -/
def Port.slot (q : Port) (i : SlotIndex) : Slot := q.slots[i.val]'i.isLt

/-- A port with slot `i` replaced. -/
def Port.setSlot (q : Port) (i : SlotIndex) (x : Slot) : Port := { q with slots := q.slots.set i.val x i.isLt }

/-- Whether a slot is BOUND and names `r`, that is, counts as a binding of `r` (R53, R60). -/
def Slot.binds (r : RegionId) : Slot → Bool
  | .bound r' _ _ => r' = r
  | _ => false

/-- Whether a slot is BOUND. -/
def Slot.isBound : Slot → Bool
  | .bound _ _ _ => true
  | _ => false

/-- A BOUND slot naming `r` lapses with `cause`; any other slot stays (R66). -/
def Slot.lapse (r : RegionId) (cause : LapseCause) (x : Slot) : Slot :=
  if x.binds r then .lapsed r cause else x

/-- A BOUND slot naming `r` has its rights lowered to READ in place; any other slot stays (R77). -/
def Slot.narrow (r : RegionId) : Slot → Slot
  | .bound r' rights origin => if r' = r then .bound r' .read origin else .bound r' rights origin
  | x => x

/-- The number of a port's BOUND slots naming `r`. -/
def Port.boundCount (q : Port) (r : RegionId) : Nat := q.slots.toList.countP (Slot.binds r)

/-- The number of a port's BOUND slots naming `r` with READ_WRITE. -/
def Port.writableCount (q : Port) (r : RegionId) : Nat :=
  q.slots.toList.countP fun x => match x with
    | .bound r' .readWrite _ => r' = r
    | _ => false

/-- The number of BOUND slots naming `r` over all four ports (R60). -/
def State.boundCount (s : State) (r : RegionId) : Nat :=
  (PortId.all.map fun p => (s.port p).boundCount r).sum

/-- Every BOUND slot of a port naming `r` lapses with `cause`, and LAPSE is raised once if there was one (R66, R67). -/
def Port.lapse (q : Port) (r : RegionId) (cause : LapseCause) : Port :=
  { q with
    slots := q.slots.map (Slot.lapse r cause)
    events := if q.boundCount r = 0 then q.events else q.events.raise .lapse }

/-- Every BOUND slot of every port naming `r` lapses with `cause`, and the binding count falls to 0 (R5, R7). -/
def State.lapseAll (s : State) (r : RegionId) (cause : LapseCause) : State :=
  (s.mapPorts fun _ q => q.lapse r cause).modifyRegion r fun x => { x with bindings := 0 }

/-! ### The array -/

/-- The byte at address `a`; a byte that is not listed reads 00h (DESIGN CHOICE, log 5). -/
def Memory.read : Memory → Nat → Byte
  | [], _ => 0
  | (x, b) :: t, a => if x = a then b else Memory.read t a

/-- The list with (a, b) put in place of any entry at `a`, addresses rising. -/
def Memory.put : Memory → Nat → Byte → Memory
  | [], a, b => [(a, b)]
  | (x, c) :: t, a, b =>
    if a < x then (a, b) :: (x, c) :: t
    else if a = x then (a, b) :: t
    else (x, c) :: Memory.put t a b

/-- Byte `b` is written at address `a`; a byte 00h is not listed. -/
def Memory.write (m : Memory) (a : Nat) (b : Byte) : Memory :=
  if b = 0 then m.filter fun c => c.1 ≠ a else m.put a b

/-- 00h is written into each of the 256 bytes of granule `g` (R120, R140). -/
def Memory.clearGranule (m : Memory) (g : Nat) : Memory := m.filter fun c => c.1 / Config.granuleBytes ≠ g

/-- The 256 bytes of granule `src` are written to granule `dst` (R138). -/
def Memory.copyGranule (m : Memory) (src dst : Nat) : Memory :=
  (m.filter fun c => c.1 / Config.granuleBytes < dst) ++
    ((m.filter fun c => c.1 / Config.granuleBytes = src).map fun c =>
      (Config.granuleBytes * dst + c.1 % Config.granuleBytes, c.2)) ++
    m.filter fun c => dst < c.1 / Config.granuleBytes

/-- The bytes of `f` at the addresses of a list, those that are not 00h. -/
def Memory.tabulate (f : Nat → Byte) (l : List Nat) : Memory := (l.map fun a => (a, f a)).filter fun c => c.2 ≠ 0

/-- The array whose byte at each address is that of `f`. -/
@[irreducible] def Memory.ofBytes (f : Nat → Byte) : Memory := Memory.tabulate f (List.range Config.arrayBytes)

/-- The canonical form: addresses strictly rising and inside the array, no listed byte 00h. -/
abbrev Memory.wf (m : Memory) : Prop :=
  m.Pairwise (fun c d => c.1 < d.1) ∧ ∀ c ∈ m, c.2 ≠ 0 ∧ c.1 < Config.arrayBytes

/-- The byte of the array at address `a`. -/
def State.byteAt (s : State) (a : Nat) : Byte := s.array.read a

/-! ### The Array Arbiter (R86) -/

/-- The claimants in the order in which the arbiter searches after it served `last`; P0 follows the engine. -/
def claimOrder (last : Claimant) : List Claimant :=
  [Claimant.port .p0, .port .p1, .port .p2, .port .p3, .engine].rotate (last.index + 1)

/-- Whether the arbiter, having served `last`, serves `me` next when the claims of `waiting` wait beside it. -/
def arbiterServes (last me : Claimant) (waiting : List Claimant) : Bool :=
  (claimOrder last).find? (fun c => c = me ∨ c ∈ waiting) = some me

/-- Whether the running job's next step is a granule step at the array: a scrub step, a copy step or a clear step (R115). -/
def State.granuleNext (s : State) : Bool :=
  match s.engine.running with
  | some ⟨_, _, .scrub _ span cursor⟩ => cursor < span.length
  | some ⟨_, _, .compaction c⟩ =>
    match c.phase with
    | .scan => false
    | .copy m => (s.region m.subject).move.any fun v => v.cursor < m.length
    | .clear _ _ dirty cursor => cursor < dirty.length
  | none => false

/-- Whether port `p` can present access `a`: it is ATTACHED and no other access of it waits (R85, R86). -/
def State.presents (s : State) (p : PortId) (a : Access) : Bool :=
  (s.port p).portState = .attached ∧ (s.waits.ports.get p = none ∨ s.waits.ports.get p = some a)

/-- A claim comes to wait at the Array Arbiter: an access to the data window that its port can present, or the engine's
step while the running job calls for a granule step; no other claim does (R85, R86, R115). -/
def State.arrive (s : State) (k : Claim) : State :=
  match k with
  | .port p a =>
    if s.presents p a ∧ a.addr.toNat < 0x80000 then
      { s with waits := { s.waits with ports := s.waits.ports.set p (some a) } }
    else s
  | .engine => if s.granuleNext then { s with waits := { s.waits with step := true } } else s

/-- The claims of a list come to wait. -/
def State.arriveAll (s : State) (l : List Claim) : State := l.foldl State.arrive s

/-- The claimants with a claim waiting (R86). -/
def State.claims (s : State) : List Claimant :=
  (PortId.all.filter fun p => (s.waits.ports.get p).isSome).map Claimant.port ++ if s.waits.step then [.engine] else []

/-- Whether the arbiter takes the claim of `c` next of all that wait (R86). -/
def State.serves (s : State) (c : Claimant) : Bool := arbiterServes s.lastServed c s.claims

/-! ### The Table Controller's rotation and turns (R159, R160) -/

/-- The ports in the order of the search after `last` was taken last (R159). -/
def takeOrder (last : PortId) : List PortId := [last.next, last.next.next, last.next.next.next, last]

/-- The port whose command the Table Controller takes next: the first PENDING one in the rotation (R159). -/
def State.nextTake (s : State) : Option PortId :=
  (takeOrder s.lastPort).find? fun p => (s.port p).unit.state = .pending

end Sys2Proof.Machine
end

