-- ==== Sys2Proof/Machine/Operands.lean ====
section
/-! DEFINITION. The operands and answers of commands: parameter fields (Table 12-6), field encodings (Table 12-1),
result codes (Table 12-3), region references (R12) and the words composed of fields. -/

namespace Sys2Proof.Machine

/-- The word composed of fields, each given by its lowest bit, its width and its value (section 12.5). -/
def packFields (fields : List (Nat × Nat × Nat)) : Word :=
  BitVec.ofNat 16 (fields.map fun f => f.2.2 % 2 ^ f.2.1 * 2 ^ f.1).sum

/-- The word of a number. -/
def toWord (n : Nat) : Word := BitVec.ofNat 16 n

/-- yes/no (Table 12-1). -/
def yesNo (b : Bool) : Nat := if b then 1 else 0

/-- Rights as Table 12-1 encodes them; an absent entry is NONE. -/
def rightsCode : Option Rights → Nat
  | none => 0
  | some .read => 1
  | some .readWrite => 2

/-- Region state (Table 12-1). -/
def RegionState.code : RegionState → Nat
  | .vacant => 0
  | .live => 1
  | .draining => 2
  | .scrubbing => 3

/-- Slot state (Table 12-1). -/
def Slot.code : Slot → Nat
  | .empty => 0
  | .bound _ _ _ => 1
  | .lapsed _ _ => 2

/-- Lapse cause (Table 12-1). -/
def LapseCause.code : LapseCause → Nat
  | .revoked => 1
  | .retired => 2
  | .ownerReset => 3

/-- Compaction ending (Table 12-1). -/
def Ending.code : Ending → Nat
  | .none => 0
  | .complete => 1
  | .halted => 2

/-- Compaction phase (Table 12-1). -/
def Phase.code : Phase → Nat
  | .scan => 0
  | .copy _ => 1
  | .clear _ _ _ _ => 2

/-- Fault cause (Table 12-1). -/
def FaultCause.code : FaultCause → Nat
  | .unmapped => 1
  | .emptySlot => 2
  | .lapsed => 3
  | .misaligned => 4
  | .bound => 5
  | .readOnly => 6

/-- Direction (Table 12-9). -/
def dirCode : Dir → Nat
  | .read => 0
  | .write => 1

/-- Size (Table 12-9). -/
def sizeCode : Size → Nat
  | .byte => 0
  | .word => 1

/-- The result codes of a taken command (Table 9-3). -/
inductive Code where
  | ok | badParam | notSupervisor | noRecord | noSpace | fragmented | quota | nameTaken | nameFull | notFound | stale
  | notOwner | notLive | noRight | slotBusy | slotEmpty | already | noCompaction
deriving DecidableEq, Repr

/-- The numeric value of a result code (Table 12-3). -/
def Code.word : Code → Word
  | .ok => 0x01
  | .badParam => 0x02
  | .notSupervisor => 0x03
  | .noRecord => 0x04
  | .noSpace => 0x05
  | .fragmented => 0x06
  | .quota => 0x07
  | .nameTaken => 0x08
  | .nameFull => 0x09
  | .notFound => 0x0A
  | .stale => 0x0B
  | .notOwner => 0x0C
  | .notLive => 0x0D
  | .noRight => 0x0E
  | .slotBusy => 0x0F
  | .slotEmpty => 0x10
  | .already => 0x11
  | .noCompaction => 0x12

/-- Parameter word `i` of a port's parameter block. -/
def State.param (s : State) (p : PortId) (i : Fin 6) : Word := (s.port p).unit.params[i.val]'i.isLt

/-- The slot named by a bank number and a slot number; none where either is out of range. -/
def slotNamed (bank slot : Nat) : Option SlotIndex :=
  if hb : bank < 4 then
    if hs : slot < 8 then some (slotIndex ⟨bank, hb⟩ ⟨slot, hs⟩) else none
  else none

/-- The slot a target word names: bits 7-0 slot, bits 15-8 bank, both bytes checked whole (Table 12-1, R189). -/
def targetSlot (w : Word) : Option SlotIndex := slotNamed (highByte w).toNat (lowByte w).toNat

/-- The rights value of OPEN: 1 READ, 2 READ_WRITE, nothing else (R61, R189). -/
def rightsWanted (w : Word) : Option Rights :=
  if w = 1 then some .read else if w = 2 then some .readWrite else none

/-- The rights value of GRANT: 0 NONE, 1 READ, 2 READ_WRITE, nothing else (R75, R189). -/
def rightsGiven (w : Word) : Option (Option Rights) :=
  if w = 0 then some none else if w = 1 then some (some .read) else if w = 2 then some (some .readWrite) else none

/-- Whether rights `have_` are at least `want`, in the order NONE, READ, READ_WRITE (R73). -/
def rightsCover (have_ : Option Rights) (want : Rights) : Bool := rightsCode (some want) ≤ rightsCode have_

/-- The port a parameter word names, read whole (R189). -/
def portNamed (w : Word) : Option PortId := PortId.ofNat? w.toNat

/-- A lookup in the name directory (R47). -/
def State.lookupName (s : State) (name : Word) : Option RegionId :=
  (s.directory.find? fun e => e.name = name).map fun e => e.region

/-- A region reference resolved (R12): by name where the name is not 0, else by number with a generation that is
compared where it is 255 or below. -/
def State.resolve (s : State) (name number generation : Word) : Except Code RegionId :=
  if name ≠ 0 then
    match s.lookupName name with
    | some r => .ok r
    | none => .error .notFound
  else if h : number.toNat < 128 then
    let x := s.region ⟨number.toNat, h⟩
    if x.state = .vacant then .error .notFound
    else if generation.toNat < 256 ∧ generation.toNat ≠ x.generation.toNat then .error .stale
    else .ok ⟨number.toNat, h⟩
  else .error .notFound

/-- The reference in PARAM0 to PARAM2 of a port, resolved (Table 12-6). -/
def State.resolveParams (s : State) (p : PortId) : Except Code RegionId :=
  s.resolve (s.param p 0) (s.param p 1) (s.param p 2)

/-- What a taken command leaves: the state it has changed and the words of its result block from RESULT0 on; the words
not given are 0 (R162). -/
structure Answer where
  state : State
  words : List Word

/-- The answer of a refused command: its code, every other word 0, nothing changed (R161, R162). -/
def refuse (s : State) (c : Code) : Answer := ⟨s, [c.word]⟩

/-- The answer of a command that acted: OK and the further values (R190). -/
def accept (s : State) (values : List Word) : Answer := ⟨s, Code.ok.word :: values⟩

/-- Six words of a result block, the words not given being 0 (R162). -/
def resultBlock (words : List Word) : Vector Word 6 := Vector.ofFn fun i => words.getD i.val 0

/-- The result block is written, the unit returns to IDLE, DONE is raised at the port, and the port becomes the one
taken last (R159, R161, R162, R165, R160). -/
def Answer.finish (a : Answer) (p : PortId) : State :=
  { a.state.modifyPort p fun q =>
      (q.withUnit fun u => { u with state := .idle, results := resultBlock a.words }).withEvents fun e => e.raise .done
    with lastPort := p, lastTaken := some .command }

end Sys2Proof.Machine
end

