-- ==== Sys2Proof/Machine/ControlWindow.lean ====
section
/-! DEFINITION. Reads and writes of the control window (R188, R191, Tables 12-4 to 12-10). -/

namespace Sys2Proof.Machine

/-- The six event positions of a value (Table 12-5). -/
def eventBits (w : Word) : BitVec 6 := w.extractLsb' 0 6

/-! ### Read values -/

/-- STATUS as read at port `p` (Table 12-8). -/
def State.statusWord (s : State) (p : PortId) : Word :=
  let held : PortId → Nat := fun x => yesNo ((s.port x).portState = .held)
  packFields
    [(0, 1, yesNo ((s.port p).unit.state = .pending)), (1, 1, yesNo (s.port p).unit.overrun), (2, 1, yesNo (p = .p0)),
     (8, 1, held .p0), (9, 1, held .p1), (10, 1, held .p2), (11, 1, held .p3)]

/-- FAULT_INFO of a fault record (Table 12-9). The positions that carry no field, bits 14-12, bit 11 in slot form and bits 7-6
in address form, read 0: DEDUCED from the two values of section 12.5, since section 12.2 does not list FAULT_INFO among the
registers whose other bits read 0 (log 20). -/
def FaultRecord.infoWord (f : FaultRecord) : Word :=
  let common := [(0, 3, f.cause.code), (3, 1, dirCode f.dir), (4, 1, sizeCode f.size), (15, 1, 1)]
  match f.place with
  | .slot bank slot _ => packFields (common ++ [(6, 2, bank.val), (8, 3, slot.val)])
  | .address a => packFields (common ++ [(5, 1, 1), (8, 4, a.toNat / 0x10000)])

/-- FAULT_OFFSET of a fault record: window offset, or address bits 15-0 (Table 12-4). -/
def FaultRecord.offsetWord (f : FaultRecord) : Word :=
  match f.place with
  | .slot _ _ offset => offset
  | .address a => a.extractLsb' 0 16

/-- SLOT_VIEW of a slot (Table 12-10, R69). -/
def Slot.viewWord (x : Slot) : Word :=
  match x with
  | .empty => 0
  | .bound r rights _ => packFields [(0, 7, r.val), (8, 2, x.code), (10, 2, rightsCode (some rights))]
  | .lapsed r cause => packFields [(0, 7, r.val), (8, 2, x.code), (12, 2, cause.code)]

/-- The value a register of port `p` shows (R188, Table 12-4). -/
def State.registerWord (s : State) (p : PortId) : Register → Word
  | .status => s.statusWord p
  | .events => (s.port p).events.flags.setWidth 16
  | .eventEnable => (s.port p).events.enables.setWidth 16
  | .bank => toWord (s.port p).bank.val
  | .command => (s.port p).unit.lastCode
  | .param i => (s.port p).unit.params[i.val]'i.isLt
  | .result i => (s.port p).unit.results[i.val]'i.isLt
  | .faultInfo => match (s.port p).events.fault with
    | some f => f.infoWord
    | none => 0
  | .faultOffset => match (s.port p).events.fault with
    | some f => f.offsetWord
    | none => 0
  | .faultCount => (s.port p).events.further.setWidth 16
  | .report0 => toWord (s.port p).events.report.regionsMoved
  | .report1 => toWord (s.port p).events.report.granulesMoved
  | .report2 => packFields [(0, 12, (s.port p).events.report.largestFree), (12, 2, (s.port p).events.report.ending.code)]
  | .slotView i => ((s.port p).slot i).viewWord
  | .unnamed => 0

/-- What a read of a register returns: the word, or the byte at the even or the odd offset (R188, R88). -/
def readRegister (w : Word) (size : Size) (high : Bool) : ReadData :=
  match size with
  | .word => .word w
  | .byte => .byte (if high then highByte w else lowByte w)

/-! ### Write effects -/

/-- The word a write leaves in a register that takes whole words and single bytes (R155, R88): `high` is whether the
address is odd. -/
def mergeWrite (old : Word) (size : Size) (high : Bool) (data : Word) : Word :=
  match size with
  | .word => data
  | .byte => if high then wordOf (lowByte old) (lowByte data) else wordOf (lowByte data) (highByte old)

/-- A write to the Command Unit is discarded while a command is PENDING: the overrun indication is set and OVERRUN is
raised (R157). -/
def Port.discardWrite (q : Port) : Port :=
  (q.withUnit fun u => { u with overrun := true }).withEvents fun e => e.raise .overrun

/-- A write to COMMAND at 08h: enters a command in IDLE, is discarded in PENDING (R156, R157). -/
def Port.writeCommand (q : Port) (code : Word) : Port :=
  match q.unit.state with
  | .idle => q.withUnit fun u => { u with state := .pending, lastCode := code, overrun := false }
  | .pending => q.discardWrite

/-- A write to PARAM0 to PARAM5: changes the block in IDLE, is discarded in PENDING (R155, R157). -/
def Port.writeParam (q : Port) (i : Fin 6) (size : Size) (high : Bool) (data : Word) : Port :=
  match q.unit.state with
  | .idle => q.withUnit fun u =>
      { u with params := u.params.set i.val (mergeWrite (u.params[i.val]'i.isLt) size high data) i.isLt }
  | .pending => q.discardWrite

/-- A write to BANK: the active bank becomes the low two bits; the high byte alone changes nothing (R55). -/
def Port.writeBank (q : Port) (high : Bool) (data : Word) : Port :=
  if high then q else { q with bank := (data.extractLsb' 0 2).toFin }

/-- The effect of a write on a register of the port (Table 12-4). `high` is whether the address is odd, which for an
aligned write is a byte write of the high byte. All event positions lie in the low byte, and lines 15-8 of a byte write
have no effect (R88, R188). -/
def Port.writeRegister (q : Port) (r : Register) (size : Size) (high : Bool) (data : Word) : Port :=
  match r with
  | .events => if high then q else q.withEvents fun e => e.clearFlags (eventBits data)
  | .eventEnable => if high then q else q.withEvents fun e => e.setEnables (eventBits data)
  | .bank => q.writeBank high data
  | .command => if high then q else q.writeCommand (mergeWrite 0 size false data)
  | .param i => q.writeParam i size high data
  | .status | .result _ | .faultInfo | .faultOffset | .faultCount | .report0 | .report1 | .report2 | .slotView _
  | .unnamed => q

end Sys2Proof.Machine
end

