-- ==== Sys2Proof/Machine/DataAccess.lean ====
section
/-! DEFINITION. Accesses at a port: the data window with its ordered checks and routing (Chapter 6), faulted accesses,
and the rows whose events are accesses. -/

namespace Sys2Proof.Machine

/-! ### Responses and faults -/

/-- The response of a served write, or of a write answered OK (R100). -/
def Response.okWrite : Response := ⟨true, none⟩

/-- The response of a read answered OK (R100). -/
def Response.okRead (d : ReadData) : Response := ⟨true, some d⟩

/-- The response of a faulted access: ERROR, and on a read the fill value FFh or FFFFh (R100). -/
def Response.error (a : Access) : Response :=
  match a.dir, a.size with
  | .write, _ => ⟨false, none⟩
  | .read, .byte => ⟨false, some (.byte 0xFF)⟩
  | .read, .word => ⟨false, some (.word 0xFFFF)⟩

/-- A faulted access: the fault record and FAULT, and the response ERROR; nothing else (R100, R101, R102, R104). -/
def State.faultAccess (s : State) (p : PortId) (a : Access) (cause : FaultCause) (place : FaultPlace) : State :=
  (s.modifyPort p fun q => q.withEvents fun e => e.recordFault ⟨cause, a.dir, a.size, place⟩).respond p
    (Response.error a)

/-! ### The data window -/

/-- The slot a data-window access names, in the active bank (R56). -/
def Port.addressedSlot (q : Port) (a : Access) : Slot := q.slot (slotIndex q.bank a.slotNumber)

/-- The ordered checks of R91: the first that fails gives the cause; an access that passes all five reaches a region at an
effective offset, origin plus window offset (R96). -/
def State.checkAccess (s : State) (p : PortId) (a : Access) : Except FaultCause (RegionId × Nat) :=
  match (s.port p).addressedSlot a with
  | .empty => .error .emptySlot
  | .lapsed _ _ => .error .lapsed
  | .bound r rights origin =>
    let e := origin.toNat + a.windowOffset.toNat
    if a.size = .word ∧ a.odd then .error .misaligned
    else if (s.region r).length * Config.granuleBytes ≤ e + a.size.bytes - 1 then .error .bound
    else if a.dir = .write ∧ rights = .read then .error .readOnly
    else .ok (r, e)

/-- The array byte that effective offset `x` of a region reaches: split at the copy cursor where the record carries a
move record, else from the base (R96, R97). -/
def Region.locate (y : Region) (x : Nat) : Nat :=
  match y.move with
  | some m =>
    if x / Config.granuleBytes < m.cursor then m.dest * Config.granuleBytes + x else y.base * Config.granuleBytes + x
  | none => y.base * Config.granuleBytes + x

/-- A served access of region record `y` at effective offset `e`: the bytes are read, or written, in one event, each at
its own location (R87, R88, R97, R99). -/
def State.serve (s : State) (p : PortId) (a : Access) (y : Region) (e : Nat) : State :=
  let t := { s with lastServed := .port p }
  match a.dir, a.size with
  | .read, .byte => t.respond p (.okRead (.byte (s.byteAt (y.locate e))))
  | .read, .word =>
    t.respond p (.okRead (.word (wordOf (s.byteAt (y.locate e)) (s.byteAt (y.locate (e + 1))))))
  | .write, .byte => { t with array := s.array.write (y.locate e) (lowByte a.data) }.respond p .okWrite
  | .write, .word =>
    { t with array := (s.array.write (y.locate e) (lowByte a.data)).write (y.locate (e + 1)) (highByte a.data) }.respond p
      .okWrite

/-- The greatest array byte a served access reaches. -/
def Region.lastByte (y : Region) (a : Access) (e : Nat) : Nat := max (y.locate e) (y.locate (e + a.size.bytes - 1))

/-- The slot form of a fault place: the active bank, the slot and the window offset (R101). -/
def Port.faultSlot (q : Port) (a : Access) : FaultPlace := .slot q.bank a.slotNumber a.windowOffset

/-- A data-window access that its port presents: faulted by the first failing check, or served when the arbiter gives it
the array (R91, R86). Before its turn it waits, with the claims that have arrived beside it, and nothing of it has been
decided. A faulted access does not wait for the array. -/
def State.dataAccess (s : State) (p : PortId) (a : Access) (arrivals : List Claim) :
    Host.Outcome State Fault Refusal :=
  match s.checkAccess p a with
  | .error cause => .next (s.faultAccess p a cause ((s.port p).faultSlot a))
  | .ok (r, e) =>
    let t := s.arriveAll (.port p a :: arrivals)
    if t.serves (.port p) then
      if (s.region r).lastByte a e < Config.arrayBytes then .next (t.serve p a (s.region r) e)
      else .fault (.outsideArray ((s.region r).lastByte a e))
    else .next t

/-! ### One access at a port -/

/-- A control-window access that is answered OK: a read shows the register, a write has the register's effect (R90,
R188). -/
def State.controlAccess (s : State) (p : PortId) (a : Access) (r : Register) (high : Bool) : State :=
  match a.dir with
  | .read => s.respond p (.okRead (readRegister (s.registerWord p r) a.size high))
  | .write => (s.modifyPort p fun q => q.writeRegister r a.size high a.data).respond p .okWrite

/-- One access of port `p`: discarded where the port is HELD (R169), not presented while another access of the port waits
(R85, log 2), else taken as its address says (R85, R89, R90). The row that names the access is a label only (DESIGN CHOICE,
log 10). -/
def State.access (s : State) (p : PortId) (a : Access) (arrivals : List Claim) : Host.Outcome State Fault Refusal :=
  if s.presents p a then
    match a.target with
    | .dataWindow => s.dataAccess p a arrivals
    | .register r high => .next (s.controlAccess p a r high)
    | .controlMisaligned => .next (s.faultAccess p a .misaligned (.address a.addr))
    | .unmapped => .next (s.faultAccess p a .unmapped (.address a.addr))
  else .next s

/-! ### The rows -/

/-- HELD_ACCESS_DISCARD (R169). -/
def execHeldAccessDiscard (p : PortId) (a : Access) (s : State) : Host.Outcome State Fault Refusal := s.access p a []

/-- DATA_ACCESS (R91). -/
def execDataAccess (p : PortId) (a : Access) (arrivals : List Claim) (s : State) : Host.Outcome State Fault Refusal :=
  s.access p a arrivals

/-- UNMAPPED_ACCESS (R89). -/
def execUnmappedAccess (p : PortId) (a : Access) (s : State) : Host.Outcome State Fault Refusal := s.access p a []

/-- COMMAND_WRITE (R156). -/
def execCommandWrite (p : PortId) (a : Access) (s : State) : Host.Outcome State Fault Refusal := s.access p a []

/-- PARAM_WRITE (R155). -/
def execParamWrite (p : PortId) (a : Access) (s : State) : Host.Outcome State Fault Refusal := s.access p a []

/-- BANK_WRITE (R55). -/
def execBankWrite (p : PortId) (a : Access) (s : State) : Host.Outcome State Fault Refusal := s.access p a []

/-- EVENTS_WRITE (R177). -/
def execEventsWrite (p : PortId) (a : Access) (s : State) : Host.Outcome State Fault Refusal := s.access p a []

/-- EVENT_ENABLE_WRITE (R176). -/
def execEventEnableWrite (p : PortId) (a : Access) (s : State) : Host.Outcome State Fault Refusal := s.access p a []

/-- IGNORED_WRITE (R188). -/
def execIgnoredWrite (p : PortId) (a : Access) (s : State) : Host.Outcome State Fault Refusal := s.access p a []

/-- CONTROL_MISALIGNED_READ (R90). -/
def execControlMisalignedRead (p : PortId) (a : Access) (s : State) : Host.Outcome State Fault Refusal := s.access p a []

end Sys2Proof.Machine
end

