-- ==== Sys2Proof/Machine/FreeSpace.lean ====
section
/-! DEFINITION. The free-extent list: coalescing insertion, first-fit placement, the space test and the space watches
(Chapter 2). -/

namespace Sys2Proof.Machine

/-- Coalescing insertion of extent `e` (R29, Table 2-2): the new list and the extent formed. The lower neighbour is the
last entry below `e`, the upper neighbour the first one above it. -/
def insertExtent (l : List Extent) (e : Extent) : List Extent × Extent :=
  let below := l.takeWhile fun x => x.base < e.base
  let above := l.dropWhile fun x => x.base < e.base
  let low : List Extent × Extent :=
    match below.getLast? with
    | some x => if x.stop = e.base then (below.dropLast, ⟨x.base, x.length + e.length⟩) else (below, e)
    | none => (below, e)
  let high : List Extent × Extent :=
    match above with
    | y :: t => if e.stop = y.base then (t, ⟨low.2.base, low.2.length + y.length⟩) else (above, low.2)
    | [] => (above, low.2)
  (low.1 ++ high.2 :: high.1, high.2)

/-- A port's space watch is tested against a formed extent of `n` granules: a watch of at most `n` raises SPACE and is
removed (R39). -/
def Port.testWatch (q : Port) (n : Nat) : Port :=
  match q.watch with
  | some w => if w ≤ n then { q.withEvents (fun e => e.raise .space) with watch := none } else q
  | none => q

/-- Extent `e`, clean in every granule, joins the free-extent list, and the watches of the four ports are tested against
the extent formed (R29, R30, R39). -/
def State.returnExtent (s : State) (e : Extent) : State :=
  let r := insertExtent s.freeList e
  { s with freeList := r.1 }.mapPorts fun _ q => q.testWatch r.2.length

/-- First fit for `n` granules: the base of the lowest extent that is long enough, and the list without its lowest `n`
granules; none where no extent is long enough (R31). -/
def firstFit : List Extent → Nat → Option (Nat × List Extent)
  | [], _ => none
  | x :: t, n =>
    if n ≤ x.length then
      some (x.base, if x.length = n then t else ⟨x.base + n, x.length - n⟩ :: t)
    else (firstFit t n).map fun r => (r.1, x :: r.2)

/-- The sum of the lengths of the free extents, T of R33. -/
def totalFree (l : List Extent) : Nat := (l.map fun x => x.length).sum

/-- The largest free extent, 0 for an empty list (R41), M of R33. -/
def largestFree (l : List Extent) : Nat := (l.map fun x => x.length).foldr max 0

/-- The free extent with the lowest base at or above `point` (R135, step 2). -/
def nextFree (l : List Extent) (point : Nat) : Option Extent := l.find? fun x => point ≤ x.base

end Sys2Proof.Machine
end

