-- ==== Sys2Proof/Machine/Engine.lean ====
section
/-! DEFINITION. The Granule Engine's job set: making, queue, choice, preemption, scrub jobs (Chapter 7), and the turn a
completion takes at the Table Controller (R160). -/

namespace Sys2Proof.Machine

/-! ### The job set -/

/-- Whether job `j` stands before job `k` in the queue: more urgent, or of the same level and made earlier (R112). -/
def Job.before (j k : Job) : Bool := j.level < k.level ∨ (j.level = k.level ∧ j.order < k.order)

/-- Job `j` put at its place in the queue (R112). -/
def queueJob (j : Job) : List Job → List Job
  | [] => [j]
  | k :: t => if j.before k then j :: k :: t else k :: queueJob j t

/-- A job is made: it takes the next making order and joins the queue (R110, R112). -/
def Engine.make (e : Engine) (level : Level) (work : Work) : Engine :=
  { e with queue := queueJob ⟨level, e.nextOrder, work⟩ e.queue, nextOrder := e.nextOrder + 1 }

/-- An engine without a running job chooses: the more urgent of queue head and stack top, the stack top on a tie, what
there is where one is missing, idle where both are (R114). -/
def Engine.choose (e : Engine) : Engine :=
  match e.running with
  | some _ => e
  | none =>
    match e.queue, e.stack with
    | [], [] => e
    | q :: qs, [] => { e with running := some q, queue := qs }
    | [], t :: ts => { e with running := some t, stack := ts }
    | q :: qs, t :: ts =>
      if q.level < t.level then { e with running := some q, queue := qs }
      else { e with running := some t, stack := ts }

/-- A step boundary: a strictly more urgent queue head suspends the running job onto the stack and runs (R117; DEDUCED,
log 12). -/
def Engine.boundary (e : Engine) : Engine :=
  match e.running, e.queue with
  | some j, q :: qs =>
    if q.level < j.level then { e with running := some q, stack := j :: e.stack, queue := qs } else e
  | _, _ => e

/-- The jobs of the set: running, suspended, queued (R111). -/
def Engine.jobs (e : Engine) : List Job := e.running.toList ++ e.stack ++ e.queue

/-- The compaction state of a job, where it is the COMPACTION job. -/
def Job.compaction? (j : Job) : Option Compaction :=
  match j.work with
  | .compaction c => some c
  | .scrub _ _ _ => none

/-- The compaction state in the job set, in whatever place its job stands (R127). -/
def Engine.compaction? (e : Engine) : Option Compaction := e.jobs.findSome? Job.compaction?

/-- A job with its compaction state changed by `f`; a scrub job stays. -/
def Job.withCompaction (f : Compaction → Compaction) (j : Job) : Job :=
  match j.work with
  | .compaction c => { j with work := .compaction (f c) }
  | .scrub _ _ _ => j

/-- The compaction state in the job set changed by `f`, the job's place and level kept (R128). -/
def Engine.withCompaction (e : Engine) (f : Compaction → Compaction) : Engine :=
  { e with
    running := e.running.map (Job.withCompaction f)
    stack := e.stack.map (Job.withCompaction f)
    queue := e.queue.map (Job.withCompaction f) }

/-- The engine changed by `f`. -/
def State.withEngine (s : State) (f : Engine → Engine) : State := { s with engine := f s.engine }

/-! ### A region enters SCRUBBING (R8) -/

/-- The compaction job's current move is abandoned: back to SCAN at the destination base `dest` (R142). -/
def Compaction.abandon (dest : Nat) (c : Compaction) : Compaction := { c with phase := .scan, scanPoint := dest }

/-- The extent of a record entering SCRUBBING: its own, or after the abort of a move the span from the destination base
to the end of the old extent (R9). -/
def Region.scrubSpan (x : Region) : Extent :=
  match x.move with
  | some m => ⟨m.dest, x.base + x.length - m.dest⟩
  | none => ⟨x.base, x.length⟩

/-- A record in SCRUBBING over `span`: name absent, grant list empty, no move record; owner, generation and the binding
count, which the cause has brought to 0, are kept (R3, R8, R9). -/
def Region.toScrubbing (x : Region) : Region :=
  { x with state := .scrubbing, base := x.scrubSpan.base, length := x.scrubSpan.length, name := none,
           grants := ⟨none, none, none, none⟩, move := none }

/-- The directory without the entry of a record's name (R46). -/
def dropName (l : List DirEntry) : Option Word → List DirEntry
  | some n => l.filter fun e => e.name ≠ n
  | none => l

/-- The engine's claim is withdrawn where its running job no longer calls for a granule step (R142). -/
def State.settleStep (s : State) : State :=
  { s with waits := { s.waits with step := s.waits.step && s.granuleNext } }

/-- Region `r` enters SCRUBBING with a REGION_SCRUB job of `level`: the owner's holdings fall by the length before any
abort, the name leaves the directory, the grant list is emptied, a move is aborted, a copy step of it that waits is
withdrawn, and the job is made (R8, R9, R142).
The cause has already lapsed or unbound every slot naming `r`. The engine's choice is left to the end of the event
(R114). -/
def State.enterScrubbing (s : State) (r : RegionId) (level : Level) : State :=
  let x := s.region r
  let e := match x.move with
    | some m => s.engine.withCompaction (Compaction.abandon m.dest)
    | none => s.engine
  State.settleStep
    { (s.modifyPort x.owner fun q => { q with holdings := q.holdings - x.length }).setRegion r x.toScrubbing with
      directory := dropName s.directory x.name
      engine := e.make level (.scrub (.region r) x.scrubSpan 0) }

/-! ### Turns at the Table Controller (R160) -/

/-- Whether a completion of the Granule Engine waits: the running job's next step is an action at the Table Controller,
that is, a scrub job with no step left (R123), or a compaction job at a round test, a COPY end or a CLEAR end (R115). -/
def State.completionWaits (s : State) : Bool :=
  match s.engine.running with
  | some ⟨_, _, .scrub _ span cursor⟩ => span.length ≤ cursor
  | some ⟨_, _, .compaction c⟩ =>
    match c.phase with
    | .scan => true
    | .copy m =>
      match (s.region m.subject).move with
      | some mv => m.length ≤ mv.cursor
      | none => false
    | .clear _ _ dirty cursor => dirty.length ≤ cursor
  | none => false

/-- Whether a completion may be taken: not when one was taken last of the two kinds and a command waits (R160). -/
def State.completionTurn (s : State) : Bool :=
  ¬ (s.nextTake.isSome ∧ s.lastTaken = some .completion)

/-- Whether a command may be taken: not when one was taken last of the two kinds and a completion waits (R160). -/
def State.commandTurn (s : State) : Bool :=
  ¬ (s.completionWaits ∧ s.lastTaken = some .command)

/-- A completion has been taken (R160). -/
def State.noteCompletion (s : State) : State := { s with lastTaken := some .completion }

/-! ### Scrub jobs (R120, R123 to R125) -/

/-- A scrub step: the granule at span base plus cursor is cleared and the cursor rises by one; a step boundary follows
unless no step is left (R120, R115, R123). Before its turn at the Array Arbiter it waits (R86). -/
def execScrubStep (arrivals : List Claim) (s : State) : Host.Outcome State Fault Refusal :=
  match s.engine.running with
  | some ⟨level, order, .scrub target span cursor⟩ =>
    if cursor < span.length then
      let t := s.arriveAll (.engine :: arrivals)
      if t.serves .engine then
        if span.base + cursor < Config.granules then
          let e := { s.engine with running := some ⟨level, order, .scrub target span (cursor + 1)⟩ }
          .next { t with
            array := s.array.clearGranule (span.base + cursor)
            lastServed := .engine, waits := t.waits.drop .engine
            engine := if cursor + 1 < span.length then e.boundary else e }
        else .fault (.outsideArray (Config.granuleBytes * (span.base + cursor)))
      else .next t
    else .next s
  | _ => .next s

/-- The running job leaves the set, and the engine chooses its next job in the same event (R114, R123). -/
def State.endRunning (s : State) : State := s.withEngine fun e => { e with running := none }.choose

/-- The end of a REGION_SCRUB job: the record becomes VACANT, its extent joins the free-extent list, the engine chooses
(R10, R124, R30; the extent is the record's, DEDUCED, log 15). -/
def execRegionScrubEnd (s : State) : Host.Outcome State Fault Refusal :=
  match s.engine.running with
  | some ⟨_, _, .scrub (.region r) span cursor⟩ =>
    if span.length ≤ cursor ∧ s.completionTurn then
      let x := s.region r
      .next ((s.setRegion r (Region.cleared x.generation)).returnExtent ⟨x.base, x.length⟩).noteCompletion.endRunning
    else .next s
  | _ => .next s

/-- The end of a BOOT_SCRUB job: its boot extent joins the free-extent list, the engine chooses (R36, R125). -/
def execBootScrubEnd (s : State) : Host.Outcome State Fault Refusal :=
  match s.engine.running with
  | some ⟨_, _, .scrub (.boot _) span cursor⟩ =>
    if span.length ≤ cursor ∧ s.completionTurn then .next (s.returnExtent span).noteCompletion.endRunning
    else .next s
  | _ => .next s

end Sys2Proof.Machine
end

