-- ==== Sys2Proof/Machine/Compaction.lean ====
section
/-! DEFINITION. The compaction job's actions: round test, copy steps, end of COPY, clear steps, end of CLEAR
(Chapter 8). The commands COMPACT and HALT stand in Commands.lean. -/

namespace Sys2Proof.Machine

/-- The running COMPACTION job's state becomes `c`. -/
def Engine.setRunning (e : Engine) (level : Level) (order : Nat) (c : Compaction) : Engine :=
  { e with running := some ⟨level, order, .compaction c⟩ }

/-- The region that stands at granule `g`: a record in LIVE, DRAINING or SCRUBBING whose base is `g` (R135, step 3). -/
def State.regionAt (s : State) (g : Nat) : Option RegionId :=
  (List.finRange 128).find? fun r => (s.region r).state ≠ .vacant ∧ (s.region r).base = g

/-- Whether a move of a record may start: LIVE, not FIXED, without a move record (R135, step 4). -/
def Region.mayMove (x : Region) : Bool := x.state = .live ∧ x.fixed = false ∧ x.move = none

/-- The compaction job ends: the issuer, if present, gets its report and COMPACT_END, and the job leaves the set
(R148, R149). -/
def State.endCompaction (s : State) (c : Compaction) (ending : Ending) : State :=
  let t := match c.issuer with
    | some p => s.modifyPort p fun q => q.withEvents fun e =>
        { e.raise .compactEnd with
          report := { regionsMoved := c.regionsMoved, granulesMoved := c.granulesMoved,
                      largestFree := largestFree s.freeList, ending := ending } }
    | none => s
  t.endRunning

/-- A move of region `r` into free extent `f` starts: `f` leaves the list whole as the reservation, `r` gets a move record
with cursor 0, and the job enters COPY (R137, R32). -/
def State.startMove (s : State) (level : Level) (order : Nat) (c : Compaction) (f : Extent) (r : RegionId) : State :=
  let x := s.region r
  { s.setRegion r { x with move := some ⟨f.base, 0⟩ } with
    freeList := s.freeList.filter fun y => y ≠ f
    engine := (s.engine.setRunning level order { c with phase := .copy ⟨r, f, x.base, x.length⟩ }).boundary }

/-- A free extent is passed by: the scan point becomes its end (R135, step 5; R136). -/
def State.passBy (s : State) (level : Level) (order : Nat) (c : Compaction) (f : Extent) : State :=
  { s with engine := (s.engine.setRunning level order { c with scanPoint := f.stop }).boundary }

/-- What a round test does with the free-extent list and the region table as they stand (R135). -/
def State.roundTest (s : State) (level : Level) (order : Nat) (c : Compaction) : State :=
  if c.halt then s.endCompaction c .halted
  else
    match nextFree s.freeList c.scanPoint with
    | none => s.endCompaction c .complete
    | some f =>
      match s.regionAt f.stop with
      | some r => if (s.region r).mayMove then s.startMove level order c f r else s.passBy level order c f
      | none => s.passBy level order c f

/-- ROUND_TEST: an action of the running compaction job in SCAN phase, taken at the Table Controller (R135, R160). -/
def execRoundTest (s : State) : Host.Outcome State Fault Refusal :=
  match s.engine.running with
  | some ⟨level, order, .compaction c⟩ =>
    if c.phase = .scan ∧ s.completionTurn then .next (s.roundTest level order c).noteCompletion else .next s
  | _ => .next s

/-- COPY_STEP: the granule of the subject at the copy cursor is copied from source to destination and the cursor rises by
one, one event at the array; a step boundary follows (R138, R127). Before its turn at the Array Arbiter it waits (R86). -/
def execCopyStep (arrivals : List Claim) (s : State) : Host.Outcome State Fault Refusal :=
  match s.engine.running with
  | some ⟨_, _, .compaction ⟨_, _, _, .copy m, _, _⟩⟩ =>
    match (s.region m.subject).move with
    | some mv =>
      if mv.cursor < m.length then
        let t := s.arriveAll (.engine :: arrivals)
        if t.serves .engine then
          if m.source + mv.cursor < Config.granules ∧ m.extent.base + mv.cursor < Config.granules then
            .next ({ t.modifyRegion m.subject fun x => { x with move := some { mv with cursor := mv.cursor + 1 } } with
              array := s.array.copyGranule (m.source + mv.cursor) (m.extent.base + mv.cursor)
              lastServed := .engine, waits := t.waits.drop .engine }.withEngine Engine.boundary)
          else .fault (.outsideArray (Config.granuleBytes * (max m.source m.extent.base + mv.cursor)))
        else .next t
      else .next s
    | none => .next s
  | _ => .next s

/-- The vacated span of a move: from the subject's new end to its old end (R139). -/
def Move.vacated (m : Move) : Extent := ⟨m.extent.base + m.length, m.extent.length⟩

/-- The dirty part of the vacated span: the granules of it that lay in the subject's old extent (R139). -/
def Move.dirty (m : Move) : Extent :=
  let low := max (m.extent.base + m.length) m.source
  ⟨low, m.source + m.length - low⟩

/-- COPY_END: the subject's base becomes the destination base, its move record is removed, and the job enters CLEAR over
the vacated span (R139). -/
def execCopyEnd (s : State) : Host.Outcome State Fault Refusal :=
  match s.engine.running with
  | some ⟨level, order, .compaction c⟩ =>
    match c.phase with
    | .copy m =>
      match (s.region m.subject).move with
      | some mv =>
        if m.length ≤ mv.cursor ∧ s.completionTurn then
          .next ((s.modifyRegion m.subject fun x => { x with base := mv.dest, move := none }).withEngine fun e =>
            (e.setRunning level order { c with phase := .clear m m.vacated m.dirty 0 }).boundary).noteCompletion
        else .next s
      | none => .next s
    | _ => .next s
  | _ => .next s

/-- CLEAR_STEP: 00h into the granule at dirty part base plus clear cursor, and the cursor rises by one, one event at the
array; a step boundary follows (R140). Before its turn at the Array Arbiter it waits (R86). -/
def execClearStep (arrivals : List Claim) (s : State) : Host.Outcome State Fault Refusal :=
  match s.engine.running with
  | some ⟨level, order, .compaction c⟩ =>
    match c.phase with
    | .clear m vacated dirty cursor =>
      if cursor < dirty.length then
        let t := s.arriveAll (.engine :: arrivals)
        if t.serves .engine then
          if dirty.base + cursor < Config.granules then
            .next { t with
              array := s.array.clearGranule (dirty.base + cursor)
              lastServed := .engine, waits := t.waits.drop .engine
              engine := (s.engine.setRunning level order
                { c with phase := .clear m vacated dirty (cursor + 1) }).boundary }
          else .fault (.outsideArray (Config.granuleBytes * (dirty.base + cursor)))
        else .next t
      else .next s
    | _ => .next s
  | _ => .next s

/-- The compaction state after a move that CLEAR has ended: counted up to the limits, scan point at the subject's new
base, back to SCAN (R141, R149). -/
def Compaction.countMove (c : Compaction) (m : Move) : Compaction :=
  { c with phase := .scan, scanPoint := m.extent.base,
           regionsMoved := min (c.regionsMoved + 1) Config.maxMoved,
           granulesMoved := min (c.granulesMoved + m.length) Config.maxGranulesMoved }

/-- CLEAR_END: the vacated span joins the free-extent list, the move is counted, and the job returns to SCAN (R141). -/
def execClearEnd (s : State) : Host.Outcome State Fault Refusal :=
  match s.engine.running with
  | some ⟨level, order, .compaction c⟩ =>
    match c.phase with
    | .clear m vacated dirty cursor =>
      if dirty.length ≤ cursor ∧ s.completionTurn then
        .next ((s.returnExtent vacated).withEngine fun e =>
          (e.setRunning level order (c.countMove m)).boundary).noteCompletion
      else .next s
    | _ => .next s
  | _ => .next s

end Sys2Proof.Machine
end

