-- ==== Sys2Proof/Machine/Commands.lean ====
section
/-! DEFINITION. Taking a command (Chapter 9), and the commands COMPACT, HALT and unknown codes. -/

namespace Sys2Proof.Machine

/-- Whether the Table Controller may now take port `p`'s command as one whose code satisfies `code`: `p` is the next
PENDING port in the rotation (R159), commands have the turn (R160), and the last code is of the kind (R161, R164). -/
def State.mayTake (s : State) (p : PortId) (code : Word → Bool) : Bool :=
  s.nextTake = some p ∧ s.commandTurn ∧ code (s.port p).unit.lastCode

/-- One take event: the command's body acts on the state, then the result is written, the unit returns to IDLE and DONE
is raised (R161). Where the take cannot be made now, nothing changes (DESIGN CHOICE, log 2). -/
def State.takeCommand (s : State) (p : PortId) (code : Word → Bool) (body : State → PortId → Answer) :
    Host.Outcome State Fault Refusal :=
  if s.mayTake p code then .next ((body s p).finish p) else .next s

/-- A code that names no command: every value but 0001h to 000Ah (R164). -/
def unknownCode (w : Word) : Bool := w.toNat = 0 ∨ 10 < w.toNat

/-- COMPACT: ALREADY where a compaction job exists, whatever its place; else the job is made at the issuing port's level
and the engine chooses if it was idle (R133). -/
def compactBody (s : State) (p : PortId) : Answer :=
  match s.engine.compaction? with
  | some _ => refuse s .already
  | none =>
    let level := (s.port p).level
    let c : Compaction :=
      { issuer := some p, halt := false, scanPoint := 0, phase := .scan, regionsMoved := 0, granulesMoved := 0 }
    accept (s.withEngine fun e => (e.make level (.compaction c)).choose) [toWord level.val]

/-- The subject a HALT reports: the region number, or 0 in SCAN (R144). -/
def Phase.subjectNumber : Phase → Nat
  | .scan => 0
  | .copy m => m.subject.val
  | .clear m _ _ _ => m.subject.val

/-- HALT: admitted at the issuer and at P0; sets the halt request (R144). -/
def haltBody (s : State) (p : PortId) : Answer :=
  match s.engine.compaction? with
  | none => refuse s .noCompaction
  | some c =>
    if c.issuer ≠ some p ∧ p ≠ .p0 then refuse s .notOwner
    else
      accept (s.withEngine fun e => e.withCompaction fun c => { c with halt := true })
        [toWord c.phase.code, toWord c.phase.subjectNumber, toWord (yesNo c.halt)]

/-- An unknown code: BAD_PARAM, nothing else changed (R164). -/
def unknownBody (s : State) (_ : PortId) : Answer := refuse s .badParam

/-- The take of COMPACT (R133). -/
def execTakeCompact (p : PortId) (s : State) : Host.Outcome State Fault Refusal :=
  s.takeCommand p (fun w => w = 0x0007) compactBody

/-- The take of HALT (R144). -/
def execTakeHalt (p : PortId) (s : State) : Host.Outcome State Fault Refusal :=
  s.takeCommand p (fun w => w = 0x0008) haltBody

/-- The take of a command with an unknown code (R164). -/
def execTakeUnknown (p : PortId) (s : State) : Host.Outcome State Fault Refusal :=
  s.takeCommand p unknownCode unknownBody

end Sys2Proof.Machine
end

