-- ==== Sys2Proof/Machine/Ports.lean ====
section
/-! DEFINITION. The commands SET_PORT and RESET_PORT, the port reset, the reset inputs and the device reset
(Chapter 10). -/

namespace Sys2Proof.Machine

/-! ### SET_PORT -/

/-- The level a parameter word names, read whole (R172, R189). -/
def levelNamed (w : Word) : Option Level := if h : w.toNat < 4 then some ⟨w.toNat, h⟩ else none

/-- SET_PORT: the checks of R172 in order, then R173. -/
def setPortBody (s : State) (p : PortId) : Answer :=
  if p ≠ .p0 then refuse s .notSupervisor
  else
    match portNamed (s.param p 0), levelNamed (s.param p 1) with
    | some x, some level =>
      let quota := (s.param p 2).toNat
      if Config.maxQuota < quota then refuse s .badParam
      else
        let q := s.port x
        accept (s.modifyPort x fun q => { q with level := level, quota := quota })
          [toWord x.toNat, toWord q.level.val, toWord q.quota, toWord (yesNo (quota < q.holdings))]
    | _, _ => refuse s .badParam

/-- The take of SET_PORT (R173). -/
def execTakeSetPort (p : PortId) (s : State) : Host.Outcome State Fault Refusal :=
  s.takeCommand p (fun w => w = 0x0009) setPortBody

/-! ### The port reset (R179) -/

/-- The DRAINING regions whose last bindings are those of port `x`, in ascending order: the ones step 2 drains (R68,
R110). -/
def State.drainedBy (s : State) (x : PortId) : List RegionId :=
  (List.finRange 128).filter fun r =>
    (s.region r).state = .draining ∧ 0 < (s.port x).boundCount r ∧ (s.region r).bindings ≤ (s.port x).boundCount r

/-- The regions of port `x` in LIVE or DRAINING, in ascending order (R179, step 3). -/
def State.ownedBy (s : State) (x : PortId) : List RegionId :=
  (List.finRange 128).filter fun r => (s.region r).owner = x ∧ (s.region r).state.inUse

/-- Step 1: the Command Unit takes its reset value, a PENDING command with it (R166, R154). -/
def State.resetUnit (s : State) (x : PortId) : State := s.modifyPort x fun q => { q with unit := CommandUnit.reset }

/-- Step 2: every slot of `x` becomes EMPTY and bank 0 active, each binding count falls by the slots that were BOUND,
and the DRAINING regions this drains enter SCRUBBING at `x`'s level (R68). -/
def State.unbindPort (s : State) (x : PortId) : State :=
  let t := (s.mapRegions fun r y => { y with bindings := y.bindings - (s.port x).boundCount r }).modifyPort x fun q =>
    { q with slots := Vector.replicate 32 .empty, bank := 0 }
  (s.drainedBy x).foldl (fun t r => t.enterScrubbing r (s.port x).level) t

/-- Step 3: every region `x` still owns in LIVE or DRAINING has its bindings lapsed with cause OWNER_RESET and enters
SCRUBBING at `x`'s level (R7). -/
def State.retireOwned (s : State) (x : PortId) : State :=
  (s.ownedBy x).foldl (fun t r => (t.lapseAll r .ownerReset).enterScrubbing r (s.port x).level) s

/-- Step 4: `x`'s entry leaves every grant list (R72). -/
def State.dropGrants (s : State) (x : PortId) : State :=
  s.mapRegions fun _ y => { y with grants := y.grants.set x none }

/-- Steps 5 and 6: the space watch is removed and the Event Block takes its reset value (R37, R175, R103, R149). -/
def State.resetEvents (s : State) (x : PortId) : State :=
  s.modifyPort x fun q => { q with watch := none, events := EventBlock.reset }

/-- The compaction state after a reset of its issuer: halt requested, no issuer (R146). -/
def Compaction.loseIssuer (x : PortId) (c : Compaction) : Compaction :=
  if c.issuer = some x then { c with issuer := none, halt := true } else c

/-- Step 7 (R146). -/
def State.resetIssuer (s : State) (x : PortId) : State :=
  s.withEngine fun e => e.withCompaction (Compaction.loseIssuer x)

/-- The port reset of `x`: the seven steps in order, then the engine's choice if it was idle (R179, R114). -/
def State.portReset (s : State) (x : PortId) : State :=
  ((((((s.resetUnit x).unbindPort x).retireOwned x).dropGrants x).resetEvents x).resetIssuer x).withEngine Engine.choose

/-- The number of BOUND slots of a port. -/
def Port.bindings (q : Port) : Nat := q.slots.toList.countP Slot.isBound

/-- RESET_PORT: the checks of R181 in order, then the port reset of the named port and its figures: whether a command was
abandoned, slots emptied in step 2, regions sent to SCRUBBING in steps 2 and 3, other ports' slots lapsed in step 3. -/
def resetPortBody (s : State) (p : PortId) : Answer :=
  if p ≠ .p0 then refuse s .notSupervisor
  else
    match portNamed (s.param p 0) with
    | none => refuse s .badParam
    | some x =>
      if x = .p0 then refuse s .badParam
      else
        let q := s.port x
        let t := (s.resetUnit x).unbindPort x
        let owned := t.ownedBy x
        accept (s.portReset x)
          [toWord x.toNat, toWord (yesNo (q.unit.state = .pending)), toWord q.bindings,
           toWord ((s.drainedBy x).length + owned.length), toWord (owned.map fun r => t.boundCount r).sum]

/-- The take of RESET_PORT (R181). -/
def execTakeResetPort (p : PortId) (s : State) : Host.Outcome State Fault Refusal :=
  s.takeCommand p (fun w => w = 0x000A) resetPortBody

/-! ### The reset inputs (R168) -/

/-- PORT_RESET_INPUT_ASSERT: the port becomes HELD and gives no response, an access of it that waits is discarded, and its
port reset is taken (R168, R107). An input already asserted cannot be asserted (DEDUCED, log 8). -/
def execPortResetInputAssert (p : PortId) (s : State) : Host.Outcome State Fault Refusal :=
  match (s.port p).portState with
  | .held => .next s
  | .attached =>
    .next (State.portReset
      { s.modifyPort p fun q => { q with portState := .held, response := none } with waits := s.waits.drop (.port p) } p)

/-- PORT_RESET_INPUT_RELEASE: the port becomes ATTACHED and nothing else changes. -/
def execPortResetInputRelease (p : PortId) (s : State) : Host.Outcome State Fault Refusal :=
  .next (s.modifyPort p fun q => { q with portState := .attached })

/-! ### Device reset (R183) -/

/-- DEVICE_RESET: every block takes its reset values; each port stays HELD where its reset input is asserted; nothing
is known of the array's contents, which are free (section 2.7; R129, R168, R183, log 6). -/
def execDeviceReset (s : State) : Host.Outcome State Fault Refusal :=
  .next { State.reset with
    ports := State.reset.ports.map fun p q => { q with portState := (s.port p).portState }
    array := Memory.ofBytes (Config.arrayAfterReset s.resets)
    pending := s.pending
    resets := s.resets + 1 }

end Sys2Proof.Machine
end

