-- ==== Sys2Proof/Machine/Regions.lean ====
section
/-! DEFINITION. The commands CREATE, RETIRE and INQUIRE (Chapter 1). -/

namespace Sys2Proof.Machine

/-! ### CREATE -/

/-- Whether CREATE's target slot field, bits 3-0 of PARAM3, names a slot (section 1.6, R189). -/
def createBinds (w : Word) : Bool := w.toNat % 16 < 8

/-- The slot CREATE's PARAM3 names: bits 3-0 slot, bits 15-8 bank (Table 12-6). -/
def createTarget (w : Word) : Option SlotIndex := slotNamed (highByte w).toNat (w.toNat % 16)

/-- The lowest-numbered VACANT record (R16). -/
def State.lowestVacant (s : State) : Option RegionId :=
  (List.finRange 128).find? fun r => (s.region r).state = .vacant

/-- An entry added to the name directory at its place in the order of name (R44). -/
def addName (e : DirEntry) : List DirEntry → List DirEntry
  | [] => [e]
  | d :: t => if e.name.toNat < d.name.toNat then e :: d :: t else d :: addName e t

/-- The name field of a new record: absent for a parameter of 0 (R16). -/
def nameField (w : Word) : Option Word := if w = 0 then none else some w

/-- A new LIVE record in place of a VACANT one (R16, R11). -/
def Region.created (x : Region) (owner : PortId) (base length : Nat) (name : Option Word) (fixed : Bool)
    (bindings : Nat) : Region :=
  { state := .live, owner := owner, base := base, length := length, generation := x.generation + 1, name := name,
    fixed := fixed, grants := ⟨none, none, none, none⟩, bindings := bindings, move := none }

/-- The effects of a CREATE that passed its checks: record `r`, the base and the remaining free list of first fit, and
the target slot if one is named (R16). -/
def State.createRegion (s : State) (p : PortId) (r : RegionId) (base : Nat) (rest : List Extent)
    (target : Option SlotIndex) : State :=
  let length := (s.param p 0).toNat
  let name := nameField (s.param p 1)
  let bind : Port → Port := fun q => match target with
    | some i => q.setSlot i (.bound r .readWrite 0)
    | none => q
  { (s.setRegion r ((s.region r).created p base length name ((s.param p 2).getLsbD 0)
      (if target.isSome then 1 else 0))).modifyPort p fun q => { bind q with holdings := q.holdings + length } with
    freeList := rest
    directory := match name with
      | some n => addName ⟨n, r⟩ s.directory
      | none => s.directory }

/-- A CREATE refused for space: where WATCH, bit 1 of PARAM2, is yes, the port's watch is set to the length (R17,
R38). -/
def State.watchFor (s : State) (p : PortId) : State :=
  if (s.param p 2).getLsbD 1 then s.modifyPort p fun q => { q with watch := some (s.param p 0).toNat } else s

/-- Steps 3 to 7 of CREATE's checks with the target slot known, and the effects (R15, R16, R17, R33). -/
def createPlaced (s : State) (p : PortId) (target : Option SlotIndex) : Answer :=
  let length := (s.param p 0).toNat
  let name := s.param p 1
  if (s.port p).quota < (s.port p).holdings + length then refuse s .quota
  else if name ≠ 0 ∧ (s.lookupName name).isSome then refuse s .nameTaken
  else if name ≠ 0 ∧ Config.maxNames ≤ s.directory.length then refuse s .nameFull
  else
    match s.lowestVacant with
    | none => refuse s .noRecord
    | some r =>
      if totalFree s.freeList < length then refuse (s.watchFor p) .noSpace
      else
        match firstFit s.freeList length with
        | none => refuse (s.watchFor p) .fragmented
        | some (base, rest) =>
          accept (s.createRegion p r base rest target)
            [toWord r.val, toWord ((s.region r).generation + 1).toNat, toWord base]

/-- CREATE: the checks of R15 in order, then R16 or R17. -/
def createBody (s : State) (p : PortId) : Answer :=
  let length := (s.param p 0).toNat
  if length = 0 ∨ Config.maxLength < length then refuse s .badParam
  else if createBinds (s.param p 3) then
    match createTarget (s.param p 3) with
    | none => refuse s .badParam
    | some i => if ((s.port p).slot i).isBound then refuse s .slotBusy else createPlaced s p (some i)
  else createPlaced s p none

/-- The take of CREATE (R15). -/
def execTakeCreate (p : PortId) (s : State) : Host.Outcome State Fault Refusal :=
  s.takeCommand p (fun w => w = 0x0001) createBody

/-! ### RETIRE -/

/-- RETIRE GENTLE of a LIVE region: DRAINING where the binding count is above 0, else SCRUBBING at the issuing port's
level (R4). -/
def State.retireGentle (s : State) (p : PortId) (r : RegionId) : State :=
  let x := s.region r
  if 0 < x.bindings then
    { s.setRegion r { x with state := .draining, name := none } with directory := dropName s.directory x.name }
  else (s.enterScrubbing r (s.port p).level).withEngine Engine.choose

/-- RETIRE FORCE of a LIVE or DRAINING region: every binding lapses with cause RETIRED, then SCRUBBING at the issuing
port's level (R5). -/
def State.retireForce (s : State) (p : PortId) (r : RegionId) : State :=
  ((s.lapseAll r .retired).enterScrubbing r (s.port p).level).withEngine Engine.choose

/-- The answer of a RETIRE that acted: the region number, the state reached, the binding figure (R19). -/
def retireAnswer (s' : State) (r : RegionId) (figure : Nat) : Answer :=
  accept s' [toWord r.val, toWord (s'.region r).state.code, toWord figure]

/-- RETIRE: the checks of R18 in order, then R19. Mode 1 is GENTLE, mode 2 FORCE. -/
def retireBody (s : State) (p : PortId) : Answer :=
  let mode := s.param p 3
  if mode ≠ 1 ∧ mode ≠ 2 then refuse s .badParam
  else
    match s.resolveParams p with
    | .error c => refuse s c
    | .ok r =>
      let x := s.region r
      if x.owner ≠ p ∧ ¬ (p = .p0 ∧ mode = 2) then refuse s .notOwner
      else if x.state = .scrubbing ∨ (mode = 1 ∧ x.state = .draining) then refuse s .notLive
      else if mode = 1 then retireAnswer (s.retireGentle p r) r x.bindings
      else retireAnswer (s.retireForce p r) r (s.boundCount r)

/-- The take of RETIRE (R18). -/
def execTakeRetire (p : PortId) (s : State) : Host.Outcome State Fault Refusal :=
  s.takeCommand p (fun w => w = 0x0005) retireBody

/-! ### INQUIRE -/

/-- The entitlement of port `p` to a region as Table 12-1 encodes it: 3 OWNER, else the grant list's entry (R73). -/
def Region.entitlement (x : Region) (p : PortId) : Nat :=
  if x.owner = p then 3 else rightsCode (x.grants.get p)

/-- The words INQUIRE answers about record `x` of number `r` (R21, Table 12-7). -/
def Region.report (x : Region) (r : RegionId) (p : PortId) : List Word :=
  [packFields [(0, 8, r.val), (8, 8, x.generation.toNat)],
   packFields [(0, 2, x.state.code), (2, 2, x.owner.toNat), (4, 2, x.entitlement p), (6, 1, yesNo x.move.isSome),
               (8, 8, x.bindings)],
   toWord x.base, toWord x.length, x.name.getD 0]

/-- INQUIRE: the reference is resolved and the record reported (R20, R21). -/
def inquireBody (s : State) (p : PortId) : Answer :=
  match s.resolveParams p with
  | .error c => refuse s c
  | .ok r => accept s ((s.region r).report r p)

/-- The take of INQUIRE (R21). -/
def execTakeInquire (p : PortId) (s : State) : Host.Outcome State Fault Refusal :=
  s.takeCommand p (fun w => w = 0x0006) inquireBody

end Sys2Proof.Machine
end

