-- ==== Sys2Proof/Machine/Sharing.lean ====
section
/-! DEFINITION. The command GRANT (Chapter 5). -/

namespace Sys2Proof.Machine

/-- The grant list entry of `g` in record `r` becomes `rights`; absent for NONE (R76). -/
def State.setGrant (s : State) (r : RegionId) (g : PortId) (rights : Option Rights) : State :=
  s.modifyRegion r fun x => { x with grants := x.grants.set g rights }

/-- The grantee's READ_WRITE slots naming `r` are lowered to READ (R77). -/
def State.narrowSlots (s : State) (g : PortId) (r : RegionId) : State :=
  s.modifyPort g fun q => { q with slots := q.slots.map (Slot.narrow r) }

/-- The grantee's BOUND slots naming `r` lapse with cause REVOKED, and the binding count falls by 1 for each (R78). -/
def State.revokeSlots (s : State) (g : PortId) (r : RegionId) : State :=
  (s.modifyPort g fun q => q.lapse r .revoked).modifyRegion r fun x =>
    { x with bindings := x.bindings - (s.port g).boundCount r }

/-- The cases of Table 5-1 by previous rights and rights asked: the state after, and the slot figure (R76 to R79). -/
def State.grantCase (s : State) (r : RegionId) (g : PortId) (previous asked : Option Rights) : State × Nat :=
  match previous, asked with
  | some .readWrite, some .read => ((s.setGrant r g asked).narrowSlots g r, (s.port g).writableCount r)
  | some _, none => ((s.setGrant r g none).revokeSlots g r, (s.port g).boundCount r)
  | _, _ => (s.setGrant r g asked, 0)

/-- GRANT: the checks of R75 in order, then R76. -/
def grantBody (s : State) (p : PortId) : Answer :=
  match portNamed (s.param p 3), rightsGiven (s.param p 4) with
  | some g, some asked =>
    if g = p then refuse s .badParam
    else
      match s.resolveParams p with
      | .error c => refuse s c
      | .ok r =>
        let x := s.region r
        if x.owner ≠ p then refuse s .notOwner
        else if x.state ≠ .live then refuse s .notLive
        else
          let previous := x.grants.get g
          let t := s.grantCase r g previous asked
          accept t.1 [toWord g.toNat, toWord (rightsCode previous), toWord (rightsCode asked), toWord t.2]
  | _, _ => refuse s .badParam

/-- The take of GRANT (R76). -/
def execTakeGrant (p : PortId) (s : State) : Host.Outcome State Fault Refusal :=
  s.takeCommand p (fun w => w = 0x0004) grantBody

end Sys2Proof.Machine
end

