-- ==== Sys2Proof/Machine/Slots.lean ====
section
/-! DEFINITION. The commands OPEN and CLOSE (Chapter 4). -/

namespace Sys2Proof.Machine

/-- What port `p` may bind of a region: OWNER carries READ_WRITE, else the grant list's entry (R73). -/
def Region.bindable (x : Region) (p : PortId) : Option Rights :=
  if x.owner = p then some .readWrite else x.grants.get p

/-- The target slot becomes BOUND and the binding count rises by 1 (R62). -/
def State.bindSlot (s : State) (p : PortId) (i : SlotIndex) (r : RegionId) (rights : Rights) (origin : Word) : State :=
  (s.modifyPort p fun q => q.setSlot i (.bound r rights origin)).modifyRegion r fun x =>
    { x with bindings := x.bindings + 1 }

/-- OPEN: the checks of R61 in order, then R62. -/
def openBody (s : State) (p : PortId) : Answer :=
  match targetSlot (s.param p 4), rightsWanted (s.param p 3) with
  | some i, some rights =>
    if ((s.port p).slot i).isBound then refuse s .slotBusy
    else
      match s.resolveParams p with
      | .error c => refuse s c
      | .ok r =>
        let x := s.region r
        if x.state ≠ .live then refuse s .notLive
        else if ¬ rightsCover (x.bindable p) rights then refuse s .noRight
        else if x.length * Config.granuleBytes ≤ (s.param p 5).toNat then refuse s .badParam
        else
          accept (s.bindSlot p i r rights (s.param p 5))
            [toWord r.val, toWord x.generation.toNat, toWord x.length]
  | _, _ => refuse s .badParam

/-- The take of OPEN (R61). -/
def execTakeOpen (p : PortId) (s : State) : Host.Outcome State Fault Refusal :=
  s.takeCommand p (fun w => w = 0x0002) openBody

/-- A BOUND slot of port `p` naming `r` is given up: the slot EMPTY, the count lower by 1, and a DRAINING region whose
count is now 0 into SCRUBBING at `p`'s level (R64, R6). -/
def State.closeBound (s : State) (p : PortId) (i : SlotIndex) (r : RegionId) : State :=
  let t := (s.modifyPort p fun q => q.setSlot i .empty).modifyRegion r fun x => { x with bindings := x.bindings - 1 }
  if (t.region r).state = .draining ∧ (t.region r).bindings = 0 then
    (t.enterScrubbing r (s.port p).level).withEngine Engine.choose
  else t

/-- CLOSE (R64, R65). -/
def closeBody (s : State) (p : PortId) : Answer :=
  match targetSlot (s.param p 0) with
  | none => refuse s .badParam
  | some i =>
    let x := (s.port p).slot i
    match x with
    | .empty => refuse s .slotEmpty
    | .bound r _ _ =>
      let t := s.closeBound p i r
      accept t [toWord x.code, toWord r.val, toWord (t.region r).state.code, 0]
    | .lapsed r cause =>
      accept (s.modifyPort p fun q => q.setSlot i .empty) [toWord x.code, toWord r.val, 0, toWord cause.code]

/-- The take of CLOSE (R64). -/
def execTakeClose (p : PortId) (s : State) : Host.Outcome State Fault Refusal :=
  s.takeCommand p (fun w => w = 0x0003) closeBody

end Sys2Proof.Machine
end

