-- ==== Sys2Proof/Machine/Dispatch.lean ====
section
/-! DEFINITION. The meaning of each command: one arm for each row of spec/opcode_table.json. -/

namespace Sys2Proof.Machine

/-- The effect of a command on everything but the queue. -/
def exec (i : Instr) (s : State) : Host.Outcome State Fault Refusal :=
  match i with
  | .deviceReset => Sys2Proof.Machine.execDeviceReset s
  | .portResetInputAssert p => Sys2Proof.Machine.execPortResetInputAssert p s
  | .portResetInputRelease p => Sys2Proof.Machine.execPortResetInputRelease p s
  | .heldAccessDiscard p a => Sys2Proof.Machine.execHeldAccessDiscard p a s
  | .dataAccess p a w => Sys2Proof.Machine.execDataAccess p a w s
  | .unmappedAccess p a => Sys2Proof.Machine.execUnmappedAccess p a s
  | .commandWrite p a => Sys2Proof.Machine.execCommandWrite p a s
  | .paramWrite p a => Sys2Proof.Machine.execParamWrite p a s
  | .bankWrite p a => Sys2Proof.Machine.execBankWrite p a s
  | .eventsWrite p a => Sys2Proof.Machine.execEventsWrite p a s
  | .eventEnableWrite p a => Sys2Proof.Machine.execEventEnableWrite p a s
  | .ignoredWrite p a => Sys2Proof.Machine.execIgnoredWrite p a s
  | .takeCreate p => Sys2Proof.Machine.execTakeCreate p s
  | .takeOpen p => Sys2Proof.Machine.execTakeOpen p s
  | .takeClose p => Sys2Proof.Machine.execTakeClose p s
  | .takeGrant p => Sys2Proof.Machine.execTakeGrant p s
  | .takeRetire p => Sys2Proof.Machine.execTakeRetire p s
  | .takeInquire p => Sys2Proof.Machine.execTakeInquire p s
  | .takeCompact p => Sys2Proof.Machine.execTakeCompact p s
  | .takeHalt p => Sys2Proof.Machine.execTakeHalt p s
  | .takeSetPort p => Sys2Proof.Machine.execTakeSetPort p s
  | .takeResetPort p => Sys2Proof.Machine.execTakeResetPort p s
  | .takeUnknown p => Sys2Proof.Machine.execTakeUnknown p s
  | .scrubStep w => Sys2Proof.Machine.execScrubStep w s
  | .regionScrubEnd => Sys2Proof.Machine.execRegionScrubEnd s
  | .bootScrubEnd => Sys2Proof.Machine.execBootScrubEnd s
  | .roundTest => Sys2Proof.Machine.execRoundTest s
  | .copyStep w => Sys2Proof.Machine.execCopyStep w s
  | .copyEnd => Sys2Proof.Machine.execCopyEnd s
  | .clearStep w => Sys2Proof.Machine.execClearStep w s
  | .clearEnd => Sys2Proof.Machine.execClearEnd s
  | .controlMisalignedRead p a => Sys2Proof.Machine.execControlMisalignedRead p a s

end Sys2Proof.Machine
end

