-- ==== Sys2Proof/Safety.lean ====
section
/-! DEFINITION. What a lawful state of the LJQ512 is: the laws the spec says the part keeps, each as a predicate
of a state, and their conjunction. Statements about every step take the conjunction as premise. Also the words
the statements use for a command about to be taken and for what its answer leaves. -/

namespace Sys2Proof.Machine

/-! ### Records and bindings -/

/-- A record's fields by its state (R1, R3, R4, R72, Table 1-3). -/
abbrev Region.lawful (x : Region) : Prop :=
  (x.state = .vacant → x = Region.cleared x.generation) ∧
  (x.state = .scrubbing → x.bindings = 0 ∧ x.move = none ∧ x.grants = ⟨none, none, none, none⟩) ∧
  (x.state ≠ .live → x.name = none) ∧ x.name ≠ some 0 ∧
  (x.state ≠ .vacant → 1 ≤ x.length) ∧ (x.state.inUse = true → x.length ≤ Config.maxLength) ∧
  x.grants.get x.owner = none

/-- R1, R3, R72: every record's fields are those its state admits. -/
abbrev State.RecordLaw (s : State) : Prop := ∀ r : RegionId, (s.region r).lawful

/-- The region and the rights of a BOUND slot. -/
def Slot.binding? : Slot → Option (RegionId × Rights)
  | .bound r rights _ => some (r, rights)
  | _ => none

/-- R60: every binding count equals the number of BOUND slots naming the region, and every BOUND slot names a region in
LIVE or DRAINING. -/
abbrev State.BindingLaw (s : State) : Prop :=
  (∀ r : RegionId, (s.region r).bindings = s.boundCount r) ∧
  ∀ p : PortId, ∀ i : SlotIndex, ∀ b ∈ ((s.port p).slot i).binding?, (s.region b.1).state.inUse = true

/-- R80: a BOUND slot of a port that does not own the region has no more rights than the port's grant list entry. -/
abbrev State.RightsLaw (s : State) : Prop :=
  ∀ p : PortId, ∀ i : SlotIndex, ∀ b ∈ ((s.port p).slot i).binding?,
    (s.region b.1).owner = p ∨ rightsCover ((s.region b.1).grants.get p) b.2 = true

/-- The granules of the LIVE and DRAINING regions a port owns. -/
def State.ownedGranules (s : State) (p : PortId) : Nat :=
  ((List.finRange 128).map fun r =>
    if (s.region r).owner = p ∧ (s.region r).state.inUse = true then (s.region r).length else 0).sum

/-- R14: each port's holdings are the sum of the lengths of the LIVE and DRAINING regions it owns. -/
abbrev State.HoldingsLaw (s : State) : Prop := ∀ p : PortId, (s.port p).holdings = s.ownedGranules p

/-- R42: the directory ascends strictly by name, holds at most 64 entries, each naming a LIVE region of that name, and
every named region has its entry. -/
abbrev State.DirectoryLaw (s : State) : Prop :=
  s.directory.Pairwise (fun d e => d.name.toNat < e.name.toNat) ∧ s.directory.length ≤ Config.maxNames ∧
  (∀ e ∈ s.directory, (s.region e.region).state = .live ∧ (s.region e.region).name = some e.name) ∧
  ∀ r : RegionId, ∀ n ∈ (s.region r).name, (⟨n, r⟩ : DirEntry) ∈ s.directory

/-! ### Jobs -/

/-- The region a REGION_SCRUB job answers for. -/
def Job.scrubRegion? (j : Job) : Option RegionId :=
  match j.work with
  | .scrub (.region r) _ _ => some r
  | _ => none

/-- The span and cursor of a scrub job. -/
def Job.scrubWork? (j : Job) : Option (Extent × Nat) :=
  match j.work with
  | .scrub _ span cursor => some (span, cursor)
  | .compaction _ => none

/-- The span of a BOOT_SCRUB job, its boot extent (R35). -/
def Job.bootSpan? (j : Job) : Option Extent :=
  match j.work with
  | .scrub (.boot _) span _ => some span
  | _ => none

/-- The number of the boot extent that a BOOT_SCRUB job answers for. -/
def Job.bootNumber? (j : Job) : Option (Fin 8) :=
  match j.work with
  | .scrub (.boot k) _ _ => some k
  | _ => none

/-- R111: the SCRUBBING records are those that have a REGION_SCRUB job, each exactly one, over the record's extent, with
a cursor inside the span (R108); each BOOT_SCRUB job is over its boot extent (R35); and there is at most one COMPACTION
job (R127). -/
abbrev State.JobLaw (s : State) : Prop :=
  (s.engine.jobs.filterMap Job.scrubRegion?).Nodup ∧
  (∀ r : RegionId, (s.region r).state = .scrubbing ↔ r ∈ s.engine.jobs.filterMap Job.scrubRegion?) ∧
  (∀ j ∈ s.engine.jobs, ∀ r ∈ j.scrubRegion?, ∀ w ∈ j.scrubWork?,
    w.1 = ⟨(s.region r).base, (s.region r).length⟩) ∧
  (∀ j ∈ s.engine.jobs, ∀ w ∈ j.scrubWork?, w.2 ≤ w.1.length) ∧
  (∀ j ∈ s.engine.jobs, ∀ k ∈ j.bootNumber?, j.bootSpan? = some ⟨256 * k.val, 256⟩) ∧
  (s.engine.jobs.filterMap Job.compaction?).length ≤ 1

/-- R112, R116: the queue ascends by level and making order, made jobs have making orders below the next one, the stack
and the running job form a chain of strictly rising urgency, at most three jobs are suspended, and an idle engine has no
job waiting (R113). -/
abbrev Engine.Ordered (e : Engine) : Prop :=
  e.queue.Pairwise (fun j k => j.before k = true) ∧ (∀ j ∈ e.jobs, j.order < e.nextOrder) ∧
  (e.running.toList ++ e.stack).Pairwise (fun j k => j.level < k.level) ∧ e.stack.length ≤ 3 ∧
  (e.running = none → e.queue = [] ∧ e.stack = [])

/-! ### Moves -/

/-- What Table 8-1 says of a move in progress: the free extent lies directly below the source, and neither is empty. -/
abbrev Move.lawful (m : Move) : Prop := m.extent.stop = m.source ∧ 1 ≤ m.extent.length ∧ 1 ≤ m.length

/-- The phase of a compaction job fits the region table: in COPY the subject stands at the source base with the move's
length and carries the move record; in CLEAR the vacated span and dirty part are those of R139. -/
abbrev State.phaseLawful (s : State) : Phase → Prop
  | .scan => True
  | .copy m => m.lawful ∧ (s.region m.subject).state.inUse = true ∧ (s.region m.subject).base = m.source ∧
      (s.region m.subject).length = m.length ∧
      ∃ v ∈ (s.region m.subject).move, v.dest = m.extent.base ∧ v.cursor ≤ m.length
  | .clear m vacated dirty cursor => m.lawful ∧ vacated = m.vacated ∧ dirty = m.dirty ∧ cursor ≤ dirty.length

/-- The subject of the COPY phase of a compaction job. -/
def Compaction.copySubject? (c : Compaction) : Option RegionId :=
  match c.phase with
  | .copy m => some m.subject
  | _ => none

/-- R132: a region carries a move record only as the subject of the compaction job's COPY phase, and the job's phase fits
the region table. -/
abbrev State.MoveLaw (s : State) : Prop :=
  (∀ r : RegionId, (s.region r).move ≠ none → (s.engine.compaction?.bind Compaction.copySubject?) = some r) ∧
  ∀ c ∈ s.engine.compaction?, s.phaseLawful c.phase

/-! ### Free space -/

/-- R27: the free-extent list ascends strictly, no two extents overlap or touch, none is empty. -/
abbrev State.FreeListLaw (s : State) : Prop :=
  s.freeList.Pairwise (fun x y => x.stop < y.base) ∧ ∀ x ∈ s.freeList, 1 ≤ x.length

/-- The span a compaction job holds: the reservation in COPY, the vacated span in CLEAR (R26, R131). -/
def Compaction.heldSpan? (c : Compaction) : Option Extent :=
  match c.phase with
  | .scan => none
  | .copy m => some m.extent
  | .clear _ vacated _ _ => some vacated

/-- The extents of the four places of R26: free list, regions in LIVE, DRAINING or SCRUBBING, compaction span,
unscrubbed boot extents. -/
def State.places (s : State) : List Extent :=
  s.freeList ++
  ((List.finRange 128).filter (fun r => (s.region r).state ≠ .vacant)).map
    (fun r => ⟨(s.region r).base, (s.region r).length⟩) ++
  (s.engine.compaction?.bind Compaction.heldSpan?).toList ++
  s.engine.jobs.filterMap Job.bootSpan?

/-- Whether granule `g` lies in an extent. -/
def Extent.contains (e : Extent) (g : Nat) : Bool := e.base ≤ g ∧ g < e.stop

/-- R26: each granule of the array is in exactly one extent of the four places, and no extent passes the array's end. -/
abbrev State.PlacementLaw (s : State) : Prop :=
  (∀ g < Config.granules, s.places.countP (fun e => e.contains g) = 1) ∧ ∀ e ∈ s.places, e.stop ≤ Config.granules

/-! ### Clean granules -/

/-- Every byte of granules `low` to `high` - 1 reads 00h (R25). -/
def State.cleanSpan (s : State) (low high : Nat) : Prop :=
  ∀ a, Config.granuleBytes * low ≤ a → a < Config.granuleBytes * high → s.byteAt a = 0

/-- The granules a phase of the compaction job holds that are clean: in COPY the reservation not yet written (R186), in
CLEAR the vacated span less the part of the dirty part not yet cleared (R139, R140). -/
def State.phaseClean (s : State) : Phase → Prop
  | .scan => True
  | .copy m => ∀ v ∈ (s.region m.subject).move, s.cleanSpan (m.extent.base + v.cursor) m.extent.stop
  | .clear _ vacated dirty cursor =>
    s.cleanSpan vacated.base dirty.base ∧ s.cleanSpan dirty.base (dirty.base + cursor)

/-- R27, R30, R118, R139: every free extent is clean, every scrub job's span is clean below its cursor, and so is what the
compaction job holds clean. -/
def State.CleanLaw (s : State) : Prop :=
  (∀ e ∈ s.freeList, s.cleanSpan e.base e.stop) ∧
  (∀ j ∈ s.engine.jobs, ∀ w ∈ j.scrubWork?, s.cleanSpan w.1.base (w.1.base + w.2)) ∧
  ∀ c ∈ s.engine.compaction?, s.phaseClean c.phase

/-! ### Ports -/

/-- R169: a HELD port is as its port reset left it: unit IDLE and cleared, slots EMPTY, bank 0, flags, enables, fault
record and report cleared, no watch, no access waiting (R107), and issuer of no compaction. That no response stands is the
model's choice (log 9). -/
abbrev State.HeldLaw (s : State) : Prop :=
  ∀ p : PortId, (s.port p).portState = .held →
    (s.port p).unit = CommandUnit.reset ∧ (s.port p).events = EventBlock.reset ∧
    (∀ i : SlotIndex, (s.port p).slot i = .empty) ∧ (s.port p).bank = 0 ∧ (s.port p).watch = none ∧
    (s.port p).response = none ∧ s.waits.ports.get p = none ∧
    ∀ j ∈ s.engine.jobs, ∀ c ∈ j.compaction?, c.issuer ≠ some p

/-- R102, R37, R171, R149: the further-count is 0 while the record is absent, a watch is from 1 to 256, a quota at most
2,048, a report's counts and largest free extent within their limits. -/
abbrev Port.lawful (q : Port) : Prop :=
  (q.events.fault = none → q.events.further = 0) ∧ (∀ w ∈ q.watch, 1 ≤ w ∧ w ≤ Config.maxLength) ∧
  q.quota ≤ Config.maxQuota ∧ q.events.report.regionsMoved ≤ Config.maxMoved ∧
  q.events.report.granulesMoved ≤ Config.maxGranulesMoved ∧ q.events.report.largestFree ≤ Config.granules

/-- The port laws, and the same limits on the counts of a compaction job (R131). -/
abbrev State.PortLaw (s : State) : Prop :=
  (∀ p : PortId, (s.port p).lawful) ∧
  ∀ j ∈ s.engine.jobs, ∀ c ∈ j.compaction?,
    c.regionsMoved ≤ Config.maxMoved ∧ c.granulesMoved ≤ Config.maxGranulesMoved

/-- R86, R115: an access that waits at the Array Arbiter is one to the data window, and the engine waits there only while
its running job calls for a granule step. -/
abbrev State.ClaimLaw (s : State) : Prop :=
  (∀ p : PortId, ∀ a ∈ s.waits.ports.get p, a.addr.toNat < 0x80000) ∧
  (s.waits.step = true → s.granuleNext = true)

/-- All the laws together: what the spec says holds at every moment. -/
structure State.Lawful (s : State) : Prop where
  memory    : s.array.wf
  records   : s.RecordLaw
  bindings  : s.BindingLaw
  rights    : s.RightsLaw
  holdings  : s.HoldingsLaw
  directory : s.DirectoryLaw
  jobs      : s.JobLaw
  ordered   : s.engine.Ordered
  moves     : s.MoveLaw
  freeList  : s.FreeListLaw
  placement : s.PlacementLaw
  clean     : s.CleanLaw
  held      : s.HeldLaw
  ports     : s.PortLaw
  claims    : s.ClaimLaw

/-! ### Words of the statements -/

/-- Port `p`'s command, with code `code`, is the one the Table Controller takes next (R159, R160). -/
def State.taking (s : State) (p : PortId) (code : Word) : Prop :=
  s.nextTake = some p ∧ s.commandTurn = true ∧ (s.port p).unit.lastCode = code

/-- `s` after a command of port `p` has been answered with `words` and has changed nothing else: result block written,
unit IDLE, DONE raised, port taken last, a command taken last (R159 to R165). -/
def State.answered (s : State) (p : PortId) (words : List Word) : State :=
  { s.setPort p
      { s.port p with
        unit := { (s.port p).unit with state := .idle, results := resultBlock words }
        events := { (s.port p).events with flags := (s.port p).events.flags ||| 1#6 } }
    with lastPort := p, lastTaken := some .command }

/-- The array byte that offset `x` of region `r` lies at: its base, or below the copy cursor of a move its destination
base, in granules, then `x` (R96, R97). -/
def State.location (s : State) (r : RegionId) (x : Nat) : Nat :=
  match (s.region r).move with
  | none => (s.region r).base * 256 + x
  | some m => (if x / 256 < m.cursor then m.dest else (s.region r).base) * 256 + x

/-- The byte a port sees at offset `x` of region `r` (R96, R97). -/
def State.regionByte (s : State) (r : RegionId) (x : Nat) : Byte := s.byteAt (s.location r x)

/-- The code of the first check that fails, in the order of the list. -/
def firstFailing (checks : List (Bool × Word)) : Option Word := (checks.find? fun c => c.1).map fun c => c.2

/-- The rows of the table that are accesses of port `p`; `arrivals` are the data access's. -/
def accessRows (p : PortId) (a : Access) (arrivals : List Claim) : List Instr :=
  [.heldAccessDiscard p a, .dataAccess p a arrivals, .unmappedAccess p a, .commandWrite p a, .paramWrite p a,
   .bankWrite p a, .eventsWrite p a, .eventEnableWrite p a, .ignoredWrite p a, .controlMisalignedRead p a]

/-- The rows that write a control-window register. -/
def controlWriteRows (p : PortId) (a : Access) : List Instr :=
  [.commandWrite p a, .paramWrite p a, .bankWrite p a, .eventsWrite p a, .eventEnableWrite p a, .ignoredWrite p a]

/-- The rows in which the Table Controller takes port `p`'s command, each with the codes it is the take of. -/
def takeRows (p : PortId) : List (Instr × (Word → Bool)) :=
  [(.takeCreate p, (· = 1)), (.takeOpen p, (· = 2)), (.takeClose p, (· = 3)), (.takeGrant p, (· = 4)),
   (.takeRetire p, (· = 5)), (.takeInquire p, (· = 6)), (.takeCompact p, (· = 7)), (.takeHalt p, (· = 8)),
   (.takeSetPort p, (· = 9)), (.takeResetPort p, (· = 10)), (.takeUnknown p, fun w => w = 0 ∨ 10 < w.toNat)]

/-- `s` with port `p` answering an access OK, with the data of a read, and port fields `q`; no access of it waits. -/
def State.served (s : State) (p : PortId) (q : Port) (data : Option ReadData) : State :=
  { s.setPort p { q with response := some ⟨true, data⟩ } with waits := s.waits.drop (.port p) }

/-- `s` after access `a` of port `p` faulted with `cause` at `place`: response ERROR with the fill value on a read, FAULT
raised, the record captured where it was absent and else kept and the further-count one higher up to 255; no access of the
port waits, and nothing else is changed (R100 to R104). -/
def State.faulted (s : State) (p : PortId) (a : Access) (cause : FaultCause) (place : FaultPlace) : State :=
  let q := s.port p
  { s.setPort p
      { q with
        response := some
          { ok := false
            data := match a.dir, a.size with
              | .write, _ => none
              | .read, .byte => some (.byte 0xFF)
              | .read, .word => some (.word 0xFFFF) }
        events :=
          { q.events with
            flags := q.events.flags ||| 2#6
            fault := match q.events.fault with
              | none => some { cause := cause, dir := a.dir, size := a.size, place := place }
              | some f => some f
            further := match q.events.fault with
              | none => 0
              | some _ => if q.events.further = 255 then 255 else q.events.further + 1 } }
    with waits := s.waits.drop (.port p) }

/-- The span a region's scrub clears when it enters SCRUBBING: its extent, or with a move in COPY the span from the
destination base to the end of its extent (R8, R9). -/
def Region.spanToScrub (x : Region) : Extent :=
  match x.move with
  | none => ⟨x.base, x.length⟩
  | some m => ⟨m.dest, x.base + x.length - m.dest⟩

/-- The record of a region that has entered SCRUBBING: binding count 0, no name, no grants, no move record, extent the span
to scrub; owner, generation and FIXED kept (R3, R8, R9). -/
def Region.gone (x : Region) : Region :=
  { x with state := .scrubbing, base := x.spanToScrub.base, length := x.spanToScrub.length, name := none,
           grants := ⟨none, none, none, none⟩, bindings := 0, move := none }

/-- The engine when region `r` with record `x` enters SCRUBBING: a move in COPY is abandoned, the scan going on from its
destination base, and a REGION_SCRUB job of `level` is made (R8, R142). -/
def Engine.withScrub (e : Engine) (r : RegionId) (x : Region) (level : Level) : Engine :=
  (match x.move with
    | none => e
    | some m => e.withCompaction fun c => { c with phase := .scan, scanPoint := m.dest }).make level
    (.scrub (.region r) x.spanToScrub 0)

/-- A slot after every binding of `r` has lapsed with `cause` (R66). -/
def Slot.lapsedFrom (r : RegionId) (cause : LapseCause) : Slot → Slot
  | .bound r' rights origin => if r' = r then .lapsed r cause else .bound r' rights origin
  | x => x

/-- The slots of port `q` that are bound to `r`. -/
def Port.slotsOn (q : Port) (r : RegionId) : List SlotIndex :=
  (List.finRange 32).filter fun i => (q.slot i).binding?.any fun b => b.1 = r

/-- A port when region `r` enters SCRUBBING with record `x`, its bindings lapsing with `cause`: slots lapsed, LAPSE raised
where there was one, holdings lower by the length at the owner (R66, R67, R8). -/
def Port.loses (q : Port) (p : PortId) (r : RegionId) (x : Region) (cause : LapseCause) : Port :=
  { q with
    slots := q.slots.map (Slot.lapsedFrom r cause)
    events := if q.slotsOn r = [] then q.events else { q.events with flags := q.events.flags ||| 4#6 }
    holdings := if x.owner = p then q.holdings - x.length else q.holdings }

/-- A port when the free-extent list takes in an extent that forms one of `n` granules: a watch of at most `n` raises
SPACE and is removed (R39). -/
def Port.watched (q : Port) (n : Nat) : Port :=
  if q.watch.any (· ≤ n) then { q with watch := none, events := { q.events with flags := q.events.flags ||| 8#6 } } else q

/-- `s` after extent `e` has joined the free-extent list (R29, R39). -/
def State.withFree (s : State) (e : Extent) : State :=
  { s with
    freeList := (insertExtent s.freeList e).1
    ports := s.ports.map fun _ q => q.watched (insertExtent s.freeList e).2.length }

/-- The regions a port reset of `x` drains in its step 2: DRAINING, every binding of them in a slot of `x` (R68). -/
def State.lastHeldBy (s : State) (x : PortId) : List RegionId :=
  (List.finRange 128).filter fun r =>
    (s.region r).state = .draining ∧ (s.port x).slotsOn r ≠ [] ∧ (s.region r).bindings = ((s.port x).slotsOn r).length

/-- The regions a port reset of `x` retires in its step 3: those of `x` in LIVE or DRAINING that step 2 has not drained
(R7). -/
def State.retiredWith (s : State) (x : PortId) : List RegionId :=
  (List.finRange 128).filter fun r =>
    (s.region r).owner = x ∧ (s.region r).state.inUse ∧ r ∉ s.lastHeldBy x

/-- What the port reset of `x` makes of a lawful `s`, step by step of R179; `t` is the state after it. -/
structure State.PortReset (s t : State) (x : PortId) : Prop where
  /-- Port `x`: unit and events at their reset values, slots EMPTY, bank 0, no watch, no holdings (steps 1, 2, 3, 5, 6). -/
  own : t.port x =
    { s.port x with
      unit := CommandUnit.reset, events := EventBlock.reset, slots := Vector.replicate 32 .empty, bank := 0,
      watch := none, holdings := 0 }
  /-- Another port: its slots on regions retired in step 3 lapse with OWNER_RESET, LAPSE is raised once if there was one,
  and regions it owns that step 2 drained leave its holdings. -/
  other : ∀ y, y ≠ x → t.port y =
    { s.port y with
      slots := (s.port y).slots.map fun c => (s.retiredWith x).foldl (fun c r => c.lapsedFrom r .ownerReset) c
      events := if (s.retiredWith x).all (fun r => (s.port y).slotsOn r = []) then (s.port y).events
        else { (s.port y).events with flags := (s.port y).events.flags ||| 4#6 }
      holdings := (s.port y).holdings -
        (((s.lastHeldBy x).filter fun r => (s.region r).owner = y).map fun r => (s.region r).length).sum }
  /-- Records: those of steps 2 and 3 enter SCRUBBING, the others lose the bindings and the grants of `x` (steps 2 to
  4). -/
  records : ∀ r, t.region r =
    if r ∈ s.lastHeldBy x ∨ r ∈ s.retiredWith x then (s.region r).gone
    else
      { s.region r with
        bindings := (s.region r).bindings - ((s.port x).slotsOn r).length
        grants := (s.region r).grants.set x none }
  /-- Names of the regions gone leave the directory. -/
  directory : t.directory = s.directory.filter fun e => e.region ∉ s.lastHeldBy x ++ s.retiredWith x
  /-- Jobs are made in the order of R110, the issuer of a compaction is lost and a halt requested (step 7), and an idle
  engine chooses. -/
  engine : t.engine =
    (((s.lastHeldBy x ++ s.retiredWith x).foldl (fun e r => e.withScrub r (s.region r) (s.port x).level)
      s.engine).withCompaction fun c =>
        if c.issuer = some x then { c with issuer := none, halt := true } else c).choose
  /-- Every access that waits goes on waiting (R107), and the engine's claim while its job still calls for a granule step
  (R142); everything else stays. -/
  rest : t.freeList = s.freeList ∧ t.lastPort = s.lastPort ∧ t.lastTaken = s.lastTaken ∧ t.array = s.array ∧
    t.lastServed = s.lastServed ∧ t.waits = { s.waits with step := s.waits.step && t.granuleNext } ∧
    t.pending = s.pending ∧ t.resets = s.resets

end Sys2Proof.Machine
end

