-- ==== Sys2Proof/Certificates/Slice0/Obligations.lean ====
section
/-! DEFINITION. The statements about the model, for the provers. OBLIGATIONS.json lists each with the rules it rests on. -/

open Sys2Proof Sys2Proof.Machine

/-! ### The queue, the resets, the event line -/

/-- A step runs the command at the front of the queue with the queue's rest; an empty queue idles (log 4). -/
def Obligations.StepRunsFrontCommand : Prop :=
  (∀ (s : State) (c : Instr) (rest : List Instr), s.pending = c :: rest → step s = exec c { s with pending := rest }) ∧
  ∀ s : State, s.pending = [] → step s = .next s

/-- DEVICE_RESET gives every block its reset values, in every state (R2, R28, R35, R43, R54, R86, R103, R107, R129, R149,
R154, R159, R168, R171, R175, R176, R183). Each byte of the array is a free value (log 6), no response stands (log 9), and neither kind of event has been
taken last (log 3). -/
def Obligations.DeviceResetValues : Prop :=
  ∀ s : State, ∃ t : State, exec .deviceReset s = .next t ∧
    (∀ p : PortId, t.port p =
      { portState := (s.port p).portState, response := none, slots := Vector.replicate 32 .empty, bank := 0,
        unit := { state := .idle, params := Vector.replicate 6 0, lastCode := 0, results := Vector.replicate 6 0,
                  overrun := false },
        events := { flags := 0, enables := 0, fault := none, further := 0,
                    report := { regionsMoved := 0, granulesMoved := 0, largestFree := 0, ending := .none } },
        level := if p = .p0 then 1 else 2, quota := 512, holdings := 0, watch := none }) ∧
    (∀ r : RegionId, t.region r =
      { state := .vacant, owner := .p0, base := 0, length := 0, generation := 0, name := none, fixed := false,
        grants := ⟨none, none, none, none⟩, bindings := 0, move := none }) ∧
    t.directory = [] ∧ t.freeList = [] ∧ t.lastPort = .p3 ∧ t.lastServed = .engine ∧
    (∀ p : PortId, t.waits.ports.get p = none) ∧ t.waits.step = false ∧
    t.engine.running = some ⟨3, 0, .scrub (.boot 0) ⟨0, 256⟩ 0⟩ ∧ t.engine.stack = [] ∧
    t.engine.queue = List.ofFn (fun k : Fin 7 =>
      (⟨3, k.val + 1, .scrub (.boot k.succ) ⟨256 * (k.val + 1), 256⟩ 0⟩ : Job)) ∧
    t.engine.nextOrder = 8 ∧ t.lastTaken = none ∧ t.pending = s.pending ∧ t.resets = s.resets + 1 ∧
    t.array.wf ∧ ∀ a < 524288, t.byteAt a = Config.arrayAfterReset s.resets a

/-- The state after reset keeps every law the statements about every step take as premise. -/
def Obligations.ResetIsLawful : Prop := State.reset.Lawful

/-- Raising a kind sets its flag and no other, and the event line is asserted exactly while an ATTACHED port has a flag
set whose enable is set (R175, R176, R169). -/
def Obligations.FlagsAndEventLine : Prop :=
  (∀ (e : EventBlock) (k j : EventKind), (e.raise k).flag j = (e.flag j || decide (j = k))) ∧
  ∀ q : Port, q.eventLine = true ↔
    q.portState = .attached ∧ ∃ k : EventKind, q.events.flag k = true ∧ q.events.enable k = true

/-- Asserting the reset input of an ATTACHED port makes it HELD, discards an access of it that waits, and takes the port
reset of R179 in the same event (R107, R168, R179); that no response stands is the model's choice (log 9). At a HELD port the
assertion changes nothing (log 8). -/
def Obligations.PortResetByInput : Prop :=
  (∀ (s : State) (p : PortId), s.Lawful → (s.port p).portState = .attached →
    ∃ t : State, exec (.portResetInputAssert p) s = .next t ∧
      State.PortReset { s.setPort p { s.port p with portState := .held, response := none } with
        waits := s.waits.drop (.port p) } t p) ∧
  ∀ (s : State) (p : PortId), (s.port p).portState = .held → exec (.portResetInputAssert p) s = .next s

/-- Every access presented to a HELD port is discarded with no effect and no response (R169), and the release of its reset
input makes the port ATTACHED and changes nothing else (R168). -/
def Obligations.HeldUntilRelease : Prop :=
  (∀ (s : State) (p : PortId) (a : Access) (arrivals : List Claim), (s.port p).portState = .held →
    ∀ c ∈ accessRows p a arrivals, exec c s = .next s) ∧
  ∀ (s : State) (p : PortId),
    exec (.portResetInputRelease p) s = .next (s.setPort p { s.port p with portState := .attached })

/-! ### The data window -/

/-- A read of the data window that passes the checks of R91 is served, when the arbiter gives it the array, with the
bytes of its region at the effective offset, each at its own location, and changes nothing but the response, the claimant
served last and the claims that wait: its own no more, those that arrived now (R86, R87, R91, R96, R97, R99, R100; log 1). -/
def Obligations.DataReadServed : Prop :=
  ∀ (s : State) (p : PortId) (a : Access) (arrivals : List Claim) (r : RegionId) (rights : Rights) (origin : Word),
    s.Lawful → s.presents p a = true → a.addr.toNat < 0x80000 → a.dir = .read →
    (s.port p).slot (slotIndex (s.port p).bank a.slotNumber) = .bound r rights origin →
    ¬ (a.size = .word ∧ a.addr.toNat % 2 = 1) →
    origin.toNat + a.addr.toNat % 65536 + a.size.bytes - 1 < (s.region r).length * 256 →
    arbiterServes s.lastServed (.port p) (s.arriveAll (.port p a :: arrivals)).claims = true →
    exec (.dataAccess p a arrivals) s = .next
      { (s.arriveAll (.port p a :: arrivals)).served p (s.port p) (some
          (match a.size with
            | .byte => .byte (s.regionByte r (origin.toNat + a.addr.toNat % 65536))
            | .word => .word (wordOf (s.regionByte r (origin.toNat + a.addr.toNat % 65536))
                (s.regionByte r (origin.toNat + a.addr.toNat % 65536 + 1)))))
        with lastServed := .port p }

/-- A write of the data window that passes the checks of R91 is served, when the arbiter gives it the array: its bytes
stand at their locations, every other byte of the array and everything else is unchanged but the response, the claimant
served last and the claims that wait (R86, R87, R91, R95, R96, R97, R99, R100; log 1). -/
def Obligations.DataWriteServed : Prop :=
  ∀ (s : State) (p : PortId) (a : Access) (arrivals : List Claim) (r : RegionId) (origin : Word) (e : Nat),
    s.Lawful → s.presents p a = true → a.addr.toNat < 0x80000 → a.dir = .write →
    (s.port p).slot (slotIndex (s.port p).bank a.slotNumber) = .bound r .readWrite origin →
    ¬ (a.size = .word ∧ a.addr.toNat % 2 = 1) → e = origin.toNat + a.addr.toNat % 65536 →
    e + a.size.bytes - 1 < (s.region r).length * 256 →
    arbiterServes s.lastServed (.port p) (s.arriveAll (.port p a :: arrivals)).claims = true →
    ∃ m : Memory, exec (.dataAccess p a arrivals) s = .next
        { (s.arriveAll (.port p a :: arrivals)).served p (s.port p) none with lastServed := .port p, array := m } ∧
      m.read (s.location r e) = lowByte a.data ∧
      (a.size = .word → m.read (s.location r (e + 1)) = highByte a.data) ∧
      ∀ x, x ≠ s.location r e → (a.size = .word → x ≠ s.location r (e + 1)) → m.read x = s.byteAt x

/-- The ordered checks of R91: the first that fails faults the access with its cause, at once, in slot form (R91 to R95,
R100 to R104). -/
def Obligations.DataAccessFaulted : Prop :=
  ∀ (s : State) (p : PortId) (a : Access) (arrivals : List Claim) (slot : Slot) (place : FaultPlace),
    s.presents p a = true → a.addr.toNat < 0x80000 →
    slot = (s.port p).slot (slotIndex (s.port p).bank a.slotNumber) →
    place = .slot (s.port p).bank a.slotNumber (a.addr.setWidth 16) →
    (slot = .empty → exec (.dataAccess p a arrivals) s = .next (s.faulted p a .emptySlot place)) ∧
    (∀ r cause, slot = .lapsed r cause → exec (.dataAccess p a arrivals) s = .next (s.faulted p a .lapsed place)) ∧
    ∀ r rights origin, slot = .bound r rights origin →
      (a.size = .word ∧ a.addr.toNat % 2 = 1 →
        exec (.dataAccess p a arrivals) s = .next (s.faulted p a .misaligned place)) ∧
      (¬ (a.size = .word ∧ a.addr.toNat % 2 = 1) →
        ((s.region r).length * 256 ≤ origin.toNat + a.addr.toNat % 65536 + a.size.bytes - 1 →
          exec (.dataAccess p a arrivals) s = .next (s.faulted p a .bound place)) ∧
        (origin.toNat + a.addr.toNat % 65536 + a.size.bytes - 1 < (s.region r).length * 256 →
          a.dir = .write → rights = .read →
          exec (.dataAccess p a arrivals) s = .next (s.faulted p a .readOnly place)))

/-- The arbiter's rotation: it takes the waiting claim that comes first in the order from the claimant after the one served
last, P0 following the engine; a claimant just served comes after every other, and one that comes after a waiting claim does
so until that claim is taken, so a waiting claim is taken before any other claimant has two claims taken (R86). What waits:
an access of an ATTACHED port with no other access waiting, and the engine's step while its running job calls for a scrub,
copy or clear step (R85, R86, R115); each claim that arrives joins what waits and changes nothing else (log 1). -/
def Obligations.ArbiterRotation : Prop :=
  (∀ last : Claimant, claimOrder last =
    match last with
    | .engine => [.port .p0, .port .p1, .port .p2, .port .p3, .engine]
    | .port .p0 => [.port .p1, .port .p2, .port .p3, .engine, .port .p0]
    | .port .p1 => [.port .p2, .port .p3, .engine, .port .p0, .port .p1]
    | .port .p2 => [.port .p3, .engine, .port .p0, .port .p1, .port .p2]
    | .port .p3 => [.engine, .port .p0, .port .p1, .port .p2, .port .p3]) ∧
  (∀ (last : Claimant) (claims : List Claimant), claims ≠ [] → ∃ c ∈ claims, arbiterServes last c claims = true) ∧
  (∀ (last c : Claimant) (claims : List Claimant), c ∈ claims →
    (arbiterServes last c claims = true ↔
      ∀ d ∈ claims, (claimOrder last).idxOf c ≤ (claimOrder last).idxOf d)) ∧
  (∀ me c : Claimant, me ≠ c → (claimOrder c).idxOf me < (claimOrder c).idxOf c) ∧
  (∀ (last c me x : Claimant) (claims : List Claimant), me ∈ claims →
    (claimOrder last).idxOf me < (claimOrder last).idxOf c → arbiterServes last x claims = true → x ≠ me →
    x ≠ c ∧ (claimOrder x).idxOf me < (claimOrder x).idxOf c ∧
    (claimOrder x).idxOf me < (claimOrder last).idxOf me) ∧
  (∀ (s : State) (c : Claimant), c ∈ s.claims ↔
    match c with
    | .port p => s.waits.ports.get p ≠ none
    | .engine => s.waits.step = true) ∧
  (∀ (s : State) (p : PortId) (a : Access),
    (s.presents p a = true ↔ (s.port p).portState = .attached ∧ ∀ b ∈ s.waits.ports.get p, b = a) ∧
    (s.presents p a = true → a.addr.toNat < 0x80000 →
      s.arriveAll [.port p a] = { s with waits := { s.waits with ports := s.waits.ports.set p (some a) } }) ∧
    (s.presents p a = false ∨ 0x80000 ≤ a.addr.toNat → s.arriveAll [.port p a] = s)) ∧
  (∀ s : State, s.arriveAll [] = s ∧ (∀ k l, s.arriveAll (k :: l) = (s.arriveAll [k]).arriveAll l) ∧
    (s.granuleNext = true → s.arriveAll [.engine] = { s with waits := { s.waits with step := true } }) ∧
    (s.granuleNext = false → s.arriveAll [.engine] = s)) ∧
  ∀ s : State, s.granuleNext = true ↔
    ∃ j ∈ s.engine.running, (∃ w ∈ j.scrubWork?, w.2 < w.1.length) ∨
      ∃ c ∈ j.compaction?,
        (∃ m, c.phase = .copy m ∧ ∃ v ∈ (s.region m.subject).move, v.cursor < m.length) ∨
        ∃ m vacated dirty cursor, c.phase = .clear m vacated dirty cursor ∧ cursor < dirty.length

/-! ### The unmapped range and the control window -/

/-- R89: an access that its port presents at 80080h to FFFFFh is faulted UNMAPPED, whatever its direction, size,
alignment, and the port's bank and slots, with the 20-bit address in the record. -/
def Obligations.UnmappedAccessFaulted : Prop :=
  ∀ (s : State) (p : PortId) (a : Access), s.presents p a = true → 0x80080 ≤ a.addr.toNat →
    exec (.unmappedAccess p a) s = .next (s.faulted p a .unmapped (.address a.addr))

/-- A write to COMMAND enters a command in IDLE and is discarded in PENDING; the byte at 09h is ignored (R156, R157). -/
def Obligations.CommandWriteEffect : Prop :=
  ∀ (s : State) (p : PortId) (a : Access) (q : Port), s.presents p a = true → a.dir = .write → q = s.port p →
    (a.addr = 0x80008 → q.unit.state = .idle →
      exec (.commandWrite p a) s = .next (s.served p
        { q with unit := { q.unit with
            state := .pending, overrun := false
            lastCode := if a.size = .word then a.data else a.data &&& 0x00FF } } none)) ∧
    (a.addr = 0x80008 → q.unit.state = .pending →
      exec (.commandWrite p a) s = .next (s.served p
        { q with unit := { q.unit with overrun := true }
                 events := { q.events with flags := q.events.flags ||| 32#6 } } none)) ∧
    (a.addr = 0x80009 → a.size = .byte → exec (.commandWrite p a) s = .next (s.served p q none))

/-- A write to PARAM0 to PARAM5 replaces the word, or the byte at its address, in IDLE and is discarded in PENDING (R155,
R157). -/
def Obligations.ParamWriteEffect : Prop :=
  ∀ (s : State) (p : PortId) (a : Access) (q : Port) (i : Fin 6),
    s.presents p a = true → a.dir = .write → q = s.port p →
    (a.addr.toNat = 0x80010 + 2 * i.val ∨ (a.addr.toNat = 0x80010 + 2 * i.val + 1 ∧ a.size = .byte)) →
    (q.unit.state = .idle → exec (.paramWrite p a) s = .next (s.served p
      { q with unit := { q.unit with
          params := q.unit.params.set i.val
            (if a.size = .word then a.data
              else if a.addr.toNat % 2 = 0 then wordOf (lowByte a.data) (highByte q.unit.params[i.val])
              else wordOf (lowByte q.unit.params[i.val]) (lowByte a.data)) } } none)) ∧
    (q.unit.state = .pending → exec (.paramWrite p a) s = .next (s.served p
      { q with unit := { q.unit with overrun := true }
               events := { q.events with flags := q.events.flags ||| 32#6 } } none))

/-- R55: a word write to BANK or a byte write of its low byte makes the bank of the low two bits active, a byte write of the
high byte leaves it, in either command state, and nothing else changes; a read returns the active bank with every other
bit 0; a HELD port ignores the write. -/
def Obligations.BankWriteEffect : Prop :=
  ∀ (s : State) (p : PortId) (a : Access) (q : Port), q = s.port p →
    (s.presents p a = true → a.dir = .write → a.addr = 0x80006 →
      exec (.bankWrite p a) s = .next (s.served p { q with bank := (a.data.setWidth 2).toFin } none)) ∧
    (s.presents p a = true → a.dir = .write → a.addr = 0x80007 → a.size = .byte →
      exec (.bankWrite p a) s = .next (s.served p q none)) ∧
    (s.presents p a = true → a.dir = .read → a.addr = 0x80006 → a.size = .word →
      s.access p a [] = .next (s.served p q (some (.word (BitVec.ofNat 16 q.bank.val))))) ∧
    (s.presents p a = true → a.dir = .read → a.addr = 0x80006 → a.size = .byte →
      s.access p a [] = .next (s.served p q (some (.byte (BitVec.ofNat 8 q.bank.val))))) ∧
    (s.presents p a = true → a.dir = .read → a.addr = 0x80007 → a.size = .byte →
      s.access p a [] = .next (s.served p q (some (.byte 0)))) ∧
    (q.portState = .held → exec (.bankWrite p a) s = .next s)

/-- R177: a write to EVENTS clears the flags whose positions are 1, and with the FAULT position the fault record and its
count; it is answered OK in either command state and changes nothing else, the overrun indication included. -/
def Obligations.EventsWriteEffect : Prop :=
  ∀ (s : State) (p : PortId) (a : Access) (q : Port), s.presents p a = true → a.dir = .write → q = s.port p →
    (a.addr = 0x80002 →
      exec (.eventsWrite p a) s = .next (s.served p
        { q with events := { q.events with
            flags := q.events.flags &&& ~~~(a.data.setWidth 6)
            fault := if a.data.getLsbD 1 then none else q.events.fault
            further := if a.data.getLsbD 1 then 0 else q.events.further } } none)) ∧
    (a.addr = 0x80003 → a.size = .byte → exec (.eventsWrite p a) s = .next (s.served p q none))

/-- A write to EVENT_ENABLE replaces the six enables; a byte write of the high byte, where no position lies, changes none;
no flag changes (R176). -/
def Obligations.EventEnableWriteEffect : Prop :=
  ∀ (s : State) (p : PortId) (a : Access) (q : Port), s.presents p a = true → a.dir = .write → q = s.port p →
    (a.addr = 0x80004 → exec (.eventEnableWrite p a) s = .next (s.served p
      { q with events := { q.events with enables := a.data.setWidth 6 } } none)) ∧
    (a.addr = 0x80005 → a.size = .byte → exec (.eventEnableWrite p a) s = .next (s.served p q none))

/-- A write to a read-only register, or at an offset that names none, is answered OK and changes nothing (R188, R162). -/
def Obligations.IgnoredWriteEffect : Prop :=
  ∀ (s : State) (p : PortId) (a : Access) (off : Nat),
    s.presents p a = true → a.dir = .write → ¬ (a.size = .word ∧ a.addr.toNat % 2 = 1) →
    a.addr.toNat = 0x80000 + off → (off < 2 ∨ (0x0A ≤ off ∧ off < 0x10) ∨ (0x1C ≤ off ∧ off < 0x80)) →
    exec (.ignoredWrite p a) s = .next (s.served p (s.port p) none)

/-- A word access at an odd address of the control window, read or write, is faulted MISALIGNED with the 20-bit address and
reaches no register (R90). -/
def Obligations.ControlMisalignedFaulted : Prop :=
  ∀ (s : State) (p : PortId) (a : Access), s.presents p a = true → a.size = .word →
    a.addr.toNat % 2 = 1 → 0x80000 ≤ a.addr.toNat → a.addr.toNat < 0x80080 →
    (a.dir = .read →
      exec (.controlMisalignedRead p a) s = .next (s.faulted p a .misaligned (.address a.addr))) ∧
    (a.dir = .write →
      ∀ c ∈ controlWriteRows p a, exec c s = .next (s.faulted p a .misaligned (.address a.addr)))

/-- R88: a byte read answers one byte, on lines 7-0, and a byte write takes its byte from lines 7-0, whatever the low bit of
the address, in the data window and in the control window; lines 15-8 of a byte write have no effect. The byte read is the
region's at the effective offset, or the register's at the address, and the fill value FFh where the access is faulted. -/
def Obligations.ByteAccessLanes : Prop :=
  (∀ (s : State) (p : PortId) (a : Access) (arrivals : List Claim), s.presents p a = true → a.size = .byte →
    a.dir = .read →
    (∀ (r : RegionId) (e : Nat), s.Lawful → a.addr.toNat < 0x80000 → s.checkAccess p a = .ok (r, e) →
      arbiterServes s.lastServed (.port p) (s.arriveAll (.port p a :: arrivals)).claims = true →
      ∃ t, exec (.dataAccess p a arrivals) s = .next t ∧
        (t.port p).response = some ⟨true, some (.byte (s.regionByte r e))⟩) ∧
    (∀ cause, a.addr.toNat < 0x80000 → s.checkAccess p a = .error cause →
      ∃ t, exec (.dataAccess p a arrivals) s = .next t ∧ (t.port p).response = some ⟨false, some (.byte 0xFF)⟩) ∧
    (0x80080 ≤ a.addr.toNat →
      ∃ t, exec (.unmappedAccess p a) s = .next t ∧ (t.port p).response = some ⟨false, some (.byte 0xFF)⟩) ∧
    ∀ (k : Nat) (high : Bool), k < 64 → a.addr.toNat = 0x80000 + 2 * k + (if high then 1 else 0) →
      ∃ t, s.access p a arrivals = .next t ∧ (t.port p).response = some ⟨true, some (.byte
        (if high then highByte (s.registerWord p (Register.ofWord k))
          else lowByte (s.registerWord p (Register.ofWord k))))⟩) ∧
  (∀ (s : State) (p : PortId) (a : Access) (arrivals : List Claim) (lines : Word), a.size = .byte → a.dir = .write →
    lowByte lines = lowByte a.data → s.waits.ports.get p = none →
    (a.addr.toNat < 0x80000 → arbiterServes s.lastServed (.port p) (s.arriveAll (.port p a :: arrivals)).claims = true) →
    s.access p { a with data := lines } arrivals = s.access p a arrivals) ∧
  (∀ (s t : State) (p : PortId) (a : Access) (arrivals : List Claim) (r : RegionId) (e : Nat), s.array.wf →
    s.presents p a = true → a.size = .byte → a.dir = .write → a.addr.toNat < 0x80000 →
    s.checkAccess p a = .ok (r, e) →
    arbiterServes s.lastServed (.port p) (s.arriveAll (.port p a :: arrivals)).claims = true →
    exec (.dataAccess p a arrivals) s = .next t → t.regionByte r e = a.data.setWidth 8) ∧
  ∀ (s t : State) (p : PortId) (a : Access) (i : Fin 6) (high : Bool),
    s.presents p a = true → (s.port p).unit.state = .idle → a.size = .byte → a.dir = .write →
    a.addr.toNat = 0x80010 + 2 * i.val + (if high then 1 else 0) → exec (.paramWrite p a) s = .next t →
    (if high then highByte (t.param p i) else lowByte (t.param p i)) = a.data.setWidth 8

/-- An aligned read of the control window returns the register's word, or the byte of it at the address, answers OK and
changes nothing else (R188, R90); no row of the table is such a read (log 10). Each register shows the state it stands for
(R55, R102, R149, R155, R156, R162, R175, R176), an offset that names none reads 0 (R188), and STATUS, FAULT_INFO,
FAULT_OFFSET, SLOT_VIEW and REPORT2 show the fields of Tables 12-8 to 12-10 and 12-4 in the codes of Table 12-1 at their
places (R191, R69). Every other bit reads 0 (R188); that FAULT_INFO's bits without a field do so too while the record is present
is the model's inference (log 20). -/
def Obligations.ControlReadsShowState : Prop :=
  (∀ (s : State) (p : PortId) (a : Access) (arrivals : List Claim) (k : Nat),
    s.presents p a = true → a.dir = .read → k < 64 →
    (a.addr.toNat = 0x80000 + 2 * k → a.size = .word →
      s.access p a arrivals = .next (s.served p (s.port p)
        (some (.word (s.registerWord p (Register.ofWord k)))))) ∧
    (a.addr.toNat = 0x80000 + 2 * k → a.size = .byte →
      s.access p a arrivals = .next (s.served p (s.port p)
        (some (.byte ((s.registerWord p (Register.ofWord k)).extractLsb' 0 8))))) ∧
    (a.addr.toNat = 0x80000 + 2 * k + 1 → a.size = .byte →
      s.access p a arrivals = .next (s.served p (s.port p)
        (some (.byte ((s.registerWord p (Register.ofWord k)).extractLsb' 8 8)))))) ∧
  (∀ (s : State) (p : PortId), (s.registerWord p (Register.ofWord 0)).toNat =
    (if (s.port p).unit.state = .pending then 1 else 0) + (if (s.port p).unit.overrun then 2 else 0) +
    (if p = .p0 then 4 else 0) + (if (s.port .p0).portState = .held then 256 else 0) +
    (if (s.port .p1).portState = .held then 512 else 0) + (if (s.port .p2).portState = .held then 1024 else 0) +
    (if (s.port .p3).portState = .held then 2048 else 0)) ∧
  (∀ (s : State) (p : PortId) (q : Port), q = s.port p →
    (s.registerWord p (Register.ofWord 1)).toNat = q.events.flags.toNat ∧
    (s.registerWord p (Register.ofWord 2)).toNat = q.events.enables.toNat ∧
    (s.registerWord p (Register.ofWord 3)).toNat = q.bank.val ∧
    s.registerWord p (Register.ofWord 4) = q.unit.lastCode ∧
    (∀ i : Fin 6, s.registerWord p (Register.ofWord (8 + i.val)) = q.unit.params[i.val]) ∧
    (∀ i : Fin 6, s.registerWord p (Register.ofWord (16 + i.val)) = q.unit.results[i.val]) ∧
    (s.registerWord p (Register.ofWord 0x1A)).toNat = q.events.further.toNat ∧
    s.registerWord p (Register.ofWord 0x1C) = BitVec.ofNat 16 q.events.report.regionsMoved ∧
    s.registerWord p (Register.ofWord 0x1D) = BitVec.ofNat 16 q.events.report.granulesMoved ∧
    ∀ k ∈ [5, 6, 7, 0xE, 0xF, 0x16, 0x17, 0x1B, 0x1F], s.registerWord p (Register.ofWord k) = 0) ∧
  (∀ (s : State) (p : PortId), (s.port p).events.fault = none →
    s.registerWord p (Register.ofWord 0x18) = 0 ∧ s.registerWord p (Register.ofWord 0x19) = 0) ∧
  (∀ (s : State) (p : PortId) (f : FaultRecord) (common : Nat), (s.port p).events.fault = some f →
    common =
      (match f.cause with
        | .unmapped => 1
        | .emptySlot => 2
        | .lapsed => 3
        | .misaligned => 4
        | .bound => 5
        | .readOnly => 6) + (if f.dir = .write then 8 else 0) + (if f.size = .word then 16 else 0) + 32768 →
    (∀ bank slot offset, f.place = .slot bank slot offset →
      (s.registerWord p (Register.ofWord 0x18)).toNat = common + 64 * bank.val + 256 * slot.val ∧
      s.registerWord p (Register.ofWord 0x19) = offset) ∧
    ∀ addr, f.place = .address addr →
      (s.registerWord p (Register.ofWord 0x18)).toNat = common + 32 + 256 * (addr.toNat / 65536) ∧
      (s.registerWord p (Register.ofWord 0x19)).toNat = addr.toNat % 65536) ∧
  (∀ (s : State) (p : PortId) (bank : Fin 4) (slot : Fin 8) (k : Nat), k = 32 + bank.val * 8 + slot.val →
    ((s.port p).slot (slotIndex bank slot) = .empty → s.registerWord p (Register.ofWord k) = 0) ∧
    (∀ r rights origin, (s.port p).slot (slotIndex bank slot) = .bound r rights origin →
      (s.registerWord p (Register.ofWord k)).toNat = r.val + 256 + (if rights = .read then 1024 else 2048)) ∧
    ∀ r cause, (s.port p).slot (slotIndex bank slot) = .lapsed r cause →
      (s.registerWord p (Register.ofWord k)).toNat = r.val + 512 + 4096 *
        (match cause with
          | .revoked => 1
          | .retired => 2
          | .ownerReset => 3)) ∧
  ∀ (s : State) (p : PortId), (s.port p).lawful →
    (s.registerWord p (Register.ofWord 0x1E)).toNat =
      (s.port p).events.report.largestFree + 4096 *
        (match (s.port p).events.report.ending with
          | .none => 0
          | .complete => 1
          | .halted => 2)

/-! ### Commands at the Table Controller -/

/-- R12: a reference with a name is the region the directory holds under it, else NOT_FOUND, number and generation not
examined; without a name it is the record of the number, NOT_FOUND where it is VACANT, STALE where a generation up to 255
differs; a number of 128 or above is NOT_FOUND; a reference that resolves by name finds a LIVE region. -/
def Obligations.ReferenceResolution : Prop :=
  ∀ (s : State) (name number generation : Word), s.DirectoryLaw →
    (name ≠ 0 →
      (∀ r, (⟨name, r⟩ : DirEntry) ∈ s.directory →
        s.resolve name number generation = .ok r ∧ (s.region r).state = .live) ∧
      ((∀ e ∈ s.directory, e.name ≠ name) → s.resolve name number generation = .error .notFound)) ∧
    (name = 0 → ∀ r : RegionId, number.toNat = r.val →
      ((s.region r).state = .vacant → s.resolve name number generation = .error .notFound) ∧
      ((s.region r).state ≠ .vacant → generation.toNat < 256 → generation.toNat ≠ (s.region r).generation.toNat →
        s.resolve name number generation = .error .stale) ∧
      ((s.region r).state ≠ .vacant → (256 ≤ generation.toNat ∨ generation.toNat = (s.region r).generation.toNat) →
        s.resolve name number generation = .ok r)) ∧
    (name = 0 → 128 ≤ number.toNat → s.resolve name number generation = .error .notFound)

/-- The rotation of commands: the next port taken is the first PENDING one from the port after the one taken last, P0
following P3, and there is one whenever a port is PENDING; a take makes every other PENDING port nearer to its own (R159). -/
def Obligations.CommandRotation : Prop :=
  (∀ s : State, takeOrder s.lastPort =
    match s.lastPort with
    | .p0 => [.p1, .p2, .p3, .p0]
    | .p1 => [.p2, .p3, .p0, .p1]
    | .p2 => [.p3, .p0, .p1, .p2]
    | .p3 => [.p0, .p1, .p2, .p3]) ∧
  (∀ (s : State) (p : PortId), s.nextTake = some p ↔
    (s.port p).unit.state = .pending ∧
      ∀ q, (takeOrder s.lastPort).idxOf q < (takeOrder s.lastPort).idxOf p → (s.port q).unit.state = .idle) ∧
  (∀ (s : State) (p : PortId), (s.port p).unit.state = .pending → s.nextTake ≠ none) ∧
  ∀ (s t : State) (p q : PortId) (c : Instr × (Word → Bool)), c ∈ takeRows p → exec c.1 s = .next t →
    s.mayTake p c.2 = true → (s.port q).unit.state = .pending → q ≠ p →
    t.lastPort = p ∧ (takeOrder t.lastPort).idxOf q < (takeOrder s.lastPort).idxOf q

/-- A row whose event cannot occur now changes nothing (log 2). A take waits for its port to be next in the rotation and for a
code of its kind (R159). With a completion waiting no command is taken after a command, and with a command waiting no
completion after a completion (R160; log 3). -/
def Obligations.CommandWaitsItsTurn : Prop :=
  (∀ (s : State) (p : PortId), ∀ c ∈ takeRows p,
    (s.nextTake ≠ some p ∨ c.2 (s.port p).unit.lastCode = false) → exec c.1 s = .next s) ∧
  ((∀ (s : State) (p : PortId), ∀ c ∈ takeRows p, s.completionWaits = true → s.lastTaken = some .command →
    exec c.1 s = .next s) ∧
  ∀ (s : State) (p : PortId), (s.port p).unit.state = .pending → s.lastTaken = some .completion →
    ∀ c ∈ [Instr.regionScrubEnd, .bootScrubEnd, .roundTest, .copyEnd, .clearEnd], exec c s = .next s)

/-- A CREATE that passes the checks of R15: first fit in the free-extent list, the lowest VACANT record made LIVE with the
next generation, holdings, directory entry and target slot in the same event, and its result words (R16, R11, R31, R44,
R14, R60). -/
def Obligations.CreateAccepted : Prop :=
  ∀ (s : State) (p : PortId) (q : Port) (n : Nat) (name : Word) (field bank : Nat) (r : RegionId) (x : Region)
    (low high : List Extent) (f : Extent), s.DirectoryLaw → s.taking p 1 → q = s.port p →
    n = (s.param p 0).toNat → name = s.param p 1 → field = (s.param p 3).toNat % 16 → bank = (s.param p 3).toNat / 256 →
    1 ≤ n → n ≤ 256 → (field < 8 → bank < 4) →
    (∀ i, slotNamed bank field = some i → (q.slot i).isBound = false) →
    q.holdings + n ≤ q.quota →
    (name ≠ 0 → (∀ e ∈ s.directory, e.name ≠ name) ∧ s.directory.length < 64) →
    x = s.region r → x.state = .vacant → (∀ i : RegionId, i < r → (s.region i).state ≠ .vacant) →
    s.freeList = low ++ f :: high → (∀ y ∈ low, y.length < n) → n ≤ f.length →
    exec (.takeCreate p) s = .next
      (State.answered
        { (s.setPort p { q with
              holdings := q.holdings + n
              slots := match slotNamed bank field with
                | some i => q.slots.set i.val (.bound r .readWrite 0)
                | none => q.slots }).setRegion r
            { state := .live, owner := p, base := f.base, length := n, generation := x.generation + 1,
              name := if name = 0 then none else some name, fixed := (s.param p 2).getLsbD 0,
              grants := ⟨none, none, none, none⟩, bindings := if field < 8 then 1 else 0, move := none } with
          freeList := low ++ (if f.length = n then [] else [⟨f.base + n, f.length - n⟩]) ++ high
          directory := if name = 0 then s.directory
            else (s.directory.filter fun e => e.name.toNat < name.toNat) ++ ⟨name, r⟩ ::
              s.directory.filter fun e => name.toNat < e.name.toNat }
        p [1, BitVec.ofNat 16 r.val, BitVec.ofNat 16 (x.generation + 1).toNat, BitVec.ofNat 16 f.base])

/-- A CREATE refused: the first failing check of R15 gives the code, the other words are 0, and nothing else changes but the
watch that NO_SPACE and FRAGMENTED set where WATCH is yes (R15, R17, R33, R38, R45). -/
def Obligations.CreateRefused : Prop :=
  ∀ (s : State) (p : PortId) (q : Port) (n : Nat) (name : Word) (field bank : Nat) (code : Word),
    s.taking p 1 → q = s.port p → n = (s.param p 0).toNat → name = s.param p 1 → field = (s.param p 3).toNat % 16 →
    bank = (s.param p 3).toNat / 256 →
    firstFailing
      [(n = 0 ∨ 256 < n ∨ (field < 8 ∧ 4 ≤ bank), 2),
       ((slotNamed bank field).any fun i => (q.slot i).isBound, 0xF),
       (q.quota < q.holdings + n, 7),
       (name ≠ 0 ∧ ∃ e ∈ s.directory, e.name = name, 8),
       (name ≠ 0 ∧ 64 ≤ s.directory.length, 9),
       (∀ r : RegionId, (s.region r).state ≠ .vacant, 4),
       ((s.freeList.map fun y => y.length).sum < n, 5),
       (∀ y ∈ s.freeList, y.length < n, 6)] = some code →
    exec (.takeCreate p) s = .next
      (((if (code = 5 ∨ code = 6) ∧ (s.param p 2).getLsbD 1 then s.setPort p { q with watch := some n } else s)).answered
        p [code])

/-- An OPEN that passes the checks of R61 makes the target slot BOUND with the rights and origin asked, raises the binding
count by 1, and answers region number, generation and length (R62). -/
def Obligations.OpenAccepted : Prop :=
  ∀ (s : State) (p : PortId) (q : Port) (bank : Fin 4) (slot : Fin 8) (rights : Rights) (r : RegionId) (x : Region),
    s.taking p 2 → q = s.port p → (s.param p 4).toNat = bank.val * 256 + slot.val →
    (s.param p 3 = 1 ∧ rights = .read ∨ s.param p 3 = 2 ∧ rights = .readWrite) →
    (q.slot (slotIndex bank slot)).isBound = false → s.resolveParams p = .ok r → x = s.region r → x.state = .live →
    (x.owner = p ∨ x.grants.get p = some .readWrite ∨ (x.grants.get p = some .read ∧ rights = .read)) →
    (s.param p 5).toNat < x.length * 256 →
    exec (.takeOpen p) s = .next
      (((s.setPort p { q with slots := q.slots.set (slotIndex bank slot).val (.bound r rights (s.param p 5)) }).setRegion r
        { x with bindings := x.bindings + 1 }).answered p
          [1, BitVec.ofNat 16 r.val, x.generation.setWidth 16, BitVec.ofNat 16 x.length])

/-- An OPEN refused changes nothing: the first failing check of R61 gives the code and the other words are 0 (R61, R63). -/
def Obligations.OpenRefused : Prop :=
  ∀ (s : State) (p : PortId) (code : Word), s.taking p 2 →
    (firstFailing
      [(8 ≤ (s.param p 4).toNat % 256 ∨ 4 ≤ (s.param p 4).toNat / 256 ∨ (s.param p 3 ≠ 1 ∧ s.param p 3 ≠ 2), 2),
       ((targetSlot (s.param p 4)).any fun i => ((s.port p).slot i).isBound, 0xF),
       (s.resolveParams p = .error .notFound, 0xA),
       (s.resolveParams p = .error .stale, 0xB)] = some code →
      exec (.takeOpen p) s = .next (s.answered p [code])) ∧
    ∀ (i : SlotIndex) (r : RegionId) (x : Region), targetSlot (s.param p 4) = some i →
      (s.param p 3 = 1 ∨ s.param p 3 = 2) → ((s.port p).slot i).isBound = false → s.resolveParams p = .ok r →
      x = s.region r →
      firstFailing
        [(x.state ≠ .live, 0xD),
         (x.owner ≠ p ∧ (x.grants.get p = none ∨ (x.grants.get p = some .read ∧ s.param p 3 = 2)), 0xE),
         (x.length * 256 ≤ (s.param p 5).toNat, 2)] = some code →
      exec (.takeOpen p) s = .next (s.answered p [code])

/-- CLOSE but of a LAPSED slot. One that names no slot is answered BAD_PARAM and one of an EMPTY slot SLOT_EMPTY; neither
changes anything. A CLOSE of a BOUND slot makes it EMPTY and the binding count lower by 1, and a DRAINING region whose
count is now 0 enters SCRUBBING at the closing port's level, all in one event, with the result words of R64 (R64, R6, R8,
R9). -/
def Obligations.CloseRefusedOrUnbinds : Prop :=
  (∀ (s : State) (p : PortId), s.taking p 3 →
    ((8 ≤ (s.param p 0).toNat % 256 ∨ 4 ≤ (s.param p 0).toNat / 256) →
      exec (.takeClose p) s = .next (s.answered p [2])) ∧
    ∀ (bank : Fin 4) (slot : Fin 8), (s.param p 0).toNat = bank.val * 256 + slot.val →
      (s.port p).slot (slotIndex bank slot) = .empty → exec (.takeClose p) s = .next (s.answered p [0x10])) ∧
  ∀ (s : State) (p : PortId) (q : Port) (i : SlotIndex) (r : RegionId) (x : Region) (rights : Rights) (origin : Word),
    s.Lawful → s.taking p 3 → q = { s.port p with slots := (s.port p).slots.set i.val .empty } →
    targetSlot (s.param p 0) = some i → (s.port p).slot i = .bound r rights origin → x = s.region r →
    (x.state = .live ∨ 1 < x.bindings →
      exec (.takeClose p) s = .next
        (((s.setPort p q).setRegion r { x with bindings := x.bindings - 1 }).answered p
          [1, 1, BitVec.ofNat 16 r.val, if x.state = .live then 1 else 2, 0])) ∧
    (x.state = .draining → x.bindings = 1 →
      ∃ t : State, exec (.takeClose p) s = .next (t.answered p [1, 1, BitVec.ofNat 16 r.val, 3, 0]) ∧
        (∀ y, t.port y =
          { (s.setPort p q).port y with
            holdings := if y = x.owner then (s.port y).holdings - x.length else (s.port y).holdings }) ∧
        (∀ k, t.region k = if k = r then x.gone else s.region k) ∧
        t.directory = s.directory ∧ t.engine = (s.engine.withScrub r x (s.port p).level).choose ∧
        t.freeList = s.freeList ∧ t.array = s.array ∧ t.lastServed = s.lastServed ∧
        t.waits = { s.waits with step := s.waits.step && t.granuleNext } ∧ t.pending = s.pending ∧ t.resets = s.resets)

/-- R65: a CLOSE of a LAPSED slot makes it EMPTY, reaches no region and no count, raises no event but DONE, and answers
LAPSED, the region number the slot held, 0 and the lapse cause. -/
def Obligations.CloseLapsed : Prop :=
  ∀ (s : State) (p : PortId) (i : SlotIndex) (r : RegionId) (cause : LapseCause), s.taking p 3 →
    targetSlot (s.param p 0) = some i → (s.port p).slot i = .lapsed r cause →
    exec (.takeClose p) s = .next
      ((s.setPort p { s.port p with slots := (s.port p).slots.set i.val .empty }).answered p
        [1, 2, BitVec.ofNat 16 r.val, 0,
         match cause with
          | .revoked => 1
          | .retired => 2
          | .ownerReset => 3])

/-- A GRANT that passes the checks of R75, case by case of Table 5-1: the grantee's entry takes the rights asked; a
narrowing lowers its READ_WRITE slots on the region to READ in place; a revocation lapses its slots with REVOKED, raises
LAPSE once if there was one, and lowers the count by as many; any other case changes no slot. The result gives grantee,
previous rights, new rights and slots changed (R76 to R79). -/
def Obligations.GrantAccepted : Prop :=
  ∀ (s : State) (p g : PortId) (q : Port) (r : RegionId) (x : Region) (asked : Option Rights),
    s.taking p 4 → (s.param p 3).toNat = g.toNat → g ≠ p → (s.param p 4).toNat = rightsCode asked →
    s.resolveParams p = .ok r → x = s.region r → x.owner = p → x.state = .live → q = s.port g →
    (asked = none → x.grants.get g ≠ none →
      exec (.takeGrant p) s = .next
        (((s.setPort g { q with
              slots := q.slots.map (Slot.lapsedFrom r .revoked)
              events := if q.slotsOn r = [] then q.events
                else { q.events with flags := q.events.flags ||| 4#6 } }).setRegion r
            { x with grants := x.grants.set g none, bindings := x.bindings - (q.slotsOn r).length }).answered p
          [1, BitVec.ofNat 16 g.toNat, BitVec.ofNat 16 (rightsCode (x.grants.get g)), 0,
           BitVec.ofNat 16 (q.slotsOn r).length])) ∧
    (asked = some .read → x.grants.get g = some .readWrite →
      exec (.takeGrant p) s = .next
        (((s.setPort g { q with
              slots := q.slots.map fun c => match c with
                | .bound k .readWrite origin => if k = r then .bound k .read origin else c
                | _ => c }).setRegion r { x with grants := x.grants.set g asked }).answered p
          [1, BitVec.ofNat 16 g.toNat, 2, 1,
           BitVec.ofNat 16
            ((List.finRange 32).filter fun i => (q.slot i).binding? = some (r, .readWrite)).length])) ∧
    (¬ (asked = none ∧ x.grants.get g ≠ none) → ¬ (asked = some .read ∧ x.grants.get g = some .readWrite) →
      exec (.takeGrant p) s = .next
        ((s.setRegion r { x with grants := x.grants.set g asked }).answered p
          [1, BitVec.ofNat 16 g.toNat, BitVec.ofNat 16 (rightsCode (x.grants.get g)), s.param p 4, 0]))

/-- A GRANT refused changes nothing: the first failing check of R75 gives the code and the other words are 0. -/
def Obligations.GrantRefused : Prop :=
  ∀ (s : State) (p : PortId) (code : Word), s.taking p 4 →
    (firstFailing
      [(4 ≤ (s.param p 3).toNat ∨ (s.param p 3).toNat = p.toNat ∨ 2 < (s.param p 4).toNat, 2),
       (s.resolveParams p = .error .notFound, 0xA),
       (s.resolveParams p = .error .stale, 0xB)] = some code →
      exec (.takeGrant p) s = .next (s.answered p [code])) ∧
    ∀ (r : RegionId) (x : Region), (s.param p 3).toNat < 4 → (s.param p 3).toNat ≠ p.toNat →
      (s.param p 4).toNat ≤ 2 → s.resolveParams p = .ok r → x = s.region r →
      firstFailing [(x.owner ≠ p, 0xC), (x.state ≠ .live, 0xD)] = some code →
      exec (.takeGrant p) s = .next (s.answered p [code])

/-- A RETIRE GENTLE of the issuer's LIVE region with bindings makes it DRAINING: its name leaves the directory and the
record, everything else stays, and the result gives the binding count (R4, R19, R46). -/
def Obligations.RetireGentleDrains : Prop :=
  ∀ (s : State) (p : PortId) (r : RegionId) (x : Region), s.DirectoryLaw → s.taking p 5 → s.param p 3 = 1 →
    s.resolveParams p = .ok r → x = s.region r → x.owner = p → x.state = .live → 0 < x.bindings →
    exec (.takeRetire p) s = .next
      (State.answered
        { s.setRegion r { x with state := .draining, name := none } with
          directory := s.directory.filter fun e => e.region ≠ r }
        p [1, BitVec.ofNat 16 r.val, 2, BitVec.ofNat 16 x.bindings])

/-- A RETIRE that sends a region to SCRUBBING in its event: GENTLE of the issuer's LIVE region without bindings, or FORCE by
the owner or P0 of a LIVE or DRAINING one, every binding lapsing with RETIRED and LAPSE raised once at each port that had
one. Holdings fall, the name leaves, grants empty, a move is aborted, and a scrub job at the issuing port's level is made
(R4, R5, R8, R9, R19, R66, R67, R142). -/
def Obligations.RetireToScrubbing : Prop :=
  ∀ (s : State) (p : PortId) (r : RegionId) (x : Region), s.Lawful → s.taking p 5 →
    s.resolveParams p = .ok r → x = s.region r →
    ((s.param p 3 = 1 ∧ x.owner = p ∧ x.state = .live ∧ x.bindings = 0) ∨
      (s.param p 3 = 2 ∧ (x.owner = p ∨ p = .p0) ∧ (x.state = .live ∨ x.state = .draining))) →
    ∃ t : State,
      exec (.takeRetire p) s = .next
        (t.answered p [1, BitVec.ofNat 16 r.val, 3, BitVec.ofNat 16 x.bindings]) ∧
      (∀ y, t.port y = (s.port y).loses y r x .retired) ∧
      (∀ k, t.region k = if k = r then x.gone else s.region k) ∧
      t.directory = (s.directory.filter fun e => e.region ≠ r) ∧
      t.engine = (s.engine.withScrub r x (s.port p).level).choose ∧
      t.freeList = s.freeList ∧ t.array = s.array ∧ t.lastServed = s.lastServed ∧
      t.waits = { s.waits with step := s.waits.step && t.granuleNext } ∧ t.pending = s.pending ∧ t.resets = s.resets

/-- A RETIRE refused changes nothing: the first failing check of R18 gives the code and the other words are 0. -/
def Obligations.RetireRefused : Prop :=
  ∀ (s : State) (p : PortId) (code : Word), s.taking p 5 →
    (firstFailing
      [(s.param p 3 ≠ 1 ∧ s.param p 3 ≠ 2, 2),
       (s.resolveParams p = .error .notFound, 0xA),
       (s.resolveParams p = .error .stale, 0xB)] = some code →
      exec (.takeRetire p) s = .next (s.answered p [code])) ∧
    ∀ (r : RegionId) (x : Region), (s.param p 3 = 1 ∨ s.param p 3 = 2) → s.resolveParams p = .ok r → x = s.region r →
      firstFailing
        [(x.owner ≠ p ∧ ¬ (p = .p0 ∧ s.param p 3 = 2), 0xC),
         (x.state = .scrubbing ∨ (s.param p 3 = 1 ∧ x.state = .draining), 0xD)] = some code →
      exec (.takeRetire p) s = .next (s.answered p [code])

/-- INQUIRE changes nothing and answers the record's fields at the places of Table 12-7, or the code of a reference that
does not resolve (R20, R21, R73). -/
def Obligations.InquireAnswered : Prop :=
  ∀ (s : State) (p : PortId), s.taking p 6 →
    (s.resolveParams p = .error .notFound → exec (.takeInquire p) s = .next (s.answered p [0xA])) ∧
    (s.resolveParams p = .error .stale → exec (.takeInquire p) s = .next (s.answered p [0xB])) ∧
    ∀ (r : RegionId) (x : Region), s.resolveParams p = .ok r → x = s.region r → x.bindings < 256 →
      ∃ w v : Word,
        exec (.takeInquire p) s = .next (s.answered p
          [1, w, v, BitVec.ofNat 16 x.base, BitVec.ofNat 16 x.length, x.name.getD 0]) ∧
        w.toNat = r.val + 256 * x.generation.toNat ∧
        v.toNat =
          (match x.state with
            | .vacant => 0
            | .live => 1
            | .draining => 2
            | .scrubbing => 3) + 4 * x.owner.toNat +
          16 * (if x.owner = p then 3 else rightsCode (x.grants.get p)) + (if x.move = none then 0 else 64) +
          256 * x.bindings

/-- COMPACT answers ALREADY while the job set holds a COMPACTION job; else it makes one at the port's level, the port as
issuer, scan point and counts 0, which an idle engine runs. HALT answers NO_COMPACTION without a compaction job and
NOT_OWNER at a port that is neither the issuer nor P0; else it sets the halt request and answers the phase, the subject
and the request as it was (R133, R114, R144). -/
def Obligations.CompactAndHaltAnswered : Prop :=
  (∀ (s : State) (p : PortId), s.taking p 7 →
    ((∃ j ∈ s.engine.jobs, ∃ c, j.work = .compaction c) → exec (.takeCompact p) s = .next (s.answered p [0x11])) ∧
    ((∀ j ∈ s.engine.jobs, ∀ c, j.work ≠ .compaction c) →
      exec (.takeCompact p) s = .next
        (State.answered
          { s with
            engine := (s.engine.make (s.port p).level
              (.compaction { issuer := some p, halt := false, scanPoint := 0, phase := .scan, regionsMoved := 0,
                             granulesMoved := 0 })).choose }
          p [1, BitVec.ofNat 16 (s.port p).level.val]))) ∧
  ∀ (s : State) (p : PortId), s.taking p 8 → (s.engine.jobs.filterMap Job.compaction?).length ≤ 1 →
    ((∀ j ∈ s.engine.jobs, ∀ c, j.work ≠ .compaction c) → exec (.takeHalt p) s = .next (s.answered p [0x12])) ∧
    ∀ j ∈ s.engine.jobs, ∀ c, j.work = .compaction c →
      (c.issuer ≠ some p → p ≠ .p0 → exec (.takeHalt p) s = .next (s.answered p [0xC])) ∧
      (c.issuer = some p ∨ p = .p0 →
        exec (.takeHalt p) s = .next
          (State.answered { s with engine := s.engine.withCompaction fun d => { d with halt := true } } p
            [1,
             match c.phase with
              | .scan => 0
              | .copy _ => 1
              | .clear _ _ _ _ => 2,
             match c.phase with
              | .scan => 0
              | .copy m => BitVec.ofNat 16 m.subject.val
              | .clear m _ _ _ => BitVec.ofNat 16 m.subject.val,
             if c.halt then 1 else 0]))

/-- SET_PORT at P0 writes the named port's level and quota and answers the previous ones and whether the quota lies below
the holdings; elsewhere it answers NOT_SUPERVISOR, and BAD_PARAM where a value is out of range (R170, R172, R173). -/
def Obligations.SetPortAnswered : Prop :=
  ∀ (s : State) (p : PortId) (code : Word), s.taking p 9 →
    (firstFailing
      [(p ≠ .p0, 3),
       (4 ≤ (s.param p 0).toNat ∨ 4 ≤ (s.param p 1).toNat ∨ 2048 < (s.param p 2).toNat, 2)] = some code →
      exec (.takeSetPort p) s = .next (s.answered p [code])) ∧
    ∀ (x : PortId) (level : Level) (quota : Nat), p = .p0 → (s.param p 0).toNat = x.toNat →
      (s.param p 1).toNat = level.val → quota = (s.param p 2).toNat → quota ≤ 2048 →
      exec (.takeSetPort p) s = .next
        ((s.setPort x { s.port x with level := level, quota := quota }).answered p
          [1, s.param p 0, BitVec.ofNat 16 (s.port x).level.val, BitVec.ofNat 16 (s.port x).quota,
           if quota < (s.port x).holdings then 1 else 0])

/-- RESET_PORT at P0 naming P1, P2 or P3 takes the port reset of R179 for it within its own take and answers its figures;
elsewhere it answers NOT_SUPERVISOR, and BAD_PARAM for P0 or above 3 (R178, R181). -/
def Obligations.ResetPortAnswered : Prop :=
  ∀ (s : State) (p : PortId), s.taking p 10 →
    (p ≠ .p0 → exec (.takeResetPort p) s = .next (s.answered p [3])) ∧
    (p = .p0 → ((s.param p 0).toNat = 0 ∨ 3 < (s.param p 0).toNat) →
      exec (.takeResetPort p) s = .next (s.answered p [2])) ∧
    (p = .p0 → s.Lawful → ∀ x : PortId, x ≠ .p0 → (s.param p 0).toNat = x.toNat →
      ∃ t : State, s.PortReset t x ∧ exec (.takeResetPort p) s = .next (t.answered p
        [1, s.param p 0, if (s.port x).unit.state = .pending then 1 else 0,
         BitVec.ofNat 16 ((List.finRange 32).filter fun i => ((s.port x).slot i).isBound).length,
         BitVec.ofNat 16 (s.lastHeldBy x ++ s.retiredWith x).length,
         BitVec.ofNat 16 (PortId.all.flatMap fun y => if y = x then [] else
           (s.retiredWith x).flatMap fun r => (s.port y).slotsOn r).length]))

/-- A taken command with an unknown code, every value but 0001h to 000Ah, answers BAD_PARAM with its other words 0, returns
the unit to IDLE, raises DONE and changes nothing else; the last code stays (R164). -/
def Obligations.UnknownCommandAnswered : Prop :=
  ∀ (s : State) (p : PortId) (code : Word), (code = 0 ∨ 10 < code.toNat) → s.taking p code →
    exec (.takeUnknown p) s = .next (s.answered p [2]) ∧ ((s.answered p [2]).port p).unit.lastCode = code

/-! ### The Granule Engine -/

/-- The job set. A job made joins the queue behind every job of its level or a more urgent one and ahead of the others. An
idle engine runs the more urgent of queue head and stack top, the stack top on a tie. At a step boundary a strictly more
urgent queue head suspends the running job onto the stack, and nothing else does (R110, R112, R114, R117). -/
def Obligations.EngineQueuesChoosesPreempts : Prop :=
  (∀ (e : Engine) (level : Level) (work : Work) (before after : List Job),
    e.queue = before ++ after → (∀ k ∈ before, k.level ≤ level) → (∀ k ∈ after, level < k.level) →
    (∀ k ∈ e.queue, k.order < e.nextOrder) →
    e.make level work =
      { e with queue := before ++ ⟨level, e.nextOrder, work⟩ :: after, nextOrder := e.nextOrder + 1 }) ∧
  (∀ (e : Engine) (q : Job) (qs : List Job), e.running = none → e.queue = q :: qs →
    (e.stack = [] ∨ ∃ t ts, e.stack = t :: ts ∧ q.level < t.level) →
    e.choose = { e with running := some q, queue := qs }) ∧
  (∀ (e : Engine) (t : Job) (ts : List Job), e.running = none → e.stack = t :: ts →
    (e.queue = [] ∨ ∃ q qs, e.queue = q :: qs ∧ t.level ≤ q.level) →
    e.choose = { e with running := some t, stack := ts }) ∧
  (∀ e : Engine, (e.running ≠ none ∨ (e.queue = [] ∧ e.stack = [])) → e.choose = e) ∧
  (∀ (e : Engine) (j q : Job) (qs : List Job), e.running = some j → e.queue = q :: qs → q.level < j.level →
    e.boundary = { e with running := some q, stack := j :: e.stack, queue := qs }) ∧
  ∀ (e : Engine) (j : Job), e.running = some j → (∀ q ∈ e.queue.head?, j.level ≤ q.level) → e.boundary = e

/-- A scrub step writes 00h into every byte of the granule at span base plus cursor, leaves every other byte, raises the
cursor by one, and is followed by a step boundary unless no step is left; the step waits no more, the claims that arrived with
it do (R86, R120, R115, R117, R123; log 1). -/
def Obligations.ScrubStepClearsGranule : Prop :=
  ∀ (s : State) (arrivals : List Claim) (level : Level) (order : Nat) (target : ScrubTarget) (span : Extent)
    (cursor : Nat) (e : Engine) (u : State), s.Lawful →
    s.engine.running = some ⟨level, order, .scrub target span cursor⟩ → cursor < span.length →
    u = s.arriveAll (.engine :: arrivals) → arbiterServes s.lastServed .engine u.claims = true →
    e = { s.engine with running := some ⟨level, order, .scrub target span (cursor + 1)⟩ } →
    ∃ m : Memory,
      exec (.scrubStep arrivals) s = .next
        { u with array := m, lastServed := .engine, waits := u.waits.drop .engine
                 engine := if cursor + 1 < span.length then e.boundary else e } ∧
      ∀ x, m.read x = if x / 256 = span.base + cursor then 0 else s.byteAt x

/-- The end of a scrub job: a region's record becomes VACANT with its generation kept and its extent joins the free-extent
list; a boot extent joins it; watches are tested, the job leaves, the engine chooses (R10, R36, R30, R39, R114, R123 to
R125). -/
def Obligations.ScrubJobEnds : Prop :=
  ∀ (s : State) (level : Level) (order : Nat) (target : ScrubTarget) (span : Extent) (cursor : Nat),
    s.engine.running = some ⟨level, order, .scrub target span cursor⟩ → span.length ≤ cursor →
    (s.lastTaken = some .completion → ∀ p, (s.port p).unit.state = .idle) →
    (∀ r x, target = .region r → x = s.region r →
      exec .regionScrubEnd s = .next
        { (s.setRegion r
            { state := .vacant, owner := .p0, base := 0, length := 0, generation := x.generation, name := none,
              fixed := false, grants := ⟨none, none, none, none⟩, bindings := 0, move := none }).withFree
            ⟨x.base, x.length⟩ with
          lastTaken := some .completion, engine := { s.engine with running := none }.choose }) ∧
    ∀ k, target = .boot k →
      exec .bootScrubEnd s = .next
        { s.withFree span with
          lastTaken := some .completion, engine := { s.engine with running := none }.choose }

/-- Coalescing insertion keeps the list ascending with no two extents touching, adds exactly the granules of the inserted
extent, forms one extent that holds it, and leaves every entry that does not touch it (R27, R29). -/
def Obligations.InsertionCoalesces : Prop :=
  ∀ (l : List Extent) (e : Extent), l.Pairwise (fun x y => x.stop < y.base) → (∀ x ∈ l, 1 ≤ x.length) →
    1 ≤ e.length → (∀ x ∈ l, x.stop ≤ e.base ∨ e.stop ≤ x.base) →
    (insertExtent l e).1.Pairwise (fun x y => x.stop < y.base) ∧ (∀ x ∈ (insertExtent l e).1, 1 ≤ x.length) ∧
    (insertExtent l e).2 ∈ (insertExtent l e).1 ∧
    (insertExtent l e).2.base ≤ e.base ∧ e.stop ≤ (insertExtent l e).2.stop ∧
    (∀ g, (∃ x ∈ (insertExtent l e).1, x.contains g = true) ↔ (∃ x ∈ l, x.contains g = true) ∨ e.contains g = true) ∧
    ∀ x ∈ l, x.stop ≠ e.base → e.stop ≠ x.base → x ∈ (insertExtent l e).1

/-- A round test ends the job HALTED on a halt request and COMPLETE where no free extent lies at or above the scan point:
the issuer, if any, gets the report and COMPACT_END, the job leaves, the engine chooses (R135, R148, R149, R41). -/
def Obligations.RoundTestEndsJob : Prop :=
  ∀ (s : State) (level : Level) (order : Nat) (c : Compaction) (ending : Ending),
    s.engine.running = some ⟨level, order, .compaction c⟩ → c.phase = .scan →
    (s.lastTaken = some .completion → ∀ p, (s.port p).unit.state = .idle) →
    (c.halt = true ∧ ending = .halted ∨
      c.halt = false ∧ (∀ f ∈ s.freeList, f.base < c.scanPoint) ∧ ending = .complete) →
    exec .roundTest s = .next
      { s with
        ports := s.ports.map fun p q =>
          if c.issuer = some p then
            { q with events := { q.events with
                flags := q.events.flags ||| 16#6
                report := { regionsMoved := c.regionsMoved, granulesMoved := c.granulesMoved,
                            largestFree := (s.freeList.map fun f => f.length).foldl max 0, ending := ending } } }
          else q
        engine := { s.engine with running := none }.choose
        lastTaken := some .completion }

/-- A round test that finds a region it may move directly above the lowest free extent at or above the scan point starts
the move: the extent leaves the list as the reservation, the region gets a move record with cursor 0, the job enters COPY
(R135, R137, R32). Any other free extent is passed by, the scan point becoming its end (R135, R136, R13). -/
def Obligations.RoundTestMovesOrPasses : Prop :=
  ∀ (s : State) (level : Level) (order : Nat) (c : Compaction) (low high : List Extent) (f : Extent),
    s.Lawful → s.engine.running = some ⟨level, order, .compaction c⟩ → c.phase = .scan →
    (s.lastTaken = some .completion → ∀ p, (s.port p).unit.state = .idle) → c.halt = false →
    s.freeList = low ++ f :: high → (∀ y ∈ low, y.base < c.scanPoint) → c.scanPoint ≤ f.base →
    (∀ (r : RegionId) (x : Region), x = s.region r → x.state = .live → x.base = f.base + f.length → x.fixed = false →
      x.move = none →
      exec .roundTest s = .next
        { s.setRegion r { x with move := some ⟨f.base, 0⟩ } with
          freeList := low ++ high
          engine := { s.engine with running := some ⟨level, order, .compaction { c with
            phase := .copy ⟨r, f, x.base, x.length⟩ }⟩ }.boundary
          lastTaken := some .completion }) ∧
    ((∀ r : RegionId, (s.region r).state = .live → (s.region r).base = f.base + f.length →
        (s.region r).fixed = true ∨ (s.region r).move ≠ none) →
      exec .roundTest s = .next
        { s with
          engine := { s.engine with running := some ⟨level, order, .compaction { c with
            scanPoint := f.base + f.length }⟩ }.boundary
          lastTaken := some .completion })

/-- A copy step writes the 256 bytes of the subject's granule at the cursor to its place in the reservation, leaves every
other byte, and raises the cursor by one; a step boundary follows; the step waits no more, the claims that arrived with it do (R86,
R138, R105, R127; log 1). -/
def Obligations.CopyStepCopiesGranule : Prop :=
  ∀ (s : State) (arrivals : List Claim) (level : Level) (order : Nat) (c : Compaction) (m : Move) (x : Region)
    (v : MoveRecord) (u : State), s.Lawful → s.engine.running = some ⟨level, order, .compaction c⟩ → c.phase = .copy m →
    x = s.region m.subject → x.move = some v → v.cursor < m.length →
    u = s.arriveAll (.engine :: arrivals) → arbiterServes s.lastServed .engine u.claims = true →
    ∃ mem : Memory,
      exec (.copyStep arrivals) s = .next
        { u.setRegion m.subject { x with move := some ⟨v.dest, v.cursor + 1⟩ } with
          array := mem, lastServed := .engine, waits := u.waits.drop .engine, engine := s.engine.boundary } ∧
      ∀ y, mem.read y =
        if y / 256 = m.extent.base + v.cursor then s.byteAt (256 * (m.source + v.cursor) + y % 256) else s.byteAt y

/-- The end of COPY: the subject stands at the destination base without its move record, and the job enters CLEAR over the
vacated span, its dirty part the granules of it that lay in the old extent (R139). -/
def Obligations.CopyEndMovesRegion : Prop :=
  ∀ (s : State) (level : Level) (order : Nat) (c : Compaction) (m : Move) (x : Region) (v : MoveRecord),
    s.Lawful → s.engine.running = some ⟨level, order, .compaction c⟩ → c.phase = .copy m →
    x = s.region m.subject → x.move = some v → v.cursor = m.length →
    (s.lastTaken = some .completion → ∀ p, (s.port p).unit.state = .idle) →
    ∃ dirty : Extent,
      exec .copyEnd s = .next
        { s.setRegion m.subject { x with base := m.extent.base, move := none } with
          engine := { s.engine with running := some ⟨level, order, .compaction { c with
            phase := .clear m ⟨m.extent.base + m.length, m.extent.length⟩ dirty 0 }⟩ }.boundary
          lastTaken := some .completion } ∧
      dirty.base = max (m.extent.base + m.length) m.source ∧ dirty.length = min m.extent.length m.length ∧
      dirty.base + dirty.length = m.source + m.length

/-- A clear step writes 00h into every byte of the granule at dirty part base plus clear cursor, leaves every other byte,
and raises the clear cursor by one; a step boundary follows; the step waits no more, the claims that arrived with it do (R86,
R140, R127; log 1). -/
def Obligations.ClearStepClearsGranule : Prop :=
  ∀ (s : State) (arrivals : List Claim) (level : Level) (order : Nat) (c : Compaction) (m : Move)
    (vacated dirty : Extent) (cursor : Nat) (u : State), s.Lawful →
    s.engine.running = some ⟨level, order, .compaction c⟩ → c.phase = .clear m vacated dirty cursor →
    cursor < dirty.length → u = s.arriveAll (.engine :: arrivals) → arbiterServes s.lastServed .engine u.claims = true →
    ∃ mem : Memory,
      exec (.clearStep arrivals) s = .next
        { u with
          array := mem, lastServed := .engine, waits := u.waits.drop .engine
          engine := { s.engine with running := some ⟨level, order, .compaction { c with
            phase := .clear m vacated dirty (cursor + 1) }⟩ }.boundary } ∧
      ∀ y, mem.read y = if y / 256 = dirty.base + cursor then 0 else s.byteAt y

/-- The end of CLEAR: the vacated span joins the free-extent list, watches are tested, the move is counted up to the limits,
and the job returns to SCAN at the subject's new base (R141, R30, R39, R149). -/
def Obligations.ClearEndFreesSpan : Prop :=
  ∀ (s : State) (level : Level) (order : Nat) (c : Compaction) (m : Move) (vacated dirty : Extent) (cursor : Nat),
    s.engine.running = some ⟨level, order, .compaction c⟩ → c.phase = .clear m vacated dirty cursor →
    dirty.length ≤ cursor → (s.lastTaken = some .completion → ∀ p, (s.port p).unit.state = .idle) →
    exec .clearEnd s = .next
      { s.withFree vacated with
        engine := { s.engine with running := some ⟨level, order, .compaction { c with
          phase := .scan, scanPoint := m.extent.base
          regionsMoved := if c.regionsMoved < 128 then c.regionsMoved + 1 else 128
          granulesMoved := if c.granulesMoved + m.length < 2048 then c.granulesMoved + m.length else 2048 }⟩ }.boundary
        lastTaken := some .completion }

/-- A claim that the arbiter does not take next comes to wait, with those that arrived, and nothing of it has been decided
(R86; log 1). Of a port whose access waits no other access is presented (R85), and the engine takes only the step or action
that its running job calls for next (R113, R115, R119); such a row changes nothing (log 2). A claim that waits goes on waiting
over every command but its own and a reset that ends it (R107, R129), an engine step also where its move is aborted (R142), and
each claim served brings it nearer (R86). -/
def Obligations.StepWaitsItsTurn : Prop :=
  ((∀ (s u : State) (p : PortId) (a : Access) (arrivals : List Claim) (r : RegionId) (e : Nat),
    s.presents p a = true → a.addr.toNat < 0x80000 → s.checkAccess p a = .ok (r, e) →
    u = s.arriveAll (.port p a :: arrivals) → arbiterServes s.lastServed (.port p) u.claims = false →
    exec (.dataAccess p a arrivals) s = .next u) ∧
  (∀ (s : State) (p : PortId) (a b : Access) (arrivals : List Claim), s.waits.ports.get p = some b → b ≠ a →
    ∀ c ∈ accessRows p a arrivals, exec c s = .next s) ∧
  ∀ (s u : State) (arrivals : List Claim) (j : Job), s.engine.running = some j → u = s.arriveAll (.engine :: arrivals) →
    arbiterServes s.lastServed .engine u.claims = false →
    ((∀ w ∈ j.scrubWork?, w.2 < w.1.length → exec (.scrubStep arrivals) s = .next u) ∧
    (∀ c ∈ j.compaction?, ∀ m, c.phase = .copy m → ∀ v ∈ (s.region m.subject).move, v.cursor < m.length →
      exec (.copyStep arrivals) s = .next u) ∧
    ∀ c ∈ j.compaction?, ∀ m vacated dirty cursor, c.phase = .clear m vacated dirty cursor → cursor < dirty.length →
      exec (.clearStep arrivals) s = .next u)) ∧
  (∀ (s t : State) (c : Instr), s.Lawful → exec c s = .next t →
    (∀ p a, s.waits.ports.get p = some a → t.waits.ports.get p = some a ∨ c = .portResetInputAssert p ∨
      c = .deviceReset ∨ ∃ arrivals, c ∈ accessRows p a arrivals) ∧
    (s.waits.step = true → t.waits.step = true ∨ t.granuleNext = false ∨ c = .deviceReset ∨
      ∃ arrivals, c = .scrubStep arrivals ∨ c = .copyStep arrivals ∨ c = .clearStep arrivals) ∧
    ∀ me ∈ s.claims, me ∈ t.claims → t.lastServed = s.lastServed ∨
      (claimOrder t.lastServed).idxOf me < (claimOrder s.lastServed).idxOf me) ∧
  ∀ (s : State) (arrivals : List Claim),
    ((∀ j ∈ s.engine.running, ∀ w ∈ j.scrubWork?, w.1.length ≤ w.2) → exec (.scrubStep arrivals) s = .next s) ∧
    ((∀ j ∈ s.engine.running, ∀ w ∈ j.scrubWork?, j.scrubRegion? ≠ none → w.2 < w.1.length) →
      exec .regionScrubEnd s = .next s) ∧
    ((∀ j ∈ s.engine.running, ∀ w ∈ j.scrubWork?, j.scrubRegion? = none → w.2 < w.1.length) →
      exec .bootScrubEnd s = .next s) ∧
    ((∀ j ∈ s.engine.running, ∀ c ∈ j.compaction?, c.phase ≠ .scan) → exec .roundTest s = .next s) ∧
    ((∀ j ∈ s.engine.running, ∀ c ∈ j.compaction?, ∀ m, c.phase = .copy m →
        ∀ v ∈ (s.region m.subject).move, m.length ≤ v.cursor) → exec (.copyStep arrivals) s = .next s) ∧
    ((∀ j ∈ s.engine.running, ∀ c ∈ j.compaction?, ∀ m, c.phase = .copy m →
        ∀ v ∈ (s.region m.subject).move, v.cursor < m.length) → exec .copyEnd s = .next s) ∧
    ((∀ j ∈ s.engine.running, ∀ c ∈ j.compaction?, ∀ m vacated dirty cursor,
        c.phase = .clear m vacated dirty cursor → dirty.length ≤ cursor) → exec (.clearStep arrivals) s = .next s) ∧
    ((∀ j ∈ s.engine.running, ∀ c ∈ j.compaction?, ∀ m vacated dirty cursor,
        c.phase = .clear m vacated dirty cursor → cursor < dirty.length) → exec .clearEnd s = .next s)

/-! ### The laws every step keeps -/

/-- The array's canonical form is kept by every step: addresses rising inside the array, no listed byte 00h. The form is the
model's representation of the array of section 2.1 (log 5), so that equal contents are equal data. -/
def Obligations.StepKeepsMemoryForm : Prop :=
  ∀ s t : State, s.array.wf → step s = .next t → t.array.wf

/-- R1, R3, R14, R42, R72: every step keeps the record fields, the holdings and the name directory lawful. -/
def Obligations.StepKeepsTableLaws : Prop :=
  ∀ s t : State, s.Lawful → step s = .next t → t.RecordLaw ∧ t.HoldingsLaw ∧ t.DirectoryLaw

/-- R60, R80: after every step each binding count equals the number of BOUND slots naming the region, every BOUND slot names
a region in LIVE or DRAINING, and none of a port that does not own the region has more rights than the port's grant. -/
def Obligations.StepKeepsBindingLaws : Prop :=
  ∀ s t : State, s.Lawful → step s = .next t → t.BindingLaw ∧ t.RightsLaw

/-- R108, R111, R112, R113, R116, R127, R132: every step keeps one scrub job for each SCRUBBING region, at most one compaction
job, the queue in order, the stack a chain of rising urgency of at most three, and move records only on the subject of
the compaction job's COPY phase, which fits the region table. -/
def Obligations.StepKeepsJobLaws : Prop :=
  ∀ s t : State, s.Lawful → step s = .next t → t.JobLaw ∧ t.engine.Ordered ∧ t.MoveLaw

/-- R26, R27: after every step each granule is in exactly one of the four places, and the free-extent list ascends with no
two extents touching. -/
def Obligations.StepKeepsSpaceLaws : Prop :=
  ∀ s t : State, s.Lawful → step s = .next t → t.PlacementLaw ∧ t.FreeListLaw

/-- R27, R30, R118, R139: after every step all free space and all scrubbed or cleared spans read 00h. -/
def Obligations.StepKeepsFreeSpaceClean : Prop :=
  ∀ s t : State, s.Lawful → step s = .next t → t.CleanLaw

/-- R37, R86, R102, R107, R115, R149, R169, R171: every step keeps the limits of port fields, a HELD port as its port reset left
it (that no response of it stands is the model's choice, log 9), and what waits at the Array Arbiter a data-window access, or
a granule step that the running job calls for. -/
def Obligations.StepKeepsPortLaws : Prop :=
  ∀ s t : State, s.Lawful → step s = .next t → t.PortLaw ∧ t.HeldLaw ∧ t.ClaimLaw

/-! ### What reaches a region's data -/

/-- No command but an access changes what a port sees at any offset of a region that stays in service: not a copy step, not
the end of a move, not another port's commands, scrubs or resets (R58, R97, R98, R121, R142, R186). -/
def Obligations.OnlyAccessesChangeRegionData : Prop :=
  ∀ (s t : State) (c : Instr), s.Lawful → (∀ p a arrivals, c ∉ accessRows p a arrivals) → exec c s = .next t →
    ∀ r : RegionId, (s.region r).state.inUse = true → (t.region r).state.inUse = true →
      ∀ x < (s.region r).length * 256, t.regionByte r x = s.regionByte r x

/-- An access changes a byte of a region in service only as a write through a READ_WRITE slot of the active bank on that
region, at the bytes it addresses, by a port that owns the region or holds READ_WRITE in its grant list (R56, R80, R91,
R95, R96, R99). -/
def Obligations.WriteReachesOnlyItsBytes : Prop :=
  ∀ (s t : State) (p : PortId) (a : Access) (arrivals : List Claim), s.Lawful →
    ∀ c ∈ accessRows p a arrivals, exec c s = .next t →
    ∀ r : RegionId, (s.region r).state.inUse = true → ∀ x < (s.region r).length * 256,
      t.regionByte r x ≠ s.regionByte r x →
      a.dir = .write ∧ (s.port p).portState = .attached ∧
      ((s.region r).owner = p ∨ (s.region r).grants.get p = some .readWrite) ∧
      ∃ origin, (s.port p).slot (slotIndex (s.port p).bank a.slotNumber) = .bound r .readWrite origin ∧
        (x = origin.toNat + a.addr.toNat % 65536 ∨
          (a.size = .word ∧ x = origin.toNat + a.addr.toNat % 65536 + 1))

/-- A region that a CREATE makes reads 00h in every byte (R16, R25, R27, R99). -/
def Obligations.NewRegionReadsZero : Prop :=
  ∀ (s t : State) (p : PortId) (r : RegionId), s.Lawful → exec (.takeCreate p) s = .next t →
    (s.region r).state = .vacant → (t.region r).state = .live →
    ∀ x < (t.region r).length * 256, t.regionByte r x = 0
end

