-- ==== Sys2Proof/Laws/State.lean ====
section
/-! SUPPORT. One lemma for each field and each named update of the state, and what reading a port or a record after an
update gives. -/

namespace Sys2Proof.Machine

/-! ### Four ports -/

@[simp] theorem PerPort.get_set {α : Type} (v : PerPort α) (p q : PortId) (x : α) :
    (v.set p x).get q = if q = p then x else v.get q := by cases p <;> cases q <;> rfl

@[simp] theorem PerPort.get_map {α : Type} (v : PerPort α) (f : PortId → α → α) (q : PortId) :
    (v.map f).get q = f q (v.get q) := by cases q <;> rfl

theorem PerPort.ext_get {α : Type} {v w : PerPort α} (h : ∀ p, v.get p = w.get p) : v = w := by
  cases v; cases w
  have h0 := h .p0; have h1 := h .p1; have h2 := h .p2; have h3 := h .p3
  simp only [PerPort.get] at h0 h1 h2 h3
  simp [h0, h1, h2, h3]

theorem PortId.mem_all (p : PortId) : p ∈ PortId.all := by cases p <;> decide

theorem forall_port {P : PortId → Prop} : (∀ p, P p) ↔ P .p0 ∧ P .p1 ∧ P .p2 ∧ P .p3 :=
  ⟨fun h => ⟨h _, h _, h _, h _⟩, fun h p => by cases p <;> simp [h]⟩

/-! ### setPort -/

@[simp] theorem State.setPort_regions (s : State) (p : PortId) (q : Port) : (s.setPort p q).regions = s.regions := rfl
@[simp] theorem State.setPort_directory (s : State) (p : PortId) (q : Port) : (s.setPort p q).directory = s.directory := rfl
@[simp] theorem State.setPort_freeList (s : State) (p : PortId) (q : Port) : (s.setPort p q).freeList = s.freeList := rfl
@[simp] theorem State.setPort_lastPort (s : State) (p : PortId) (q : Port) : (s.setPort p q).lastPort = s.lastPort := rfl
@[simp] theorem State.setPort_lastTaken (s : State) (p : PortId) (q : Port) : (s.setPort p q).lastTaken = s.lastTaken := rfl
@[simp] theorem State.setPort_engine (s : State) (p : PortId) (q : Port) : (s.setPort p q).engine = s.engine := rfl
@[simp] theorem State.setPort_array (s : State) (p : PortId) (q : Port) : (s.setPort p q).array = s.array := rfl
@[simp] theorem State.setPort_lastServed (s : State) (p : PortId) (q : Port) : (s.setPort p q).lastServed = s.lastServed := rfl
@[simp] theorem State.setPort_waits (s : State) (p : PortId) (q : Port) : (s.setPort p q).waits = s.waits := rfl
@[simp] theorem State.setPort_pending (s : State) (p : PortId) (q : Port) : (s.setPort p q).pending = s.pending := rfl
@[simp] theorem State.setPort_resets (s : State) (p : PortId) (q : Port) : (s.setPort p q).resets = s.resets := rfl
@[simp] theorem State.setPort_region (s : State) (p : PortId) (q : Port) (i : RegionId) :
    (s.setPort p q).region i = s.region i := rfl
@[simp] theorem State.setPort_byteAt (s : State) (p : PortId) (q : Port) (i : Nat) : (s.setPort p q).byteAt i = s.byteAt i := rfl

/-! ### modifyPort -/

@[simp] theorem State.modifyPort_regions (s : State) (p : PortId) (f : Port → Port) : (s.modifyPort p f).regions = s.regions := rfl
@[simp] theorem State.modifyPort_directory (s : State) (p : PortId) (f : Port → Port) : (s.modifyPort p f).directory = s.directory := rfl
@[simp] theorem State.modifyPort_freeList (s : State) (p : PortId) (f : Port → Port) : (s.modifyPort p f).freeList = s.freeList := rfl
@[simp] theorem State.modifyPort_lastPort (s : State) (p : PortId) (f : Port → Port) : (s.modifyPort p f).lastPort = s.lastPort := rfl
@[simp] theorem State.modifyPort_lastTaken (s : State) (p : PortId) (f : Port → Port) : (s.modifyPort p f).lastTaken = s.lastTaken := rfl
@[simp] theorem State.modifyPort_engine (s : State) (p : PortId) (f : Port → Port) : (s.modifyPort p f).engine = s.engine := rfl
@[simp] theorem State.modifyPort_array (s : State) (p : PortId) (f : Port → Port) : (s.modifyPort p f).array = s.array := rfl
@[simp] theorem State.modifyPort_lastServed (s : State) (p : PortId) (f : Port → Port) : (s.modifyPort p f).lastServed = s.lastServed := rfl
@[simp] theorem State.modifyPort_waits (s : State) (p : PortId) (f : Port → Port) : (s.modifyPort p f).waits = s.waits := rfl
@[simp] theorem State.modifyPort_pending (s : State) (p : PortId) (f : Port → Port) : (s.modifyPort p f).pending = s.pending := rfl
@[simp] theorem State.modifyPort_resets (s : State) (p : PortId) (f : Port → Port) : (s.modifyPort p f).resets = s.resets := rfl
@[simp] theorem State.modifyPort_region (s : State) (p : PortId) (f : Port → Port) (i : RegionId) :
    (s.modifyPort p f).region i = s.region i := rfl
@[simp] theorem State.modifyPort_byteAt (s : State) (p : PortId) (f : Port → Port) (i : Nat) : (s.modifyPort p f).byteAt i = s.byteAt i := rfl

/-! ### mapPorts -/

@[simp] theorem State.mapPorts_regions (s : State) (f : PortId → Port → Port) : (s.mapPorts f).regions = s.regions := rfl
@[simp] theorem State.mapPorts_directory (s : State) (f : PortId → Port → Port) : (s.mapPorts f).directory = s.directory := rfl
@[simp] theorem State.mapPorts_freeList (s : State) (f : PortId → Port → Port) : (s.mapPorts f).freeList = s.freeList := rfl
@[simp] theorem State.mapPorts_lastPort (s : State) (f : PortId → Port → Port) : (s.mapPorts f).lastPort = s.lastPort := rfl
@[simp] theorem State.mapPorts_lastTaken (s : State) (f : PortId → Port → Port) : (s.mapPorts f).lastTaken = s.lastTaken := rfl
@[simp] theorem State.mapPorts_engine (s : State) (f : PortId → Port → Port) : (s.mapPorts f).engine = s.engine := rfl
@[simp] theorem State.mapPorts_array (s : State) (f : PortId → Port → Port) : (s.mapPorts f).array = s.array := rfl
@[simp] theorem State.mapPorts_lastServed (s : State) (f : PortId → Port → Port) : (s.mapPorts f).lastServed = s.lastServed := rfl
@[simp] theorem State.mapPorts_waits (s : State) (f : PortId → Port → Port) : (s.mapPorts f).waits = s.waits := rfl
@[simp] theorem State.mapPorts_pending (s : State) (f : PortId → Port → Port) : (s.mapPorts f).pending = s.pending := rfl
@[simp] theorem State.mapPorts_resets (s : State) (f : PortId → Port → Port) : (s.mapPorts f).resets = s.resets := rfl
@[simp] theorem State.mapPorts_region (s : State) (f : PortId → Port → Port) (i : RegionId) :
    (s.mapPorts f).region i = s.region i := rfl
@[simp] theorem State.mapPorts_byteAt (s : State) (f : PortId → Port → Port) (i : Nat) : (s.mapPorts f).byteAt i = s.byteAt i := rfl

/-! ### raise -/

@[simp] theorem State.raise_regions (s : State) (p : PortId) (k : EventKind) : (s.raise p k).regions = s.regions := rfl
@[simp] theorem State.raise_directory (s : State) (p : PortId) (k : EventKind) : (s.raise p k).directory = s.directory := rfl
@[simp] theorem State.raise_freeList (s : State) (p : PortId) (k : EventKind) : (s.raise p k).freeList = s.freeList := rfl
@[simp] theorem State.raise_lastPort (s : State) (p : PortId) (k : EventKind) : (s.raise p k).lastPort = s.lastPort := rfl
@[simp] theorem State.raise_lastTaken (s : State) (p : PortId) (k : EventKind) : (s.raise p k).lastTaken = s.lastTaken := rfl
@[simp] theorem State.raise_engine (s : State) (p : PortId) (k : EventKind) : (s.raise p k).engine = s.engine := rfl
@[simp] theorem State.raise_array (s : State) (p : PortId) (k : EventKind) : (s.raise p k).array = s.array := rfl
@[simp] theorem State.raise_lastServed (s : State) (p : PortId) (k : EventKind) : (s.raise p k).lastServed = s.lastServed := rfl
@[simp] theorem State.raise_waits (s : State) (p : PortId) (k : EventKind) : (s.raise p k).waits = s.waits := rfl
@[simp] theorem State.raise_pending (s : State) (p : PortId) (k : EventKind) : (s.raise p k).pending = s.pending := rfl
@[simp] theorem State.raise_resets (s : State) (p : PortId) (k : EventKind) : (s.raise p k).resets = s.resets := rfl
@[simp] theorem State.raise_region (s : State) (p : PortId) (k : EventKind) (i : RegionId) :
    (s.raise p k).region i = s.region i := rfl
@[simp] theorem State.raise_byteAt (s : State) (p : PortId) (k : EventKind) (i : Nat) : (s.raise p k).byteAt i = s.byteAt i := rfl

/-! ### respond -/

@[simp] theorem State.respond_regions (s : State) (p : PortId) (r : Response) : (s.respond p r).regions = s.regions := rfl
@[simp] theorem State.respond_directory (s : State) (p : PortId) (r : Response) : (s.respond p r).directory = s.directory := rfl
@[simp] theorem State.respond_freeList (s : State) (p : PortId) (r : Response) : (s.respond p r).freeList = s.freeList := rfl
@[simp] theorem State.respond_lastPort (s : State) (p : PortId) (r : Response) : (s.respond p r).lastPort = s.lastPort := rfl
@[simp] theorem State.respond_lastTaken (s : State) (p : PortId) (r : Response) : (s.respond p r).lastTaken = s.lastTaken := rfl
@[simp] theorem State.respond_engine (s : State) (p : PortId) (r : Response) : (s.respond p r).engine = s.engine := rfl
@[simp] theorem State.respond_array (s : State) (p : PortId) (r : Response) : (s.respond p r).array = s.array := rfl
@[simp] theorem State.respond_lastServed (s : State) (p : PortId) (r : Response) : (s.respond p r).lastServed = s.lastServed := rfl
@[simp] theorem State.respond_waits (s : State) (p : PortId) (r : Response) : (s.respond p r).waits = s.waits.drop (.port p) := rfl
@[simp] theorem State.respond_pending (s : State) (p : PortId) (r : Response) : (s.respond p r).pending = s.pending := rfl
@[simp] theorem State.respond_resets (s : State) (p : PortId) (r : Response) : (s.respond p r).resets = s.resets := rfl
@[simp] theorem State.respond_region (s : State) (p : PortId) (r : Response) (i : RegionId) :
    (s.respond p r).region i = s.region i := rfl
@[simp] theorem State.respond_byteAt (s : State) (p : PortId) (r : Response) (i : Nat) : (s.respond p r).byteAt i = s.byteAt i := rfl

/-! ### setRegion -/

@[simp] theorem State.setRegion_ports (s : State) (r : RegionId) (x : Region) : (s.setRegion r x).ports = s.ports := rfl
@[simp] theorem State.setRegion_directory (s : State) (r : RegionId) (x : Region) : (s.setRegion r x).directory = s.directory := rfl
@[simp] theorem State.setRegion_freeList (s : State) (r : RegionId) (x : Region) : (s.setRegion r x).freeList = s.freeList := rfl
@[simp] theorem State.setRegion_lastPort (s : State) (r : RegionId) (x : Region) : (s.setRegion r x).lastPort = s.lastPort := rfl
@[simp] theorem State.setRegion_lastTaken (s : State) (r : RegionId) (x : Region) : (s.setRegion r x).lastTaken = s.lastTaken := rfl
@[simp] theorem State.setRegion_engine (s : State) (r : RegionId) (x : Region) : (s.setRegion r x).engine = s.engine := rfl
@[simp] theorem State.setRegion_array (s : State) (r : RegionId) (x : Region) : (s.setRegion r x).array = s.array := rfl
@[simp] theorem State.setRegion_lastServed (s : State) (r : RegionId) (x : Region) : (s.setRegion r x).lastServed = s.lastServed := rfl
@[simp] theorem State.setRegion_waits (s : State) (r : RegionId) (x : Region) : (s.setRegion r x).waits = s.waits := rfl
@[simp] theorem State.setRegion_pending (s : State) (r : RegionId) (x : Region) : (s.setRegion r x).pending = s.pending := rfl
@[simp] theorem State.setRegion_resets (s : State) (r : RegionId) (x : Region) : (s.setRegion r x).resets = s.resets := rfl
@[simp] theorem State.setRegion_port (s : State) (r : RegionId) (x : Region) (i : PortId) : (s.setRegion r x).port i = s.port i := rfl
@[simp] theorem State.setRegion_byteAt (s : State) (r : RegionId) (x : Region) (i : Nat) : (s.setRegion r x).byteAt i = s.byteAt i := rfl

/-! ### modifyRegion -/

@[simp] theorem State.modifyRegion_ports (s : State) (r : RegionId) (f : Region → Region) : (s.modifyRegion r f).ports = s.ports := rfl
@[simp] theorem State.modifyRegion_directory (s : State) (r : RegionId) (f : Region → Region) : (s.modifyRegion r f).directory = s.directory := rfl
@[simp] theorem State.modifyRegion_freeList (s : State) (r : RegionId) (f : Region → Region) : (s.modifyRegion r f).freeList = s.freeList := rfl
@[simp] theorem State.modifyRegion_lastPort (s : State) (r : RegionId) (f : Region → Region) : (s.modifyRegion r f).lastPort = s.lastPort := rfl
@[simp] theorem State.modifyRegion_lastTaken (s : State) (r : RegionId) (f : Region → Region) : (s.modifyRegion r f).lastTaken = s.lastTaken := rfl
@[simp] theorem State.modifyRegion_engine (s : State) (r : RegionId) (f : Region → Region) : (s.modifyRegion r f).engine = s.engine := rfl
@[simp] theorem State.modifyRegion_array (s : State) (r : RegionId) (f : Region → Region) : (s.modifyRegion r f).array = s.array := rfl
@[simp] theorem State.modifyRegion_lastServed (s : State) (r : RegionId) (f : Region → Region) : (s.modifyRegion r f).lastServed = s.lastServed := rfl
@[simp] theorem State.modifyRegion_waits (s : State) (r : RegionId) (f : Region → Region) : (s.modifyRegion r f).waits = s.waits := rfl
@[simp] theorem State.modifyRegion_pending (s : State) (r : RegionId) (f : Region → Region) : (s.modifyRegion r f).pending = s.pending := rfl
@[simp] theorem State.modifyRegion_resets (s : State) (r : RegionId) (f : Region → Region) : (s.modifyRegion r f).resets = s.resets := rfl
@[simp] theorem State.modifyRegion_port (s : State) (r : RegionId) (f : Region → Region) (i : PortId) : (s.modifyRegion r f).port i = s.port i := rfl
@[simp] theorem State.modifyRegion_byteAt (s : State) (r : RegionId) (f : Region → Region) (i : Nat) : (s.modifyRegion r f).byteAt i = s.byteAt i := rfl

/-! ### mapRegions -/

@[simp] theorem State.mapRegions_ports (s : State) (f : RegionId → Region → Region) : (s.mapRegions f).ports = s.ports := by
  rw [State.mapRegions]
@[simp] theorem State.mapRegions_directory (s : State) (f : RegionId → Region → Region) : (s.mapRegions f).directory = s.directory := by
  rw [State.mapRegions]
@[simp] theorem State.mapRegions_freeList (s : State) (f : RegionId → Region → Region) : (s.mapRegions f).freeList = s.freeList := by
  rw [State.mapRegions]
@[simp] theorem State.mapRegions_lastPort (s : State) (f : RegionId → Region → Region) : (s.mapRegions f).lastPort = s.lastPort := by
  rw [State.mapRegions]
@[simp] theorem State.mapRegions_lastTaken (s : State) (f : RegionId → Region → Region) : (s.mapRegions f).lastTaken = s.lastTaken := by
  rw [State.mapRegions]
@[simp] theorem State.mapRegions_engine (s : State) (f : RegionId → Region → Region) : (s.mapRegions f).engine = s.engine := by
  rw [State.mapRegions]
@[simp] theorem State.mapRegions_array (s : State) (f : RegionId → Region → Region) : (s.mapRegions f).array = s.array := by
  rw [State.mapRegions]
@[simp] theorem State.mapRegions_lastServed (s : State) (f : RegionId → Region → Region) : (s.mapRegions f).lastServed = s.lastServed := by
  rw [State.mapRegions]
@[simp] theorem State.mapRegions_waits (s : State) (f : RegionId → Region → Region) : (s.mapRegions f).waits = s.waits := by
  rw [State.mapRegions]
@[simp] theorem State.mapRegions_pending (s : State) (f : RegionId → Region → Region) : (s.mapRegions f).pending = s.pending := by
  rw [State.mapRegions]
@[simp] theorem State.mapRegions_resets (s : State) (f : RegionId → Region → Region) : (s.mapRegions f).resets = s.resets := by
  rw [State.mapRegions]
@[simp] theorem State.mapRegions_port (s : State) (f : RegionId → Region → Region) (i : PortId) : (s.mapRegions f).port i = s.port i := by
  rw [State.port, State.mapRegions_ports, State.port]
@[simp] theorem State.mapRegions_byteAt (s : State) (f : RegionId → Region → Region) (i : Nat) : (s.mapRegions f).byteAt i = s.byteAt i := by
  rw [State.byteAt, State.mapRegions_array, State.byteAt]

/-! ### withEngine -/

@[simp] theorem State.withEngine_ports (s : State) (f : Engine → Engine) : (s.withEngine f).ports = s.ports := rfl
@[simp] theorem State.withEngine_regions (s : State) (f : Engine → Engine) : (s.withEngine f).regions = s.regions := rfl
@[simp] theorem State.withEngine_directory (s : State) (f : Engine → Engine) : (s.withEngine f).directory = s.directory := rfl
@[simp] theorem State.withEngine_freeList (s : State) (f : Engine → Engine) : (s.withEngine f).freeList = s.freeList := rfl
@[simp] theorem State.withEngine_lastPort (s : State) (f : Engine → Engine) : (s.withEngine f).lastPort = s.lastPort := rfl
@[simp] theorem State.withEngine_lastTaken (s : State) (f : Engine → Engine) : (s.withEngine f).lastTaken = s.lastTaken := rfl
@[simp] theorem State.withEngine_array (s : State) (f : Engine → Engine) : (s.withEngine f).array = s.array := rfl
@[simp] theorem State.withEngine_lastServed (s : State) (f : Engine → Engine) : (s.withEngine f).lastServed = s.lastServed := rfl
@[simp] theorem State.withEngine_waits (s : State) (f : Engine → Engine) : (s.withEngine f).waits = s.waits := rfl
@[simp] theorem State.withEngine_pending (s : State) (f : Engine → Engine) : (s.withEngine f).pending = s.pending := rfl
@[simp] theorem State.withEngine_resets (s : State) (f : Engine → Engine) : (s.withEngine f).resets = s.resets := rfl
@[simp] theorem State.withEngine_port (s : State) (f : Engine → Engine) (i : PortId) : (s.withEngine f).port i = s.port i := rfl
@[simp] theorem State.withEngine_region (s : State) (f : Engine → Engine) (i : RegionId) :
    (s.withEngine f).region i = s.region i := rfl
@[simp] theorem State.withEngine_byteAt (s : State) (f : Engine → Engine) (i : Nat) : (s.withEngine f).byteAt i = s.byteAt i := rfl

/-! ### noteCompletion -/

@[simp] theorem State.noteCompletion_ports (s : State) : (s.noteCompletion).ports = s.ports := rfl
@[simp] theorem State.noteCompletion_regions (s : State) : (s.noteCompletion).regions = s.regions := rfl
@[simp] theorem State.noteCompletion_directory (s : State) : (s.noteCompletion).directory = s.directory := rfl
@[simp] theorem State.noteCompletion_freeList (s : State) : (s.noteCompletion).freeList = s.freeList := rfl
@[simp] theorem State.noteCompletion_lastPort (s : State) : (s.noteCompletion).lastPort = s.lastPort := rfl
@[simp] theorem State.noteCompletion_engine (s : State) : (s.noteCompletion).engine = s.engine := rfl
@[simp] theorem State.noteCompletion_array (s : State) : (s.noteCompletion).array = s.array := rfl
@[simp] theorem State.noteCompletion_lastServed (s : State) : (s.noteCompletion).lastServed = s.lastServed := rfl
@[simp] theorem State.noteCompletion_waits (s : State) : (s.noteCompletion).waits = s.waits := rfl
@[simp] theorem State.noteCompletion_pending (s : State) : (s.noteCompletion).pending = s.pending := rfl
@[simp] theorem State.noteCompletion_resets (s : State) : (s.noteCompletion).resets = s.resets := rfl
@[simp] theorem State.noteCompletion_port (s : State) (i : PortId) : (s.noteCompletion).port i = s.port i := rfl
@[simp] theorem State.noteCompletion_region (s : State) (i : RegionId) :
    (s.noteCompletion).region i = s.region i := rfl
@[simp] theorem State.noteCompletion_byteAt (s : State) (i : Nat) : (s.noteCompletion).byteAt i = s.byteAt i := rfl

/-! ### arriveAll -/

theorem State.arrive_eq (s : State) (k : Claim) : s.arrive k = { s with waits := (s.arrive k).waits } := by
  unfold State.arrive; cases k <;> dsimp only <;> split <;> rfl

/-- The claims that arrive change nothing but the claims that wait. -/
theorem State.arriveAll_eq (s : State) (l : List Claim) : s.arriveAll l = { s with waits := (s.arriveAll l).waits } := by
  induction l generalizing s with
  | nil => rfl
  | cons k l ih =>
    show (s.arrive k).arriveAll l = { s with waits := ((s.arrive k).arriveAll l).waits }
    rw [ih (s.arrive k), s.arrive_eq k]

@[simp] theorem State.arriveAll_ports (s : State) (l : List Claim) : (s.arriveAll l).ports = s.ports := by rw [State.arriveAll_eq]
@[simp] theorem State.arriveAll_regions (s : State) (l : List Claim) : (s.arriveAll l).regions = s.regions := by rw [State.arriveAll_eq]
@[simp] theorem State.arriveAll_directory (s : State) (l : List Claim) : (s.arriveAll l).directory = s.directory := by rw [State.arriveAll_eq]
@[simp] theorem State.arriveAll_freeList (s : State) (l : List Claim) : (s.arriveAll l).freeList = s.freeList := by rw [State.arriveAll_eq]
@[simp] theorem State.arriveAll_lastPort (s : State) (l : List Claim) : (s.arriveAll l).lastPort = s.lastPort := by rw [State.arriveAll_eq]
@[simp] theorem State.arriveAll_lastTaken (s : State) (l : List Claim) : (s.arriveAll l).lastTaken = s.lastTaken := by rw [State.arriveAll_eq]
@[simp] theorem State.arriveAll_engine (s : State) (l : List Claim) : (s.arriveAll l).engine = s.engine := by rw [State.arriveAll_eq]
@[simp] theorem State.arriveAll_array (s : State) (l : List Claim) : (s.arriveAll l).array = s.array := by rw [State.arriveAll_eq]
@[simp] theorem State.arriveAll_lastServed (s : State) (l : List Claim) : (s.arriveAll l).lastServed = s.lastServed := by rw [State.arriveAll_eq]
@[simp] theorem State.arriveAll_pending (s : State) (l : List Claim) : (s.arriveAll l).pending = s.pending := by rw [State.arriveAll_eq]
@[simp] theorem State.arriveAll_resets (s : State) (l : List Claim) : (s.arriveAll l).resets = s.resets := by rw [State.arriveAll_eq]
@[simp] theorem State.arriveAll_port (s : State) (l : List Claim) (i : PortId) : (s.arriveAll l).port i = s.port i := by
  rw [State.arriveAll_eq]; rfl
@[simp] theorem State.arriveAll_region (s : State) (l : List Claim) (i : RegionId) : (s.arriveAll l).region i = s.region i := by
  rw [State.arriveAll_eq]; rfl
@[simp] theorem State.arriveAll_byteAt (s : State) (l : List Claim) (i : Nat) : (s.arriveAll l).byteAt i = s.byteAt i := by
  rw [State.arriveAll_eq]; rfl

/-! ### Claims that wait -/

@[simp] theorem Waits.get_drop_port (w : Waits) (p q : PortId) :
    (w.drop (.port p)).ports.get q = if q = p then none else w.ports.get q := PerPort.get_set ..
@[simp] theorem Waits.step_drop_port (w : Waits) (p : PortId) : (w.drop (.port p)).step = w.step := rfl
@[simp] theorem Waits.ports_drop_engine (w : Waits) : (w.drop .engine).ports = w.ports := rfl
@[simp] theorem Waits.step_drop_engine (w : Waits) : (w.drop .engine).step = false := rfl

/-! ### Reading a port after an update -/

@[simp] theorem State.port_setPort (s : State) (p : PortId) (q : Port) (x : PortId) :
    (s.setPort p q).port x = if x = p then q else s.port x := PerPort.get_set ..

@[simp] theorem State.port_modifyPort (s : State) (p : PortId) (f : Port → Port) (x : PortId) :
    (s.modifyPort p f).port x = if x = p then f (s.port x) else s.port x := by
  rw [State.modifyPort, State.port_setPort]
  split
  · next h => rw [h]
  · rfl

@[simp] theorem State.port_mapPorts (s : State) (f : PortId → Port → Port) (x : PortId) :
    (s.mapPorts f).port x = f x (s.port x) := PerPort.get_map ..

@[simp] theorem State.port_raise (s : State) (p : PortId) (k : EventKind) (x : PortId) :
    (s.raise p k).port x = if x = p then (s.port x).withEvents (fun e => e.raise k) else s.port x := by
  simp [State.raise]

@[simp] theorem State.port_respond (s : State) (p : PortId) (r : Response) (x : PortId) :
    (s.respond p r).port x = if x = p then { s.port x with response := some r } else s.port x := by
  show (s.modifyPort p fun q => { q with response := some r }).port x = _
  simp

/-! ### Reading a record after an update -/

@[simp] theorem State.region_setRegion (s : State) (r : RegionId) (x : Region) (i : RegionId) :
    (s.setRegion r x).region i = if i = r then x else s.region i := by
  simp only [State.region, State.setRegion, Vector.getElem_set, Fin.ext_iff, eq_comm]

@[simp] theorem State.region_modifyRegion (s : State) (r : RegionId) (f : Region → Region) (i : RegionId) :
    (s.modifyRegion r f).region i = if i = r then f (s.region i) else s.region i := by
  rw [State.modifyRegion, State.region_setRegion]
  split
  · next h => rw [h]
  · rfl

@[simp] theorem State.region_mapRegions (s : State) (f : RegionId → Region → Region) (i : RegionId) :
    (s.mapRegions f).region i = f i (s.region i) := by
  simp [State.region, State.mapRegions]

/-! ### Ports -/

@[simp] theorem Port.withEvents_portState (q : Port) (f : EventBlock → EventBlock) : (q.withEvents f).portState = q.portState := rfl
@[simp] theorem Port.withEvents_response (q : Port) (f : EventBlock → EventBlock) : (q.withEvents f).response = q.response := rfl
@[simp] theorem Port.withEvents_slots (q : Port) (f : EventBlock → EventBlock) : (q.withEvents f).slots = q.slots := rfl
@[simp] theorem Port.withEvents_bank (q : Port) (f : EventBlock → EventBlock) : (q.withEvents f).bank = q.bank := rfl
@[simp] theorem Port.withEvents_unit (q : Port) (f : EventBlock → EventBlock) : (q.withEvents f).unit = q.unit := rfl
@[simp] theorem Port.withEvents_events (q : Port) (f : EventBlock → EventBlock) : (q.withEvents f).events = f q.events := rfl
@[simp] theorem Port.withEvents_level (q : Port) (f : EventBlock → EventBlock) : (q.withEvents f).level = q.level := rfl
@[simp] theorem Port.withEvents_quota (q : Port) (f : EventBlock → EventBlock) : (q.withEvents f).quota = q.quota := rfl
@[simp] theorem Port.withEvents_holdings (q : Port) (f : EventBlock → EventBlock) : (q.withEvents f).holdings = q.holdings := rfl
@[simp] theorem Port.withEvents_watch (q : Port) (f : EventBlock → EventBlock) : (q.withEvents f).watch = q.watch := rfl
@[simp] theorem Port.withEvents_slot (q : Port) (f : EventBlock → EventBlock) (i : SlotIndex) : (q.withEvents f).slot i = q.slot i := rfl
@[simp] theorem Port.withEvents_boundCount (q : Port) (f : EventBlock → EventBlock) (r : RegionId) :
    (q.withEvents f).boundCount r = q.boundCount r := rfl

@[simp] theorem Port.withUnit_portState (q : Port) (f : CommandUnit → CommandUnit) : (q.withUnit f).portState = q.portState := rfl
@[simp] theorem Port.withUnit_response (q : Port) (f : CommandUnit → CommandUnit) : (q.withUnit f).response = q.response := rfl
@[simp] theorem Port.withUnit_slots (q : Port) (f : CommandUnit → CommandUnit) : (q.withUnit f).slots = q.slots := rfl
@[simp] theorem Port.withUnit_bank (q : Port) (f : CommandUnit → CommandUnit) : (q.withUnit f).bank = q.bank := rfl
@[simp] theorem Port.withUnit_unit (q : Port) (f : CommandUnit → CommandUnit) : (q.withUnit f).unit = f q.unit := rfl
@[simp] theorem Port.withUnit_events (q : Port) (f : CommandUnit → CommandUnit) : (q.withUnit f).events = q.events := rfl
@[simp] theorem Port.withUnit_level (q : Port) (f : CommandUnit → CommandUnit) : (q.withUnit f).level = q.level := rfl
@[simp] theorem Port.withUnit_quota (q : Port) (f : CommandUnit → CommandUnit) : (q.withUnit f).quota = q.quota := rfl
@[simp] theorem Port.withUnit_holdings (q : Port) (f : CommandUnit → CommandUnit) : (q.withUnit f).holdings = q.holdings := rfl
@[simp] theorem Port.withUnit_watch (q : Port) (f : CommandUnit → CommandUnit) : (q.withUnit f).watch = q.watch := rfl
@[simp] theorem Port.withUnit_slot (q : Port) (f : CommandUnit → CommandUnit) (i : SlotIndex) : (q.withUnit f).slot i = q.slot i := rfl
@[simp] theorem Port.withUnit_boundCount (q : Port) (f : CommandUnit → CommandUnit) (r : RegionId) :
    (q.withUnit f).boundCount r = q.boundCount r := rfl

@[simp] theorem Port.setSlot_portState (q : Port) (i : SlotIndex) (x : Slot) : (q.setSlot i x).portState = q.portState := rfl
@[simp] theorem Port.setSlot_response (q : Port) (i : SlotIndex) (x : Slot) : (q.setSlot i x).response = q.response := rfl
@[simp] theorem Port.setSlot_bank (q : Port) (i : SlotIndex) (x : Slot) : (q.setSlot i x).bank = q.bank := rfl
@[simp] theorem Port.setSlot_unit (q : Port) (i : SlotIndex) (x : Slot) : (q.setSlot i x).unit = q.unit := rfl
@[simp] theorem Port.setSlot_events (q : Port) (i : SlotIndex) (x : Slot) : (q.setSlot i x).events = q.events := rfl
@[simp] theorem Port.setSlot_level (q : Port) (i : SlotIndex) (x : Slot) : (q.setSlot i x).level = q.level := rfl
@[simp] theorem Port.setSlot_quota (q : Port) (i : SlotIndex) (x : Slot) : (q.setSlot i x).quota = q.quota := rfl
@[simp] theorem Port.setSlot_holdings (q : Port) (i : SlotIndex) (x : Slot) : (q.setSlot i x).holdings = q.holdings := rfl
@[simp] theorem Port.setSlot_watch (q : Port) (i : SlotIndex) (x : Slot) : (q.setSlot i x).watch = q.watch := rfl

@[simp] theorem Port.slot_setSlot (q : Port) (i : SlotIndex) (x : Slot) (j : SlotIndex) :
    (q.setSlot i x).slot j = if j = i then x else q.slot j := by
  simp only [Port.slot, Port.setSlot, Vector.getElem_set, Fin.ext_iff, eq_comm]

/-! ### Event Blocks -/

@[simp] theorem EventBlock.raise_flags (e : EventBlock) (k : EventKind) : (e.raise k).flags = e.flags ||| k.mask := rfl
@[simp] theorem EventBlock.raise_enables (e : EventBlock) (k : EventKind) : (e.raise k).enables = e.enables := rfl
@[simp] theorem EventBlock.raise_fault (e : EventBlock) (k : EventKind) : (e.raise k).fault = e.fault := rfl
@[simp] theorem EventBlock.raise_further (e : EventBlock) (k : EventKind) : (e.raise k).further = e.further := rfl
@[simp] theorem EventBlock.raise_report (e : EventBlock) (k : EventKind) : (e.raise k).report = e.report := rfl

end Sys2Proof.Machine
end

