-- ==== Sys2Proof/Laws/Commands.lean ====
section
/-! SUPPORT. What a take event does, said once for all commands; the rotation; the turns; references and parameter
fields. -/

namespace Sys2Proof.Machine

/-! ### The take event -/

/-- Finishing an answer writes the result block, returns the unit to IDLE, raises DONE and notes the take. -/
theorem Answer.finish_eq (a : Answer) (p : PortId) : a.finish p = a.state.answered p a.words := rfl

/-- A take that can be made now: the body's answer, finished. -/
theorem State.takeCommand_of_taking {s : State} {p : PortId} {c : Word} (h : s.taking p c) {code : Word → Bool}
    (hc : code c = true) (body : State → PortId → Answer) :
    s.takeCommand p code body = .next ((body s p).state.answered p (body s p).words) := by
  obtain ⟨h1, h2, h3⟩ := h
  simp [State.takeCommand, State.mayTake, h1, h2, h3, hc, Answer.finish_eq]

/-- A take that cannot be made now changes nothing. -/
theorem State.takeCommand_of_not_mayTake {s : State} {p : PortId} {code : Word → Bool} (h : s.mayTake p code = false)
    (body : State → PortId → Answer) : s.takeCommand p code body = .next s := by
  simp [State.takeCommand, h]

/-- Everything a take can do: nothing, or the body's answer of a port that is the next one and has the turn. -/
theorem State.takeCommand_cases {s t : State} {p : PortId} {code : Word → Bool} {body : State → PortId → Answer}
    (h : s.takeCommand p code body = .next t) :
    t = s ∨ (s.taking p (s.port p).unit.lastCode ∧ code (s.port p).unit.lastCode = true ∧
      t = (body s p).state.answered p (body s p).words) := by
  simp only [State.takeCommand] at h
  split at h
  · next hm =>
    simp only [State.mayTake, Bool.decide_and, Bool.and_eq_true, decide_eq_true_eq, Bool.decide_eq_true] at hm
    exact .inr ⟨⟨hm.1, hm.2.1, rfl⟩, hm.2.2, by injection h with h; exact h.symm⟩
  · injection h with h; exact .inl h.symm

/-! ### What answering leaves -/

@[simp] theorem State.answered_regions (s : State) (p : PortId) (ws : List Word) :
    (s.answered p ws).regions = s.regions := rfl
@[simp] theorem State.answered_region (s : State) (p : PortId) (ws : List Word) (r : RegionId) :
    (s.answered p ws).region r = s.region r := rfl
@[simp] theorem State.answered_directory (s : State) (p : PortId) (ws : List Word) :
    (s.answered p ws).directory = s.directory := rfl
@[simp] theorem State.answered_freeList (s : State) (p : PortId) (ws : List Word) :
    (s.answered p ws).freeList = s.freeList := rfl
@[simp] theorem State.answered_lastPort (s : State) (p : PortId) (ws : List Word) :
    (s.answered p ws).lastPort = p := rfl
@[simp] theorem State.answered_lastTaken (s : State) (p : PortId) (ws : List Word) :
    (s.answered p ws).lastTaken = some .command := rfl
@[simp] theorem State.answered_engine (s : State) (p : PortId) (ws : List Word) :
    (s.answered p ws).engine = s.engine := rfl
@[simp] theorem State.answered_array (s : State) (p : PortId) (ws : List Word) :
    (s.answered p ws).array = s.array := rfl
@[simp] theorem State.answered_lastServed (s : State) (p : PortId) (ws : List Word) :
    (s.answered p ws).lastServed = s.lastServed := rfl
@[simp] theorem State.answered_waits (s : State) (p : PortId) (ws : List Word) :
    (s.answered p ws).waits = s.waits := rfl
@[simp] theorem State.answered_pending (s : State) (p : PortId) (ws : List Word) :
    (s.answered p ws).pending = s.pending := rfl
@[simp] theorem State.answered_resets (s : State) (p : PortId) (ws : List Word) :
    (s.answered p ws).resets = s.resets := rfl

/-- A port after an answer: at the port answered the unit and the DONE flag, nothing at the others. -/
theorem State.answered_port (s : State) (p : PortId) (ws : List Word) (x : PortId) :
    (s.answered p ws).port x =
      if x = p then
        { s.port x with
          unit := { (s.port x).unit with state := .idle, results := resultBlock ws }
          events := { (s.port x).events with flags := (s.port x).events.flags ||| 1#6 } }
      else s.port x := by
  have : (s.answered p ws).port x = (s.setPort p
      { s.port p with
        unit := { (s.port p).unit with state := .idle, results := resultBlock ws }
        events := { (s.port p).events with flags := (s.port p).events.flags ||| 1#6 } }).port x := rfl
  rw [this, State.port_setPort]
  split
  · next h => subst h; rfl
  · rfl

/-- Answering touches no slot. -/
@[simp] theorem State.answered_port_slots (s : State) (p : PortId) (ws : List Word) (x : PortId) :
    ((s.answered p ws).port x).slots = (s.port x).slots := by
  rw [State.answered_port]; split <;> rfl

/-! ### The rotation (R159) -/

theorem PortId.mem_takeOrder (last p : PortId) : p ∈ takeOrder last := by cases last <;> cases p <;> decide

/-- A port that is taken next is PENDING. -/
theorem State.pending_of_nextTake {s : State} {p : PortId} (h : s.nextTake = some p) :
    (s.port p).unit.state = .pending := by
  simpa using List.find?_some h

/-- A PENDING port makes the search find one. -/
theorem State.nextTake_isSome_of_pending {s : State} {p : PortId} (h : (s.port p).unit.state = .pending) :
    s.nextTake.isSome = true := by
  rw [State.nextTake, List.find?_isSome]
  exact ⟨p, PortId.mem_takeOrder _ _, by simpa using h⟩

/-- The search finds a port exactly while one is PENDING. -/
theorem State.nextTake_eq_none_iff (s : State) : s.nextTake = none ↔ ∀ p, (s.port p).unit.state = .idle := by
  constructor
  · intro h p
    cases hp : (s.port p).unit.state with
    | idle => rfl
    | pending => have := State.nextTake_isSome_of_pending hp; simp [h] at this
  · intro h
    simp [State.nextTake, List.find?_eq_none, h]

/-- A completion has the turn unless one was taken last and a command waits (R160). -/
theorem State.completionTurn_eq (s : State) :
    s.completionTurn = true ↔ (s.lastTaken = some .completion → ∀ p, (s.port p).unit.state = .idle) := by
  rw [← State.nextTake_eq_none_iff]
  cases h : s.nextTake <;> simp [State.completionTurn, h]

/-- A command has the turn unless one was taken last and a completion waits (R160). -/
theorem State.commandTurn_eq (s : State) :
    s.commandTurn = true ↔ (s.lastTaken = some .command → s.completionWaits = false) := by
  cases h : s.completionWaits <;> simp [State.commandTurn, h]

/-! ### Parameter fields -/

theorem lowByte_toNat (w : Word) : (lowByte w).toNat = w.toNat % 256 := by simp [lowByte]

theorem highByte_toNat (w : Word) : (highByte w).toNat = w.toNat / 256 := by
  have := w.isLt
  simp [highByte, Nat.shiftRight_eq_div_pow]; omega

theorem wordOf_toNat (lo hi : Byte) : (wordOf lo hi).toNat = lo.toNat + 256 * hi.toNat := by
  simp only [wordOf, BitVec.toNat_append]
  rw [← Nat.shiftLeft_add_eq_or_of_lt lo.isLt, Nat.shiftLeft_eq]; omega

theorem slotNamed_eq_some (bank : Fin 4) (slot : Fin 8) : slotNamed bank.val slot.val = some (slotIndex bank slot) := by
  simp [slotNamed]

/-- A target word names the slot of its two bytes. -/
theorem targetSlot_eq {w : Word} {bank : Fin 4} {slot : Fin 8} (h : w.toNat = bank.val * 256 + slot.val) :
    targetSlot w = some (slotIndex bank slot) := by
  have h1 : (highByte w).toNat = bank.val := by rw [highByte_toNat, h]; omega
  have h2 : (lowByte w).toNat = slot.val := by rw [lowByte_toNat, h]; omega
  rw [targetSlot, h1, h2, slotNamed_eq_some]

theorem targetSlot_eq_none_iff (w : Word) : targetSlot w = none ↔ 8 ≤ w.toNat % 256 ∨ 4 ≤ w.toNat / 256 := by
  rw [targetSlot, slotNamed, highByte_toNat, lowByte_toNat]
  by_cases h1 : w.toNat / 256 < 4 <;> by_cases h2 : w.toNat % 256 < 8 <;> simp [h1, h2] <;> omega

theorem portNamed_eq_some_iff (w : Word) (x : PortId) : portNamed w = some x ↔ w.toNat = x.toNat := by
  rw [portNamed]
  constructor
  · intro h
    unfold PortId.ofNat? at h
    split at h <;> simp_all <;> subst h <;> rfl
  · intro h; rw [h]; cases x <;> rfl

theorem portNamed_eq_none_iff (w : Word) : portNamed w = none ↔ 4 ≤ w.toNat := by
  rw [portNamed]
  constructor
  · intro h
    by_contra hc
    have : w.toNat = 0 ∨ w.toNat = 1 ∨ w.toNat = 2 ∨ w.toNat = 3 := by omega
    rcases this with h' | h' | h' | h' <;> rw [h'] at h <;> exact absurd h (by decide)
  · intro h
    unfold PortId.ofNat?
    split <;> first | rfl | omega

/-! ### References (R12) -/

/-- A reference that resolves names a region in use or SCRUBBING; by name it is the directory's. -/
theorem State.resolve_cases {s : State} {name number generation : Word} {r : RegionId}
    (h : s.resolve name number generation = .ok r) :
    (name ≠ 0 ∧ s.lookupName name = some r) ∨ (name = 0 ∧ number.toNat = r.val ∧ (s.region r).state ≠ .vacant) := by
  unfold State.resolve at h
  split at h
  · next hn =>
    split at h
    · next r' hr => injection h with h; subst h; exact .inl ⟨hn, hr⟩
    · cases h
  · next hn =>
    split at h
    · next hlt =>
      dsimp only at h
      split at h
      · cases h
      · next hv =>
        split at h
        · cases h
        · injection h with h; subst h
          exact .inr ⟨by simpa using hn, rfl, hv⟩
    · cases h

/-- A reference is refused with NOT_FOUND or STALE and nothing else. -/
theorem State.resolve_error {s : State} {name number generation : Word} {c : Code}
    (h : s.resolve name number generation = .error c) : c = .notFound ∨ c = .stale := by
  unfold State.resolve at h
  split at h
  · split at h
    · cases h
    · injection h with h; exact .inl h.symm
  · split at h
    · dsimp only at h
      split at h
      · injection h with h; exact .inl h.symm
      · split at h
        · injection h with h; exact .inr h.symm
        · cases h
    · injection h with h; exact .inl h.symm

theorem State.resolveParams_error {s : State} {p : PortId} {c : Code} (h : s.resolveParams p = .error c) :
    c = .notFound ∨ c = .stale := State.resolve_error h

/-- A lookup that finds a region finds its entry. -/
theorem State.mem_directory_of_lookupName {s : State} {name : Word} {r : RegionId} (h : s.lookupName name = some r) :
    (⟨name, r⟩ : DirEntry) ∈ s.directory := by
  simp only [State.lookupName, Option.map_eq_some_iff] at h
  obtain ⟨e, he, rfl⟩ := h
  have h1 := List.mem_of_find?_eq_some he
  have h2 := List.find?_some he
  obtain ⟨n, x⟩ := e
  simp only [decide_eq_true_eq] at h2
  subst h2
  exact h1

/-- A name without an entry is found by no lookup. -/
theorem State.lookupName_eq_none_iff (s : State) (name : Word) :
    s.lookupName name = none ↔ ∀ e ∈ s.directory, e.name ≠ name := by
  simp [State.lookupName, List.find?_eq_none]

end Sys2Proof.Machine
end

