-- ==== Sys2Proof/Laws/Memory.lean ====
section
/-! SUPPORT. The array: what reading a byte after each operation gives, and that every operation keeps the canonical
form. -/

namespace Sys2Proof.Machine

/-! ### Reading -/

@[simp] theorem Memory.read_nil (a : Nat) : Memory.read [] a = 0 := rfl

theorem Memory.read_cons (c : Host.Cell) (m : Memory) (a : Nat) :
    Memory.read (c :: m) a = if c.1 = a then c.2 else Memory.read m a := rfl

/-- A byte at an address that is not listed reads 00h. -/
theorem Memory.read_eq_zero_of_not_mem (m : Memory) (a : Nat) (h : ∀ c ∈ m, c.1 ≠ a) : m.read a = 0 := by
  induction m with
  | nil => rfl
  | cons c m ih =>
    rw [Memory.read_cons, if_neg (h c (by simp))]
    exact ih fun d hd => h d (by simp [hd])

/-- Dropping the entries of which `f` is false at their address. -/
theorem Memory.read_filter (m : Memory) (f : Nat → Bool) (a : Nat) :
    Memory.read (m.filter fun c => f c.1) a = if f a then m.read a else 0 := by
  induction m with
  | nil => simp
  | cons c m ih =>
    by_cases hc : f c.1 = true
    · rw [List.filter_cons_of_pos (by simpa using hc), Memory.read_cons, Memory.read_cons, ih]
      by_cases ha : c.1 = a
      · subst ha; simp [hc]
      · simp [ha]
    · rw [List.filter_cons_of_neg (by simpa using hc), ih, Memory.read_cons]
      by_cases ha : c.1 = a
      · subst ha; simp [hc]
      · simp [ha]

/-- Reading from two lists put together, the first list first. -/
theorem Memory.read_append (m n : Memory) (a : Nat) (h : ∀ c ∈ m, c.1 ≠ a) :
    Memory.read (m ++ n) a = Memory.read n a := by
  induction m with
  | nil => rfl
  | cons c m ih =>
    rw [List.cons_append, Memory.read_cons, if_neg (h c (by simp))]
    exact ih fun d hd => h d (by simp [hd])

theorem Memory.read_append_left (m n : Memory) (a : Nat) (h : ∀ c ∈ n, c.1 ≠ a) :
    Memory.read (m ++ n) a = Memory.read m a := by
  induction m with
  | nil => exact Memory.read_eq_zero_of_not_mem _ _ h
  | cons c m ih => simp [Memory.read_cons, ih]

theorem Memory.read_put (m : Memory) (a : Nat) (b : Byte) (x : Nat) (h : m.Pairwise fun c d => c.1 < d.1) :
    (m.put a b).read x = if x = a then b else m.read x := by
  induction m with
  | nil => simp [Memory.put, Memory.read_cons, eq_comm]
  | cons c m ih =>
    obtain ⟨y, d⟩ := c
    simp only [Memory.put]
    have hm := (List.pairwise_cons.mp h).2
    split
    · by_cases hx : a = x
      · simp [Memory.read_cons, hx]
      · simp [Memory.read_cons, hx, Ne.symm hx]
    · split
      · next h1 h2 =>
        subst h2
        by_cases hx : a = x
        · simp [Memory.read_cons, hx]
        · simp [Memory.read_cons, hx, Ne.symm hx]
      · next h1 h2 =>
        rw [Memory.read_cons, Memory.read_cons, ih hm]
        by_cases hy : y = x
        · subst hy; simp [Ne.symm h2]
        · simp [hy]

/-- A byte reads what was last written to it, and every other byte is unchanged. -/
theorem Memory.read_write (m : Memory) (a : Nat) (b : Byte) (x : Nat) (h : m.wf) :
    (m.write a b).read x = if x = a then b else m.read x := by
  unfold Memory.write
  split
  · next hb =>
    have := Memory.read_filter m (fun y => decide (y ≠ a)) x
    simp only [decide_not] at this ⊢
    rw [this]
    by_cases hx : x = a <;> simp [hx, hb]
  · exact Memory.read_put m a b x h.1

/-- Clearing a granule: its bytes read 00h, every other byte is unchanged (R120). -/
theorem Memory.read_clearGranule (m : Memory) (g x : Nat) :
    (m.clearGranule g).read x = if x / 256 = g then 0 else m.read x := by
  have := Memory.read_filter m (fun y => decide (y / 256 ≠ g)) x
  unfold Memory.clearGranule
  simp only [Config.granuleBytes, decide_not] at this ⊢
  rw [this]
  by_cases h : x / 256 = g <;> simp [h]

theorem Memory.read_shift (m : Memory) (src dst x : Nat) (h : x / 256 = dst) :
    Memory.read ((m.filter fun c => c.1 / 256 = src).map fun c => (256 * dst + c.1 % 256, c.2)) x
      = m.read (256 * src + x % 256) := by
  induction m with
  | nil => rfl
  | cons c m ih =>
    by_cases hc : c.1 / 256 = src
    · rw [List.filter_cons_of_pos (by simpa using hc), List.map_cons, Memory.read_cons, Memory.read_cons, ih]
      have : (256 * dst + c.1 % 256 = x) ↔ c.1 = 256 * src + x % 256 := by omega
      simp [this]
    · rw [List.filter_cons_of_neg (by simpa using hc), ih, Memory.read_cons, if_neg]
      omega

/-- Copying a granule: the destination reads what the source read, every other byte is unchanged (R138). -/
theorem Memory.read_copyGranule (m : Memory) (src dst x : Nat) :
    (m.copyGranule src dst).read x = if x / 256 = dst then m.read (256 * src + x % 256) else m.read x := by
  have hmid : ∀ c ∈ ((m.filter fun c => c.1 / 256 = src).map fun c => (256 * dst + c.1 % 256, c.2)),
      c.1 / 256 = dst := by
    intro c hc
    obtain ⟨d, -, rfl⟩ := List.mem_map.mp hc
    dsimp only
    omega
  have hlo : ∀ c ∈ (m.filter fun c => c.1 / 256 < dst), c.1 / 256 < dst := by
    intro c hc; simpa using (List.mem_filter.mp hc).2
  have hhi : ∀ c ∈ (m.filter fun c => dst < c.1 / 256), dst < c.1 / 256 := by
    intro c hc; simpa using (List.mem_filter.mp hc).2
  unfold Memory.copyGranule
  simp only [Config.granuleBytes]
  rcases Nat.lt_trichotomy (x / 256) dst with h | h | h
  · rw [List.append_assoc, Memory.read_append_left, if_neg (by omega)]
    · have := Memory.read_filter m (fun y => decide (y / 256 < dst)) x
      rw [this]; simp [h]
    · intro c hc hx
      rcases List.mem_append.mp hc with hc | hc
      · have := hmid c hc; omega
      · have := hhi c hc; omega
  · rw [List.append_assoc, Memory.read_append, Memory.read_append_left, Memory.read_shift _ _ _ _ h, if_pos h]
    · intro c hc hx; have := hhi c hc; omega
    · intro c hc hx; have := hlo c hc; omega
  · rw [Memory.read_append, if_neg (by omega)]
    · have := Memory.read_filter m (fun y => decide (dst < y / 256)) x
      rw [this]; simp [h]
    · intro c hc hx
      rcases List.mem_append.mp hc with hc | hc
      · have := hlo c hc; omega
      · have := hmid c hc; omega

/-! ### The canonical form -/

theorem Memory.mem_put {m : Memory} {a : Nat} {b : Byte} {c : Host.Cell} (h : c ∈ m.put a b) : c = (a, b) ∨ c ∈ m := by
  induction m with
  | nil => simpa [Memory.put] using h
  | cons d m ih =>
    obtain ⟨x, e⟩ := d
    simp only [Memory.put] at h
    split at h
    · simpa using h
    · split at h
      · rcases List.mem_cons.mp h with h | h
        · exact .inl h
        · exact .inr (by simp [h])
      · rcases List.mem_cons.mp h with h | h
        · exact .inr (by simp [h])
        · rcases ih h with h | h
          · exact .inl h
          · exact .inr (by simp [h])

theorem Memory.pairwise_put {m : Memory} (a : Nat) (b : Byte) (h : m.Pairwise fun c d => c.1 < d.1) :
    (m.put a b).Pairwise fun c d => c.1 < d.1 := by
  induction m with
  | nil => simp [Memory.put]
  | cons d m ih =>
    obtain ⟨x, e⟩ := d
    obtain ⟨h1, h2⟩ := List.pairwise_cons.mp h
    simp only [Memory.put]
    split
    · next hlt =>
      refine List.pairwise_cons.mpr ⟨?_, h⟩
      intro c hc
      rcases List.mem_cons.mp hc with hc | hc
      · subst hc; exact hlt
      · exact Nat.lt_trans hlt (h1 c hc)
    · split
      · next heq => subst heq; exact List.pairwise_cons.mpr ⟨h1, h2⟩
      · refine List.pairwise_cons.mpr ⟨?_, ih h2⟩
        intro c hc
        rcases Memory.mem_put hc with hc | hc
        · subst hc; dsimp only; omega
        · exact h1 c hc

/-- Dropping entries keeps the canonical form. -/
theorem Memory.wf_filter {m : Memory} (f : Host.Cell → Bool) (h : m.wf) : Memory.wf (m.filter f) :=
  ⟨h.1.filter _, fun c hc => h.2 c (List.mem_filter.mp hc).1⟩

/-- A write inside the array keeps the canonical form. -/
theorem Memory.wf_write {m : Memory} (a : Nat) (b : Byte) (ha : a < 524288) (h : m.wf) : (m.write a b).wf := by
  unfold Memory.write
  split
  · exact Memory.wf_filter _ h
  · next hb =>
    refine ⟨Memory.pairwise_put a b h.1, ?_⟩
    intro c hc
    rcases Memory.mem_put hc with hc | hc
    · subst hc; exact ⟨hb, ha⟩
    · exact h.2 c hc

/-- Clearing a granule keeps the canonical form. -/
theorem Memory.wf_clearGranule {m : Memory} (g : Nat) (h : m.wf) : (m.clearGranule g).wf := Memory.wf_filter _ h

/-- Copying a granule to one inside the array keeps the canonical form. -/
theorem Memory.wf_copyGranule {m : Memory} (src dst : Nat) (hd : dst < 2048) (h : m.wf) :
    (m.copyGranule src dst).wf := by
  unfold Memory.copyGranule
  simp only [Config.granuleBytes]
  have hmid : ∀ c ∈ ((m.filter fun c => c.1 / 256 = src).map fun c => (256 * dst + c.1 % 256, c.2)),
      c.1 / 256 = dst ∧ c.2 ≠ 0 := by
    intro c hc
    obtain ⟨d, hd, rfl⟩ := List.mem_map.mp hc
    exact ⟨by dsimp only; omega, (h.2 d (List.mem_filter.mp hd).1).1⟩
  have hlo : ∀ c ∈ (m.filter fun c => c.1 / 256 < dst), c.1 / 256 < dst := by
    intro c hc; simpa using (List.mem_filter.mp hc).2
  have hhi : ∀ c ∈ (m.filter fun c => dst < c.1 / 256), dst < c.1 / 256 := by
    intro c hc; simpa using (List.mem_filter.mp hc).2
  constructor
  · refine List.pairwise_append.mpr ⟨List.pairwise_append.mpr ⟨h.1.filter _, ?_, ?_⟩, h.1.filter _, ?_⟩
    · refine List.pairwise_map.mpr (((h.1.filter _).imp_of_mem) ?_)
      intro c d hc hd' hlt
      have h1 : c.1 / 256 = src := by simpa using (List.mem_filter.mp hc).2
      have h2 : d.1 / 256 = src := by simpa using (List.mem_filter.mp hd').2
      dsimp only; omega
    · intro c hc d hd'
      have h1 := hlo c hc; have h2 := (hmid d hd').1; omega
    · intro c hc d hd'
      have h2 := hhi d hd'
      rcases List.mem_append.mp hc with hc | hc
      · have h1 := hlo c hc; omega
      · have h1 := (hmid c hc).1; omega
  · intro c hc
    rcases List.mem_append.mp hc with hc | hc
    · rcases List.mem_append.mp hc with hc | hc
      · exact h.2 c (List.mem_filter.mp hc).1
      · have := hmid c hc
        refine ⟨this.2, ?_⟩
        have := this.1
        simp only [Config.arrayBytes]; omega
    · exact h.2 c (List.mem_filter.mp hc).1

/-- The array is canonical after device reset at power-on. -/
theorem State.reset_array_wf : State.reset.array.wf := by decide

/-- Bytes at rising addresses of the array are in canonical form. -/
theorem Memory.wf_tabulate (f : Nat → Byte) {l : List Nat} (h : l.Pairwise (· < ·)) (hl : ∀ a ∈ l, a < 524288) :
    (Memory.tabulate f l).wf := by
  unfold Memory.tabulate
  refine ⟨List.Pairwise.filter _ (List.pairwise_map.mpr h), fun c hc => ?_⟩
  rw [List.mem_filter, List.mem_map] at hc
  obtain ⟨⟨a, ha, rfl⟩, hn⟩ := hc
  exact ⟨by simpa using hn, hl a ha⟩

/-- Bytes at rising addresses read as they are. -/
theorem Memory.read_tabulate (f : Nat → Byte) {l : List Nat} {a : Nat} (h : l.Pairwise (· < ·)) (hl : a ∈ l) :
    (Memory.tabulate f l).read a = f a := by
  induction l with
  | nil => cases hl
  | cons x t ih =>
    rw [List.pairwise_cons] at h
    unfold Memory.tabulate at *
    rw [List.map_cons, List.filter_cons]
    rcases List.mem_cons.mp hl with rfl | ht
    · split
      · rw [Memory.read_cons]; simp
      · next hz =>
        rw [Memory.read_eq_zero_of_not_mem]
        · have hz' : f a = 0 := by simpa using hz
          exact hz'.symm
        · intro c hc
          rw [List.mem_filter, List.mem_map] at hc
          obtain ⟨⟨y, hy, rfl⟩, -⟩ := hc
          exact (h.1 y hy).ne'
    · split
      · rw [Memory.read_cons, if_neg (h.1 a ht).ne]; exact ih h.2 ht
      · exact ih h.2 ht

/-- The array made of bytes is in canonical form. -/
theorem Memory.wf_ofBytes (f : Nat → Byte) : (Memory.ofBytes f).wf := by
  unfold Memory.ofBytes
  exact Memory.wf_tabulate f List.pairwise_lt_range fun _ h => List.mem_range.mp h

/-- The array made of bytes reads as they are. -/
theorem Memory.read_ofBytes (f : Nat → Byte) (a : Nat) (ha : a < 524288) : (Memory.ofBytes f).read a = f a := by
  unfold Memory.ofBytes
  exact Memory.read_tabulate f List.pairwise_lt_range (List.mem_range.mpr ha)

end Sys2Proof.Machine
end

