-- ==== Sys2Proof/Laws/Access.lean ====
section
/-! SUPPORT. Where an access goes, what a faulted and an answered access leave, and the cases of a data access, said once
for every row that is an access. -/

namespace Sys2Proof

/-! ### Addresses -/

theorem Access.odd_eq (a : Access) : a.odd = decide (a.addr.toNat % 2 = 1) := rfl

theorem Access.target_of_dataWindow {a : Access} (h : a.addr.toNat < 0x80000) : a.target = .dataWindow := by
  simp [Access.target, h]

theorem Access.target_of_unmapped {a : Access} (h : 0x80080 ≤ a.addr.toNat) : a.target = .unmapped := by
  have h1 : ¬ a.addr.toNat < 0x80000 := by omega
  have h2 : ¬ a.addr.toNat < 0x80080 := by omega
  simp [Access.target, h1, h2]

theorem Access.target_of_misaligned {a : Access} (h1 : 0x80000 ≤ a.addr.toNat) (h2 : a.addr.toNat < 0x80080)
    (h3 : a.size = .word) (h4 : a.addr.toNat % 2 = 1) : a.target = .controlMisaligned := by
  have h5 : ¬ a.addr.toNat < 0x80000 := by omega
  simp [Access.target, h5, h2, h3, Access.odd, h4]

/-- An aligned control-window access reaches the register at its offset. -/
theorem Access.target_of_control {a : Access} {k : Nat} (hk : k < 64)
    (h : (a.addr.toNat = 0x80000 + 2 * k) ∨ (a.addr.toNat = 0x80000 + 2 * k + 1 ∧ a.size = .byte)) :
    a.target = .register (Machine.Register.ofWord k) (decide (a.addr.toNat % 2 = 1)) := by
  have h1 : ¬ a.addr.toNat < 0x80000 := by omega
  have h2 : a.addr.toNat < 0x80080 := by omega
  have h3 : ¬ (a.size = .word ∧ a.odd = true) := by
    rintro ⟨hs, ho⟩
    simp only [Access.odd, decide_eq_true_eq] at ho
    rcases h with h | ⟨_, h⟩
    · omega
    · rw [hs] at h; cases h
  have h4 : a.offset / 2 = k := by simp only [Access.offset]; omega
  rw [Access.target, if_neg h1, if_pos h2, if_neg h3, h4, Access.odd_eq]

theorem Access.windowOffset_toNat (a : Access) : a.windowOffset.toNat = a.addr.toNat % 65536 := by
  simp [Access.windowOffset]

theorem Access.windowOffset_eq (a : Access) : a.windowOffset = a.addr.setWidth 16 := by
  apply BitVec.eq_of_toNat_eq; simp [Access.windowOffset]

end Sys2Proof

namespace Sys2Proof.Machine

/-! ### The shared operations -/

/-- Every row that is an access is the access of its port; only a data access brings claims with it. -/
theorem exec_accessRow {p : PortId} {a : Access} {arrivals : List Claim} {c : Instr}
    (h : c ∈ accessRows p a arrivals) (s : State) : ∃ l, exec c s = s.access p a l ∧ (l = arrivals ∨ l = []) := by
  simp only [accessRows, List.mem_cons, List.not_mem_nil, or_false] at h
  rcases h with h | h | h | h | h | h | h | h | h | h <;> subst h
  case inr.inl => exact ⟨arrivals, rfl, .inl rfl⟩
  all_goals exact ⟨[], rfl, .inr rfl⟩

theorem EventBlock.recordFault_eq (e : EventBlock) (f : FaultRecord) :
    e.recordFault f =
      { e with
        flags := e.flags ||| 2#6
        fault := match e.fault with
          | none => some f
          | some g => some g
        further := match e.fault with
          | none => 0
          | some _ => if e.further = 255 then 255 else e.further + 1 } := by
  have hf : (if e.further.toNat < 255 then e.further + 1 else e.further) =
      if e.further = 255 then 255 else e.further + 1 := by
    by_cases h : e.further = 255
    · simp [h]
    · have h' : e.further.toNat < 255 := by
        have := e.further.isLt
        have : e.further.toNat ≠ 255 := fun hc => h (BitVec.eq_of_toNat_eq (by simpa using hc))
        omega
      rw [if_pos h', if_neg h]
  unfold EventBlock.recordFault
  rw [hf]
  cases h : e.fault <;> simp [EventBlock.raise, EventKind.mask, EventKind.bit, h]

/-- A faulted access leaves the faulted state and nothing else. -/
theorem State.faultAccess_eq (s : State) (p : PortId) (a : Access) (cause : FaultCause) (place : FaultPlace) :
    s.faultAccess p a cause place = s.faulted p a cause place := by
  have hr : Response.error a = { ok := false, data := match a.dir, a.size with
      | .write, _ => none
      | .read, .byte => some (.byte 0xFF)
      | .read, .word => some (.word 0xFFFF) } := by
    unfold Response.error; cases a.dir <;> cases a.size <;> rfl
  simp only [State.faultAccess, State.faulted, State.respond, State.modifyPort, State.port_setPort, if_true,
    Port.withEvents, EventBlock.recordFault_eq, hr]
  cases p <;> rfl

/-- An answered access of port `p` whose port fields became `q`. -/
theorem State.respond_modifyPort (s : State) (p : PortId) (f : Port → Port) (ok : Bool) (d : Option ReadData) :
    (s.modifyPort p f).respond p ⟨ok, d⟩ =
      { s.setPort p { f (s.port p) with response := some ⟨ok, d⟩ } with waits := s.waits.drop (.port p) } := by
  simp only [State.respond, State.modifyPort, State.port_setPort, if_true]
  cases p <;> rfl

theorem State.respond_eq_served (s : State) (p : PortId) (d : Option ReadData) :
    s.respond p ⟨true, d⟩ = s.served p (s.port p) d := rfl

/-- The location of a byte is where routing puts it. -/
theorem State.location_eq_locate (s : State) (r : RegionId) (x : Nat) : s.location r x = (s.region r).locate x := by
  unfold State.location Region.locate
  cases (s.region r).move with
  | none => rfl
  | some m => simp only [Config.granuleBytes]; split <;> rfl

/-- The checks of R91 passed: a bound slot, aligned, inside the region, and rights enough. -/
theorem State.checkAccess_eq_ok_iff (s : State) (p : PortId) (a : Access) (r : RegionId) (e : Nat) :
    s.checkAccess p a = .ok (r, e) ↔
      ∃ rights origin, (s.port p).addressedSlot a = .bound r rights origin ∧
        e = origin.toNat + a.windowOffset.toNat ∧ ¬ (a.size = .word ∧ a.odd = true) ∧
        e + a.size.bytes - 1 < (s.region r).length * Config.granuleBytes ∧ ¬ (a.dir = .write ∧ rights = .read) := by
  unfold State.checkAccess
  cases h : (s.port p).addressedSlot a with
  | empty => simp
  | lapsed _ _ => simp
  | bound r' rights origin =>
    dsimp only
    split
    · simp_all
    · split
      · next h1 h2 =>
        simp only [reduceCtorEq, false_iff, not_exists, not_and, Slot.bound.injEq]
        rintro _ _ ⟨rfl, rfl, rfl⟩ he - hb
        subst he; omega
      · split
        · simp_all
        · next h1 h2 h3 =>
          simp only [Except.ok.injEq, Prod.mk.injEq, Slot.bound.injEq]
          constructor
          · rintro ⟨rfl, rfl⟩
            exact ⟨rights, origin, ⟨rfl, rfl, rfl⟩, rfl, h1, by omega, h3⟩
          · rintro ⟨_, _, ⟨rfl, rfl, rfl⟩, rfl, -⟩
            exact ⟨rfl, rfl⟩

/-- Everything a data access that its port presents can do. -/
theorem State.dataAccess_cases {s t : State} {p : PortId} {a : Access} {arrivals : List Claim}
    (h : s.dataAccess p a arrivals = .next t) :
    (∃ cause, s.checkAccess p a = .error cause ∧ t = s.faulted p a cause ((s.port p).faultSlot a)) ∨
    (∃ r e, s.checkAccess p a = .ok (r, e) ∧ (s.arriveAll (.port p a :: arrivals)).serves (.port p) = true ∧
      (s.region r).lastByte a e < Config.arrayBytes ∧
      t = (s.arriveAll (.port p a :: arrivals)).serve p a (s.region r) e) ∨
    (t = s.arriveAll (.port p a :: arrivals) ∧ (s.arriveAll (.port p a :: arrivals)).serves (.port p) = false) := by
  unfold State.dataAccess at h
  split at h
  · next cause hc =>
    injection h with h
    exact .inl ⟨cause, hc, by rw [← h, State.faultAccess_eq]⟩
  · next r e hc =>
    dsimp only at h
    split at h
    · next hs =>
      split at h
      · next hb => injection h with h; exact .inr (.inl ⟨r, e, hc, hs, hb, h.symm⟩)
      · cases h
    · next hs => injection h with h; exact .inr (.inr ⟨h.symm, by simpa using hs⟩)

/-- Everything an access can do. -/
theorem State.access_cases {s t : State} {p : PortId} {a : Access} {arrivals : List Claim}
    (h : s.access p a arrivals = .next t) :
    (s.presents p a = false ∧ t = s) ∨
    (s.presents p a = true ∧
      ((a.target = .dataWindow ∧ s.dataAccess p a arrivals = .next t) ∨
       (∃ r high, a.target = .register r high ∧ t = s.controlAccess p a r high) ∨
       (a.target = .controlMisaligned ∧ t = s.faulted p a .misaligned (.address a.addr)) ∨
       (a.target = .unmapped ∧ t = s.faulted p a .unmapped (.address a.addr)))) := by
  unfold State.access at h
  split at h
  · next hp =>
    refine .inr ⟨hp, ?_⟩
    split at h
    · next ht => exact .inl ⟨ht, h⟩
    · next r high ht => injection h with h; exact .inr (.inl ⟨r, high, ht, h.symm⟩)
    · next ht => injection h with h; exact .inr (.inr (.inl ⟨ht, by rw [← h, State.faultAccess_eq]⟩))
    · next ht => injection h with h; exact .inr (.inr (.inr ⟨ht, by rw [← h, State.faultAccess_eq]⟩))
  · next hp => injection h with h; exact .inl ⟨by simpa using hp, h.symm⟩

/-- A control access leaves everything but the port that makes it. -/
theorem State.controlAccess_eq (s : State) (p : PortId) (a : Access) (r : Register) (high : Bool) :
    s.controlAccess p a r high =
      match a.dir with
      | .read => s.served p (s.port p) (some (readRegister (s.registerWord p r) a.size high))
      | .write => s.served p ((s.port p).writeRegister r a.size high a.data) none := by
  unfold State.controlAccess
  cases a.dir with
  | read => rfl
  | write => exact State.respond_modifyPort ..

/-- What an access that its port presents to a register of the control window does, misaligned accesses apart (R90, R188). -/
theorem State.access_register {s : State} {p : PortId} {a : Access} {arrivals : List Claim} {k : Nat}
    (h : s.presents p a = true) (hk : k < 64)
    (ha : a.addr.toNat = 0x80000 + 2 * k ∨ (a.addr.toNat = 0x80000 + 2 * k + 1 ∧ a.size = .byte)) :
    s.access p a arrivals = .next (match a.dir with
      | .read => s.served p (s.port p)
          (some (readRegister (s.registerWord p (Register.ofWord k)) a.size (decide (a.addr.toNat % 2 = 1))))
      | .write => s.served p
          ((s.port p).writeRegister (Register.ofWord k) a.size (decide (a.addr.toNat % 2 = 1)) a.data) none) := by
  rw [State.access, if_pos h]
  rw [Access.target_of_control hk ha]; dsimp only; rw [State.controlAccess_eq]

/-- An access that its port presents to the data window goes to the Access Checker. -/
theorem State.access_dataWindow {s : State} {p : PortId} {a : Access} {arrivals : List Claim}
    (h : s.presents p a = true) (ha : a.addr.toNat < 0x80000) :
    s.access p a arrivals = s.dataAccess p a arrivals := by
  rw [State.access, if_pos h]
  rw [Access.target_of_dataWindow ha]

end Sys2Proof.Machine
end

