-- ==== Sys2Proof/Laws/Arbiter.lean ====
section
/-! SUPPORT. The claims at the Array Arbiter: who waits, what arriving and leaving change, and how each claim served brings
the others nearer. -/

namespace Sys2Proof.Machine

/-! ### What waits -/

theorem State.port_mem_claims_iff (s : State) (p : PortId) :
    Claimant.port p ∈ s.claims ↔ s.waits.ports.get p ≠ none := by
  cases h : s.waits.step <;>
    simp [State.claims, h, PortId.mem_all, Option.isSome_iff_ne_none]

theorem State.engine_mem_claims_iff (s : State) : Claimant.engine ∈ s.claims ↔ s.waits.step = true := by
  cases h : s.waits.step <;> simp [State.claims, h]

theorem State.presents_iff (s : State) (p : PortId) (a : Access) :
    s.presents p a = true ↔ (s.port p).portState = .attached ∧ ∀ b ∈ s.waits.ports.get p, b = a := by
  simp only [State.presents, decide_eq_true_eq, Option.mem_def]
  cases s.waits.ports.get p <;> simp

/-- What the running job calls for does not depend on what waits. -/
theorem State.granuleNext_arriveAll (s : State) (l : List Claim) : (s.arriveAll l).granuleNext = s.granuleNext := by
  rw [State.arriveAll_eq]; rfl

/-! ### Arriving -/

/-- A claim that waits goes on waiting when others arrive. -/
theorem State.arrive_keeps (s : State) (k : Claim) :
    (∀ p a, s.waits.ports.get p = some a → (s.arrive k).waits.ports.get p = some a) ∧
    (s.waits.step = true → (s.arrive k).waits.step = true) := by
  cases k with
  | port q b =>
    unfold State.arrive; dsimp only
    split
    · next h =>
      refine ⟨fun p a hp => ?_, id⟩
      rw [PerPort.get_set]
      split
      · next hq =>
        subst hq
        rw [(s.presents_iff p b).mp h.1 |>.2 a hp]
      · exact hp
    · exact ⟨fun _ _ h => h, id⟩
  | engine => unfold State.arrive; dsimp only; split <;> exact ⟨fun _ _ h => h, fun _ => by simp_all⟩

theorem State.arriveAll_keeps (s : State) (l : List Claim) :
    (∀ p a, s.waits.ports.get p = some a → (s.arriveAll l).waits.ports.get p = some a) ∧
    (s.waits.step = true → (s.arriveAll l).waits.step = true) := by
  induction l generalizing s with
  | nil => exact ⟨fun _ _ h => h, id⟩
  | cons k l ih =>
    exact ⟨fun p a h => (ih _).1 p a ((s.arrive_keeps k).1 p a h), fun h => (ih _).2 ((s.arrive_keeps k).2 h)⟩

theorem State.mem_claims_arriveAll {s : State} {c : Claimant} (h : c ∈ s.claims) (l : List Claim) : c ∈ (s.arriveAll l).claims := by
  cases c with
  | port p =>
    rw [State.port_mem_claims_iff] at *
    obtain ⟨a, ha⟩ := Option.ne_none_iff_exists'.mp h
    rw [(s.arriveAll_keeps l).1 p a ha]; simp
  | engine => rw [State.engine_mem_claims_iff] at *; exact (s.arriveAll_keeps l).2 h

/-- What arrives keeps the law of claims, and a HELD port without a claim. -/
theorem State.ClaimLaw.arrive {s : State} (h : s.ClaimLaw) (k : Claim) : (s.arrive k).ClaimLaw := by
  cases k with
  | port q b =>
    unfold State.arrive; dsimp only
    split
    · next hc =>
      refine ⟨fun p a ha => ?_, h.2⟩
      dsimp only at ha
      rw [PerPort.get_set] at ha
      split at ha
      · cases ha; exact hc.2
      · exact h.1 p a ha
    · exact h
  | engine =>
    unfold State.arrive; dsimp only
    split
    · next hg => exact ⟨h.1, fun _ => hg⟩
    · exact h

theorem State.ClaimLaw.arriveAll {s : State} (h : s.ClaimLaw) (l : List Claim) : (s.arriveAll l).ClaimLaw := by
  induction l generalizing s with
  | nil => exact h
  | cons k l ih => exact ih (h.arrive k)

/-- No access comes to wait at a HELD port. -/
theorem State.arriveAll_held (s : State) (l : List Claim) {p : PortId} (h : (s.port p).portState = .held) :
    (s.arriveAll l).waits.ports.get p = s.waits.ports.get p := by
  induction l generalizing s with
  | nil => rfl
  | cons k l ih =>
    refine (ih (s.arrive k) (by rw [s.arrive_eq k]; exact h)).trans ?_
    cases k with
    | port q b =>
      unfold State.arrive; dsimp only
      split
      · next hc =>
        rw [PerPort.get_set, if_neg]
        rintro rfl
        have := ((s.presents_iff p b).mp hc.1).1
        rw [h] at this; cases this
      · rfl
    | engine => unfold State.arrive; dsimp only; split <;> rfl

/-! ### The rotation (R86) -/

/-- The claim taken is the first of those that wait. -/
theorem idxOf_le_of_arbiterServes {last c d : Claimant} {claims : List Claimant} (h : arbiterServes last c claims = true)
    (hd : d ∈ claims) : (claimOrder last).idxOf c ≤ (claimOrder last).idxOf d := by
  simp only [arbiterServes, decide_eq_true_eq] at h
  obtain ⟨-, before, after, ho, hn⟩ := List.find?_eq_some_iff_append.mp h
  have hc : c ∉ before := fun hc => by simpa using hn c hc
  have hd' : d ∉ before := fun h => by have := hn d h; simp [hd] at this
  rw [ho, List.idxOf_append_of_notMem hc, List.idxOf_append_of_notMem hd', List.idxOf_cons_self]
  omega

/-- A claim taken brings every other waiting claim nearer. -/
theorem nearer_of_arbiterServes {last c me : Claimant} {claims : List Claimant} (h : arbiterServes last c claims = true)
    (hm : me ∈ claims) (hne : me ≠ c) : (claimOrder c).idxOf me < (claimOrder last).idxOf me := by
  have hall : ∀ p : Claimant, p = .port .p0 ∨ p = .port .p1 ∨ p = .port .p2 ∨ p = .port .p3 ∨ p = .engine := by
    rintro (⟨⟨⟩⟩ | _) <;> simp
  have h := idxOf_le_of_arbiterServes h hm
  revert h hne
  rcases hall last with rfl | rfl | rfl | rfl | rfl <;> rcases hall c with rfl | rfl | rfl | rfl | rfl <;>
    rcases hall me with rfl | rfl | rfl | rfl | rfl <;> decide

end Sys2Proof.Machine
end

