-- ==== Sys2Proof/Laws/Lawful.lean ====
section
/-! SUPPORT. What a lawful state gives at once: the region a slot names, its span, where its bytes lie, the move and the jobs
in progress. -/

namespace Sys2Proof.Machine

namespace State.Lawful

variable {s : State}

/-- A BOUND slot names a region in use. -/
theorem inUse_of_bound (h : s.Lawful) {p : PortId} {i : SlotIndex} {r : RegionId} {rights : Rights} {origin : Word}
    (hs : (s.port p).slot i = .bound r rights origin) : (s.region r).state.inUse = true := by
  have := h.bindings.2 p i (r, rights) (by rw [hs]; rfl)
  exact this

/-- The extent of a record that is not VACANT is one of the places of R26. -/
theorem extent_mem_places (_ : s.Lawful) {r : RegionId} (hr : (s.region r).state ≠ .vacant) :
    (⟨(s.region r).base, (s.region r).length⟩ : Extent) ∈ s.places := by
  simp only [State.places, List.mem_append, List.mem_map, List.mem_filter]
  exact .inl (.inl (.inr ⟨r, ⟨List.mem_finRange r, by simpa using hr⟩, rfl⟩))

/-- The extent of a record that is not VACANT ends inside the array. -/
theorem extent_le (h : s.Lawful) {r : RegionId} (hr : (s.region r).state ≠ .vacant) :
    (s.region r).base + (s.region r).length ≤ 2048 :=
  h.placement.2 _ (h.extent_mem_places hr)

theorem ne_vacant_of_inUse {x : Region} (h : x.state.inUse = true) : x.state ≠ .vacant := by
  intro hc; rw [hc] at h; cases h

/-- The compaction job is in the COPY phase of the move of a region that carries a move record, and the record's
destination lies directly below the region. -/
theorem move_cases (h : s.Lawful) {r : RegionId} {v : MoveRecord} (hv : (s.region r).move = some v) :
    ∃ c m, s.engine.compaction? = some c ∧ c.phase = .copy m ∧ m.subject = r ∧ m.extent.stop = (s.region r).base ∧
      m.source = (s.region r).base ∧ m.length = (s.region r).length ∧ v.dest = m.extent.base ∧
      v.cursor ≤ (s.region r).length ∧ 1 ≤ m.extent.length := by
  have h1 := h.moves.1 r (by rw [hv]; simp)
  rw [Option.bind_eq_some_iff] at h1
  obtain ⟨c, hc, hs⟩ := h1
  have h2 := h.moves.2 c hc
  unfold Compaction.copySubject? at hs
  split at hs
  · next m hm =>
    injection hs with hs
    rw [hm] at h2
    obtain ⟨⟨ha, hb, hd⟩, he, hf, hg, w, hw, hx, hy⟩ := h2
    subst hs
    rw [hv, Option.mem_some_iff] at hw
    subst hw
    exact ⟨c, m, hc, hm, rfl, by rw [hf]; exact ha, hf.symm, hg.symm, hx, by rw [hg]; exact hy, hb⟩
  · cases hs

/-- Every byte of a region in use lies in the array. -/
theorem location_lt (h : s.Lawful) {r : RegionId} (hr : (s.region r).state.inUse = true) {x : Nat}
    (hx : x < (s.region r).length * 256) : s.location r x < Config.arrayBytes := by
  have h1 := h.extent_le (ne_vacant_of_inUse hr)
  have h2 : (s.region r).base * 256 + x < 524288 := by omega
  unfold State.location
  split
  · exact h2
  · next m hm =>
    obtain ⟨c, v, -, -, -, h3, -, -, h4, -, -⟩ := h.move_cases hm
    simp only [Extent.stop] at h3
    split
    · have h5 : m.dest ≤ (s.region r).base := by omega
      exact Nat.lt_of_le_of_lt (Nat.add_le_add_right (Nat.mul_le_mul_right 256 h5) x) h2
    · exact h2

end State.Lawful

/-- A job of the set is the running one, a suspended one or a queued one. -/
theorem Engine.mem_jobs_iff (e : Engine) (j : Job) : j ∈ e.jobs ↔ e.running = some j ∨ j ∈ e.stack ∨ j ∈ e.queue := by
  simp only [Engine.jobs, List.mem_append, Option.mem_toList, or_assoc]

theorem Engine.mem_jobs_of_running {e : Engine} {j : Job} (h : e.running = some j) : j ∈ e.jobs :=
  (e.mem_jobs_iff j).mpr (.inl h)

/-- A running compaction job's state is the one in the job set. -/
theorem Engine.compaction?_of_running {e : Engine} {level : Level} {order : Nat} {c : Compaction}
    (h : e.running = some ⟨level, order, .compaction c⟩) : e.compaction? = some c := by
  rw [Engine.compaction?, Engine.jobs, h]
  rfl

namespace State.Lawful

variable {s : State}

/-- The span of a scrub job of the set ends inside the array. -/
theorem scrub_span_le (h : s.Lawful) {level : Level} {order : Nat} {target : ScrubTarget} {span : Extent} {cursor : Nat}
    (hj : (⟨level, order, .scrub target span cursor⟩ : Job) ∈ s.engine.jobs) : span.stop ≤ 2048 := by
  cases target with
  | boot k =>
    refine h.placement.2 _ ?_
    simp only [State.places, List.mem_append, List.mem_filterMap]
    exact .inr ⟨_, hj, rfl⟩
  | region r =>
    have h1 := h.jobs.2.2.1 _ hj r rfl (span, cursor) rfl
    have h2 : (s.region r).state = .scrubbing := by
      rw [h.jobs.2.1 r, List.mem_filterMap]
      exact ⟨_, hj, rfl⟩
    have h3 := h.extent_le (r := r) (by rw [h2]; simp)
    simp only at h1
    rw [h1]; exact h3

end State.Lawful

end Sys2Proof.Machine
end

