-- ==== Sys2Proof/Laws/Engine.lean ====
section
/-! SUPPORT. The job set: what making, choosing, a step boundary and a change of the compaction state do to the jobs and
to their order, each said once. -/

namespace Sys2Proof.Machine

/-- The order of R112 without the last clause of `Engine.Ordered`: it also holds between a job's making and the choice at
the end of the event, while an idle engine has a job waiting. -/
abbrev Engine.InOrder (e : Engine) : Prop :=
  e.queue.Pairwise (fun j k => j.before k = true) ∧ (∀ j ∈ e.jobs, j.order < e.nextOrder) ∧
  (e.running.toList ++ e.stack).Pairwise (fun j k => j.level < k.level)

theorem Engine.Ordered.inOrder {e : Engine} (h : e.Ordered) : e.InOrder := ⟨h.1, h.2.1, h.2.2.1⟩

theorem Job.before_iff (j k : Job) :
    j.before k = true ↔ j.level.val < k.level.val ∨ (j.level.val = k.level.val ∧ j.order < k.order) := by
  simp [Job.before, Fin.ext_iff]

theorem Job.before_trans {i j k : Job} (h : i.before j = true) (h' : j.before k = true) : i.before k = true := by
  rw [Job.before_iff] at *; omega

/-- A queued job is the new one or was there. -/
theorem queueJob_perm (j : Job) (l : List Job) : (queueJob j l).Perm (j :: l) := by
  induction l with
  | nil => exact .refl _
  | cons k t ih =>
    unfold queueJob
    split
    · exact .refl _
    · exact (ih.cons k).trans (.swap j k t)

/-- A job of the latest making order keeps the queue in order. -/
theorem pairwise_queueJob {j : Job} {l : List Job} (h : l.Pairwise (fun j k => j.before k = true))
    (ho : ∀ k ∈ l, k.order < j.order) : (queueJob j l).Pairwise (fun j k => j.before k = true) := by
  induction l with
  | nil => simp [queueJob]
  | cons k t ih =>
    rw [List.pairwise_cons] at h
    unfold queueJob
    split
    · next hb =>
      rw [List.pairwise_cons, List.pairwise_cons]
      refine ⟨fun x hx => ?_, h⟩
      rcases List.mem_cons.mp hx with rfl | hx
      · exact hb
      · exact Job.before_trans hb (h.1 x hx)
    · next hb =>
      rw [List.pairwise_cons]
      refine ⟨fun x hx => ?_, ih h.2 fun k hk => ho k (by simp [hk])⟩
      rcases List.mem_cons.mp ((queueJob_perm j t).mem_iff.mp hx) with rfl | hx
      · have := ho k (by simp)
        rw [Job.before_iff] at *; omega
      · exact h.1 x hx

/-- Making a job adds it to the set and nothing else. -/
theorem Engine.jobs_make (e : Engine) (level : Level) (work : Work) :
    (e.make level work).jobs.Perm (⟨level, e.nextOrder, work⟩ :: e.jobs) := by
  show (e.running.toList ++ e.stack ++ queueJob _ e.queue).Perm (_ :: (e.running.toList ++ e.stack ++ e.queue))
  exact ((queueJob_perm _ _).append_left _).trans List.perm_middle

/-- The choice moves a job inside the set. -/
theorem Engine.jobs_choose (e : Engine) : e.choose.jobs.Perm e.jobs := by
  obtain ⟨run, stack, queue, next⟩ := e
  unfold Engine.choose Engine.jobs
  cases run with
  | some j => exact .refl _
  | none =>
    cases queue with
    | nil => cases stack <;> simp
    | cons q qs =>
      cases stack with
      | nil => simp
      | cons t ts =>
        dsimp only
        split
        · simpa using (List.perm_middle (a := q) (l₁ := t :: ts) (l₂ := qs)).symm
        · simp

/-- A step boundary moves jobs inside the set. -/
theorem Engine.jobs_boundary (e : Engine) : e.boundary.jobs.Perm e.jobs := by
  obtain ⟨run, stack, queue, next⟩ := e
  unfold Engine.boundary Engine.jobs
  split
  · next j q qs h1 h2 =>
    simp only at h1 h2
    split
    · subst h1 h2; simpa using (List.perm_middle (a := q) (l₁ := j :: stack) (l₂ := qs)).symm
    · exact .refl _
  · exact .refl _

@[simp] theorem Engine.nextOrder_choose (e : Engine) : e.choose.nextOrder = e.nextOrder := by
  obtain ⟨run, stack, queue, next⟩ := e
  unfold Engine.choose
  cases run with
  | some j => rfl
  | none =>
    cases queue with
    | nil => cases stack <;> rfl
    | cons q qs =>
      cases stack with
      | nil => rfl
      | cons t ts => dsimp only; split <;> rfl

@[simp] theorem Engine.nextOrder_boundary (e : Engine) : e.boundary.nextOrder = e.nextOrder := by
  unfold Engine.boundary
  split
  · split <;> rfl
  · rfl

/-- Jobs in a strict chain of levels are at most four. -/
theorem length_le_four_of_chain {l : List Job} (h : l.Pairwise (fun j k => j.level < k.level)) : l.length ≤ 4 := by
  have h1 : (l.map Job.level).Nodup := by
    rw [List.nodup_iff_pairwise_ne, List.pairwise_map]
    exact h.imp fun h => ne_of_lt h
  simpa using h1.length_le_card

/-- Making a job keeps the order. -/
theorem Engine.InOrder.make {e : Engine} (h : e.InOrder) (level : Level) (work : Work) : (e.make level work).InOrder := by
  obtain ⟨h1, h2, h3⟩ := h
  refine ⟨pairwise_queueJob h1 fun k hk => h2 k ((e.mem_jobs_iff k).mpr (.inr (.inr hk))), fun j hj => ?_, h3⟩
  show j.order < e.nextOrder + 1
  rcases List.mem_cons.mp ((e.jobs_make level work).mem_iff.mp hj) with rfl | hj
  · exact Nat.lt_succ_self _
  · exact Nat.lt_succ_of_lt (h2 j hj)

/-- After the choice the order is whole: an idle engine has no job waiting (R114). -/
theorem Engine.InOrder.choose {e : Engine} (h : e.InOrder) : e.choose.Ordered := by
  obtain ⟨h1, h2, h3⟩ := h
  have hj : ∀ j ∈ e.choose.jobs, j.order < e.choose.nextOrder := fun j hj => by
    rw [e.nextOrder_choose]; exact h2 j (e.jobs_choose.mem_iff.mp hj)
  have fin : ∀ l : List Job, ∀ k : Job, (k :: l).Pairwise (fun j k => j.level < k.level) → l.length ≤ 3 := fun l k h => by
    exact Nat.le_of_succ_le_succ (length_le_four_of_chain h)
  obtain ⟨run, stack, queue, next⟩ := e
  simp only at h1 h2 h3
  refine ⟨?_, hj, ?_⟩
  · unfold Engine.choose
    cases run with
    | some j => exact h1
    | none =>
      cases queue with
      | nil => cases stack <;> exact List.Pairwise.nil
      | cons q qs =>
        cases stack with
        | nil => exact (List.pairwise_cons.mp h1).2
        | cons t ts =>
          dsimp only; split
          · exact (List.pairwise_cons.mp h1).2
          · exact h1
  · unfold Engine.choose
    cases run with
    | some j => exact ⟨h3, fin _ j (by simpa using h3), by simp⟩
    | none =>
      simp only [Option.toList_none, List.nil_append] at h3
      cases queue with
      | nil =>
        cases stack with
        | nil => exact ⟨by simp, by simp, by simp⟩
        | cons t ts => exact ⟨by simpa using h3, fin _ t h3, by simp⟩
      | cons q qs =>
        cases stack with
        | nil => exact ⟨by simp, by simp, by simp⟩
        | cons t ts =>
          dsimp only
          split
          · next hlt =>
            have hc : (q :: t :: ts).Pairwise (fun j k => j.level < k.level) := by
              rw [List.pairwise_cons]
              refine ⟨fun x hx => ?_, h3⟩
              rcases List.mem_cons.mp hx with rfl | hx
              · exact hlt
              · exact lt_trans hlt ((List.pairwise_cons.mp h3).1 x hx)
            exact ⟨by simpa using hc, fin _ q hc, by simp⟩
          · exact ⟨by simpa using h3, fin _ t h3, by simp⟩

/-- A step boundary keeps the order (R117). -/
theorem Engine.Ordered.boundary {e : Engine} (h : e.Ordered) : e.boundary.Ordered := by
  obtain ⟨h1, h2, h3, h4, h5⟩ := h
  have hj : ∀ j ∈ e.boundary.jobs, j.order < e.boundary.nextOrder := fun j hj => by
    rw [e.nextOrder_boundary]; exact h2 j (e.jobs_boundary.mem_iff.mp hj)
  refine ⟨?_, hj, ?_⟩
  · unfold Engine.boundary
    split
    · next hq => split
                 · rw [hq] at h1; exact (List.pairwise_cons.mp h1).2
                 · exact h1
    · exact h1
  · unfold Engine.boundary
    split
    · next j q qs hr hq =>
      split
      · next hlt =>
        rw [hr] at h3
        simp only [Option.toList_some, List.singleton_append] at h3
        have hc : (q :: j :: e.stack).Pairwise (fun j k => j.level < k.level) := by
          rw [List.pairwise_cons]
          refine ⟨fun x hx => ?_, h3⟩
          rcases List.mem_cons.mp hx with rfl | hx
          · exact hlt
          · exact lt_trans hlt ((List.pairwise_cons.mp h3).1 x hx)
        exact ⟨by simpa using hc, Nat.le_of_succ_le_succ (length_le_four_of_chain hc), by simp⟩
      · exact ⟨h3, h4, h5⟩
    · exact ⟨h3, h4, h5⟩

/-- The running job leaves the set. -/
theorem Engine.InOrder.drop {e : Engine} (h : e.InOrder) : ({ e with running := none } : Engine).InOrder := by
  obtain ⟨h1, h2, h3⟩ := h
  refine ⟨h1, fun j hj => h2 j ?_, ?_⟩
  · rw [Engine.mem_jobs_iff] at hj ⊢
    exact hj.elim (fun h => by cases h) .inr
  · exact (List.pairwise_append.mp h3).2.1

/-- A change of the compaction state keeps each job's level and making order. -/
@[simp] theorem Job.withCompaction_level (f : Compaction → Compaction) (j : Job) : (j.withCompaction f).level = j.level := by
  unfold Job.withCompaction; split <;> rfl

@[simp] theorem Job.withCompaction_order (f : Compaction → Compaction) (j : Job) : (j.withCompaction f).order = j.order := by
  unfold Job.withCompaction; split <;> rfl

theorem Job.compaction?_withCompaction (f : Compaction → Compaction) (j : Job) :
    (j.withCompaction f).compaction? = j.compaction?.map f := by
  obtain ⟨level, order, work⟩ := j
  cases work <;> rfl

theorem Job.scrubRegion?_withCompaction (f : Compaction → Compaction) (j : Job) :
    (j.withCompaction f).scrubRegion? = j.scrubRegion? := by
  obtain ⟨level, order, work⟩ := j
  cases work <;> rfl

theorem Job.scrubWork?_withCompaction (f : Compaction → Compaction) (j : Job) :
    (j.withCompaction f).scrubWork? = j.scrubWork? := by
  obtain ⟨level, order, work⟩ := j
  cases work <;> rfl

theorem Job.bootSpan?_withCompaction (f : Compaction → Compaction) (j : Job) :
    (j.withCompaction f).bootSpan? = j.bootSpan? := by
  obtain ⟨level, order, work⟩ := j
  cases work <;> rfl

theorem Engine.jobs_withCompaction (e : Engine) (f : Compaction → Compaction) :
    (e.withCompaction f).jobs = e.jobs.map (Job.withCompaction f) := by
  obtain ⟨run, stack, queue, next⟩ := e
  cases run <;> simp [Engine.jobs, Engine.withCompaction]

theorem Engine.compaction?_withCompaction (e : Engine) (f : Compaction → Compaction) :
    (e.withCompaction f).compaction? = e.compaction?.map f := by
  unfold Engine.compaction?
  rw [Engine.jobs_withCompaction]
  induction e.jobs with
  | nil => rfl
  | cons j t ih =>
    simp only [List.map_cons, List.findSome?_cons, Job.compaction?_withCompaction, ih]
    cases j.compaction? <;> rfl

/-- A change of the compaction state keeps the order of the job set (R128). -/
theorem Engine.InOrder.withCompaction {e : Engine} (h : e.InOrder) (f : Compaction → Compaction) :
    (e.withCompaction f).InOrder := by
  obtain ⟨h1, h2, h3⟩ := h
  refine ⟨?_, fun j hj => ?_, ?_⟩
  · show (e.queue.map _).Pairwise _
    rw [List.pairwise_map]
    exact h1.imp fun {a b} h => by rw [Job.before_iff] at *; simpa using h
  · rw [Engine.jobs_withCompaction, List.mem_map] at hj
    obtain ⟨k, hk, rfl⟩ := hj
    rw [Job.withCompaction_order]; exact h2 k hk
  · have : (e.withCompaction f).running.toList ++ (e.withCompaction f).stack =
        (e.running.toList ++ e.stack).map (Job.withCompaction f) := by
      obtain ⟨run, stack, queue, next⟩ := e
      cases run <;> simp [Engine.withCompaction]
    rw [this, List.pairwise_map]
    exact h3.imp fun {a b} h => by simpa using h

end Sys2Proof.Machine
end

