-- ==== Sys2Proof/Laws/FreeSpace.lean ====
section
/-! SUPPORT. The free-extent list and the directory: what first fit, the return of an extent, the watches and the insertion
of a name do, each said once. -/

namespace Sys2Proof.Machine

/-- A granule of an extent, in numbers. -/
theorem Extent.contains_iff (e : Extent) (g : Nat) : e.contains g = true ↔ e.base ≤ g ∧ g < e.base + e.length :=
  decide_eq_true_iff

/-- First fit takes the lowest granules of the first extent that is long enough (R31). -/
theorem firstFit_append {low high : List Extent} {f : Extent} {n : Nat} (h : ∀ y ∈ low, y.length < n) (hf : n ≤ f.length) :
    firstFit (low ++ f :: high) n =
      some (f.base, low ++ (if f.length = n then [] else [⟨f.base + n, f.length - n⟩]) ++ high) := by
  induction low with
  | nil => simp only [List.nil_append, firstFit, if_pos hf]; split <;> simp
  | cons x t ih =>
    have := h x (by simp)
    simp only [List.cons_append, firstFit]
    rw [if_neg (by omega), ih (fun y hy => h y (by simp [hy]))]
    simp

/-- First fit fails exactly where no extent is long enough. -/
theorem firstFit_eq_none_iff (l : List Extent) (n : Nat) : firstFit l n = none ↔ ∀ y ∈ l, y.length < n := by
  induction l with
  | nil => simp [firstFit]
  | cons x t ih =>
    simp only [firstFit]
    split
    · simp; intro; omega
    · simp [ih]; intro; omega

/-- What first fit gives: the split of the list at the extent taken from (R31). -/
theorem firstFit_cases {l : List Extent} {n b : Nat} {m : List Extent} (h : firstFit l n = some (b, m)) :
    ∃ low f high, l = low ++ f :: high ∧ (∀ y ∈ low, y.length < n) ∧ n ≤ f.length ∧ b = f.base ∧
      m = low ++ (if f.length = n then [] else [⟨f.base + n, f.length - n⟩]) ++ high := by
  induction l generalizing b m with
  | nil => cases h
  | cons x t ih =>
    by_cases hx : n ≤ x.length
    · have := firstFit_append (low := []) (high := t) (f := x) (n := n) (by simp) hx
      rw [List.nil_append, h] at this
      injection this with this
      injection this with h1 h2
      exact ⟨[], x, t, rfl, by simp, hx, h1, h2⟩
    · simp only [firstFit, if_neg hx, Option.map_eq_some_iff] at h
      obtain ⟨⟨c, k⟩, h1, h2⟩ := h
      obtain ⟨low, f, high, rfl, h3, h4, h5, h6⟩ := ih h1
      injection h2 with h7 h8
      refine ⟨x :: low, f, high, rfl, ?_, h4, h7 ▸ h5, by rw [← h8, h6]; rfl⟩
      intro y hy
      rcases List.mem_cons.mp hy with rfl | hy
      · omega
      · exact h3 y hy

/-- What the space watches do (R39), in the words of the statements. -/
theorem Port.testWatch_eq (q : Port) (n : Nat) : q.testWatch n = q.watched n := by
  unfold Port.testWatch Port.watched
  cases q.watch with
  | none => rfl
  | some w => by_cases h : w ≤ n <;> (simp [h]; try rfl)

/-- What the return of an extent does (R29, R39), in the words of the statements. -/
theorem State.returnExtent_eq (s : State) (e : Extent) : s.returnExtent e = s.withFree e := by
  unfold State.returnExtent State.withFree State.mapPorts
  simp only [Port.testWatch_eq]

@[simp] theorem State.withFree_freeList (s : State) (e : Extent) : (s.withFree e).freeList = (insertExtent s.freeList e).1 := rfl
@[simp] theorem State.withFree_region (s : State) (e : Extent) (r : RegionId) : (s.withFree e).region r = s.region r := rfl
@[simp] theorem State.withFree_directory (s : State) (e : Extent) : (s.withFree e).directory = s.directory := rfl
@[simp] theorem State.withFree_engine (s : State) (e : Extent) : (s.withFree e).engine = s.engine := rfl
@[simp] theorem State.withFree_array (s : State) (e : Extent) : (s.withFree e).array = s.array := rfl
@[simp] theorem State.withFree_lastPort (s : State) (e : Extent) : (s.withFree e).lastPort = s.lastPort := rfl
@[simp] theorem State.withFree_lastTaken (s : State) (e : Extent) : (s.withFree e).lastTaken = s.lastTaken := rfl
@[simp] theorem State.withFree_lastServed (s : State) (e : Extent) : (s.withFree e).lastServed = s.lastServed := rfl
@[simp] theorem State.withFree_waits (s : State) (e : Extent) : (s.withFree e).waits = s.waits := rfl
@[simp] theorem State.withFree_pending (s : State) (e : Extent) : (s.withFree e).pending = s.pending := rfl
@[simp] theorem State.withFree_resets (s : State) (e : Extent) : (s.withFree e).resets = s.resets := rfl
@[simp] theorem State.port_withFree (s : State) (e : Extent) (p : PortId) :
    (s.withFree e).port p = (s.port p).watched (insertExtent s.freeList e).2.length := PerPort.get_map ..

/-- What a test of the watch leaves of the port's other fields. -/
@[simp] theorem Port.watched_slots (q : Port) (n : Nat) : (q.watched n).slots = q.slots := by unfold Port.watched; split <;> rfl
@[simp] theorem Port.watched_slot (q : Port) (n : Nat) (i : SlotIndex) : (q.watched n).slot i = q.slot i := by
  simp [Port.slot]
@[simp] theorem Port.watched_portState (q : Port) (n : Nat) : (q.watched n).portState = q.portState := by
  unfold Port.watched; split <;> rfl
@[simp] theorem Port.watched_unit (q : Port) (n : Nat) : (q.watched n).unit = q.unit := by unfold Port.watched; split <;> rfl
@[simp] theorem Port.watched_bank (q : Port) (n : Nat) : (q.watched n).bank = q.bank := by unfold Port.watched; split <;> rfl
@[simp] theorem Port.watched_quota (q : Port) (n : Nat) : (q.watched n).quota = q.quota := by unfold Port.watched; split <;> rfl
@[simp] theorem Port.watched_level (q : Port) (n : Nat) : (q.watched n).level = q.level := by unfold Port.watched; split <;> rfl
@[simp] theorem Port.watched_holdings (q : Port) (n : Nat) : (q.watched n).holdings = q.holdings := by
  unfold Port.watched; split <;> rfl
@[simp] theorem Port.watched_response (q : Port) (n : Nat) : (q.watched n).response = q.response := by
  unfold Port.watched; split <;> rfl

/-- A name inserted into an ascending directory without it stands after the lower names and before the higher ones
(R44). -/
theorem addName_eq {l : List DirEntry} {e : DirEntry} (hp : l.Pairwise (fun d e => d.name.toNat < e.name.toNat))
    (hn : ∀ d ∈ l, d.name ≠ e.name) :
    addName e l =
      (l.filter fun d => d.name.toNat < e.name.toNat) ++ e :: l.filter fun d => e.name.toNat < d.name.toNat := by
  induction l with
  | nil => rfl
  | cons d t ih =>
    rw [List.pairwise_cons] at hp
    have hne : d.name.toNat ≠ e.name.toNat := fun h => hn d (by simp) (BitVec.eq_of_toNat_eq h)
    simp only [addName]
    split
    · next h =>
      rw [List.filter_eq_nil_iff.mpr, List.filter_eq_self.mpr]
      · rfl
      · intro a ha; rcases List.mem_cons.mp ha with rfl | ha
        · simpa using h
        · have := hp.1 a ha; simp; omega
      · intro a ha; rcases List.mem_cons.mp ha with rfl | ha
        · simp; omega
        · have := hp.1 a ha; simp; omega
    · next h =>
      rw [ih hp.2 (fun d hd => hn d (by simp [hd]))]
      rw [List.filter_cons_of_pos (by simp; omega), List.filter_cons_of_neg (by simp; omega)]
      rfl

end Sys2Proof.Machine
end

