-- ==== Sys2Proof/Laws/Keeps.lean ====
section
/-! SUPPORT. When two states are equal, when the laws carry over from one state to another, and that records of a lawful
state do not share a base. -/

namespace Sys2Proof.Machine

/-- States with the same ports, records and other fields are equal. -/
theorem State.ext_blocks {s t : State} (hp : ∀ p, s.port p = t.port p) (hr : ∀ r, s.region r = t.region r)
    (h1 : s.directory = t.directory) (h2 : s.freeList = t.freeList) (h3 : s.lastPort = t.lastPort)
    (h4 : s.lastTaken = t.lastTaken) (h5 : s.engine = t.engine) (h6 : s.array = t.array)
    (h7 : s.lastServed = t.lastServed) (h8 : s.waits = t.waits) (h9 : s.pending = t.pending)
    (h10 : s.resets = t.resets) : s = t := by
  cases s; cases t
  have e1 := PerPort.ext_get hp
  have e2 := Vector.ext fun i hi => hr ⟨i, hi⟩
  simp only at e1 e2 h1 h2 h3 h4 h5 h6 h7 h8 h9 h10
  subst_vars
  rfl

/-- What an access, a command's answer or a write of a register leaves of a lawful state is lawful: records, directory,
free-extent list and engine stand, no slot and no holdings change, and the laws of ports and claims hold of the new state. -/
theorem State.Lawful.of_ports {s t : State} (h : s.Lawful) (hr : t.regions = s.regions) (hd : t.directory = s.directory)
    (hf : t.freeList = s.freeList) (he : t.engine = s.engine) (ha : t.array = s.array)
    (hs : ∀ p, (t.port p).slots = (s.port p).slots ∧ (t.port p).holdings = (s.port p).holdings)
    (hh : t.HeldLaw) (hl : ∀ p, (t.port p).lawful)
    (hc : ∀ p, t.waits.ports.get p = s.waits.ports.get p ∨ t.waits.ports.get p = none) (hw : t.waits.step = s.waits.step) :
    t.Lawful := by
  obtain ⟨ports, regions, directory, freeList, lastPort, lastTaken, engine, array, lastServed, waits, pending, resets⟩ := t
  simp only at hr hd hf he ha
  subst hr hd hf he ha
  have hslot : ∀ p i, Port.slot (ports.get p) i = (s.port p).slot i := fun p i => by
    unfold Port.slot; simp only [show (ports.get p).slots = (s.port p).slots from (hs p).1]
  have hcount : ∀ p r, Port.boundCount (ports.get p) r = (s.port p).boundCount r := fun p r => by
    unfold Port.boundCount; rw [show (ports.get p).slots = (s.port p).slots from (hs p).1]
  refine ⟨h.memory, h.records, ⟨fun r => ?_, fun p i b hb => ?_⟩, fun p i b hb => ?_, fun p => ?_, h.directory, h.jobs,
    h.ordered, h.moves, h.freeList, h.placement, h.clean, hh, ⟨hl, h.ports.2⟩,
    fun p a ha => ?_, fun hs => h.claims.2 (hw.symm.trans hs)⟩
  · refine (h.bindings.1 r).trans ?_
    simp only [State.boundCount, State.port, hcount]
  · exact h.bindings.2 p i b (by rw [← hslot p i]; exact hb)
  · exact h.rights p i b (by rw [← hslot p i]; exact hb)
  · exact (hs p).2.trans (h.holdings p)
  · rcases hc p with h1 | h1 <;> rw [show waits.ports.get p = _ from h1] at ha
    · exact h.claims.1 p a ha
    · cases ha

/-- Claims that arrive leave a lawful state lawful. -/
theorem State.Lawful.arriveAll {s : State} (h : s.Lawful) (l : List Claim) : (s.arriveAll l).Lawful := by
  have hc := h.claims.arriveAll l
  have hh : (s.arriveAll l).HeldLaw := fun p hp => by
    have hp' : (s.port p).portState = .held := by simpa using hp
    have hw := s.arriveAll_held l hp'
    simp only [State.arriveAll_port, State.arriveAll_engine, hw]
    exact h.held p hp'
  rw [State.arriveAll_eq] at hc hh ⊢
  exact ⟨h.memory, h.records, h.bindings, h.rights, h.holdings, h.directory, h.jobs, h.ordered, h.moves, h.freeList,
    h.placement, h.clean, hh, h.ports, hc⟩

/-- Two records of a lawful state that are not VACANT do not share a base (R26). -/
theorem State.Lawful.eq_of_base {s : State} (h : s.Lawful) {i j : RegionId} (hi : (s.region i).state ≠ .vacant)
    (hj : (s.region j).state ≠ .vacant) (hb : (s.region i).base = (s.region j).base) : i = j := by
  by_contra hne
  have h1 := (h.records i).2.2.2.2.1 hi
  have h2 := (h.records j).2.2.2.2.1 hj
  have h3 := h.extent_le hi
  have h4 := h.placement.1 (s.region i).base (by show _ < 2048; omega)
  let f : RegionId → Extent := fun r => ⟨(s.region r).base, (s.region r).length⟩
  let l := List.filter (fun r => decide ((s.region r).state ≠ RegionState.vacant)) (List.finRange 128)
  have h5 : 2 ≤ l.countP ((fun e : Extent => e.contains (s.region i).base) ∘ f) := by
    rw [List.countP_eq_length_filter]
    have hsub : [i, j].Subperm (l.filter ((fun e : Extent => e.contains (s.region i).base) ∘ f)) := by
      refine List.Nodup.subperm (by simp [hne]) fun x hx => ?_
      rw [List.mem_filter, List.mem_filter]
      rcases List.mem_pair.mp hx with rfl | rfl
      · exact ⟨⟨List.mem_finRange x, by simpa using hi⟩, decide_eq_true ⟨Nat.le_refl _, by show _ < _ + _; dsimp only [f]; omega⟩⟩
      · exact ⟨⟨List.mem_finRange x, by simpa using hj⟩,
          decide_eq_true ⟨Nat.le_of_eq hb.symm, by show _ < _ + _; dsimp only [f]; omega⟩⟩
    exact hsub.length_le
  have h6 : l.countP ((fun e : Extent => e.contains (s.region i).base) ∘ f) ≤
      s.places.countP fun e => e.contains (s.region i).base := by
    unfold State.places
    rw [List.countP_append, List.countP_append, List.countP_append, List.countP_map]
    exact Nat.le_add_right_of_le (Nat.le_add_right_of_le (Nat.le_add_left _ _))
  omega

end Sys2Proof.Machine
end

