-- ==== Sys2Proof/WellFormed.lean ====
section
/-! DEFINITION. When a command of `Instr` is one the block can be given: the access goes where its row says, and the
claims that arrive are of other claimants, each once, and of data-window accesses. -/

namespace Sys2Proof

/-- Whether a register's writes are ignored: read-only or no register (Table 12-4). -/
def Machine.Register.writeIgnored : Machine.Register → Bool
  | .events | .eventEnable | .bank | .command | .param _ => false
  | .status | .result _ | .faultInfo | .faultOffset | .faultCount | .report0 | .report1 | .report2 | .slotView _
  | .unnamed => true

/-- A write whose address lies in the word of a control-window register, misaligned or not (R188, R90). -/
def Access.writesTo (a : Access) (ok : Machine.Register → Bool) : Bool :=
  a.inControl && (a.dir = .write) && ok a.register

/-- The claimant of a claim (R86). -/
def Claim.claimant : Claim → Claimant
  | .port p _ => .port p
  | .engine => .engine

/-- Whether a claim can wait at the Array Arbiter: an engine step, or an access to the data window (R86). -/
def Claim.canWait : Claim → Bool
  | .port _ a => a.target = .dataWindow
  | .engine => true

/-- Claims that can come to wait beside `me` at the Array Arbiter: other claimants, each at most once (R86). -/
def arriveBeside (me : Claimant) (arrivals : List Claim) : Bool :=
  decide (me ∉ arrivals.map Claim.claimant ∧ (arrivals.map Claim.claimant).Nodup) && arrivals.all Claim.canWait

/-- Whether a register is one of PARAM0 to PARAM5. -/
def Machine.Register.isParam : Machine.Register → Bool
  | .param _ => true
  | _ => false

/-- Well-formedness of a command. -/
def Instr.wellFormed : Instr → Bool
  | .dataAccess p a arrivals => (a.target = .dataWindow) && arriveBeside (.port p) arrivals
  | .unmappedAccess _ a => a.target = .unmapped
  | .commandWrite _ a => a.writesTo fun r => r = .command
  | .paramWrite _ a => a.writesTo Machine.Register.isParam
  | .bankWrite _ a => a.writesTo fun r => r = .bank
  | .eventsWrite _ a => a.writesTo fun r => r = .events
  | .eventEnableWrite _ a => a.writesTo fun r => r = .eventEnable
  | .ignoredWrite _ a => a.writesTo Machine.Register.writeIgnored
  | .controlMisalignedRead _ a => (a.target = .controlMisaligned) && (a.dir = .read)
  | .scrubStep arrivals => arriveBeside .engine arrivals
  | .copyStep arrivals => arriveBeside .engine arrivals
  | .clearStep arrivals => arriveBeside .engine arrivals
  | .deviceReset => true
  | .portResetInputAssert _ => true
  | .portResetInputRelease _ => true
  | .heldAccessDiscard _ _ => true
  | .takeCreate _ => true
  | .takeOpen _ => true
  | .takeClose _ => true
  | .takeGrant _ => true
  | .takeRetire _ => true
  | .takeInquire _ => true
  | .takeCompact _ => true
  | .takeHalt _ => true
  | .takeSetPort _ => true
  | .takeResetPort _ => true
  | .takeUnknown _ => true
  | .regionScrubEnd => true
  | .bootScrubEnd => true
  | .roundTest => true
  | .copyEnd => true
  | .clearEnd => true

end Sys2Proof
end

