-- ==== Sys2Proof/Laws/PerInstr.lean ====
section
/-! SUPPORT. Statements made for every row of the table: a well-formed access row is the one row that its access spells, so no
access is well-formed under two rows (the discard of a HELD port's access apart, which takes any access). -/

namespace Sys2Proof.Laws.Rows

/-- The access of an access row of an ATTACHED port, with the claims that arrive before a data access. -/
def access? : Instr → Option (PortId × Access × List Claim)
  | .dataAccess p a arrivals => some (p, a, arrivals)
  | .unmappedAccess p a => some (p, a, [])
  | .commandWrite p a => some (p, a, [])
  | .paramWrite p a => some (p, a, [])
  | .bankWrite p a => some (p, a, [])
  | .eventsWrite p a => some (p, a, [])
  | .eventEnableWrite p a => some (p, a, [])
  | .ignoredWrite p a => some (p, a, [])
  | .controlMisalignedRead p a => some (p, a, [])
  | _ => none

/-- The row of a write to a control-window register. -/
def writeRow (p : PortId) (a : Access) : Instr :=
  match a.register with
  | .events => .eventsWrite p a
  | .eventEnable => .eventEnableWrite p a
  | .bank => .bankWrite p a
  | .command => .commandWrite p a
  | .param _ => .paramWrite p a
  | _ => .ignoredWrite p a

/-- The row an access of an ATTACHED port spells, by its range, direction and register (Table 6-1, R89, R90, R188); none for an
aligned read of the control window (log 10). -/
def rowOf (p : PortId) (a : Access) (arrivals : List Claim) : Option Instr :=
  match a.target with
  | .dataWindow => some (.dataAccess p a arrivals)
  | .unmapped => some (.unmappedAccess p a)
  | .controlMisaligned => some (if a.dir = .read then .controlMisalignedRead p a else writeRow p a)
  | .register _ _ => if a.dir = .read then none else some (writeRow p a)

/-- A well-formed access row is the row its access spells. -/
def Statement (i : Instr) : Prop :=
  i.wellFormed = true → ∀ x ∈ access? i, rowOf x.1 x.2.1 x.2.2 = some i

/-- What a well-formed register write says of its access. -/
theorem rowOf_write {p : PortId} {a : Access} {ok : Machine.Register → Bool} (h : a.writesTo ok = true) :
    ok a.register = true ∧ rowOf p a [] = some (writeRow p a) := by
  simp only [Access.writesTo, Bool.and_eq_true, decide_eq_true_eq] at h
  obtain ⟨⟨hc, hd⟩, hr⟩ := h
  refine ⟨hr, ?_⟩
  simp only [Access.inControl, decide_eq_true_eq] at hc
  unfold rowOf Access.target
  rw [if_neg (by omega), if_pos hc.2, hd]
  by_cases hm : a.size = .word ∧ a.odd = true <;> simp [hm]

theorem deviceReset : Statement .deviceReset := fun _ _ hx => by cases hx

theorem portResetInputAssert (p : PortId) : Statement (.portResetInputAssert p) := fun _ _ hx => by cases hx

theorem portResetInputRelease (p : PortId) : Statement (.portResetInputRelease p) := fun _ _ hx => by cases hx

theorem heldAccessDiscard (p : PortId) (a : Access) : Statement (.heldAccessDiscard p a) := fun _ _ hx => by cases hx

theorem dataAccess (p : PortId) (a : Access) (arrivals : List Claim) : Statement (.dataAccess p a arrivals) := by
  intro h x hx
  cases hx
  simp only [Instr.wellFormed, Bool.and_eq_true, decide_eq_true_eq] at h
  simp [rowOf, h.1]

theorem unmappedAccess (p : PortId) (a : Access) : Statement (.unmappedAccess p a) := by
  intro h x hx
  cases hx
  simp only [Instr.wellFormed, decide_eq_true_eq] at h
  simp [rowOf, h]

theorem commandWrite (p : PortId) (a : Access) : Statement (.commandWrite p a) := by
  intro h x hx
  cases hx
  obtain ⟨h1, h2⟩ := rowOf_write (p := p) (ok := fun r => r = .command) h
  have h3 : a.register = .command := by simpa using h1
  rw [h2, writeRow, h3]

theorem paramWrite (p : PortId) (a : Access) : Statement (.paramWrite p a) := by
  intro h x hx
  cases hx
  obtain ⟨h1, h2⟩ := rowOf_write (p := p) h
  rw [h2, writeRow]
  cases h3 : a.register <;> simp_all [Machine.Register.isParam]

theorem bankWrite (p : PortId) (a : Access) : Statement (.bankWrite p a) := by
  intro h x hx
  cases hx
  obtain ⟨h1, h2⟩ := rowOf_write (p := p) (ok := fun r => r = .bank) h
  have h3 : a.register = .bank := by simpa using h1
  rw [h2, writeRow, h3]

theorem eventsWrite (p : PortId) (a : Access) : Statement (.eventsWrite p a) := by
  intro h x hx
  cases hx
  obtain ⟨h1, h2⟩ := rowOf_write (p := p) (ok := fun r => r = .events) h
  have h3 : a.register = .events := by simpa using h1
  rw [h2, writeRow, h3]

theorem eventEnableWrite (p : PortId) (a : Access) : Statement (.eventEnableWrite p a) := by
  intro h x hx
  cases hx
  obtain ⟨h1, h2⟩ := rowOf_write (p := p) (ok := fun r => r = .eventEnable) h
  have h3 : a.register = .eventEnable := by simpa using h1
  rw [h2, writeRow, h3]

theorem ignoredWrite (p : PortId) (a : Access) : Statement (.ignoredWrite p a) := by
  intro h x hx
  cases hx
  obtain ⟨h1, h2⟩ := rowOf_write (p := p) h
  rw [h2, writeRow]
  cases h3 : a.register <;> simp_all [Machine.Register.writeIgnored]

theorem takeCreate (p : PortId) : Statement (.takeCreate p) := fun _ _ hx => by cases hx

theorem takeOpen (p : PortId) : Statement (.takeOpen p) := fun _ _ hx => by cases hx

theorem takeClose (p : PortId) : Statement (.takeClose p) := fun _ _ hx => by cases hx

theorem takeGrant (p : PortId) : Statement (.takeGrant p) := fun _ _ hx => by cases hx

theorem takeRetire (p : PortId) : Statement (.takeRetire p) := fun _ _ hx => by cases hx

theorem takeInquire (p : PortId) : Statement (.takeInquire p) := fun _ _ hx => by cases hx

theorem takeCompact (p : PortId) : Statement (.takeCompact p) := fun _ _ hx => by cases hx

theorem takeHalt (p : PortId) : Statement (.takeHalt p) := fun _ _ hx => by cases hx

theorem takeSetPort (p : PortId) : Statement (.takeSetPort p) := fun _ _ hx => by cases hx

theorem takeResetPort (p : PortId) : Statement (.takeResetPort p) := fun _ _ hx => by cases hx

theorem takeUnknown (p : PortId) : Statement (.takeUnknown p) := fun _ _ hx => by cases hx

theorem scrubStep (arrivals : List Claim) : Statement (.scrubStep arrivals) := fun _ _ hx => by cases hx

theorem regionScrubEnd : Statement .regionScrubEnd := fun _ _ hx => by cases hx

theorem bootScrubEnd : Statement .bootScrubEnd := fun _ _ hx => by cases hx

theorem roundTest : Statement .roundTest := fun _ _ hx => by cases hx

theorem copyStep (arrivals : List Claim) : Statement (.copyStep arrivals) := fun _ _ hx => by cases hx

theorem copyEnd : Statement .copyEnd := fun _ _ hx => by cases hx

theorem clearStep (arrivals : List Claim) : Statement (.clearStep arrivals) := fun _ _ hx => by cases hx

theorem clearEnd : Statement .clearEnd := fun _ _ hx => by cases hx

theorem controlMisalignedRead (p : PortId) (a : Access) : Statement (.controlMisalignedRead p a) := by
  intro h x hx
  cases hx
  simp only [Instr.wellFormed, Bool.and_eq_true, decide_eq_true_eq] at h
  simp [rowOf, h.1, h.2]

end Sys2Proof.Laws.Rows
end

