-- ==== Sys2Proof/Laws/Scrubbing.lean ====
section
/-! SUPPORT. Lapsing, unbinding and the entry to SCRUBBING, field by field. -/

namespace Sys2Proof.Machine

/-! ### Slots -/

theorem Slot.lapse_eq (r : RegionId) (cause : LapseCause) (x : Slot) : x.lapse r cause = x.lapsedFrom r cause := by
  cases x with
  | bound r' _ _ =>
    by_cases h : r' = r
    · simp [Slot.lapse, Slot.binds, Slot.lapsedFrom, h]
    · simp [Slot.lapse, Slot.binds, Slot.lapsedFrom, h]
  | _ => rfl

theorem Slot.lapse_funext (r : RegionId) (cause : LapseCause) :
    (fun x : Slot => x.lapse r cause) = fun x => x.lapsedFrom r cause := funext (Slot.lapse_eq r cause)

theorem Slot.binds_iff (r : RegionId) (x : Slot) :
    x.binds r = true ↔ ∃ rights origin, x = .bound r rights origin := by
  cases x with
  | bound r' rights origin =>
    constructor
    · intro h
      have h' : r' = r := by simpa [Slot.binds] using h
      exact ⟨rights, origin, by rw [h']⟩
    · rintro ⟨_, _, h⟩
      injection h with h
      simp [Slot.binds, h]
  | _ => simp [Slot.binds]

theorem Slot.binds_eq_binding (r : RegionId) (x : Slot) : x.binds r = x.binding?.any fun b => b.1 = r := by
  cases x <;> rfl

/-- A property counted over the slots of a port is counted over its slot indices. -/
theorem Port.countP_slots (q : Port) (f : Slot → Bool) :
    q.slots.toList.countP f = ((List.finRange 32).filter fun i => f (q.slot i)).length := by
  have : q.slots.toList = (List.finRange 32).map q.slot := by
    apply List.ext_getElem
    · simp
    · intro i h1 h2
      simp [Port.slot]
  rw [this, List.countP_map, List.countP_eq_length_filter]
  rfl

/-- The count of a port's slots bound to a region is the number of those slots. -/
theorem Port.boundCount_eq (q : Port) (r : RegionId) : q.boundCount r = (q.slotsOn r).length := by
  rw [Port.boundCount, Port.countP_slots, Port.slotsOn]
  simp only [Slot.binds_eq_binding]

theorem Port.slotsOn_eq_nil_iff (q : Port) (r : RegionId) : q.slotsOn r = [] ↔ q.boundCount r = 0 := by
  rw [Port.boundCount_eq, List.length_eq_zero_iff]

@[simp] theorem Port.slot_map (q : Port) (f : Slot → Slot) (i : SlotIndex) :
    ({ q with slots := q.slots.map f } : Port).slot i = f (q.slot i) := by
  simp [Port.slot]

/-- The slots of a port after every binding of a region has lapsed. -/
@[simp] theorem Port.lapse_slot (q : Port) (r : RegionId) (cause : LapseCause) (i : SlotIndex) :
    (q.lapse r cause).slot i = (q.slot i).lapsedFrom r cause := by
  simp [Port.slot, Port.lapse, Slot.lapse_eq]

/-- A port of which every binding of a region has lapsed: slots, and LAPSE where there was one. -/
theorem Port.lapse_eq (q : Port) (r : RegionId) (cause : LapseCause) :
    q.lapse r cause =
      { q with
        slots := q.slots.map (Slot.lapsedFrom r cause)
        events := if q.slotsOn r = [] then q.events else { q.events with flags := q.events.flags ||| 4#6 } } := by
  have h : Slot.lapse r cause = Slot.lapsedFrom r cause := Slot.lapse_funext r cause
  rw [Port.lapse, h]
  simp only [Port.slotsOn_eq_nil_iff]
  rfl

/-! ### Lapsing everywhere -/

@[simp] theorem State.lapseAll_port (s : State) (r : RegionId) (cause : LapseCause) (p : PortId) :
    (s.lapseAll r cause).port p = (s.port p).lapse r cause := by
  rw [State.lapseAll, State.modifyRegion_port, State.port_mapPorts]

@[simp] theorem State.lapseAll_region (s : State) (r : RegionId) (cause : LapseCause) (k : RegionId) :
    (s.lapseAll r cause).region k = if k = r then { s.region k with bindings := 0 } else s.region k := by
  rw [State.lapseAll, State.region_modifyRegion, State.mapPorts_region]

@[simp] theorem State.lapseAll_directory (s : State) (r : RegionId) (cause : LapseCause) :
    (s.lapseAll r cause).directory = s.directory := rfl
@[simp] theorem State.lapseAll_freeList (s : State) (r : RegionId) (cause : LapseCause) :
    (s.lapseAll r cause).freeList = s.freeList := rfl
@[simp] theorem State.lapseAll_lastPort (s : State) (r : RegionId) (cause : LapseCause) :
    (s.lapseAll r cause).lastPort = s.lastPort := rfl
@[simp] theorem State.lapseAll_lastTaken (s : State) (r : RegionId) (cause : LapseCause) :
    (s.lapseAll r cause).lastTaken = s.lastTaken := rfl
@[simp] theorem State.lapseAll_engine (s : State) (r : RegionId) (cause : LapseCause) :
    (s.lapseAll r cause).engine = s.engine := rfl
@[simp] theorem State.lapseAll_array (s : State) (r : RegionId) (cause : LapseCause) :
    (s.lapseAll r cause).array = s.array := rfl
@[simp] theorem State.lapseAll_lastServed (s : State) (r : RegionId) (cause : LapseCause) :
    (s.lapseAll r cause).lastServed = s.lastServed := rfl
@[simp] theorem State.lapseAll_waits (s : State) (r : RegionId) (cause : LapseCause) :
    (s.lapseAll r cause).waits = s.waits := rfl
@[simp] theorem State.lapseAll_pending (s : State) (r : RegionId) (cause : LapseCause) :
    (s.lapseAll r cause).pending = s.pending := rfl
@[simp] theorem State.lapseAll_resets (s : State) (r : RegionId) (cause : LapseCause) :
    (s.lapseAll r cause).resets = s.resets := rfl

/-! ### The entry to SCRUBBING (R8) -/

theorem Region.scrubSpan_eq (x : Region) : x.scrubSpan = x.spanToScrub := by
  unfold Region.scrubSpan Region.spanToScrub; cases x.move <;> rfl

/-- A record whose binding count has come to 0 enters SCRUBBING. -/
theorem Region.toScrubbing_eq_gone (x : Region) (h : x.bindings = 0) : x.toScrubbing = x.gone := by
  unfold Region.toScrubbing Region.gone; rw [Region.scrubSpan_eq, h]

@[simp] theorem State.enterScrubbing_port (s : State) (r : RegionId) (level : Level) (p : PortId) :
    (s.enterScrubbing r level).port p =
      if p = (s.region r).owner then { s.port p with holdings := (s.port p).holdings - (s.region r).length }
      else s.port p := by
  have : (s.enterScrubbing r level).port p =
      (s.modifyPort (s.region r).owner fun q => { q with holdings := q.holdings - (s.region r).length }).port p := rfl
  rw [this, State.port_modifyPort]

@[simp] theorem State.enterScrubbing_region (s : State) (r : RegionId) (level : Level) (k : RegionId) :
    (s.enterScrubbing r level).region k = if k = r then (s.region r).toScrubbing else s.region k := by
  have : (s.enterScrubbing r level).region k =
      ((s.modifyPort (s.region r).owner fun q =>
        { q with holdings := q.holdings - (s.region r).length }).setRegion r (s.region r).toScrubbing).region k := rfl
  rw [this, State.region_setRegion, State.modifyPort_region]

theorem State.enterScrubbing_engine (s : State) (r : RegionId) (level : Level) :
    (s.enterScrubbing r level).engine = s.engine.withScrub r (s.region r) level := by
  have : (s.enterScrubbing r level).engine = (match (s.region r).move with
    | some m => s.engine.withCompaction (Compaction.abandon m.dest)
    | none => s.engine).make level (.scrub (.region r) (s.region r).scrubSpan 0) := rfl
  rw [this, Engine.withScrub, Region.scrubSpan_eq]
  cases (s.region r).move <;> rfl

@[simp] theorem State.enterScrubbing_directory (s : State) (r : RegionId) (level : Level) :
    (s.enterScrubbing r level).directory = dropName s.directory (s.region r).name := rfl
@[simp] theorem State.enterScrubbing_freeList (s : State) (r : RegionId) (level : Level) :
    (s.enterScrubbing r level).freeList = s.freeList := rfl
@[simp] theorem State.enterScrubbing_lastPort (s : State) (r : RegionId) (level : Level) :
    (s.enterScrubbing r level).lastPort = s.lastPort := rfl
@[simp] theorem State.enterScrubbing_lastTaken (s : State) (r : RegionId) (level : Level) :
    (s.enterScrubbing r level).lastTaken = s.lastTaken := rfl
@[simp] theorem State.enterScrubbing_array (s : State) (r : RegionId) (level : Level) :
    (s.enterScrubbing r level).array = s.array := rfl
@[simp] theorem State.enterScrubbing_lastServed (s : State) (r : RegionId) (level : Level) :
    (s.enterScrubbing r level).lastServed = s.lastServed := rfl
/-- The engine goes on waiting only where its job still calls for a granule step. -/
theorem State.enterScrubbing_waits (s : State) (r : RegionId) (level : Level) :
    (s.enterScrubbing r level).waits =
      { s.waits with step := s.waits.step && (s.enterScrubbing r level).granuleNext } := rfl
@[simp] theorem State.enterScrubbing_pending (s : State) (r : RegionId) (level : Level) :
    (s.enterScrubbing r level).pending = s.pending := rfl
@[simp] theorem State.enterScrubbing_resets (s : State) (r : RegionId) (level : Level) :
    (s.enterScrubbing r level).resets = s.resets := rfl

/-! ### Names -/

/-- Two entries of a lawful directory with one name are the same entry. -/
theorem State.DirectoryLaw.eq_of_name {s : State} (h : s.DirectoryLaw) {d e : DirEntry} (hd : d ∈ s.directory)
    (he : e ∈ s.directory) (hn : d.name = e.name) : d = e := by
  have hp := List.pairwise_iff_getElem.mp h.1
  obtain ⟨i, hi, hi2⟩ := List.getElem_of_mem hd
  obtain ⟨j, hj, hj2⟩ := List.getElem_of_mem he
  rcases Nat.lt_trichotomy i j with h' | h' | h'
  · have := hp i j hi hj h'; rw [hi2, hj2, hn] at this; exact absurd this (Nat.lt_irrefl _)
  · subst h'; rw [← hi2, ← hj2]
  · have := hp j i hj hi h'; rw [hi2, hj2, hn] at this; exact absurd this (Nat.lt_irrefl _)

/-- In a lawful state dropping a record's name drops the entries of its region. -/
theorem State.DirectoryLaw.dropName_eq {s : State} (h : s.DirectoryLaw) (r : RegionId) :
    dropName s.directory (s.region r).name = s.directory.filter fun e => decide (e.region ≠ r) := by
  cases hn : (s.region r).name with
  | none =>
    rw [dropName, List.filter_eq_self.mpr]
    intro e he
    have := h.2.2.1 e he
    simp only [decide_eq_true_eq]
    rintro rfl
    rw [hn] at this; cases this.2
  | some n =>
    rw [dropName]
    apply List.filter_congr
    intro e he
    have h3 := h.2.2.1 e he
    refine decide_eq_decide.mpr (not_iff_not.mpr ⟨fun hx => ?_, ?_⟩)
    · have := h.eq_of_name he (h.2.2.2 r n hn) hx
      rw [this]
    · rintro rfl
      rw [hn] at h3; injection h3.2 with h3; exact h3.symm

end Sys2Proof.Machine
end

