-- ==== Sys2Proof/Tests/Slice0.lean ====
section
/-! SUPPORT. Tests: a small lawful laboratory state; for each statement states and operands that meet its hypotheses;
commands that are not well-formed; one-step tests of values the spec gives. -/

open Sys2Proof Sys2Proof.Machine
namespace Sys2Proof.Tests

set_option Elab.async false

/-! ### The laboratory state -/

/-- A LIVE record of generation 1 without name, grants or bindings. -/
def liveOf (owner : PortId) (base length : Nat) : Region :=
  { Region.cleared 1 with state := .live, owner := owner, base := base, length := length }

/-- Five regions in granules 0 to 4 and `b`: 0 LIVE of P1, named, bound by P1 and P2; 1 DRAINING of P3, bound by P2; 2 LIVE of P1;
3 SCRUBBING of P2; 4 LIVE of P1 at granule `b` with move record `mv`. -/
def lab (engine : Engine) (free : List Extent) (b : Nat) (mv : Option MoveRecord) : State :=
  { State.reset with
    ports := ⟨Port.reset 1,
      { Port.reset 2 with holdings := 5, slots := (Vector.replicate 32 Slot.empty).set 0 (.bound 0 .readWrite 0) },
      { Port.reset 2 with
        slots := (((Vector.replicate 32 Slot.empty).set 1 (.bound 0 .read 1)).set 2 (.bound 1 .readWrite 0)).set 3 (.lapsed 7 .revoked) },
      { Port.reset 2 with holdings := 1 }⟩
    regions := (((((Vector.replicate 128 (Region.cleared 0)).set 0
        { liveOf .p1 0 2 with name := some 5, grants := ⟨none, none, some .read, none⟩, bindings := 2 }).set 1
        { liveOf .p3 2 1 with state := .draining, grants := ⟨none, none, some .readWrite, none⟩, bindings := 1 }).set 2
        (liveOf .p1 3 1)).set 3 { liveOf .p2 4 1 with state := .scrubbing }).set 4 { liveOf .p1 b 2 with move := mv }
    directory := [⟨5, 0⟩], freeList := free, engine := engine }

variable {engine : Engine} {free : List Extent} {b : Nat} {mv : Option MoveRecord}

theorem lab_region (r : RegionId) (h : 5 ≤ r.val) : (lab engine free b mv).region r = Region.cleared 0 := by
  simp only [lab, State.region, Vector.getElem_set, Vector.getElem_replicate]
  rw [if_neg (by omega), if_neg (by omega), if_neg (by omega), if_neg (by omega), if_neg (by omega)]

theorem forall_region {P : RegionId → Prop} (h0 : P 0) (h1 : P 1) (h2 : P 2) (h3 : P 3) (h4 : P 4)
    (h : ∀ r : RegionId, 5 ≤ r.val → P r) (r : RegionId) : P r := by
  by_cases hr : 5 ≤ r.val
  · exact h r hr
  · have : r = 0 ∨ r = 1 ∨ r = 2 ∨ r = 3 ∨ r = 4 := by simp only [Fin.ext_iff]; omega
    rcases this with rfl | rfl | rfl | rfl | rfl <;> assumption

theorem lab_records : (lab engine free b mv).RecordLaw := by
  refine forall_region ?_ ?_ ?_ ?_ ?_ (fun r hr => by rw [lab_region r hr]; decide)
  · show Region.lawful { liveOf .p1 0 2 with name := some 5, grants := ⟨none, none, some .read, none⟩, bindings := 2 }; decide
  · show Region.lawful { liveOf .p3 2 1 with state := .draining, grants := ⟨none, none, some .readWrite, none⟩, bindings := 1 }; decide
  · show Region.lawful (liveOf .p1 3 1); decide
  · show Region.lawful { liveOf .p2 4 1 with state := .scrubbing }; decide
  · show Region.lawful { liveOf .p1 b 2 with move := mv }
    refine ⟨?_, ?_, fun h => absurd rfl h, ?_, fun _ => ?_, fun _ => ?_, rfl⟩
    · rintro ⟨⟩
    · rintro ⟨⟩
    · rintro ⟨⟩
    · exact (by decide : 1 ≤ 2)
    · exact (by decide : 2 ≤ 256)

theorem lab_slot (p : PortId) (i : SlotIndex) :
    ((lab engine free b mv).port p).slot i =
      if p = .p1 ∧ i = 0 then .bound 0 .readWrite 0 else if p = .p2 ∧ i = 1 then .bound 0 .read 1
      else if p = .p2 ∧ i = 2 then .bound 1 .readWrite 0 else if p = .p2 ∧ i = 3 then .lapsed 7 .revoked else .empty := by
  have : ∀ j : SlotIndex, j = i ↔ j.val = i.val := fun j => Fin.ext_iff
  cases p <;> simp [lab, State.port, PerPort.get, Port.slot, Port.reset, Vector.getElem_set, eq_comm (a := i), Fin.ext_iff]
  split_ifs <;> first | rfl | omega
theorem lab_bindings : (lab engine free b mv).BindingLaw := by
  refine ⟨forall_region rfl rfl rfl rfl rfl (fun r hr => ?_), fun p i b hb => ?_⟩
  · have : ∀ p, ((lab engine free b mv).port p).slotsOn r = [] := fun p => by
      refine List.filter_eq_nil_iff.mpr fun i _ => ?_
      rw [lab_slot]
      split_ifs <;> simp [Slot.binding?, Fin.ext_iff] <;> omega
    rw [lab_region r hr, State.boundCount]
    simp [PortId.all, Port.boundCount_eq, this, Region.cleared]
  · rw [lab_slot] at hb
    split_ifs at hb <;> cases hb <;> rfl

theorem lab_rights : (lab engine free b mv).RightsLaw := by
  intro p i b hb
  rw [lab_slot] at hb
  split_ifs at hb with h1 h2 h3
  · cases hb; exact .inl h1.1.symm
  · cases hb; rw [h2.1]; exact .inr rfl
  · cases hb; rw [h3.1]; exact .inr rfl
  · cases hb
  · cases hb

theorem lab_holdings : (lab engine free b mv).HoldingsLaw := by
  have key : ∀ (s : State) (p : PortId), (∀ r : RegionId, 5 ≤ r.val → s.region r = Region.cleared 0) → s.ownedGranules p =
      ((List.finRange 5).map fun r : Fin 5 => if (s.region (r.castLE (by decide))).owner = p ∧ (s.region (r.castLE (by decide))).state.inUse = true then (s.region (r.castLE (by decide))).length else 0).sum := by
    intro s p hc
    unfold State.ownedGranules
    have e1 : List.finRange 128 = (List.finRange 5).map (Fin.castLE (by decide)) ++ (List.finRange 123).map (fun i => i.natAdd 5) := by decide +kernel
    rw [e1, List.map_append, List.sum_append, List.map_map, List.map_map]
    rw [show (List.map _ (List.finRange 123)).sum = 0 from ?_]
    · rfl
    · rw [List.sum_eq_zero_iff]
      intro x hx
      rw [List.mem_map] at hx
      obtain ⟨i, -, rfl⟩ := hx
      dsimp only [Function.comp]
      rw [hc _ (by simp [Fin.natAdd])]
      rw [if_neg]; rintro ⟨-, hh⟩; cases hh
  intro p
  rw [key _ _ (lab_region)]
  cases p <;> rfl

theorem lab_directory : (lab engine free b mv).DirectoryLaw := by
  refine ⟨by simp [lab], by show 1 ≤ 64; omega, fun e he => ?_, fun r n hn => ?_⟩
  · have : e = ⟨5, 0⟩ := by simpa [lab] using he
    subst this; exact ⟨rfl, rfl⟩
  · revert n
    refine forall_region (P := fun r => ∀ n ∈ ((lab engine free b mv).region r).name,
      (⟨n, r⟩ : DirEntry) ∈ (lab engine free b mv).directory) ?_ ?_ ?_ ?_ ?_ (fun r hr => ?_) r
    · intro n hn; cases hn; exact List.mem_singleton.mpr rfl
    · intro n hn; cases hn
    · intro n hn; cases hn
    · intro n hn; cases hn
    · intro n hn; cases hn
    · rw [lab_region r hr]; intro n hn; cases hn

theorem lab_places : (lab engine free b mv).places =
    free ++ [⟨0, 2⟩, ⟨2, 1⟩, ⟨3, 1⟩, ⟨4, 1⟩, ⟨b, 2⟩] ++ (engine.compaction?.bind Compaction.heldSpan?).toList ++
      engine.jobs.filterMap Job.bootSpan? := by
  have e1 : List.finRange 128 = (List.finRange 5).map (Fin.castLE (by decide)) ++
      (List.finRange 123).map (fun i => i.natAdd 5) := by decide +kernel
  have e2 : ((List.finRange 128).filter fun r => decide (((lab engine free b mv).region r).state ≠ .vacant)) =
      [0, 1, 2, 3, 4] := by
    rw [e1, List.filter_append]
    have : ((List.finRange 123).map (fun i => (i.natAdd 5 : Fin 128))).filter
        (fun r => decide (((lab engine free b mv).region r).state ≠ .vacant)) = [] := by
      rw [List.filter_eq_nil_iff]
      intro x hx
      rw [List.mem_map] at hx
      obtain ⟨i, -, rfl⟩ := hx
      rw [lab_region _ (by simp [Fin.natAdd])]
      simp [Region.cleared]
    rw [this]; rfl
  unfold State.places
  rw [e2]; rfl

/-- The engine of the laboratory state: region 3's scrub job, above it a compaction job if given. -/
def labEngine : Option Compaction → Engine
  | none => { running := some ⟨2, 7, .scrub (.region 3) ⟨4, 1⟩ 0⟩, stack := [], queue := [], nextOrder := 9 }
  | some c =>
    { running := some ⟨1, 8, .compaction c⟩, stack := [⟨2, 7, .scrub (.region 3) ⟨4, 1⟩ 0⟩], queue := [], nextOrder := 9 }

theorem lab_jobs (c : Option Compaction) : (lab (labEngine c) free b mv).JobLaw := by
  have e : (lab (labEngine c) free b mv).engine.jobs = match c with
      | none => [⟨2, 7, .scrub (.region 3) ⟨4, 1⟩ 0⟩]
      | some c => [⟨1, 8, .compaction c⟩, ⟨2, 7, .scrub (.region 3) ⟨4, 1⟩ 0⟩] := by cases c <;> rfl
  have e1 : ([⟨2, 7, .scrub (.region 3) ⟨4, 1⟩ 0⟩] : List Job).filterMap Job.scrubRegion? = [3] := rfl
  have hs : ∀ r : RegionId, ((lab (labEngine c) free b mv).region r).state = .scrubbing ↔ r ∈ [(3 : RegionId)] :=
    have no : ∀ (r : RegionId) (st : RegionState), r ≠ 3 → st ≠ .scrubbing → (st = .scrubbing ↔ r ∈ [(3 : RegionId)]) :=
      fun r st h h' => ⟨fun h'' => absurd h'' h', fun h'' => absurd (List.mem_singleton.mp h'') h⟩
    forall_region (no _ _ (by decide) nofun) (no _ _ (by decide) nofun) (no _ _ (by decide) nofun)
      ⟨fun _ => List.mem_singleton.mpr rfl, fun _ => rfl⟩ (no _ _ (by decide) nofun)
      fun r hr => no _ _ (fun h => by rw [h] at hr; exact absurd hr (by decide)) (by rw [lab_region r hr]; nofun)
  cases c <;> simp only at e
  · refine ⟨?_, ?_, ?_⟩ <;> rw [e]
    · decide
    · exact hs
    · simp [Job.scrubRegion?, Job.scrubWork?, Job.bootNumber?, Job.compaction?]; exact ⟨⟨rfl, rfl⟩, Nat.zero_le _⟩
  · refine ⟨?_, ?_, ?_⟩ <;> rw [e]
    · simp [List.filterMap_cons, Job.scrubRegion?]
    · exact hs
    · simp [Job.scrubRegion?, Job.scrubWork?, Job.bootNumber?, Job.compaction?]; first | exact ⟨⟨rfl, rfl⟩, Nat.zero_le _⟩ | exact ⟨rfl, rfl⟩

theorem lab_lawful (c : Option Compaction) {held : List Extent} (hh : c.bind Compaction.heldSpan? = held.head?)
    (h1 : held.length ≤ 1) (hm : (lab (labEngine c) free b mv).MoveLaw)
    (hf : free.Pairwise (fun x y => x.stop < y.base) ∧ ∀ x ∈ free, 1 ≤ x.length)
    (hp : (∀ g < 2048, (free ++ [⟨0, 2⟩, ⟨2, 1⟩, ⟨3, 1⟩, ⟨4, 1⟩, ⟨b, 2⟩] ++ held : List Extent).countP (fun e => e.contains g) = 1) ∧
      ∀ e ∈ (free ++ [⟨0, 2⟩, ⟨2, 1⟩, ⟨3, 1⟩, ⟨4, 1⟩, ⟨b, 2⟩] ++ held : List Extent), e.stop ≤ 2048)
    (hc : ∀ d ∈ c, d.regionsMoved = 0 ∧ d.granulesMoved = 0) : (lab (labEngine c) free b mv).Lawful where
  memory := ⟨.nil, fun _ h => by cases h⟩
  records := lab_records
  bindings := lab_bindings
  rights := lab_rights
  holdings := lab_holdings
  directory := lab_directory
  jobs := lab_jobs c
  ordered := by cases c <;> simp [lab, labEngine, Engine.Ordered, Engine.jobs]
  moves := hm
  freeList := hf
  placement := by
    have e1 : (labEngine c).compaction? = c := by cases c <;> rfl
    have e2 : (labEngine c).jobs.filterMap Job.bootSpan? = [] := by cases c <;> rfl
    have e3 : held.head?.toList = held := by
      match held, h1 with
      | [], _ => rfl
      | [_], _ => rfl
    rw [State.PlacementLaw, lab_places, e1, e2, hh, e3, List.append_nil]
    exact hp
  clean := ⟨fun _ _ _ _ _ => rfl, fun _ _ _ _ _ _ _ => rfl, fun c _ => by
    cases h : c.phase with
    | scan => trivial
    | copy m => exact fun _ _ _ _ _ => rfl
    | clear m v d k => exact ⟨fun _ _ _ => rfl, fun _ _ _ => rfl⟩⟩
  held := fun p h => by cases p <;> cases h
  ports := by
    have h : ∀ q : Port, q.events = EventBlock.reset → q.watch = none → q.quota = 512 → q.lawful := fun q h1 h2 h3 => by
      simp [Port.lawful, h1, h2, h3, EventBlock.reset, Report.reset, Config.maxQuota]
    refine ⟨fun p => by cases p <;> exact h _ rfl rfl rfl, ?_⟩
    cases c with
    | none => intro j hj; cases List.mem_singleton.mp hj; intro c hc; cases hc
    | some c =>
      intro j hj c' hc'
      rcases List.mem_pair.mp hj with rfl | rfl
      · cases hc'; rw [(hc c rfl).1, (hc c rfl).2]; decide
      · cases hc'
  claims := ⟨fun p a h => (by cases p <;> cases h), nofun⟩

theorem lab_moves (h : mv ≠ none → engine.compaction?.bind Compaction.copySubject? = some 4)
    (hp : ∀ c ∈ engine.compaction?, (lab engine free b mv).phaseLawful c.phase) : (lab engine free b mv).MoveLaw := by
  refine ⟨forall_region (fun h => absurd rfl h) (fun h => absurd rfl h) (fun h => absurd rfl h) (fun h => absurd rfl h) h
    (fun r hr h => absurd (by rw [lab_region r hr]; rfl) h), hp⟩

/-- A compaction state of issuer P1 in `phase`. -/
def labCompaction (scanPoint : Nat) (phase : Phase) : Compaction :=
  { issuer := some .p1, halt := false, scanPoint := scanPoint, phase := phase, regionsMoved := 0, granulesMoved := 0 }

/-- The move of region 4 from granule 8 into the free extent 5:3. -/
def labMove : Move := ⟨4, ⟨5, 3⟩, 8, 2⟩

/-- A: no compaction; region 3's scrub job runs. -/
def labA : State := lab (labEngine none) [⟨5, 3⟩, ⟨10, 2038⟩] 8 none
/-- B: the compaction job runs, in SCAN. -/
def labB (scanPoint : Nat) : State := lab (labEngine (some (labCompaction scanPoint .scan))) [⟨5, 3⟩, ⟨10, 2038⟩] 8 none
/-- C: the compaction job runs, in COPY. -/
def labC (cursor : Fin 3) : State :=
  lab (labEngine (some (labCompaction 0 (.copy labMove)))) [⟨10, 2038⟩] 8 (some ⟨5, cursor.val⟩)
/-- D: the compaction job runs, in CLEAR. -/
def labD (cursor : Fin 3) : State :=
  lab (labEngine (some (labCompaction 0 (.clear labMove ⟨7, 3⟩ ⟨8, 2⟩ cursor.val)))) [⟨10, 2038⟩] 5 none

/-- Every granule lies once in the laboratory state's extents, with region 4 at granule 8. -/
theorem lab_placement : (∀ g < 2048, ([⟨5, 3⟩, ⟨10, 2038⟩, ⟨0, 2⟩, ⟨2, 1⟩, ⟨3, 1⟩, ⟨4, 1⟩, ⟨8, 2⟩] : List Extent).countP
    (fun e => e.contains g) = 1) := by
  intro g hg
  simp only [List.countP_cons, List.countP_nil, Extent.contains_iff]
  split_ifs <;> omega

/-- The same while the move is in COPY. -/
theorem lab_placement_copy : (∀ g < 2048, ([⟨10, 2038⟩, ⟨0, 2⟩, ⟨2, 1⟩, ⟨3, 1⟩, ⟨4, 1⟩, ⟨8, 2⟩, ⟨5, 3⟩] : List Extent).countP
    (fun e => e.contains g) = 1) := by
  intro g hg
  simp only [List.countP_cons, List.countP_nil, Extent.contains_iff]
  split_ifs <;> omega

/-- The same while the move is in CLEAR. -/
theorem lab_placement_clear : (∀ g < 2048, ([⟨10, 2038⟩, ⟨0, 2⟩, ⟨2, 1⟩, ⟨3, 1⟩, ⟨4, 1⟩, ⟨5, 2⟩, ⟨7, 3⟩] : List Extent).countP
    (fun e => e.contains g) = 1) := by
  intro g hg
  simp only [List.countP_cons, List.countP_nil, Extent.contains_iff]
  split_ifs <;> omega

theorem labA_lawful : labA.Lawful :=
  lab_lawful none (held := []) rfl (by decide) (lab_moves (fun h => absurd rfl h) (by rintro _ ⟨⟩)) (by decide)
    ⟨lab_placement, by decide⟩ (by rintro _ ⟨⟩)

theorem labB_lawful (k : Nat) : (labB k).Lawful :=
  lab_lawful _ (held := []) rfl (by decide) (lab_moves (fun h => absurd rfl h) (by rintro _ ⟨⟩; trivial)) (by decide)
    ⟨lab_placement, by decide⟩ (by rintro _ ⟨⟩; exact ⟨rfl, rfl⟩)

theorem labC_lawful (k : Fin 3) : (labC k).Lawful :=
  lab_lawful _ (held := [⟨5, 3⟩]) rfl (by decide)
    (lab_moves (fun _ => rfl) (by rintro _ ⟨⟩; exact ⟨by decide, rfl, rfl, rfl, _, rfl, rfl, by show k.val ≤ 2; omega⟩))
    (by decide) ⟨lab_placement_copy, by decide⟩ (by rintro _ ⟨⟩; exact ⟨rfl, rfl⟩)

theorem labD_lawful (k : Fin 3) : (labD k).Lawful :=
  lab_lawful _ (held := [⟨7, 3⟩]) rfl (by decide)
    (lab_moves (fun h => absurd rfl h) (by rintro _ ⟨⟩; exact ⟨by decide, rfl, rfl, by show k.val ≤ 2; omega⟩))
    (by decide) ⟨lab_placement_clear, by decide⟩ (by rintro _ ⟨⟩; exact ⟨rfl, rfl⟩)

/-- `s` with a PENDING command of port `p`. -/
def withCommand (s : State) (p : PortId) (code : Word) (params : Vector Word 6) : State :=
  s.setPort p { s.port p with unit := { CommandUnit.reset with state := .pending, params := params, lastCode := code } }

theorem withCommand_lawful {s : State} (h : s.Lawful) {p : PortId} (hp : (s.port p).portState = .attached) (code : Word)
    (params : Vector Word 6) : (withCommand s p code params).Lawful := by
  refine h.of_ports rfl rfl rfl rfl rfl (fun q => ?_) (fun q hq => ?_) (fun q => ?_) (fun _ => .inl rfl) rfl
  · rw [withCommand, State.port_setPort]; split
    · next h => rw [h]; exact ⟨rfl, rfl⟩
    · exact ⟨rfl, rfl⟩
  · rw [withCommand, State.port_setPort] at hq ⊢
    split at hq
    · exact absurd hq (by rw [hp]; nofun)
    · next hne => rw [if_neg hne]; exact h.held q hq
  · rw [withCommand, State.port_setPort]; split
    · exact h.ports.1 p
    · exact h.ports.1 q

/-! ### Witnesses: states and operands that meet the hypotheses of the statements, clause by clause -/

/-- A word write, a byte write, a word read and a byte read. -/
def ww (addr : BitVec 20) (data : Word) : Access := ⟨addr, .write, .word, data⟩
def bw (addr : BitVec 20) (data : Word) : Access := ⟨addr, .write, .byte, data⟩
def wr (addr : BitVec 20) : Access := ⟨addr, .read, .word, 0⟩
def br (addr : BitVec 20) : Access := ⟨addr, .read, .byte, 0⟩

/-- The state after a step of the command `c`, where it gives one. -/
def after (c : Instr) (s : State) : Option State :=
  match exec c s with
  | .next t => some t
  | _ => none

theorem exists_of_after {c : Instr} {s : State} {P : State → Prop} (h : ∃ t ∈ after c s, P t) :
    ∃ t, exec c s = .next t ∧ P t := by
  obtain ⟨t, ht, hp⟩ := h
  refine ⟨t, ?_, hp⟩
  unfold after at ht
  split at ht
  · next h => rw [h, Option.mem_some_iff.mp ht]
  · cases ht

/-- The reset state with P1 PENDING on a command. -/
def asking (code : Word) (params : Vector Word 6) : State := withCommand State.reset .p1 code params

theorem witness_StepRunsFrontCommand :
    ({ State.reset with pending := [.roundTest] } : State).pending = .roundTest :: [] ∧ State.reset.pending = [] := ⟨rfl, rfl⟩

/-- `labA` with P1's access and the engine's scrub step waiting at the Array Arbiter. -/
def labWaits : State := labA.arriveAll [.port .p1 (br 0), .engine]

theorem witness_labWaits : labWaits.Lawful ∧ labWaits.waits.ports.get .p1 = some (br 0) ∧ labWaits.waits.step = true ∧
    labWaits.claims = [.port .p1, .engine] :=
  ⟨labA_lawful.arriveAll _, by decide +kernel, by decide +kernel, by decide +kernel⟩

/-- The reset state with P3 HELD. -/
def heldState : State := State.reset.setPort .p3 { Port.reset 2 with portState := .held }

/-- An ATTACHED port, with and without an access waiting; a HELD one. -/
theorem witness_PortResetByInput : labA.Lawful ∧ (labA.port .p1).portState = .attached ∧ labWaits.Lawful ∧
    (labWaits.port .p1).portState = .attached ∧ (heldState.port .p3).portState = .held :=
  ⟨labA_lawful, rfl, witness_labWaits.1, by decide +kernel, rfl⟩

theorem witness_HeldUntilRelease : (heldState.port .p3).portState = .held ∧
    Instr.dataAccess .p3 (br 0) [] ∈ accessRows .p3 (br 0) [] ∧
    Instr.controlMisalignedRead .p3 (wr 0x80001) ∈ accessRows .p3 (wr 0x80001) [] := by
  refine ⟨rfl, ?_, ?_⟩ <;> simp [accessRows]

/-- The last byte of region 0 through P2's READ slot of origin 1, with P3's claim waiting beside. -/
theorem witness_DataReadServed_byte : labA.Lawful ∧ labA.presents .p2 (br 0x101FE) = true ∧
    (br 0x101FE).addr.toNat < 0x80000 ∧ (br 0x101FE).dir = .read ∧
    (labA.port .p2).slot (slotIndex (labA.port .p2).bank (br 0x101FE).slotNumber) = .bound 0 .read 1 ∧
    ¬ ((br 0x101FE).size = .word ∧ (br 0x101FE).addr.toNat % 2 = 1) ∧
    (1 : Word).toNat + (br 0x101FE).addr.toNat % 65536 + (br 0x101FE).size.bytes - 1 = (labA.region 0).length * 256 - 1 ∧
    arbiterServes labA.lastServed (.port .p2)
      (labA.arriveAll [.port .p2 (br 0x101FE), .port .p3 (br 0)]).claims = true :=
  ⟨labA_lawful, by decide, by decide, rfl, rfl, by decide, by decide, by decide +kernel⟩

theorem witness_DataReadServed_word : labA.Lawful ∧ labA.presents .p1 (wr 0x1FE) = true ∧
    (wr 0x1FE).addr.toNat < 0x80000 ∧ (wr 0x1FE).dir = .read ∧
    (labA.port .p1).slot (slotIndex (labA.port .p1).bank (wr 0x1FE).slotNumber) = .bound 0 .readWrite 0 ∧
    ¬ ((wr 0x1FE).size = .word ∧ (wr 0x1FE).addr.toNat % 2 = 1) ∧
    (0 : Word).toNat + (wr 0x1FE).addr.toNat % 65536 + (wr 0x1FE).size.bytes - 1 = (labA.region 0).length * 256 - 1 ∧
    arbiterServes labA.lastServed (.port .p1) (labA.arriveAll [.port .p1 (wr 0x1FE)]).claims = true :=
  ⟨labA_lawful, by decide, by decide, rfl, rfl, by decide, by decide, by decide +kernel⟩

/-- The last byte and the last word of region 0, written through P1's READ_WRITE slot. -/
theorem witness_DataWriteServed : ∀ a ∈ [bw 0x1FF 0xAB, ww 0x1FE 0xABCD], labA.Lawful ∧
    labA.presents .p1 a = true ∧ a.addr.toNat < 0x80000 ∧ a.dir = .write ∧
    (labA.port .p1).slot (slotIndex (labA.port .p1).bank a.slotNumber) = .bound 0 .readWrite 0 ∧
    ¬ (a.size = .word ∧ a.addr.toNat % 2 = 1) ∧
    (0 : Word).toNat + a.addr.toNat % 65536 + a.size.bytes - 1 = (labA.region 0).length * 256 - 1 ∧
    arbiterServes labA.lastServed (.port .p1) (labA.arriveAll [.port .p1 a, .engine]).claims = true := by
  intro a ha
  rcases List.mem_pair.mp ha with rfl | rfl <;>
    exact ⟨labA_lawful, by decide, by decide, rfl, rfl, by decide, by decide, by decide +kernel⟩

/-- An EMPTY slot, a LAPSED slot, a word at an odd address, the first byte past a region, a write through a READ slot. -/
theorem witness_DataAccessFaulted :
    (∀ p a, labA.presents p a = true) ∧
    ((labA.port .p1).slot (slotIndex 0 (br 0x7FFFF).slotNumber) = .empty) ∧
    ((labA.port .p2).slot (slotIndex 0 (br 0x30000).slotNumber) = .lapsed 7 .revoked) ∧
    ((labA.port .p1).slot (slotIndex 0 (wr 1).slotNumber) = .bound 0 .readWrite 0 ∧ (wr 1).addr.toNat % 2 = 1) ∧
    ((labA.port .p1).slot (slotIndex 0 (br 0x200).slotNumber) = .bound 0 .readWrite 0 ∧
      (labA.region 0).length * 256 = (0 : Word).toNat + (br 0x200).addr.toNat % 65536 + (br 0x200).size.bytes - 1) ∧
    ((labA.port .p2).slot (slotIndex 0 (bw 0x101FE 0).slotNumber) = .bound 0 .read 1 ∧
      (1 : Word).toNat + (bw 0x101FE 0).addr.toNat % 65536 + (bw 0x101FE 0).size.bytes - 1 <
        (labA.region 0).length * 256) :=
  ⟨fun p a => (State.presents_iff ..).mpr ⟨by cases p <;> rfl, by cases p <;> nofun⟩, rfl, rfl, ⟨rfl, by decide⟩,
    ⟨rfl, by decide⟩, rfl, by decide⟩

/-- The engine waits and P0 came after it in the order; P3 is taken first. Accesses and a step that arrive, and that do not. -/
theorem witness_ArbiterRotation : arbiterServes (.port .p1) (.port .p3) [.engine, .port .p0, .port .p3] = true ∧
    (claimOrder (.port .p1)).idxOf .engine < (claimOrder (.port .p1)).idxOf (.port .p0) ∧
    Claimant.engine ≠ .port .p3 ∧ Claimant.port .p3 ∈ [Claimant.engine, .port .p0, .port .p3] ∧
    labA.presents .p1 (br 0x7FFFF) = true ∧ labWaits.presents .p1 (br 0) = true ∧ labWaits.presents .p1 (br 1) = false ∧
    0x80000 ≤ (br 0x80000).addr.toNat ∧ labA.granuleNext = true ∧ (labB 0).granuleNext = false := by decide +kernel

theorem witness_UnmappedAccessFaulted : State.reset.presents .p0 (wr 0x80080) = true ∧
    State.reset.presents .p0 (bw 0xFFFFF 0) = true ∧ 0x80080 ≤ (wr 0x80080).addr.toNat ∧
    0x80080 ≤ (bw 0xFFFFF 0).addr.toNat := by decide

theorem witness_CommandWriteEffect : State.reset.presents .p1 (ww 0x80008 1) = true ∧
    State.reset.presents .p1 (bw 0x80009 1) = true ∧ (ww 0x80008 1).dir = .write ∧
    (ww 0x80008 1).addr = 0x80008 ∧ (State.reset.port .p1).unit.state = .idle ∧
    (asking 1 (.replicate 6 0)).presents .p1 (ww 0x80008 1) = true ∧
    ((asking 1 (.replicate 6 0)).port .p1).unit.state = .pending ∧
    (bw 0x80009 1).addr = 0x80009 ∧ (bw 0x80009 1).size = .byte := by decide +kernel

/-- PARAM0 as a word and PARAM5's high byte, in IDLE and in PENDING. -/
theorem witness_ParamWriteEffect :
    (ww 0x80010 1).addr.toNat = 0x80010 + 2 * (0 : Fin 6).val ∧
    ((bw 0x8001B 1).addr.toNat = 0x80010 + 2 * (5 : Fin 6).val + 1 ∧ (bw 0x8001B 1).size = .byte) ∧
    State.reset.presents .p1 (ww 0x80010 1) = true ∧ (State.reset.port .p1).unit.state = .idle ∧
    (asking 1 (.replicate 6 0)).presents .p1 (bw 0x8001B 1) = true ∧
    ((asking 1 (.replicate 6 0)).port .p1).unit.state = .pending := by decide +kernel

theorem witness_BankWriteEffect : (∀ a ∈ [ww 0x80006 0xFFFF, bw 0x80007 3, wr 0x80006, br 0x80006, br 0x80007],
    State.reset.presents .p0 a = true) ∧ (heldState.port .p3).portState = .held ∧
    (ww 0x80006 0xFFFF).addr = 0x80006 ∧ (bw 0x80007 3).addr = 0x80007 ∧ (bw 0x80007 3).size = .byte ∧
    (wr 0x80006).dir = .read ∧ (wr 0x80006).size = .word ∧ (br 0x80006).size = .byte ∧ (br 0x80007).addr = 0x80007 :=
  by decide +kernel

/-- EVENTS and EVENT_ENABLE, written as words and in their high bytes. -/
theorem witness_EventsWriteEffect_EventEnableWriteEffect :
    (∀ a ∈ [ww 0x80002 2, bw 0x80003 2, ww 0x80004 0x3F, bw 0x80005 2], State.reset.presents .p0 a = true) ∧
    (ww 0x80002 2).addr = 0x80002 ∧ (bw 0x80003 2).addr = 0x80003 ∧ (bw 0x80003 2).size = .byte ∧
    (ww 0x80004 0x3F).addr = 0x80004 ∧ (bw 0x80005 2).addr = 0x80005 ∧ (bw 0x80005 2).size = .byte :=
  by decide +kernel

/-- Both ends of each range: STATUS, the unnamed 0Ah to 0Fh, RESULT0 to the end of the window. -/
theorem witness_IgnoredWriteEffect : ∀ x ∈ [(bw 0x80000 1, 0), (bw 0x80001 1, 1), (ww 0x8000A 1, 0x0A), (bw 0x8000F 1, 0x0F),
      (ww 0x8001C 1, 0x1C), (bw 0x8007F 1, 0x7F)],
    State.reset.presents .p0 x.1 = true ∧ x.1.dir = .write ∧ ¬ (x.1.size = .word ∧ x.1.addr.toNat % 2 = 1) ∧
    x.1.addr.toNat = 0x80000 + x.2 ∧ (x.2 < 2 ∨ (0x0A ≤ x.2 ∧ x.2 < 0x10) ∨ (0x1C ≤ x.2 ∧ x.2 < 0x80)) := by decide

theorem witness_ControlMisalignedFaulted : ∀ a ∈ [wr 0x80001, wr 0x8007F, ww 0x80001 0, ww 0x8007F 0],
    State.reset.presents .p0 a = true ∧ a.size = .word ∧ a.addr.toNat % 2 = 1 ∧ 0x80000 ≤ a.addr.toNat ∧
    a.addr.toNat < 0x80080 := by decide

/-- Byte reads served, faulted by a check, unmapped and of a register's two bytes; two byte writes that differ on lines 15-8; a
served byte write; PARAM5's high byte. -/
theorem witness_ByteAccessLanes :
    (labA.Lawful ∧ (∀ a ∈ [br 0x1FF, bw 0x1FF 0xAB], labA.presents .p1 a = true ∧ labA.checkAccess .p1 a = .ok (0, 511) ∧
      arbiterServes labA.lastServed (.port .p1) (labA.arriveAll [.port .p1 a]).claims = true) ∧
      labA.checkAccess .p1 (br 0x200) = .error .bound) ∧
    (State.reset.presents .p0 (br 0x80080) = true ∧ (br 0x80000).addr.toNat = 0x80000 + 2 * 0 + (if false then 1 else 0) ∧
      (br 0x8007F).addr.toNat = 0x80000 + 2 * 63 + (if true then 1 else 0) ∧ State.reset.presents .p0 (br 0x8007F) = true) ∧
    (lowByte 0xFF12 = lowByte (bw 0x80010 0x12).data ∧ State.reset.waits.ports.get .p0 = none) ∧
    (∃ t, exec (.dataAccess .p1 (bw 0x1FF 0xAB) []) labA = .next t ∧ t.regionByte 0 511 = 0xAB) ∧
    ((bw 0x8001B 0x12).addr.toNat = 0x80010 + 2 * (5 : Fin 6).val + (if true then 1 else 0) ∧
      State.reset.presents .p0 (bw 0x8001B 0x12) = true ∧ (State.reset.port .p0).unit.state = .idle ∧
      ∃ t, exec (.paramWrite .p0 (bw 0x8001B 0x12)) State.reset = .next t) :=
  ⟨⟨labA_lawful, by decide +kernel, by decide +kernel⟩, by decide +kernel, by decide +kernel,
    exists_of_after (by decide +kernel), by decide, by decide, rfl, ⟨_, rfl⟩⟩

/-- The first and the last word of the window; a fault record in each form; a slot in each state; a report. -/
theorem witness_ControlReadsShowState : State.reset.presents .p0 (wr 0x80000) = true ∧
    State.reset.presents .p0 (br 0x8007F) = true ∧
    (wr 0x80000).addr.toNat = 0x80000 + 2 * 0 ∧ (br 0x8007F).addr.toNat = 0x80000 + 2 * 63 + 1 ∧
    (State.reset.port .p0).events.fault = none ∧
    ((State.reset.faulted .p0 (wr 0x90000) .unmapped (.address 0x90000)).port .p0).events.fault =
      some ⟨.unmapped, .read, .word, .address 0x90000⟩ ∧
    ((State.reset.faulted .p0 (br 0x70000) .emptySlot (.slot 3 7 0)).port .p0).events.fault =
      some ⟨.emptySlot, .read, .byte, .slot 3 7 0⟩ ∧
    (labA.port .p2).slot (slotIndex 0 1) = .bound 0 .read 1 ∧ (labA.port .p2).slot (slotIndex 0 3) = .lapsed 7 .revoked ∧
    (labA.port .p2).slot (slotIndex 3 7) = .empty ∧ (State.reset.port .p0).lawful :=
  ⟨by decide, by decide, by decide, by decide, rfl, rfl, rfl, rfl, rfl, rfl, by decide⟩

/-- A name held, a name not held, a VACANT record, a stale generation, a whole match, a generation not examined, a number
too high. -/
theorem witness_ReferenceResolution : labA.DirectoryLaw ∧ (⟨5, 0⟩ : DirEntry) ∈ labA.directory ∧
    (∀ e ∈ labA.directory, e.name ≠ 6) ∧ (labA.region 127).state = .vacant ∧ (labA.region 0).state ≠ .vacant ∧
    (255 : Word).toNat < 256 ∧ (255 : Word).toNat ≠ (labA.region 0).generation.toNat ∧ 256 ≤ (256 : Word).toNat ∧
    128 ≤ (128 : Word).toNat :=
  ⟨labA_lawful.directory, by decide, by decide, by rw [labA, lab_region _ (by decide)]; rfl, nofun, by decide, by decide,
    by decide, by decide⟩

/-- P1 PENDING on an unknown code with P2 PENDING too; the take is made. -/
def twoAsking : State := withCommand (asking 0 (.replicate 6 0)) .p2 0 (.replicate 6 0)

theorem witness_CommandRotation : (twoAsking.port .p1).unit.state = .pending ∧
    ((Instr.takeUnknown .p1, fun w : Word => decide (w = 0 ∨ 10 < w.toNat)) ∈ takeRows .p1) ∧
    (∃ t, exec (.takeUnknown .p1) twoAsking = .next t) ∧
    twoAsking.mayTake .p1 (fun w => decide (w = 0 ∨ 10 < w.toNat)) = true ∧ (twoAsking.port .p2).unit.state = .pending := by
  refine ⟨rfl, ?_, ⟨_, rfl⟩, by decide, rfl⟩
  simp [takeRows]

/-- Not its port's turn, not its code; a completion waiting after a command; a command waiting after a completion. -/
theorem witness_CommandWaitsItsTurn : twoAsking.nextTake ≠ some .p2 ∧ (decide ((twoAsking.port .p1).unit.lastCode = 1) = false) ∧
    ({ labB 0 with lastTaken := some .command } : State).completionWaits = true ∧
    (twoAsking.port .p1).unit.state = .pending ∧ ({ twoAsking with lastTaken := some .completion } : State).lastTaken = some .completion := by
  decide

/-- `labA` with a PENDING command of P1. -/
def labAsking (p : PortId) (code : Word) (params : Vector Word 6) : State := withCommand labA p code params

/-- A CREATE of 3 granules, name 9, FIXED, bound to P1's slot (0,1): the first extent fits exactly. -/
def labCreate : State := labAsking .p1 1 #v[3, 9, 1, 1, 0, 0]

theorem witness_CreateAccepted : labCreate.DirectoryLaw ∧ labCreate.taking .p1 1 ∧ (labCreate.param .p1 0).toNat = 3 ∧
    (labCreate.param .p1 3).toNat % 16 = 1 ∧ (labCreate.param .p1 3).toNat / 256 = 0 ∧
    (∀ i, slotNamed 0 1 = some i → ((labCreate.port .p1).slot i).isBound = false) ∧
    (labCreate.port .p1).holdings + 3 ≤ (labCreate.port .p1).quota ∧
    (∀ e ∈ labCreate.directory, e.name ≠ labCreate.param .p1 1) ∧ labCreate.directory.length < 64 ∧
    (labCreate.region 5).state = .vacant ∧ (∀ i : RegionId, i < 5 → (labCreate.region i).state ≠ .vacant) ∧
    labCreate.freeList = [] ++ ⟨5, 3⟩ :: [⟨10, 2038⟩] := by
  refine ⟨(withCommand_lawful labA_lawful rfl _ _).directory, ⟨rfl, rfl, rfl⟩, by decide, by decide, by decide,
    fun i hi => ?_, by decide, by decide, by decide, rfl, ?_, rfl⟩
  · cases hi; rfl
  · decide

/-- Refused CREATEs of P1, with the code of each: lengths 0 and 257, bank 4, a BOUND slot, a quota of 4, the name 5, a full
directory, no VACANT record, no free space, no extent long enough. -/
def refusedCreates : List (State × Word) :=
  [(asking 1 #v[0, 0, 0, 8, 0, 0], 2), (asking 1 #v[257, 0, 0, 8, 0, 0], 2), (asking 1 #v[1, 0, 0, 0x400, 0, 0], 2),
   (labAsking .p1 1 #v[1, 0, 0, 0, 0, 0], 0xF),
   ((labAsking .p1 1 #v[1, 0, 0, 8, 0, 0]).modifyPort .p1 fun q => { q with quota := 5 }, 7),
   (labAsking .p1 1 #v[1, 5, 0, 8, 0, 0], 8),
   ({ labAsking .p1 1 #v[1, 6, 0, 8, 0, 0] with directory := List.replicate 64 ⟨5, 0⟩ }, 9),
   ({ asking 1 #v[1, 0, 0, 8, 0, 0] with regions := Vector.replicate 128 (liveOf .p1 0 1) }, 4),
   (asking 1 #v[1, 0, 2, 8, 0, 0], 5), ({ asking 1 #v[4, 0, 2, 8, 0, 0] with freeList := [⟨0, 3⟩, ⟨5, 3⟩] }, 6)]

theorem witness_CreateRefused : ∀ x ∈ refusedCreates, ∀ n name field bank q, q = x.1.port .p1 →
    n = (x.1.param .p1 0).toNat → name = x.1.param .p1 1 → field = (x.1.param .p1 3).toNat % 16 →
    bank = (x.1.param .p1 3).toNat / 256 →
    (x.1.nextTake = some .p1 ∧ x.1.commandTurn = true ∧ q.unit.lastCode = 1) ∧
    firstFailing
      [(n = 0 ∨ 256 < n ∨ (field < 8 ∧ 4 ≤ bank), 2),
       ((slotNamed bank field).any fun i => (q.slot i).isBound, 0xF),
       (q.quota < q.holdings + n, 7),
       (name ≠ 0 ∧ ∃ e ∈ x.1.directory, e.name = name, 8),
       (name ≠ 0 ∧ 64 ≤ x.1.directory.length, 9),
       (∀ r : RegionId, (x.1.region r).state ≠ .vacant, 4),
       ((x.1.freeList.map fun y => y.length).sum < n, 5),
       (∀ y ∈ x.1.freeList, y.length < n, 6)] = some x.2 := by
  rintro x hx _ _ _ _ _ rfl rfl rfl rfl rfl
  revert x
  decide +kernel

/-- P2 opens region 0 for reading with its grant, at the last origin inside it. -/
def labOpen : State := labAsking .p2 2 #v[5, 0, 0, 1, 0x0307, 511]

theorem witness_OpenAccepted : labOpen.taking .p2 2 ∧ (labOpen.param .p2 4).toNat = (3 : Fin 4).val * 256 + (7 : Fin 8).val ∧
    labOpen.param .p2 3 = 1 ∧ ((labOpen.port .p2).slot (slotIndex 3 7)).isBound = false ∧
    labOpen.resolveParams .p2 = .ok 0 ∧ (labOpen.region 0).state = .live ∧
    (labOpen.region 0).grants.get .p2 = some .read ∧ (labOpen.param .p2 5).toNat + 1 = (labOpen.region 0).length * 256 :=
  ⟨⟨rfl, rfl, rfl⟩, by decide, rfl, rfl, rfl, rfl, rfl, by decide⟩

/-- Refused OPENs of P2: slot field 8, bank 4, rights 3, a BOUND slot, no such name, a stale generation. -/
theorem witness_OpenRefused_early : ∀ x ∈ [((#v[5, 0, 0, 1, 8, 0] : Vector Word 6), (2 : Word)), (#v[5, 0, 0, 1, 0x400, 0], 2),
      (#v[5, 0, 0, 3, 0, 0], 2), (#v[5, 0, 0, 1, 1, 0], 0xF), (#v[6, 0, 0, 1, 0, 0], 0xA), (#v[0, 0, 2, 1, 0, 0], 0xB)],
    ∀ s : State, s = labAsking .p2 2 x.1 → s.taking .p2 2 ∧
    firstFailing
      [(8 ≤ (s.param .p2 4).toNat % 256 ∨ 4 ≤ (s.param .p2 4).toNat / 256 ∨ (s.param .p2 3 ≠ 1 ∧ s.param .p2 3 ≠ 2), 2),
       ((targetSlot (s.param .p2 4)).any fun i => ((s.port .p2).slot i).isBound, 0xF),
       (s.resolveParams .p2 = .error .notFound, 0xA), (s.resolveParams .p2 = .error .stale, 0xB)] = some x.2 := by
  rintro x hx _ rfl
  refine ⟨⟨rfl, rfl, rfl⟩, ?_⟩
  revert x
  decide +kernel

/-- Refused OPENs of P2 whose reference resolves: region 1 DRAINING, READ_WRITE under a READ grant, no grant, an origin one past
the region. -/
theorem witness_OpenRefused_late : ∀ x ∈ [((#v[0, 1, 1, 1, 0, 0] : Vector Word 6), (1 : RegionId), (0xD : Word)),
      (#v[5, 0, 0, 2, 0, 0], 0, 0xE), (#v[0, 2, 1, 1, 0, 0], 2, 0xE), (#v[5, 0, 0, 1, 0, 512], 0, 2)],
    ∀ s : State, s = labAsking .p2 2 x.1 → s.taking .p2 2 ∧ targetSlot (s.param .p2 4) = some 0 ∧
    (s.param .p2 3 = 1 ∨ s.param .p2 3 = 2) ∧ ((s.port .p2).slot 0).isBound = false ∧
    (s.resolveParams .p2 = .ok x.2.1) ∧
    firstFailing
      [((s.region x.2.1).state ≠ .live, 0xD),
       ((s.region x.2.1).owner ≠ .p2 ∧ ((s.region x.2.1).grants.get .p2 = none ∨
         ((s.region x.2.1).grants.get .p2 = some .read ∧ s.param .p2 3 = 2)), 0xE),
       ((s.region x.2.1).length * 256 ≤ (s.param .p2 5).toNat, 2)] = some x.2.2 := by
  rintro x hx _ rfl
  refine ⟨⟨rfl, rfl, rfl⟩, ?_⟩
  revert x
  decide +kernel

/-- The cases of CLOSE at P2: slot (0,8) named, an EMPTY slot, a slot on LIVE region 0, the last slot on DRAINING region 1, a
LAPSED slot. -/
def labClose (w : Word) : State := labAsking .p2 3 #v[w, 0, 0, 0, 0, 0]

theorem witness_Close : (∀ w ∈ [(8 : Word), 0x307, 1, 2, 3], (labClose w).Lawful ∧ (labClose w).taking .p2 3) ∧
    8 ≤ ((labClose 8).param .p2 0).toNat % 256 ∧ ((labClose 0x307).port .p2).slot (slotIndex 3 7) = .empty ∧
    (targetSlot 1 = some 1 ∧ ((labClose 1).port .p2).slot 1 = .bound 0 .read 1 ∧ ((labClose 1).region 0).state = .live) ∧
    (targetSlot 2 = some 2 ∧ ((labClose 2).port .p2).slot 2 = .bound 1 .readWrite 0 ∧
      ((labClose 2).region 1).state = .draining ∧ ((labClose 2).region 1).bindings = 1) ∧
    (targetSlot 3 = some 3 ∧ ((labClose 3).port .p2).slot 3 = .lapsed 7 .revoked) := by
  refine ⟨fun w _ => ⟨withCommand_lawful labA_lawful rfl _ _, ⟨rfl, rfl, rfl⟩⟩, by decide, rfl, ⟨rfl, rfl, rfl⟩,
    ⟨rfl, rfl, rfl, rfl⟩, rfl, rfl⟩

/-- P1's GRANT of a region by number: of region 0 to P2 NONE is a revocation, to P3 READ_WRITE a first grant. -/
def labGrant (number : Word) (g rights : Word) : State := labAsking .p1 4 #v[0, number, 1, g, rights, 0]

theorem witness_GrantAccepted : (∀ g r : Word, (labGrant 0 g r).taking .p1 4 ∧ (labGrant 0 g r).resolveParams .p1 = .ok 0) ∧
    (labA.region 0).owner = .p1 ∧ (labA.region 0).state = .live ∧
    ((labGrant 0 2 0).param .p1 3).toNat = PortId.p2.toNat ∧ ((labGrant 0 2 0).param .p1 4).toNat = rightsCode none ∧
    (labA.region 0).grants.get .p2 ≠ none ∧ ((labGrant 0 3 2).param .p1 3).toNat = PortId.p3.toNat ∧
    ((labGrant 0 3 2).param .p1 4).toNat = rightsCode (some .readWrite) :=
  ⟨fun _ _ => ⟨⟨rfl, rfl, rfl⟩, rfl⟩, rfl, rfl, rfl, rfl, nofun, rfl, rfl⟩

/-- `labA` after P1 has widened P2's grant on region 0 to READ_WRITE, and P1's command that narrows it again. -/
def labNarrow : State :=
  withCommand (labA.modifyRegion 0 fun x => { x with grants := x.grants.set .p2 (some .readWrite) }) .p1 4 #v[0, 0, 1, 2, 1, 0]

theorem witness_GrantAccepted_narrowing : labNarrow.taking .p1 4 ∧ (labNarrow.param .p1 3).toNat = PortId.p2.toNat ∧
    (labNarrow.param .p1 4).toNat = rightsCode (some .read) ∧ labNarrow.resolveParams .p1 = .ok 0 ∧
    (labNarrow.region 0).owner = .p1 ∧ (labNarrow.region 0).state = .live ∧
    (labNarrow.region 0).grants.get .p2 = some .readWrite := ⟨⟨rfl, rfl, rfl⟩, rfl, rfl, rfl, rfl, rfl, rfl⟩

/-- Refused GRANTs of P1: grantee 4, grantee itself, rights 3, no region, a stale generation. -/
theorem witness_GrantRefused_early : ∀ x ∈ [((#v[0, 0, 1, 4, 0, 0] : Vector Word 6), (2 : Word)), (#v[0, 0, 1, 1, 0, 0], 2),
      (#v[0, 0, 1, 2, 3, 0], 2), (#v[0, 128, 1, 2, 1, 0], 0xA), (#v[0, 0, 2, 2, 1, 0], 0xB)],
    ∀ s : State, s = labAsking .p1 4 x.1 → s.taking .p1 4 ∧
    firstFailing
      [(4 ≤ (s.param .p1 3).toNat ∨ (s.param .p1 3).toNat = PortId.p1.toNat ∨ 2 < (s.param .p1 4).toNat, 2),
       (s.resolveParams .p1 = .error .notFound, 0xA), (s.resolveParams .p1 = .error .stale, 0xB)] = some x.2 := by
  rintro x hx _ rfl
  refine ⟨⟨rfl, rfl, rfl⟩, ?_⟩
  revert x
  decide +kernel

/-- Refused GRANTs of P3 whose reference resolves: P1's region 0, its own DRAINING region 1. -/
theorem witness_GrantRefused_late : ∀ x ∈ [((0 : Word), (0 : RegionId), (0xC : Word)), (1, 1, 0xD)],
    ∀ s : State, s = labAsking .p3 4 #v[0, x.1, 1, 2, 1, 0] → s.taking .p3 4 ∧ (s.param .p3 3).toNat < 4 ∧
    (s.param .p3 3).toNat ≠ PortId.p3.toNat ∧ (s.param .p3 4).toNat ≤ 2 ∧ s.resolveParams .p3 = .ok x.2.1 ∧
    firstFailing [((s.region x.2.1).owner ≠ .p3, 0xC), ((s.region x.2.1).state ≠ .live, 0xD)] = some x.2.2 := by
  rintro x hx _ rfl
  rcases List.mem_pair.mp hx with rfl | rfl <;>
    exact ⟨⟨rfl, rfl, rfl⟩, by decide, by decide, by decide, rfl, by decide +kernel⟩

/-- RETIRE at a port: GENTLE with bindings, GENTLE without, FORCE by P0, FORCE of a DRAINING region by its owner. -/
def labRetire (p : PortId) (number mode : Word) : State := labAsking p 5 #v[0, number, 1, mode, 0, 0]

theorem witness_RetireGentleDrains : (labRetire .p1 0 1).DirectoryLaw ∧ (labRetire .p1 0 1).taking .p1 5 ∧
    (labRetire .p1 0 1).param .p1 3 = 1 ∧ (labRetire .p1 0 1).resolveParams .p1 = .ok 0 ∧ (labA.region 0).owner = .p1 ∧
    (labA.region 0).state = .live ∧ 0 < (labA.region 0).bindings :=
  ⟨(withCommand_lawful labA_lawful rfl _ _).directory, ⟨rfl, rfl, rfl⟩, rfl, rfl, rfl, rfl, by decide⟩

theorem witness_RetireToScrubbing :
    ((labRetire .p1 2 1).Lawful ∧ (labRetire .p1 2 1).taking .p1 5 ∧ (labRetire .p1 2 1).resolveParams .p1 = .ok 2 ∧
      (labA.region 2).state = .live ∧ (labA.region 2).bindings = 0 ∧ (labA.region 2).owner = .p1) ∧
    ((labRetire .p0 0 2).Lawful ∧ (labRetire .p0 0 2).taking .p0 5 ∧ (labRetire .p0 0 2).resolveParams .p0 = .ok 0 ∧
      (labA.region 0).state = .live) ∧
    ((labRetire .p3 1 2).Lawful ∧ (labRetire .p3 1 2).taking .p3 5 ∧ (labRetire .p3 1 2).resolveParams .p3 = .ok 1 ∧
      (labA.region 1).owner = .p3 ∧ (labA.region 1).state = .draining) :=
  ⟨⟨withCommand_lawful labA_lawful rfl _ _, ⟨rfl, rfl, rfl⟩, rfl, rfl, rfl, rfl⟩,
    ⟨withCommand_lawful labA_lawful rfl _ _, ⟨rfl, rfl, rfl⟩, rfl, rfl⟩,
    withCommand_lawful labA_lawful rfl _ _, ⟨rfl, rfl, rfl⟩, rfl, rfl, rfl⟩

/-- Refused RETIREs of P1: mode 3, no region, a stale generation. -/
theorem witness_RetireRefused_early : ∀ x ∈ [((#v[0, 0, 1, 3, 0, 0] : Vector Word 6), (2 : Word)), (#v[0, 127, 1, 1, 0, 0], 0xA),
      (#v[0, 0, 2, 2, 0, 0], 0xB)],
    ∀ s : State, s = labAsking .p1 5 x.1 → s.taking .p1 5 ∧
    firstFailing
      [(s.param .p1 3 ≠ 1 ∧ s.param .p1 3 ≠ 2, 2), (s.resolveParams .p1 = .error .notFound, 0xA),
       (s.resolveParams .p1 = .error .stale, 0xB)] = some x.2 := by
  rintro x hx _ rfl
  refine ⟨⟨rfl, rfl, rfl⟩, ?_⟩
  revert x
  decide +kernel

/-- Refused RETIREs whose reference resolves: GENTLE by P0 and FORCE by P2 of P1's region, FORCE by P2 of its SCRUBBING region,
GENTLE by P3 of its DRAINING one. -/
theorem witness_RetireRefused_late : ∀ x ∈ [(PortId.p0, (0 : Word), (1 : Word), (0 : RegionId), (0xC : Word)),
      (.p2, 0, 2, 0, 0xC), (.p2, 3, 2, 3, 0xD), (.p3, 1, 1, 1, 0xD)],
    ∀ (p : PortId) (s : State), p = x.1 → s = labRetire p x.2.1 x.2.2.1 → s.taking p 5 ∧ (s.param p 3 = 1 ∨ s.param p 3 = 2) ∧
    s.resolveParams p = .ok x.2.2.2.1 ∧
    firstFailing
      [((s.region x.2.2.2.1).owner ≠ p ∧ ¬ (p = .p0 ∧ s.param p 3 = 2), 0xC),
       ((s.region x.2.2.2.1).state = .scrubbing ∨ (s.param p 3 = 1 ∧ (s.region x.2.2.2.1).state = .draining), 0xD)] =
      some x.2.2.2.2 := by
  rintro x hx _ _ rfl rfl
  refine ⟨?_, ?_⟩
  · cases x.1 <;> exact ⟨rfl, rfl, rfl⟩
  · revert x
    decide +kernel

theorem witness_InquireAnswered : (∀ v, (labAsking .p1 6 v).taking .p1 6) ∧
    (labAsking .p1 6 #v[0, 128, 0, 0, 0, 0]).resolveParams .p1 = .error .notFound ∧
    (labAsking .p1 6 #v[0, 4, 0, 0, 0, 0]).resolveParams .p1 = .error .stale ∧
    (labAsking .p1 6 #v[0, 4, 0x100, 0, 0, 0]).resolveParams .p1 = .ok 4 ∧ (labA.region 4).bindings < 256 :=
  ⟨fun _ => ⟨rfl, rfl, rfl⟩, rfl, rfl, rfl, by decide⟩

/-- COMPACT and HALT with a compaction job of issuer P1 and without one. -/
theorem witness_CompactAndHaltAnswered : (withCommand (labB 0) .p2 7 (.replicate 6 0)).taking .p2 7 ∧
    (∃ j ∈ (labB 0).engine.jobs, ∃ c, j.work = .compaction c) ∧ (labAsking .p2 7 (.replicate 6 0)).taking .p2 7 ∧
    (∀ j ∈ labA.engine.jobs, ∀ c, j.work ≠ .compaction c) ∧
    (∀ p, (withCommand (labB 0) p 8 (.replicate 6 0)).taking p 8) ∧
    ((labB 0).engine.jobs.filterMap Job.compaction?).length ≤ 1 ∧ (labCompaction 0 .scan).issuer = some .p1 := by
  refine ⟨⟨rfl, rfl, rfl⟩, ⟨_, .head _, _, rfl⟩, ⟨rfl, rfl, rfl⟩, fun j hj c => ?_, fun p => by cases p <;> exact ⟨rfl, rfl, rfl⟩,
    by decide, rfl⟩
  cases List.mem_singleton.mp hj
  nofun

/-- SET_PORT: at P1, with a level of 4, and at P0 with the greatest quota and the least urgent level. -/
theorem witness_SetPortAnswered : (asking 9 (.replicate 6 0)).taking .p1 9 ∧
    (withCommand State.reset .p0 9 #v[3, 4, 0, 0, 0, 0]).taking .p0 9 ∧
    (withCommand State.reset .p0 9 #v[3, 3, 2048, 0, 0, 0]).taking .p0 9 ∧ (3 : Word).toNat = PortId.p3.toNat ∧
    (3 : Word).toNat = (3 : Level).val ∧ (2048 : Word).toNat ≤ 2048 :=
  ⟨⟨rfl, rfl, rfl⟩, ⟨rfl, rfl, rfl⟩, ⟨rfl, rfl, rfl⟩, rfl, rfl, by decide⟩

/-- RESET_PORT at P1, of P0, of a port 4, and of P2, which holds slots. -/
theorem witness_ResetPortAnswered : (asking 10 (.replicate 6 0)).taking .p1 10 ∧
    (∀ w : Word, (labAsking .p0 10 #v[w, 0, 0, 0, 0, 0]).taking .p0 10) ∧ 3 < (4 : Word).toNat ∧
    (labAsking .p0 10 #v[2, 0, 0, 0, 0, 0]).Lawful ∧
    ((labAsking .p0 10 #v[2, 0, 0, 0, 0, 0]).param .p0 0).toNat = PortId.p2.toNat :=
  ⟨⟨rfl, rfl, rfl⟩, fun _ => ⟨rfl, rfl, rfl⟩, by decide, withCommand_lawful labA_lawful rfl _ _, rfl⟩

theorem witness_UnknownCommandAnswered : (asking 0 (.replicate 6 0)).taking .p1 0 ∧
    (asking 11 (.replicate 6 0)).taking .p1 11 ∧ 10 < (11 : Word).toNat := ⟨⟨rfl, rfl, rfl⟩, ⟨rfl, rfl, rfl⟩, by decide⟩

/-- Jobs of levels 1, 2 and 3, in their making order. -/
def jobAt (level : Level) (order : Nat) : Job := ⟨level, order, .scrub (.boot 0) ⟨0, 256⟩ 0⟩

theorem witness_EngineQueuesChoosesPreempts :
    (∀ k ∈ [jobAt 2 1], k.level ≤ 2) ∧ (∀ k ∈ [jobAt 3 0], (2 : Level) < k.level) ∧
    (∀ k ∈ (⟨none, [], [jobAt 2 1, jobAt 3 0], 2⟩ : Engine).queue, k.order < 2) ∧
    (jobAt 1 1).level < (jobAt 2 0).level ∧ (jobAt 2 0).level ≤ (jobAt 2 1).level ∧
    (∀ q ∈ [jobAt 2 1].head?, (jobAt 2 0).level ≤ q.level) := by decide

theorem witness_ScrubStepClearsGranule : labA.Lawful ∧
    labA.engine.running = some ⟨2, 7, .scrub (.region 3) ⟨4, 1⟩ 0⟩ ∧
    arbiterServes labA.lastServed .engine (labA.arriveAll [.engine]).claims = true :=
  ⟨labA_lawful, rfl, by decide +kernel⟩

/-- Region 3's scrub job with no step left, and boot job 0 with none left. -/
theorem witness_ScrubJobEnds :
    (lab { labEngine none with running := some ⟨2, 7, .scrub (.region 3) ⟨4, 1⟩ 1⟩ } [] 8 none).engine.running =
      some ⟨2, 7, .scrub (.region 3) ⟨4, 1⟩ 1⟩ ∧
    ({ State.reset with engine := { Engine.reset with running := some ⟨3, 0, .scrub (.boot 0) ⟨0, 256⟩ 256⟩ } } : State).engine.running =
      some ⟨3, 0, .scrub (.boot 0) ⟨0, 256⟩ 256⟩ ∧
    labA.lastTaken = none ∧ ∀ p, (State.reset.port p).unit.state = .idle := by
  refine ⟨rfl, rfl, rfl, fun p => by cases p <;> rfl⟩

/-- An extent that closes the gap between two. -/
theorem witness_InsertionCoalesces :
    [(⟨0, 2⟩ : Extent), ⟨5, 3⟩].Pairwise (fun x y => x.stop < y.base) ∧ (∀ x ∈ [(⟨0, 2⟩ : Extent), ⟨5, 3⟩], 1 ≤ x.length) ∧
    ∀ x ∈ [(⟨0, 2⟩ : Extent), ⟨5, 3⟩], x.stop ≤ (⟨2, 3⟩ : Extent).base ∨ (⟨2, 3⟩ : Extent).stop ≤ x.base := by decide

/-- A scan past the last free extent; the same with a halt requested. -/
theorem witness_RoundTestEndsJob : (labB 11).engine.running = some ⟨1, 8, .compaction (labCompaction 11 .scan)⟩ ∧
    (labCompaction 11 .scan).halt = false ∧ (∀ f ∈ (labB 11).freeList, f.base < (labCompaction 11 .scan).scanPoint) ∧
    ({ labCompaction 11 .scan with halt := true } : Compaction).halt = true ∧ (labB 11).lastTaken = none :=
  ⟨rfl, rfl, by decide, rfl, rfl⟩

/-- A scan at the extent below region 4, and one at the last extent, above which no region stands. -/
theorem witness_RoundTestMovesOrPasses :
    ((labB 5).Lawful ∧ (labB 5).engine.running = some ⟨1, 8, .compaction (labCompaction 5 .scan)⟩ ∧
      (labB 5).freeList = [] ++ ⟨5, 3⟩ :: [⟨10, 2038⟩] ∧ ((labB 5).region 4).state = .live ∧
      ((labB 5).region 4).base = 5 + 3 ∧ ((labB 5).region 4).fixed = false ∧ ((labB 5).region 4).move = none) ∧
    ((labB 6).Lawful ∧ (labB 6).freeList = [⟨5, 3⟩] ++ ⟨10, 2038⟩ :: [] ∧
      ∀ r : RegionId, ((labB 6).region r).state = .live → ((labB 6).region r).base = 10 + 2038 →
        ((labB 6).region r).fixed = true ∨ ((labB 6).region r).move ≠ none) := by
  refine ⟨⟨labB_lawful 5, rfl, rfl, rfl, rfl, rfl, rfl⟩, labB_lawful 6, rfl, fun r h hb => ?_⟩
  have := (labB_lawful 6).extent_le (r := r) (by rw [h]; nofun)
  have := ((labB_lawful 6).records r).2.2.2.2.1 (by rw [h]; nofun)
  omega

/-- The first and the last copy step of the move, and its end. -/
theorem witness_CopyStepCopiesGranule_CopyEndMovesRegion : ∀ k : Fin 3, (labC k).Lawful ∧
    (labC k).engine.running = some ⟨1, 8, .compaction (labCompaction 0 (.copy labMove))⟩ ∧
    ((labC k).region labMove.subject).move = some ⟨5, k.val⟩ ∧ (k.val < labMove.length ∨ k.val = labMove.length) ∧
    (k.val < labMove.length → arbiterServes (labC k).lastServed .engine ((labC k).arriveAll [.engine]).claims = true) ∧
    (labC k).lastTaken = none :=
  fun k => ⟨labC_lawful k, rfl, rfl, by show k.val < 2 ∨ k.val = 2; omega, by revert k; decide +kernel, rfl⟩

/-- The first and the last clear step of the move, and its end. -/
theorem witness_ClearStepClearsGranule_ClearEndFreesSpan : ∀ k : Fin 3, (labD k).Lawful ∧
    (labD k).engine.running = some ⟨1, 8, .compaction (labCompaction 0 (.clear labMove ⟨7, 3⟩ ⟨8, 2⟩ k.val))⟩ ∧
    (k.val < (⟨8, 2⟩ : Extent).length ∨ (⟨8, 2⟩ : Extent).length ≤ k.val) ∧
    (k.val < (⟨8, 2⟩ : Extent).length →
      arbiterServes (labD k).lastServed .engine ((labD k).arriveAll [.engine]).claims = true) ∧ (labD k).lastTaken = none :=
  fun k => ⟨labD_lawful k, rfl, by show k.val < 2 ∨ 2 ≤ k.val; omega, by revert k; decide +kernel, rfl⟩

/-- A checked access and each granule step that are not taken next; an access beside the one that waits; a command over which
two claims go on waiting; an engine whose next step is each of the others. -/
theorem witness_StepWaitsItsTurn : (labA.presents .p1 (br 0) = true ∧ labA.checkAccess .p1 (br 0) = .ok (0, 0) ∧
      arbiterServes labA.lastServed (.port .p1) (labA.arriveAll [.port .p1 (br 0), .port .p0 (br 0)]).claims = false) ∧
    (∀ s ∈ [labA, labC 0, labD 0],
      arbiterServes s.lastServed .engine (s.arriveAll [.engine, .port .p3 (br 0)]).claims = false) ∧
    (labWaits.Lawful ∧ labWaits.waits.ports.get .p1 = some (br 0) ∧ br 0 ≠ br 1 ∧
      ∃ t, exec (.dataAccess .p0 (br 0) []) labWaits = .next t ∧ t.claims = labWaits.claims) ∧
    (∀ j ∈ (labB 0).engine.running, ∀ w ∈ j.scrubWork?, w.1.length ≤ w.2) ∧
    (∀ j ∈ labA.engine.running, ∀ c ∈ j.compaction?, c.phase ≠ .scan) ∧
    (∀ j ∈ labA.engine.running, ∀ w ∈ j.scrubWork?, j.scrubRegion? ≠ none → w.2 < w.1.length) ∧
    (∀ j ∈ State.reset.engine.running, ∀ w ∈ j.scrubWork?, j.scrubRegion? = none → w.2 < w.1.length) ∧
    (∀ j ∈ (labC 2).engine.running, ∀ c ∈ j.compaction?, ∀ m, c.phase = .copy m →
      ∀ v ∈ ((labC 2).region m.subject).move, m.length ≤ v.cursor) ∧
    (∀ j ∈ (labC 1).engine.running, ∀ c ∈ j.compaction?, ∀ m, c.phase = .copy m →
      ∀ v ∈ ((labC 1).region m.subject).move, v.cursor < m.length) ∧
    (∀ j ∈ (labD 2).engine.running, ∀ c ∈ j.compaction?, ∀ m vacated dirty cursor,
      c.phase = .clear m vacated dirty cursor → dirty.length ≤ cursor) ∧
    ∀ j ∈ (labD 1).engine.running, ∀ c ∈ j.compaction?, ∀ m vacated dirty cursor,
      c.phase = .clear m vacated dirty cursor → cursor < dirty.length := by
  refine ⟨by decide +kernel, by decide +kernel, ⟨witness_labWaits.1, by decide +kernel, by decide,
    exists_of_after (by decide +kernel)⟩, ?_, ?_, ?_, ?_, ?_, ?_, ?_, ?_⟩
  · rintro _ ⟨⟩ _ ⟨⟩
  · rintro _ ⟨⟩ _ ⟨⟩
  · rintro _ ⟨⟩ _ ⟨⟩ _; decide
  · rintro _ ⟨⟩ _ ⟨⟩ _; decide
  · rintro _ ⟨⟩ _ ⟨⟩ _ ⟨⟩ _ ⟨⟩; decide
  · rintro _ ⟨⟩ _ ⟨⟩ _ ⟨⟩ _ ⟨⟩; decide
  · rintro _ ⟨⟩ _ ⟨⟩ _ _ _ _ ⟨⟩; decide
  · rintro _ ⟨⟩ _ ⟨⟩ _ _ _ _ ⟨⟩; decide

/-- A lawful state whose next step is a copy step of a move. -/
theorem witness_StepKeeps : ∃ s t : State, s.Lawful ∧ s.pending = [.copyStep []] ∧ step s = .next t ∧
    (t.region 4).move = some ⟨5, 1⟩ := by
  refine ⟨{ labC 0 with pending := [.copyStep []] }, _, ?_, rfl, rfl, rfl⟩
  obtain ⟨h1, h2, h3, h4, h5, h6, h7, h8, h9, h10, h11, h12, h13, h14, h15⟩ := labC_lawful 0
  exact ⟨h1, h2, h3, h4, h5, h6, h7, h8, h9, h10, h11, h12, h13, h14, h15⟩

/-- A copy step that moves the granule a port's last bytes lie in. -/
theorem witness_OnlyAccessesChangeRegionData : (labC 0).Lawful ∧ (∀ p a w, Instr.copyStep [] ∉ accessRows p a w) ∧
    ∃ t, exec (.copyStep []) (labC 0) = .next t ∧ ((labC 0).region 4).state.inUse = true ∧
      (t.region 4).state.inUse = true := by
  refine ⟨labC_lawful 0, fun p a w => ?_, _, rfl, rfl, rfl⟩
  simp [accessRows]

/-- P1's byte write at the last byte of region 0 changes that byte. -/
theorem witness_WriteReachesOnlyItsBytes : labA.Lawful ∧
    Instr.dataAccess .p1 (bw 0x1FF 0xAB) [] ∈ accessRows .p1 (bw 0x1FF 0xAB) [] ∧
    (labA.region 0).state.inUse = true ∧ 511 < (labA.region 0).length * 256 ∧
    ∃ t, exec (.dataAccess .p1 (bw 0x1FF 0xAB) []) labA = .next t ∧ t.regionByte 0 511 ≠ labA.regionByte 0 511 := by
  refine ⟨labA_lawful, by simp [accessRows], rfl, by decide, exists_of_after (by decide +kernel)⟩

/-- The CREATE of `labCreate` makes region 5. -/
theorem witness_NewRegionReadsZero : labCreate.Lawful ∧ ∃ t, exec (.takeCreate .p1) labCreate = .next t ∧
    (labCreate.region 5).state = .vacant ∧ (t.region 5).state = .live ∧ 767 < (t.region 5).length * 256 := by
  refine ⟨withCommand_lawful labA_lawful rfl _ _, _, rfl, rfl, rfl, by decide⟩

/-! ### Commands that are not well-formed, and one that is for each check -/

theorem test_wellFormed_dataAccess_range : (Instr.dataAccess .p0 (br 0x80000) []).wellFormed = false ∧
    (Instr.dataAccess .p0 (br 0x7FFFF) []).wellFormed = true := by decide
theorem test_wellFormed_dataAccess_arrivals : (Instr.dataAccess .p0 (br 0) [.port .p0 (br 0)]).wellFormed = false ∧
    (Instr.dataAccess .p0 (br 0) [.engine, .engine]).wellFormed = false ∧
    (Instr.dataAccess .p0 (br 0) [.port .p1 (br 0x80000)]).wellFormed = false ∧
    (Instr.dataAccess .p0 (br 0) [.engine, .port .p1 (br 0x7FFFF)]).wellFormed = true := by decide
theorem test_wellFormed_unmapped : (Instr.unmappedAccess .p0 (br 0x8007F)).wellFormed = false ∧
    (Instr.unmappedAccess .p0 (br 0x80080)).wellFormed = true := by decide
theorem test_wellFormed_commandWrite : (Instr.commandWrite .p0 (wr 0x80008)).wellFormed = false ∧
    (Instr.commandWrite .p0 (ww 0x80006 1)).wellFormed = false ∧ (Instr.commandWrite .p0 (ww 0x80008 1)).wellFormed = true := by
  decide
theorem test_wellFormed_paramWrite : (Instr.paramWrite .p0 (ww 0x8001C 1)).wellFormed = false ∧
    (Instr.paramWrite .p0 (bw 0x8001B 1)).wellFormed = true := by decide
theorem test_wellFormed_bankWrite : (Instr.bankWrite .p0 (ww 0x80008 1)).wellFormed = false ∧
    (Instr.bankWrite .p0 (bw 0x80007 1)).wellFormed = true := by decide
theorem test_wellFormed_eventsWrite : (Instr.eventsWrite .p0 (ww 0x80004 1)).wellFormed = false ∧
    (Instr.eventsWrite .p0 (ww 0x80002 1)).wellFormed = true := by decide
theorem test_wellFormed_eventEnableWrite : (Instr.eventEnableWrite .p0 (ww 0x80002 1)).wellFormed = false ∧
    (Instr.eventEnableWrite .p0 (ww 0x80004 1)).wellFormed = true := by decide
theorem test_wellFormed_ignoredWrite : (Instr.ignoredWrite .p0 (ww 0x80010 1)).wellFormed = false ∧
    (Instr.ignoredWrite .p0 (ww 0x8000A 1)).wellFormed = true := by decide
theorem test_wellFormed_controlMisalignedRead : (Instr.controlMisalignedRead .p0 (wr 0x80002)).wellFormed = false ∧
    (Instr.controlMisalignedRead .p0 (ww 0x80003 1)).wellFormed = false ∧
    (Instr.controlMisalignedRead .p0 (wr 0x80003)).wellFormed = true := by decide
theorem test_wellFormed_engine : ∀ w ∈ [[Claim.engine], [.port .p0 (br 0), .port .p0 (br 1)]],
    (Instr.scrubStep w).wellFormed = false ∧ (Instr.copyStep w).wellFormed = false ∧ (Instr.clearStep w).wellFormed = false := by
  decide

/-! ### Values the spec's worked sequences and layouts give -/

/-- Section 12.5: a BOUND READ_WRITE slot of region 7 reads 0907h, a LAPSED one of cause RETIRED 2207h. -/
theorem test_slotView : (Slot.bound 7 .readWrite 0).viewWord = 0x0907 ∧ (Slot.lapsed 7 .retired).viewWord = 0x2207 := by decide

/-- Section 12.5: after the first row of section 6.8 FAULT_INFO reads 8302h; the last row leaves 8931h. -/
theorem test_faultInfo : (FaultRecord.infoWord ⟨.emptySlot, .read, .byte, .slot 0 3 0⟩) = 0x8302 ∧
    (FaultRecord.infoWord ⟨.unmapped, .read, .word, .address 0x90000⟩) = 0x8931 := by decide

/-- Section 6.8, rows 2 to 5: the causes of the accesses through a READ slot of origin 0 on 512 bytes. -/
def readSlot : State :=
  (labA.modifyPort .p2 fun q => q.setSlot 1 (.bound 0 .read 0))
theorem test_checkAccess : [ww 0x10001 0, wr 0x10200, wr 0x101FE, ww 0x10000 0].map (readSlot.checkAccess .p2) =
    [.error .misaligned, .error .bound, .ok (0, 510), .error .readOnly] := by decide +kernel

/-- Section 6.9: cursor 1 of a move of base 210 to 206: offset 16 lies at 206:16, offset 120h at 211:32. -/
theorem test_routing : let x := { liveOf .p1 210 3 with move := some ⟨206, 1⟩ }
    x.locate 0x10 = 206 * 256 + 16 ∧ x.locate 0x120 = 211 * 256 + 32 := by decide

/-- Section 2.10: 256:256 joins 216:40 and forms 216:296; first fit for 100 then takes 216. -/
theorem test_freeList : insertExtent [⟨216, 40⟩] ⟨256, 256⟩ = ([⟨216, 296⟩], ⟨216, 296⟩) ∧
    insertExtent [⟨316, 196⟩] ⟨0, 16⟩ = ([⟨0, 16⟩, ⟨316, 196⟩], ⟨0, 16⟩) ∧
    firstFit [⟨216, 296⟩] 100 = some (216, [⟨316, 196⟩]) := by decide

/-- Section 8.12: the vacated spans of rounds 2 and 4 coalesce with the extent above. -/
theorem test_coalesce : (insertExtent [⟨0, 8⟩, ⟨56, 40⟩, ⟨116, 12⟩, ⟨192, 832⟩] ⟨48, 8⟩).1 =
    [⟨0, 8⟩, ⟨48, 48⟩, ⟨116, 12⟩, ⟨192, 832⟩] ∧
    (insertExtent [⟨0, 8⟩, ⟨48, 48⟩, ⟨192, 832⟩] ⟨180, 12⟩).1 = [⟨0, 8⟩, ⟨48, 48⟩, ⟨180, 844⟩] := by decide

/-- Section 8.11: the dirty part of the move of 110:40 into 100:10 is 140:10. -/
theorem test_dirty : Move.dirty ⟨6, ⟨100, 10⟩, 110, 40⟩ = ⟨140, 10⟩ ∧ Move.vacated ⟨6, ⟨100, 10⟩, 110, 40⟩ = ⟨140, 10⟩ := by decide

/-- Section 9.7: with P1 taken last and P0, P2, P3 PENDING the search finds P2; after P2 is taken it finds P3. -/
def threeAsking (last : PortId) : State :=
  { withCommand (withCommand (withCommand State.reset .p2 1 (.replicate 6 0)) .p0 6 (.replicate 6 0)) .p3 1 (.replicate 6 0)
    with lastPort := last }
theorem test_rotation : (threeAsking .p1).nextTake = some .p2 ∧ (threeAsking .p2).nextTake = some .p3 := by decide

/-- Section 9.7: P1's second COMMAND write is discarded; its last code stays 000Ch. -/
theorem test_commandWrite_discarded : (after (.commandWrite .p1 (ww 0x80008 3)) (asking 0x0C (.replicate 6 0))).map
    (fun t => ((t.port .p1).unit.lastCode, (t.port .p1).unit.overrun)) = some (0x0C, true) := by decide +kernel

/-- Section 2.10: P1's CREATE of 16 after reset is answered NO_SPACE and sets its watch; boot job 0's end then raises SPACE. -/
theorem test_watch : (after (.takeCreate .p1) (asking 1 #v[16, 0, 2, 0xF, 0, 0])).map
    (fun t => ((t.port .p1).unit.results.toList, (t.port .p1).watch)) = some ([5, 0, 0, 0, 0, 0], some 16) ∧
    (after .bootScrubEnd { State.reset with
      ports := State.reset.ports.set .p1 { Port.reset 2 with watch := some 16 }
      engine := { Engine.reset with running := some ⟨3, 0, .scrub (.boot 0) ⟨0, 256⟩ 256⟩ } }).map
    (fun t => (t.freeList, (t.port .p1).watch, (t.port .p1).events.flags)) = some ([⟨0, 256⟩], none, 8) := by decide +kernel

/-- The answers and the states that one take leaves, in the laboratory state. -/
theorem test_takeCreate : (after (.takeCreate .p1) labCreate).map
    (fun t => ((t.port .p1).unit.results.toList, t.freeList, t.directory, (t.port .p1).slot 1, (t.region 5).bindings)) =
    some ([1, 5, 1, 5, 0, 0], [⟨10, 2038⟩], [⟨5, 0⟩, ⟨9, 5⟩], .bound 5 .readWrite 0, 1) := by decide +kernel
theorem test_takeOpen : (after (.takeOpen .p2) labOpen).map
    (fun t => ((t.port .p2).unit.results.toList, (t.port .p2).slot 31, (t.region 0).bindings)) =
    some ([1, 0, 1, 2, 0, 0], .bound 0 .read 511, 3) := by decide +kernel
theorem test_takeClose : (after (.takeClose .p2) (labClose 2)).map
    (fun t => ((t.port .p2).unit.results.toList, (t.region 1).state, (t.port .p3).holdings)) =
    some ([1, 1, 1, 3, 0, 0], .scrubbing, 0) := by decide +kernel
theorem test_takeGrant : (after (.takeGrant .p1) (labGrant 0 2 0)).map
    (fun t => ((t.port .p1).unit.results.toList, (t.port .p2).slot 1, (t.port .p2).events.flags, (t.region 0).bindings)) =
    some ([1, 2, 1, 0, 1, 0], .lapsed 0 .revoked, 4, 1) := by decide +kernel
theorem test_takeRetire : (after (.takeRetire .p0) (labRetire .p0 0 2)).map
    (fun t => ((t.port .p0).unit.results.toList, (t.port .p1).slot 0, t.directory, (t.port .p1).holdings)) =
    some ([1, 0, 3, 2, 0, 0], .lapsed 0 .retired, [], 3) := by decide +kernel
theorem test_takeInquire : (after (.takeInquire .p1) (labAsking .p1 6 #v[5, 0, 0, 0, 0, 0])).map
    (fun t => (t.port .p1).unit.results.toList) = some [1, 0x100, 0x235, 0, 2, 5] := by decide +kernel
theorem test_takeCompact : (after (.takeCompact .p1) (labAsking .p1 7 (.replicate 6 0))).map
    (fun t => ((t.port .p1).unit.results.toList, t.engine.queue.map Job.level)) = some ([1, 2, 0, 0, 0, 0], [2]) := by
  decide +kernel
theorem test_takeHalt : (after (.takeHalt .p0) (withCommand (labC 1) .p0 8 (.replicate 6 0))).map
    (fun t => ((t.port .p0).unit.results.toList, t.engine.compaction?.map Compaction.halt)) =
    some ([1, 1, 4, 0, 0, 0], some true) := by decide +kernel
theorem test_takeSetPort : (after (.takeSetPort .p0) (labAsking .p0 9 #v[1, 0, 4, 0, 0, 0])).map
    (fun t => ((t.port .p0).unit.results.toList, (t.port .p1).level, (t.port .p1).quota)) =
    some ([1, 1, 2, 512, 1, 0], 0, 4) := by decide +kernel

/-- Section 10.8 in small: RESET_PORT of P1 during the copy of its region 4 sends regions 0, 2 and 4 to SCRUBBING; region 4's
extent is the span 5:5. -/
theorem test_takeResetPort : (after (.takeResetPort .p0) (withCommand (labC 1) .p0 10 #v[1, 0, 0, 0, 0, 0])).map
    (fun t => ((t.port .p0).unit.results.toList, (t.region 4).base, (t.region 4).length, (t.port .p2).slot 1)) =
    some ([1, 1, 0, 1, 3, 1], 5, 5, .lapsed 0 .ownerReset) := by decide +kernel
theorem test_takeUnknown : (after (.takeUnknown .p1) (asking 0x0C (.replicate 6 0))).map
    (fun t => ((t.port .p1).unit.results.toList, (t.port .p1).events.flags)) = some ([2, 0, 0, 0, 0, 0], 1) := by decide +kernel

/-- R86: with P1's access and the scrub step waiting after the engine was served last, the scrub step waits on, P1's access is
taken and the step goes on waiting, and then the step is taken although P1 has its next access waiting. -/
theorem test_arbiter : (after (.scrubStep []) labWaits).map (fun t => (t.lastServed, t.claims)) =
      some (.engine, [.port .p1, .engine]) ∧
    (after (.dataAccess .p1 (br 0) []) labWaits).map (fun t => (t.lastServed, t.claims)) = some (.port .p1, [.engine]) ∧
    (after (.dataAccess .p1 (br 1) []) { labWaits with lastServed := .port .p1 }).map (fun t => t.claims) =
      some [.port .p1, .engine] ∧
    (after (.scrubStep [.port .p1 (br 2)]) { labWaits with lastServed := .port .p1 }).map
      (fun t => (t.lastServed, t.waits.ports.p1, t.claims)) = some (.engine, some (br 0), [.port .p1]) := by decide +kernel

/-- R142, R107: a reset of P1, whose region 4 is being copied, withdraws the copy step that waits, and as its input's assertion
P1's access too. -/
theorem test_withdrawn : (after (.portResetInputAssert .p1) ((labC 1).arriveAll [.engine, .port .p1 (br 0), .port .p2 (br 0)])).map
    (fun t => t.claims) = some [.port .p2] ∧
    (after (.takeResetPort .p0) ((withCommand (labC 1) .p0 10 #v[1, 0, 0, 0, 0, 0]).arriveAll [.engine, .port .p1 (br 0)])).map
      (fun t => t.claims) = some [.port .p1] := by decide +kernel

/-- The events of the engine, one each. -/
theorem test_scrubStep : (after (.scrubStep []) { labA with array := [(1023, 1), (1024, 2), (1279, 3), (1280, 4)] }).map
    (fun t => t.array) = some [(1023, 1), (1280, 4)] := by decide +kernel
theorem test_copyStep : (after (.copyStep []) { labC 1 with array := [(2303, 1), (2304, 2), (2559, 3)] }).map
    (fun t => t.array) = some [(1536, 2), (1791, 3), (2303, 1), (2304, 2), (2559, 3)] := by decide +kernel
theorem test_roundTest : (after .roundTest (labB 5)).map (fun t => ((t.region 4).move, t.freeList)) =
    some (some ⟨5, 0⟩, [⟨10, 2038⟩]) := by decide +kernel
theorem test_copyEnd : (after .copyEnd (labC 2)).map (fun t => ((t.region 4).base, t.engine.compaction?.map Compaction.phase)) =
    some (5, some (.clear labMove ⟨7, 3⟩ ⟨8, 2⟩ 0)) := by decide +kernel
theorem test_clearStep : (after (.clearStep []) { labD 1 with array := [(2048, 1), (2304, 2), (2559, 3)] }).map
    (fun t => t.array) = some [(2048, 1)] := by decide +kernel
theorem test_clearEnd : (after .clearEnd (labD 2)).map
    (fun t => (t.freeList, t.engine.compaction?.map fun c => (c.scanPoint, c.regionsMoved, c.granulesMoved))) =
    some ([⟨7, 2041⟩], some (5, 1, 2)) := by decide +kernel
theorem test_regionScrubEnd : (after .regionScrubEnd
    (lab { labEngine none with running := some ⟨2, 7, .scrub (.region 3) ⟨4, 1⟩ 1⟩ } [⟨5, 3⟩] 8 none)).map
    (fun t => ((t.region 3).state, (t.region 3).generation, t.freeList)) = some (.vacant, 1, [⟨4, 4⟩]) := by decide +kernel

/-- A HELD port stays HELD through a device reset. -/
theorem test_deviceReset : (after .deviceReset heldState).map (fun t => (t.port .p3).portState) = some .held := by decide +kernel

/-- Register writes: BANK keeps its low two bits; EVENTS frees the fault record; EVENT_ENABLE asserts the line. -/
theorem test_bankWrite : (after (.bankWrite .p0 (ww 0x80006 0xFFFE)) State.reset).map (fun t => (t.port .p0).bank) = some 2 := by
  decide +kernel
theorem test_eventsWrite : (after (.eventsWrite .p0 (ww 0x80002 2))
    (State.reset.faulted .p0 (wr 0x90000) .unmapped (.address 0x90000))).map
    (fun t => ((t.port .p0).events.fault, (t.port .p0).events.flags)) = some (none, 0) := by decide +kernel
theorem test_eventEnableWrite : (after (.eventEnableWrite .p0 (ww 0x80004 2))
    (State.reset.faulted .p0 (wr 0x90000) .unmapped (.address 0x90000))).map (fun t => (t.port .p0).eventLine) = some true := by
  decide +kernel
theorem test_paramWrite_high : (after (.paramWrite .p0 (bw 0x80011 0x77)) State.reset).map (fun t => t.param .p0 0) =
    some 0x7700 := by decide +kernel
theorem test_dataWrite : (after (.dataAccess .p1 (ww 0x1FE 0xABCD) []) labA).map (fun t => t.array) =
    some [(510, 0xCD), (511, 0xAB)] := by decide +kernel
theorem test_controlMisalignedRead : (after (.controlMisalignedRead .p0 (wr 0x80001)) State.reset).map
    (fun t => (t.port .p0).response) = some (some ⟨false, some (.word 0xFFFF)⟩) := by decide +kernel

/-- A step runs the front command with the queue's rest. -/
theorem test_step : (match step { State.reset with pending := [.portResetInputRelease .p0, .roundTest] } with
    | .next t => some t.pending
    | _ => none) = some [.roundTest] := by decide +kernel

end Sys2Proof.Tests
end

section
/-! PROOFS. How a region reference resolves (R12): one equation for each way the reference can go, and the statement assembled
from them. -/
namespace Sys2Proof.Machine

/-! ### Resolving by name -/

theorem State.resolve_of_lookupName_some {s : State} {name : Word} {r : RegionId} (number generation : Word)
    (hname : name ≠ 0) (hfound : s.lookupName name = some r) : s.resolve name number generation = .ok r := by
  rw [State.resolve, if_pos hname, hfound]

theorem State.resolve_of_lookupName_none {s : State} {name : Word} (number generation : Word)
    (hname : name ≠ 0) (hfound : s.lookupName name = none) :
    s.resolve name number generation = .error .notFound := by
  rw [State.resolve, if_pos hname, hfound]

/-- Under the directory law no two entries share a name, so the lookup finds the entry it is asked for and no other. -/
theorem State.DirectoryLaw.lookupName_eq_some_iff {s : State} (h : s.DirectoryLaw) (name : Word) (r : RegionId) :
    s.lookupName name = some r ↔ (⟨name, r⟩ : DirEntry) ∈ s.directory := by
  refine ⟨State.mem_directory_of_lookupName, fun hmem => ?_⟩
  cases hfound : s.lookupName name with
  | none => exact absurd rfl ((s.lookupName_eq_none_iff name).mp hfound _ hmem)
  | some r' =>
    have heq := h.eq_of_name (State.mem_directory_of_lookupName hfound) hmem rfl
    exact congrArg (some ∘ DirEntry.region) heq

theorem State.DirectoryLaw.live_of_mem {s : State} (h : s.DirectoryLaw) {e : DirEntry} (he : e ∈ s.directory) :
    (s.region e.region).state = .live := by
  obtain ⟨-, -, hentries, -⟩ := h
  exact (hentries e he).1

/-! ### Resolving by number -/

/-- Without a name and with a number below 128 the record decides: VACANT first, then a generation that is compared. -/
theorem State.resolve_of_number (s : State) {number : Word} {r : RegionId} (generation : Word)
    (hnumber : number.toNat = r.val) :
    s.resolve 0 number generation =
      if (s.region r).state = .vacant then .error .notFound
      else if generation.toNat < 256 ∧ generation.toNat ≠ (s.region r).generation.toNat then .error .stale
      else .ok r := by
  simp [State.resolve, hnumber]

theorem State.resolve_of_number_ge (s : State) {number : Word} (generation : Word) (hnumber : 128 ≤ number.toNat) :
    s.resolve 0 number generation = .error .notFound := by
  simp [State.resolve, Nat.not_lt.mpr hnumber]

/-! ### The statement -/

/-- Settles O21: by name through the directory's lookup, by number through the record of that number. -/
theorem referenceResolution : Obligations.ReferenceResolution := by
  unfold Obligations.ReferenceResolution
  intro s name number generation hdir
  refine ⟨fun hname => ⟨fun r hmem => ⟨?_, hdir.live_of_mem hmem⟩, fun habsent => ?_⟩, ?_, ?_⟩
  · exact State.resolve_of_lookupName_some _ _ hname ((hdir.lookupName_eq_some_iff name r).mpr hmem)
  · exact State.resolve_of_lookupName_none _ _ hname ((s.lookupName_eq_none_iff name).mpr habsent)
  · rintro rfl r hnumber
    rw [s.resolve_of_number generation hnumber]
    refine ⟨fun hvacant => if_pos hvacant, fun hused hlow hdiffers => ?_, fun hused hagrees => ?_⟩
    · rw [if_neg hused, if_pos ⟨hlow, hdiffers⟩]
    · rw [if_neg hused, if_neg (by omega)]
  · rintro rfl hnumber
    exact s.resolve_of_number_ge generation hnumber

end Sys2Proof.Machine
end

section
/-! PROOFS. The BANK register and the active bank (R55): what one access to a named register does, the write and the read of
BANK, and the statement assembled from them. -/
namespace Sys2Proof

/-! ### The low or the high byte of a register as an address -/

theorem Access.odd_of_addr {a : Access} {k : Nat} {high : Bool} (ha : a.addr.toNat = 0x80000 + 2 * k + high.toNat) :
    decide (a.addr.toNat % 2 = 1) = high := by
  cases high with
  | false => exact decide_eq_false (by rw [Bool.toNat_false] at ha; omega)
  | true => exact decide_eq_true (by rw [Bool.toNat_true] at ha; omega)

/-- The premise of `Machine.State.access_register`, from the byte of the register that is addressed: only a byte access reaches the
high one. -/
theorem Access.addr_cases {a : Access} {k : Nat} {high : Bool} (ha : a.addr.toNat = 0x80000 + 2 * k + high.toNat)
    (hsize : high = true → a.size = .byte) :
    a.addr.toNat = 0x80000 + 2 * k ∨ (a.addr.toNat = 0x80000 + 2 * k + 1 ∧ a.size = .byte) := by
  cases high with
  | false => exact .inl ha
  | true => exact .inr ⟨ha, hsize rfl⟩

end Sys2Proof

namespace Sys2Proof.Machine

/-! ### One access to a register -/

theorem State.access_registerWrite {s : State} {p : PortId} {a : Access} {k : Nat} (high : Bool)
    (h : s.presents p a = true) (hdir : a.dir = .write) (hk : k < 64)
    (ha : a.addr.toNat = 0x80000 + 2 * k + high.toNat) (hsize : high = true → a.size = .byte) :
    s.access p a [] = .next (s.served p ((s.port p).writeRegister (Register.ofWord k) a.size high a.data) none) := by
  rw [State.access_register h hk (Access.addr_cases ha hsize), hdir, Access.odd_of_addr ha]

theorem State.access_registerRead {s : State} {p : PortId} {a : Access} {k : Nat} (high : Bool)
    (h : s.presents p a = true) (hdir : a.dir = .read) (hk : k < 64)
    (ha : a.addr.toNat = 0x80000 + 2 * k + high.toNat) (hsize : high = true → a.size = .byte) :
    s.access p a [] =
      .next (s.served p (s.port p) (some (readRegister (s.registerWord p (Register.ofWord k)) a.size high))) := by
  rw [State.access_register h hk (Access.addr_cases ha hsize), hdir, Access.odd_of_addr ha]

/-- A HELD port presents no access: one offered is discarded (R169). -/
theorem State.access_of_held {s : State} {p : PortId} (hheld : (s.port p).portState = .held) (a : Access)
    (arrivals : List Claim) : s.access p a arrivals = .next s := by
  simp [State.access, State.presents, hheld]

/-! ### BANK, word 3 of the control window -/

theorem exec_bankWrite (s : State) (p : PortId) (a : Access) : exec (.bankWrite p a) s = s.access p a [] := rfl

theorem Register.ofWord_bank : Register.ofWord 3 = .bank := rfl

theorem Port.writeRegister_bank_low (q : Port) (size : Size) (data : Word) :
    q.writeRegister .bank size false data = { q with bank := (data.setWidth 2).toFin } := by
  rw [BitVec.setWidth_eq_extractLsb' (by decide)]
  rfl

theorem Port.writeRegister_bank_high (q : Port) (size : Size) (data : Word) :
    q.writeRegister .bank size true data = q := rfl

theorem lowByte_toWord_bank (bank : Fin 4) : lowByte (toWord bank.val) = BitVec.ofNat 8 bank.val := by
  decide +revert

theorem highByte_toWord_bank (bank : Fin 4) : highByte (toWord bank.val) = 0 := by
  decide +revert

/-! ### The statement -/

/-- Settles O14: the accesses are those of word 3 of the control window, at its low and at its high byte. -/
theorem bankWriteEffect : Obligations.BankWriteEffect := by
  unfold Obligations.BankWriteEffect
  rintro s p a q rfl
  refine ⟨fun h hdir ha => ?_, fun h hdir ha hbyte => ?_, fun h hdir ha hword => ?_, fun h hdir ha hbyte => ?_,
    fun h hdir ha hbyte => ?_, fun hheld => State.access_of_held hheld a []⟩
  · rw [exec_bankWrite, State.access_registerWrite (k := 3) false h hdir (by decide) (by rw [ha]; rfl) nofun,
      Register.ofWord_bank, Port.writeRegister_bank_low]
  · rw [exec_bankWrite, State.access_registerWrite (k := 3) true h hdir (by decide) (by rw [ha]; rfl) fun _ => hbyte,
      Register.ofWord_bank, Port.writeRegister_bank_high]
  · rw [State.access_registerRead (k := 3) false h hdir (by decide) (by rw [ha]; rfl) nofun, hword]
    rfl
  · rw [State.access_registerRead (k := 3) false h hdir (by decide) (by rw [ha]; rfl) nofun, hbyte, ← lowByte_toWord_bank]
    rfl
  · rw [State.access_registerRead (k := 3) true h hdir (by decide) (by rw [ha]; rfl) fun _ => hbyte, hbyte,
      ← highByte_toWord_bank (s.port p).bank]
    rfl

end Sys2Proof.Machine
end

section
/-! PROOFS. A CLOSE of a LAPSED slot (R65): the answer of its body, and the statement from the take that gives it. -/
namespace Sys2Proof.Machine

theorem exec_takeClose (s : State) (p : PortId) :
    exec (.takeClose p) s = s.takeCommand p (fun w => w = 3) closeBody := rfl

/-- The slot alone changes: no region record, no count and no event of another kind. -/
theorem closeBody_of_lapsed {s : State} {p : PortId} {i : SlotIndex} {r : RegionId} {cause : LapseCause}
    (htarget : targetSlot (s.param p 0) = some i) (hslot : (s.port p).slot i = .lapsed r cause) :
    closeBody s p =
      accept (s.setPort p ((s.port p).setSlot i .empty)) [2, toWord r.val, 0, toWord cause.code] := by
  simp only [closeBody, htarget, hslot]
  rfl

/-- Settles O29: the take answers what CLOSE answers for a LAPSED slot, and each cause has its code of Table 12-1. -/
theorem closeLapsed : Obligations.CloseLapsed := by
  unfold Obligations.CloseLapsed
  intro s p i r cause htaking htarget hslot
  rw [exec_takeClose, State.takeCommand_of_taking htaking (by decide), closeBody_of_lapsed htarget hslot]
  cases cause <;> rfl

end Sys2Proof.Machine
end

section
/-! PROOFS. An access to the unmapped range (R89): it goes past the Access Checker and every register, so its address alone
decides what it does. -/
namespace Sys2Proof.Machine

theorem exec_unmappedAccess (s : State) (p : PortId) (a : Access) : exec (.unmappedAccess p a) s = s.access p a [] := rfl

theorem State.access_unmapped {s : State} {p : PortId} {a : Access} (h : s.presents p a = true)
    (ha : 0x80080 ≤ a.addr.toNat) (arrivals : List Claim) :
    s.access p a arrivals = .next (s.faulted p a .unmapped (.address a.addr)) := by
  rw [State.access, if_pos h, Access.target_of_unmapped ha]
  dsimp only
  rw [State.faultAccess_eq]

/-- Settles O11: the row is the access of its port, which brings no claims with it. -/
theorem unmappedAccessFaulted : Obligations.UnmappedAccessFaulted := by
  unfold Obligations.UnmappedAccessFaulted
  intro s p a h ha
  rw [exec_unmappedAccess, State.access_unmapped h ha]

end Sys2Proof.Machine
end

section
/-! PROOFS. The data lines of a byte access (R88): the bytes of a word, what an access of the data window does when it is
faulted or served, why the claims that arrive beside it do not see its data, and the statement assembled from the two windows. -/
namespace Sys2Proof

theorem Access.lt_of_target_dataWindow {a : Access} (h : a.target = .dataWindow) : a.addr.toNat < 0x80000 := by
  unfold Access.target at h
  split at h
  · assumption
  · split at h
    · split at h <;> cases h
    · cases h

end Sys2Proof

namespace Sys2Proof.Machine

/-! ### The bytes of a word -/

theorem lowByte_eq_setWidth (w : Word) : lowByte w = w.setWidth 8 := (BitVec.setWidth_eq_extractLsb' (by decide)).symm

@[simp] theorem lowByte_wordOf (lo hi : Byte) : lowByte (wordOf lo hi) = lo := by
  apply BitVec.eq_of_toNat_eq
  rw [lowByte_toNat, wordOf_toNat]
  omega

@[simp] theorem highByte_wordOf (lo hi : Byte) : highByte (wordOf lo hi) = hi := by
  apply BitVec.eq_of_toNat_eq
  rw [highByte_toNat, wordOf_toNat]
  omega

/-- Bits of a word that lie in its low byte. -/
theorem extractLsb'_lowByte (w : Word) {n : Nat} (hn : n ≤ 8) : (lowByte w).extractLsb' 0 n = w.extractLsb' 0 n := by
  ext i hi
  simp only [lowByte, BitVec.getElem_extractLsb', zero_add, BitVec.getLsbD_extractLsb', Bool.and_eq_right_iff_imp,
    decide_eq_true_eq]
  omega

/-! ### What an answered access shows at its port -/

@[simp] theorem State.port_served (s : State) (p : PortId) (q : Port) (d : Option ReadData) :
    (s.served p q d).port p = { q with response := some ⟨true, d⟩ } :=
  (State.port_setPort ..).trans (if_pos rfl)

/-- The fill value of a byte read (R100). -/
theorem State.response_faulted_byteRead {s : State} {p : PortId} {a : Access} (hsize : a.size = .byte)
    (hdir : a.dir = .read) (cause : FaultCause) (place : FaultPlace) :
    ((s.faulted p a cause place).port p).response = some ⟨false, some (.byte 0xFF)⟩ := by
  rw [← State.faultAccess_eq, State.faultAccess, State.port_respond, if_pos rfl, Response.error, hsize, hdir]

/-! ### An access of the data window, faulted or served -/

theorem exec_dataAccess (s : State) (p : PortId) (a : Access) (arrivals : List Claim) :
    exec (.dataAccess p a arrivals) s = s.access p a arrivals := rfl

theorem State.dataAccess_of_error {s : State} {p : PortId} {a : Access} {cause : FaultCause}
    (h : s.checkAccess p a = .error cause) (arrivals : List Claim) :
    s.dataAccess p a arrivals = .next (s.faulted p a cause ((s.port p).faultSlot a)) := by
  simp only [State.dataAccess, h, State.faultAccess_eq]

theorem State.serves_arriveAll (s : State) (c : Claimant) (l : List Claim) :
    (s.arriveAll l).serves c = arbiterServes s.lastServed c (s.arriveAll l).claims := by
  rw [State.serves, State.arriveAll_lastServed]

theorem State.dataAccess_of_ok {s : State} {p : PortId} {a : Access} {arrivals : List Claim} {r : RegionId} {e : Nat}
    (h : s.checkAccess p a = .ok (r, e))
    (hserves : arbiterServes s.lastServed (.port p) (s.arriveAll (.port p a :: arrivals)).claims = true) :
    s.dataAccess p a arrivals =
      if (s.region r).lastByte a e < Config.arrayBytes then
        .next ((s.arriveAll (.port p a :: arrivals)).serve p a (s.region r) e)
      else .fault (.outsideArray ((s.region r).lastByte a e)) := by
  rw [← State.serves_arriveAll] at hserves
  simp only [State.dataAccess, h, if_pos hserves]

/-- An access that passes the checks of R91 stays inside the array. -/
theorem State.Lawful.lastByte_lt {s : State} (hs : s.Lawful) {p : PortId} {a : Access} {r : RegionId} {e : Nat}
    (h : s.checkAccess p a = .ok (r, e)) : (s.region r).lastByte a e < Config.arrayBytes := by
  obtain ⟨rights, origin, hslot, -, -, hbound, -⟩ := (s.checkAccess_eq_ok_iff p a r e).mp h
  have hin : ∀ x ≤ e + a.size.bytes - 1, (s.region r).locate x < Config.arrayBytes := fun x hx => by
    rw [← State.location_eq_locate]
    exact hs.location_lt (hs.inUse_of_bound hslot) (Nat.lt_of_le_of_lt hx hbound)
  have hbytes : 1 ≤ a.size.bytes := by cases a.size <;> decide
  exact max_lt (hin e (by omega)) (hin _ le_rfl)

theorem State.serve_byteRead {s : State} {p : PortId} {a : Access} (hsize : a.size = .byte) (hdir : a.dir = .read)
    (y : Region) (e : Nat) :
    s.serve p a y e = { s with lastServed := .port p }.respond p (.okRead (.byte (s.byteAt (y.locate e)))) := by
  simp only [State.serve, hsize, hdir]

theorem State.serve_byteWrite {s : State} {p : PortId} {a : Access} (hsize : a.size = .byte) (hdir : a.dir = .write)
    (y : Region) (e : Nat) :
    s.serve p a y e =
      { s with lastServed := .port p, array := s.array.write (y.locate e) (lowByte a.data) }.respond p .okWrite := by
  simp only [State.serve, hsize, hdir]

/-! ### The claims that arrive beside an access -/

@[simp] theorem PerPort.set_set_same {α : Type} (v : PerPort α) (p : PortId) (x y : α) :
    (v.set p x).set p y = v.set p y := by cases p <;> rfl

theorem PerPort.set_comm {α : Type} (v : PerPort α) {p q : PortId} (h : p ≠ q) (x y : α) :
    (v.set p x).set q y = (v.set q y).set p x := by
  refine PerPort.ext_get fun i => ?_
  simp only [PerPort.get_set]
  split
  · next hq => rw [if_neg (hq.trans_ne h.symm)]
  · rfl

/-- `s` with access `a` waiting at the Array Arbiter for port `p`, in place of any that waited. -/
def State.waitingAt (s : State) (p : PortId) (a : Access) : State :=
  { s with waits := { s.waits with ports := s.waits.ports.set p (some a) } }

theorem State.waitingAt_waitingAt_same (s : State) (p : PortId) (a b : Access) :
    (s.waitingAt p a).waitingAt p b = s.waitingAt p b := by
  simp only [State.waitingAt, PerPort.set_set_same]

theorem State.waitingAt_comm (s : State) {p q : PortId} (h : p ≠ q) (a b : Access) :
    (s.waitingAt p a).waitingAt q b = (s.waitingAt q b).waitingAt p a := by
  simp only [State.waitingAt, PerPort.set_comm _ h]

/-- What `waitingAt` is of the model: the arrival of an access that its port can present. -/
theorem State.arrive_port (s : State) (p : PortId) (a : Access) :
    s.arrive (.port p a) = if s.presents p a ∧ a.addr.toNat < 0x80000 then s.waitingAt p a else s := rfl

theorem State.eq_of_presents_waitingAt (s : State) (p : PortId) {a b : Access}
    (h : (s.waitingAt p a).presents p b = true) : a = b :=
  ((State.presents_iff ..).mp h).2 a (by simp [State.waitingAt])

theorem State.presents_waitingAt_of_ne (s : State) {p q : PortId} (h : q ≠ p) (a b : Access) :
    (s.waitingAt p a).presents q b = s.presents q b := by
  simp only [State.presents, State.waitingAt, PerPort.get_set, if_neg h]
  rfl

/-- What arrives does not depend on which access of a port waits: the port's own further claims change nothing, and the
others do not look at it. -/
theorem State.arrive_waitingAt (s : State) (p : PortId) (a : Access) (k : Claim) :
    (s.waitingAt p a).arrive k = (s.arrive k).waitingAt p a := by
  cases k with
  | engine =>
    exact (apply_ite (State.waitingAt · p a) (s.granuleNext = true) { s with waits := { s.waits with step := true } } s).symm
  | port q b =>
    simp only [State.arrive_port]
    by_cases hq : q = p
    · subst hq
      have hright : (if s.presents q b ∧ b.addr.toNat < 0x80000 then s.waitingAt q b else s).waitingAt q a =
          s.waitingAt q a := by
        split
        · exact State.waitingAt_waitingAt_same ..
        · rfl
      rw [hright]
      split
      · next h => rw [State.eq_of_presents_waitingAt s q h.1, State.waitingAt_waitingAt_same]
      · rfl
    · rw [State.presents_waitingAt_of_ne s hq]
      split
      · exact State.waitingAt_comm s (Ne.symm hq) a b
      · rfl

theorem State.arriveAll_waitingAt (s : State) (p : PortId) (a : Access) (l : List Claim) :
    (s.waitingAt p a).arriveAll l = (s.arriveAll l).waitingAt p a := by
  induction l generalizing s with
  | nil => rfl
  | cons k l ih =>
    show ((s.waitingAt p a).arrive k).arriveAll l = ((s.arrive k).arriveAll l).waitingAt p a
    rw [State.arrive_waitingAt, ih]

theorem State.arriveAll_cons_of_presents {s : State} {p : PortId} {a : Access} (h : s.presents p a = true)
    (ha : a.addr.toNat < 0x80000) (l : List Claim) :
    s.arriveAll (.port p a :: l) = (s.arriveAll l).waitingAt p a := by
  show (s.arrive (.port p a)).arriveAll l = _
  rw [State.arrive_port, if_pos ⟨h, ha⟩, State.arriveAll_waitingAt]

theorem State.claims_waitingAt (s : State) (p : PortId) (a b : Access) :
    (s.waitingAt p a).claims = (s.waitingAt p b).claims := by
  have hsome : ∀ q, ((s.waitingAt p a).waits.ports.get q).isSome = ((s.waitingAt p b).waits.ports.get q).isSome := by
    intro q
    simp only [State.waitingAt, PerPort.get_set]
    split <;> rfl
  simp only [State.claims, hsome]
  rfl

/-- The access served waits no more, so nothing of its claim is left. -/
theorem State.respond_waitingAt (s : State) (p : PortId) (a : Access) (r : Response) :
    (s.waitingAt p a).respond p r = s.respond p r := by
  simp only [State.respond, State.waitingAt, Waits.drop, PerPort.set_set_same]
  rfl

theorem State.serve_waitingAt (s : State) (p : PortId) (a b : Access) (y : Region) (e : Nat) :
    (s.waitingAt p b).serve p a y e = s.serve p a y e := by
  unfold State.serve
  cases a.dir with
  | read => cases a.size <;> exact State.respond_waitingAt { s with lastServed := .port p } p b _
  | write => cases a.size <;> exact State.respond_waitingAt { s with lastServed := .port p, array := _ } p b _

/-! ### Lines 15-8 of a byte write -/

section
variable {s : State} {p : PortId} {a : Access} {lines : Word}

theorem State.presents_lines (h : s.waits.ports.get p = none) :
    s.presents p { a with data := lines } = s.presents p a := by
  simp only [State.presents, h, true_or]

theorem State.serve_byteWrite_lines (hsize : a.size = .byte) (hdir : a.dir = .write)
    (hlines : lowByte lines = lowByte a.data) (y : Region) (e : Nat) :
    s.serve p { a with data := lines } y e = s.serve p a y e := by
  rw [State.serve_byteWrite hsize hdir, State.serve_byteWrite (a := { a with data := lines }) hsize hdir, hlines]

theorem Port.writeRegister_byte_lines {data : Word} (hlines : lowByte lines = lowByte data) (q : Port) (r : Register)
    (high : Bool) : q.writeRegister r .byte high lines = q.writeRegister r .byte high data := by
  have hbits : ∀ n ≤ 8, lines.extractLsb' 0 n = data.extractLsb' 0 n := fun n hn => by
    rw [← extractLsb'_lowByte lines hn, hlines, extractLsb'_lowByte data hn]
  cases r <;>
    simp only [Port.writeRegister, Port.writeParam, Port.writeBank, mergeWrite, eventBits, hlines, hbits 6 (by decide),
      hbits 2 (by decide)]

theorem State.controlAccess_byteWrite_lines (hsize : a.size = .byte) (hdir : a.dir = .write)
    (hlines : lowByte lines = lowByte a.data) (r : Register) (high : Bool) :
    s.controlAccess p { a with data := lines } r high = s.controlAccess p a r high := by
  simp only [State.controlAccess, hdir, hsize, Port.writeRegister_byte_lines hlines]

/-- The checks of R91 do not look at the data, and the claim the access puts at the arbiter is gone once it is served. -/
theorem State.dataAccess_byteWrite_lines {arrivals : List Claim} (hwaits : s.waits.ports.get p = none)
    (h : s.presents p a = true) (ha : a.addr.toNat < 0x80000) (hsize : a.size = .byte) (hdir : a.dir = .write)
    (hlines : lowByte lines = lowByte a.data)
    (hserves : arbiterServes s.lastServed (.port p) (s.arriveAll (.port p a :: arrivals)).claims = true) :
    s.dataAccess p { a with data := lines } arrivals = s.dataAccess p a arrivals := by
  have harrive := State.arriveAll_cons_of_presents h ha arrivals
  have harrive' := State.arriveAll_cons_of_presents (a := { a with data := lines }) ((State.presents_lines hwaits).trans h)
    ha arrivals
  cases hcheck : s.checkAccess p a with
  | error cause =>
    have hcheck' : s.checkAccess p { a with data := lines } = .error cause := hcheck
    rw [State.dataAccess_of_error hcheck, State.dataAccess_of_error hcheck']
    rfl
  | ok place =>
    obtain ⟨r, e⟩ := place
    have hcheck' : s.checkAccess p { a with data := lines } = .ok (r, e) := hcheck
    have hserves' : arbiterServes s.lastServed (.port p)
        (s.arriveAll (.port p { a with data := lines } :: arrivals)).claims = true := by
      rw [harrive', State.claims_waitingAt _ p _ a, ← harrive]
      exact hserves
    rw [State.dataAccess_of_ok hcheck hserves, State.dataAccess_of_ok hcheck' hserves', harrive, harrive',
      State.serve_waitingAt, State.serve_waitingAt, State.serve_byteWrite_lines hsize hdir hlines]
    rfl

/-- Lines 15-8 of a byte write have no effect, wherever it goes. -/
theorem State.access_byteWrite_lines {arrivals : List Claim} (hsize : a.size = .byte) (hdir : a.dir = .write)
    (hlines : lowByte lines = lowByte a.data) (hwaits : s.waits.ports.get p = none)
    (hserves : a.addr.toNat < 0x80000 →
      arbiterServes s.lastServed (.port p) (s.arriveAll (.port p a :: arrivals)).claims = true) :
    s.access p { a with data := lines } arrivals = s.access p a arrivals := by
  have htarget : ({ a with data := lines } : Access).target = a.target := rfl
  unfold State.access
  rw [State.presents_lines hwaits, htarget]
  split
  · next h =>
    split
    · next ht =>
      have ha := Access.lt_of_target_dataWindow ht
      exact State.dataAccess_byteWrite_lines hwaits h ha hsize hdir hlines (hserves ha)
    · rw [State.controlAccess_byteWrite_lines hsize hdir hlines]
    · rfl
    · rfl
  · rfl

end

/-! ### The byte read and the byte written -/

/-- The two spellings of the address bit that chooses a register's high byte. -/
theorem ite_one_zero_eq_toNat (high : Bool) : (if high then 1 else 0) = high.toNat := by cases high <;> rfl

/-- A byte read of the data window, served. -/
theorem State.exec_dataAccess_byteRead {s : State} {p : PortId} {a : Access} {arrivals : List Claim} {r : RegionId}
    {e : Nat} (hs : s.Lawful) (h : s.presents p a = true) (hsize : a.size = .byte) (hdir : a.dir = .read)
    (ha : a.addr.toNat < 0x80000) (hcheck : s.checkAccess p a = .ok (r, e))
    (hserves : arbiterServes s.lastServed (.port p) (s.arriveAll (.port p a :: arrivals)).claims = true) :
    ∃ t, exec (.dataAccess p a arrivals) s = .next t ∧
      (t.port p).response = some ⟨true, some (.byte (s.regionByte r e))⟩ := by
  refine ⟨_, by rw [exec_dataAccess, State.access_dataWindow h ha, State.dataAccess_of_ok hcheck hserves,
    if_pos (hs.lastByte_lt hcheck)], ?_⟩
  rw [State.serve_byteRead hsize hdir, State.port_respond, if_pos rfl, State.arriveAll_byteAt,
    ← State.location_eq_locate]
  rfl

/-- A byte read of a register, at its low or its high byte. -/
theorem State.access_byteRead_register {s : State} {p : PortId} {a : Access} {k : Nat} {high : Bool}
    (h : s.presents p a = true) (hsize : a.size = .byte) (hdir : a.dir = .read) (hk : k < 64)
    (ha : a.addr.toNat = 0x80000 + 2 * k + high.toNat) (arrivals : List Claim) :
    s.access p a arrivals = .next (s.served p (s.port p) (some (.byte
      (if high then highByte (s.registerWord p (Register.ofWord k))
        else lowByte (s.registerWord p (Register.ofWord k)))))) := by
  rw [State.access_register h hk (Access.addr_cases ha fun _ => hsize), hdir, hsize, Access.odd_of_addr ha]
  rfl

/-- A byte write of the data window, once served, is read back at the effective offset. -/
theorem State.regionByte_of_dataAccess_byteWrite {s t : State} {p : PortId} {a : Access} {arrivals : List Claim}
    {r : RegionId} {e : Nat} (hwf : s.array.wf) (hsize : a.size = .byte) (hdir : a.dir = .write)
    (hcheck : s.checkAccess p a = .ok (r, e))
    (hserves : arbiterServes s.lastServed (.port p) (s.arriveAll (.port p a :: arrivals)).claims = true)
    (hnext : s.dataAccess p a arrivals = .next t) : t.regionByte r e = lowByte a.data := by
  rw [State.dataAccess_of_ok hcheck hserves] at hnext
  split at hnext
  · injection hnext with hnext
    have hregion : t.region r = s.region r := by
      rw [← hnext, State.serve_byteWrite hsize hdir, State.respond_region]
      exact State.arriveAll_region ..
    have harray : t.array = s.array.write ((s.region r).locate e) (lowByte a.data) := by
      rw [← hnext, State.serve_byteWrite hsize hdir, State.respond_array]
      dsimp only
      rw [State.arriveAll_array]
    rw [State.regionByte, State.byteAt, State.location_eq_locate, hregion, harray, Memory.read_write _ _ _ _ hwf,
      if_pos rfl]
  · cases hnext

theorem exec_paramWrite (s : State) (p : PortId) (a : Access) : exec (.paramWrite p a) s = s.access p a [] := rfl

theorem Register.ofWord_param (i : Fin 6) : Register.ofWord (8 + i.val) = .param i := by decide +revert

theorem Port.writeParam_of_idle {q : Port} (hidle : q.unit.state = .idle) (i : Fin 6) (size : Size) (high : Bool)
    (data : Word) :
    (q.writeParam i size high data).unit.params[i.val] = mergeWrite q.unit.params[i.val] size high data := by
  simp [Port.writeParam, hidle]

theorem mergeWrite_byte (old : Word) (high : Bool) (data : Word) :
    (if high then highByte (mergeWrite old .byte high data) else lowByte (mergeWrite old .byte high data)) =
      lowByte data := by
  cases high with
  | false => exact lowByte_wordOf ..
  | true => exact highByte_wordOf ..

/-- A byte write of a parameter, at its low or its high byte, while no command is PENDING. -/
theorem State.param_of_paramWrite_byte {s t : State} {p : PortId} {a : Access} {i : Fin 6} {high : Bool}
    (h : s.presents p a = true) (hidle : (s.port p).unit.state = .idle) (hsize : a.size = .byte) (hdir : a.dir = .write)
    (ha : a.addr.toNat = 0x80000 + 2 * (8 + i.val) + high.toNat) (hnext : exec (.paramWrite p a) s = .next t) :
    t.param p i = mergeWrite (s.param p i) .byte high a.data := by
  rw [exec_paramWrite, State.access_registerWrite high h hdir (by omega) ha fun _ => hsize, Register.ofWord_param,
    hsize] at hnext
  injection hnext with hnext
  rw [← hnext, State.param, State.port_served]
  exact Port.writeParam_of_idle hidle i .byte high a.data

/-! ### The statement -/

/-- Settles O19: the reads of each range, the lines a byte write ignores, and the byte it leaves in a region and in a
parameter. -/
theorem byteAccessLanes : Obligations.ByteAccessLanes := by
  unfold Obligations.ByteAccessLanes
  refine ⟨fun s p a arrivals h hsize hdir => ⟨?served, ?faulted, ?unmapped, ?register⟩, ?lines, ?region, ?param⟩
  case served =>
    intro r e hs ha hcheck hserves
    exact State.exec_dataAccess_byteRead hs h hsize hdir ha hcheck hserves
  case faulted =>
    intro cause ha hcheck
    exact ⟨_, by rw [exec_dataAccess, State.access_dataWindow h ha, State.dataAccess_of_error hcheck],
      State.response_faulted_byteRead hsize hdir _ _⟩
  case unmapped =>
    intro ha
    exact ⟨_, unmappedAccessFaulted s p a h ha, State.response_faulted_byteRead hsize hdir _ _⟩
  case register =>
    intro k high hk ha
    rw [ite_one_zero_eq_toNat] at ha
    exact ⟨_, State.access_byteRead_register h hsize hdir hk ha arrivals, by rw [State.port_served]⟩
  case lines =>
    intro s p a arrivals lines hsize hdir hlines hwaits hserves
    exact State.access_byteWrite_lines hsize hdir hlines hwaits hserves
  case region =>
    intro s t p a arrivals r e hwf h hsize hdir ha hcheck hserves hnext
    rw [exec_dataAccess, State.access_dataWindow h ha] at hnext
    rw [State.regionByte_of_dataAccess_byteWrite hwf hsize hdir hcheck hserves hnext, lowByte_eq_setWidth]
  case param =>
    intro s t p a i high h hidle hsize hdir ha hnext
    rw [ite_one_zero_eq_toNat] at ha
    have ha' : a.addr.toNat = 0x80000 + 2 * (8 + i.val) + high.toNat := by omega
    rw [State.param_of_paramWrite_byte h hidle hsize hdir ha' hnext, mergeWrite_byte, lowByte_eq_setWidth]

end Sys2Proof.Machine
end

section
/-! PROOFS. A write to EVENTS (R177): what clearing the flags leaves in the Event Block, the write of the register's two bytes,
and the statement assembled from them. -/
namespace Sys2Proof.Machine

theorem exec_eventsWrite (s : State) (p : PortId) (a : Access) : exec (.eventsWrite p a) s = s.access p a [] := rfl

theorem Register.ofWord_events : Register.ofWord 1 = .events := rfl

/-- The six event positions are the low bits of the value. -/
theorem eventBits_eq_setWidth (w : Word) : eventBits w = w.setWidth 6 :=
  (BitVec.setWidth_eq_extractLsb' (by decide)).symm

/-- Position 1 is that of FAULT (Table 12-5). -/
theorem getLsbD_eventBits_fault (w : Word) : (eventBits w).getLsbD EventKind.fault.bit = w.getLsbD 1 := by
  simp [eventBits, EventKind.bit]

/-- Whether the FAULT position is 1 decides the record and its count; the flags do not depend on it (R177, R103). -/
theorem EventBlock.clearFlags_eq (e : EventBlock) (v : BitVec 6) :
    e.clearFlags v =
      { e with
        flags := e.flags &&& ~~~v
        fault := if v.getLsbD EventKind.fault.bit then none else e.fault
        further := if v.getLsbD EventKind.fault.bit then 0 else e.further } := by
  unfold EventBlock.clearFlags
  split <;> rfl

theorem Port.writeRegister_events_low (q : Port) (size : Size) (data : Word) :
    q.writeRegister .events size false data = { q with events := q.events.clearFlags (eventBits data) } := rfl

theorem Port.writeRegister_events_high (q : Port) (size : Size) (data : Word) :
    q.writeRegister .events size true data = q := rfl

/-- Settles O15: the accesses are those of word 1 of the control window, at its low and at its high byte; neither looks at the
Command Unit. -/
theorem eventsWriteEffect : Obligations.EventsWriteEffect := by
  unfold Obligations.EventsWriteEffect
  rintro s p a q h hdir rfl
  refine ⟨fun ha => ?low, fun ha hbyte => ?high⟩
  case low =>
    rw [exec_eventsWrite, State.access_registerWrite (k := 1) false h hdir (by decide) (by rw [ha]; rfl) nofun,
      Register.ofWord_events, Port.writeRegister_events_low, EventBlock.clearFlags_eq, getLsbD_eventBits_fault,
      eventBits_eq_setWidth]
  case high =>
    rw [exec_eventsWrite, State.access_registerWrite (k := 1) true h hdir (by decide) (by rw [ha]; rfl) fun _ => hbyte,
      Register.ofWord_events, Port.writeRegister_events_high]

end Sys2Proof.Machine
end

section
/-! PROOFS. What each row of the engine can do, said once: the row's event where it can occur, the wait for its turn, or nothing;
and what one step does with the queue. -/
namespace Sys2Proof.Machine

/-! ### One step -/

/-- Settles O1: both clauses are the two ways the queue can be. -/
theorem stepRunsFrontCommand : Obligations.StepRunsFrontCommand := by
  unfold Obligations.StepRunsFrontCommand
  refine ⟨fun s c rest hqueue => ?_, fun s hempty => ?_⟩
  · rw [step, hqueue]
  · rw [step, hempty]

/-- A step idles or is the front command's event. -/
theorem step_cases {s t : State} (h : step s = .next t) :
    t = s ∨ ∃ c rest, s.pending = c :: rest ∧ exec c { s with pending := rest } = .next t := by
  cases hqueue : s.pending with
  | nil => rw [stepRunsFrontCommand.2 s hqueue] at h; exact .inl (Host.Outcome.next.inj h).symm
  | cons c rest => rw [stepRunsFrontCommand.1 s c rest hqueue] at h; exact .inr ⟨c, rest, rfl, h⟩

/-! ### Granule steps (R120, R138, R140) -/

/-- The state after a scrub step of the running job that the arbiter has taken (R120). -/
def State.scrubbed (s u : State) (level : Level) (order : Nat) (target : ScrubTarget) (span : Extent) (cursor : Nat) :
    State :=
  { u with
    array := s.array.clearGranule (span.base + cursor)
    lastServed := .engine, waits := u.waits.drop .engine
    engine :=
      let e : Engine := { s.engine with running := some ⟨level, order, .scrub target span (cursor + 1)⟩ }
      if cursor + 1 < span.length then e.boundary else e }

theorem execScrubStep_cases {s t : State} {arrivals : List Claim} (h : execScrubStep arrivals s = .next t) :
    t = s ∨ (t = s.arriveAll (.engine :: arrivals) ∧ (s.arriveAll (.engine :: arrivals)).serves .engine = false) ∨
    ∃ level order target span cursor, s.engine.running = some ⟨level, order, .scrub target span cursor⟩ ∧
      cursor < span.length ∧ (s.arriveAll (.engine :: arrivals)).serves .engine = true ∧
      span.base + cursor < Config.granules ∧
      t = s.scrubbed (s.arriveAll (.engine :: arrivals)) level order target span cursor := by
  unfold execScrubStep at h
  split at h
  · next level order target span cursor hrun =>
    split at h
    · next hcursor =>
      dsimp only at h
      split at h
      · next hserves =>
        split at h
        · next hin => exact .inr (.inr ⟨level, order, target, span, cursor, hrun, hcursor, hserves, hin, (Host.Outcome.next.inj h).symm⟩)
        · cases h
      · next hturn => exact .inr (.inl ⟨(Host.Outcome.next.inj h).symm, by simpa using hturn⟩)
    · exact .inl (Host.Outcome.next.inj h).symm
  · exact .inl (Host.Outcome.next.inj h).symm

/-- The state after a copy step of the running job that the arbiter has taken (R138). -/
def State.copied (s u : State) (m : Move) (v : MoveRecord) : State :=
  { u.modifyRegion m.subject fun x => { x with move := some { v with cursor := v.cursor + 1 } } with
    array := s.array.copyGranule (m.source + v.cursor) (m.extent.base + v.cursor)
    lastServed := .engine, waits := u.waits.drop .engine, engine := s.engine.boundary }

theorem execCopyStep_cases {s t : State} {arrivals : List Claim} (h : execCopyStep arrivals s = .next t) :
    t = s ∨ (t = s.arriveAll (.engine :: arrivals) ∧ (s.arriveAll (.engine :: arrivals)).serves .engine = false) ∨
    ∃ level order c m v, s.engine.running = some ⟨level, order, .compaction c⟩ ∧ c.phase = .copy m ∧
      (s.region m.subject).move = some v ∧ v.cursor < m.length ∧
      (s.arriveAll (.engine :: arrivals)).serves .engine = true ∧ m.source + v.cursor < Config.granules ∧
      m.extent.base + v.cursor < Config.granules ∧ t = s.copied (s.arriveAll (.engine :: arrivals)) m v := by
  unfold execCopyStep at h
  split at h
  · next level order issuer halt point m moved granules hrun =>
    split at h
    · next v hv =>
      split at h
      · next hcursor =>
        dsimp only at h
        split at h
        · next hserves =>
          split at h
          · next hin =>
            refine .inr (.inr ⟨level, order, _, m, v, hrun, rfl, hv, hcursor, hserves, hin.1, hin.2, ?_⟩)
            rw [← Host.Outcome.next.inj h, State.copied, State.arriveAll_eq]
            rfl
          · cases h
        · next hturn => exact .inr (.inl ⟨(Host.Outcome.next.inj h).symm, by simpa using hturn⟩)
      · exact .inl (Host.Outcome.next.inj h).symm
    · exact .inl (Host.Outcome.next.inj h).symm
  · exact .inl (Host.Outcome.next.inj h).symm

/-- The state after a clear step of the running job that the arbiter has taken (R140). -/
def State.cleared (s u : State) (level : Level) (order : Nat) (c : Compaction) (m : Move) (vacated dirty : Extent)
    (cursor : Nat) : State :=
  { u with
    array := s.array.clearGranule (dirty.base + cursor)
    lastServed := .engine, waits := u.waits.drop .engine
    engine := (s.engine.setRunning level order { c with phase := .clear m vacated dirty (cursor + 1) }).boundary }

theorem execClearStep_cases {s t : State} {arrivals : List Claim} (h : execClearStep arrivals s = .next t) :
    t = s ∨ (t = s.arriveAll (.engine :: arrivals) ∧ (s.arriveAll (.engine :: arrivals)).serves .engine = false) ∨
    ∃ level order c m vacated dirty cursor, s.engine.running = some ⟨level, order, .compaction c⟩ ∧
      c.phase = .clear m vacated dirty cursor ∧ cursor < dirty.length ∧
      (s.arriveAll (.engine :: arrivals)).serves .engine = true ∧ dirty.base + cursor < Config.granules ∧
      t = s.cleared (s.arriveAll (.engine :: arrivals)) level order c m vacated dirty cursor := by
  unfold execClearStep at h
  split at h
  · next level order c hrun =>
    split at h
    · next m vacated dirty cursor hphase =>
      split at h
      · next hcursor =>
        dsimp only at h
        split at h
        · next hserves =>
          split at h
          · next hin =>
            exact .inr (.inr ⟨level, order, c, m, vacated, dirty, cursor, hrun, hphase, hcursor, hserves, hin, (Host.Outcome.next.inj h).symm⟩)
          · cases h
        · next hturn => exact .inr (.inl ⟨(Host.Outcome.next.inj h).symm, by simpa using hturn⟩)
      · exact .inl (Host.Outcome.next.inj h).symm
    · exact .inl (Host.Outcome.next.inj h).symm
  · exact .inl (Host.Outcome.next.inj h).symm

/-! ### Completions (R124, R125, R135, R139, R141) -/

theorem execRegionScrubEnd_cases {s t : State} (h : execRegionScrubEnd s = .next t) :
    t = s ∨ ∃ level order r span cursor, s.engine.running = some ⟨level, order, .scrub (.region r) span cursor⟩ ∧
      span.length ≤ cursor ∧ s.completionTurn = true ∧
      t = ((s.setRegion r (Region.cleared (s.region r).generation)).withFree
        ⟨(s.region r).base, (s.region r).length⟩).noteCompletion.endRunning := by
  unfold execRegionScrubEnd at h
  split at h
  · next level order r span cursor hrun =>
    split at h
    · next hend =>
      refine .inr ⟨level, order, r, span, cursor, hrun, hend.1, hend.2, ?_⟩
      rw [← Host.Outcome.next.inj h, State.returnExtent_eq]
    · exact .inl (Host.Outcome.next.inj h).symm
  · exact .inl (Host.Outcome.next.inj h).symm

theorem execBootScrubEnd_cases {s t : State} (h : execBootScrubEnd s = .next t) :
    t = s ∨ ∃ level order k span cursor, s.engine.running = some ⟨level, order, .scrub (.boot k) span cursor⟩ ∧
      span.length ≤ cursor ∧ s.completionTurn = true ∧ t = (s.withFree span).noteCompletion.endRunning := by
  unfold execBootScrubEnd at h
  split at h
  · next level order k span cursor hrun =>
    split at h
    · next hend =>
      refine .inr ⟨level, order, k, span, cursor, hrun, hend.1, hend.2, ?_⟩
      rw [← Host.Outcome.next.inj h, State.returnExtent_eq]
    · exact .inl (Host.Outcome.next.inj h).symm
  · exact .inl (Host.Outcome.next.inj h).symm

theorem execRoundTest_cases {s t : State} (h : execRoundTest s = .next t) :
    t = s ∨ ∃ level order c, s.engine.running = some ⟨level, order, .compaction c⟩ ∧ c.phase = .scan ∧
      s.completionTurn = true ∧ t = (s.roundTest level order c).noteCompletion := by
  unfold execRoundTest at h
  split at h
  · next level order c hrun =>
    split at h
    · next hend => exact .inr ⟨level, order, c, hrun, hend.1, hend.2, (Host.Outcome.next.inj h).symm⟩
    · exact .inl (Host.Outcome.next.inj h).symm
  · exact .inl (Host.Outcome.next.inj h).symm

/-- Everything a round test does (R135). -/
theorem State.roundTest_cases (s : State) (level : Level) (order : Nat) (c : Compaction) :
    (∃ ending, s.roundTest level order c = s.endCompaction c ending) ∨
    (∃ f ∈ s.freeList, c.scanPoint ≤ f.base ∧ (s.roundTest level order c = s.passBy level order c f ∨
      ∃ r, (s.region r).base = f.stop ∧ (s.region r).mayMove = true ∧
        s.roundTest level order c = s.startMove level order c f r)) := by
  unfold State.roundTest
  split
  · exact .inl ⟨_, rfl⟩
  · cases hfree : nextFree s.freeList c.scanPoint with
    | none => exact .inl ⟨_, rfl⟩
    | some f =>
      refine .inr ⟨f, List.mem_of_find?_eq_some hfree, by simpa using List.find?_some hfree, ?_⟩
      dsimp only
      cases hat : s.regionAt f.stop with
      | none => exact .inl rfl
      | some r =>
        have hbase : (s.region r).state ≠ .vacant ∧ (s.region r).base = f.stop := by simpa using List.find?_some hat
        dsimp only
        by_cases hmove : (s.region r).mayMove = true
        · exact .inr ⟨r, hbase.2, hmove, if_pos hmove⟩
        · exact .inl (if_neg hmove)

/-- The state after the end of COPY of the running job (R139). -/
def State.copyEnded (s : State) (level : Level) (order : Nat) (c : Compaction) (m : Move) (dest : Nat) : State :=
  ((s.modifyRegion m.subject fun x => { x with base := dest, move := none }).withEngine fun e =>
    (e.setRunning level order { c with phase := .clear m m.vacated m.dirty 0 }).boundary).noteCompletion

theorem execCopyEnd_cases {s t : State} (h : execCopyEnd s = .next t) :
    t = s ∨ ∃ level order c m v, s.engine.running = some ⟨level, order, .compaction c⟩ ∧ c.phase = .copy m ∧
      (s.region m.subject).move = some v ∧ m.length ≤ v.cursor ∧ s.completionTurn = true ∧
      t = s.copyEnded level order c m v.dest := by
  unfold execCopyEnd at h
  split at h
  · next level order c hrun =>
    split at h
    · next m hphase =>
      split at h
      · next v hv =>
        split at h
        · next hend => exact .inr ⟨level, order, c, m, v, hrun, hphase, hv, hend.1, hend.2, (Host.Outcome.next.inj h).symm⟩
        · exact .inl (Host.Outcome.next.inj h).symm
      · exact .inl (Host.Outcome.next.inj h).symm
    · exact .inl (Host.Outcome.next.inj h).symm
  · exact .inl (Host.Outcome.next.inj h).symm

theorem execClearEnd_cases {s t : State} (h : execClearEnd s = .next t) :
    t = s ∨ ∃ level order c m vacated dirty cursor, s.engine.running = some ⟨level, order, .compaction c⟩ ∧
      c.phase = .clear m vacated dirty cursor ∧ dirty.length ≤ cursor ∧ s.completionTurn = true ∧
      t = ((s.withFree vacated).withEngine fun e => (e.setRunning level order (c.countMove m)).boundary).noteCompletion := by
  unfold execClearEnd at h
  split at h
  · next level order c hrun =>
    split at h
    · next m vacated dirty cursor hphase =>
      split at h
      · next hend =>
        refine .inr ⟨level, order, c, m, vacated, dirty, cursor, hrun, hphase, hend.1, hend.2, ?_⟩
        rw [← Host.Outcome.next.inj h, State.returnExtent_eq]
      · exact .inl (Host.Outcome.next.inj h).symm
    · exact .inl (Host.Outcome.next.inj h).symm
  · exact .inl (Host.Outcome.next.inj h).symm

end Sys2Proof.Machine
end

section
/-! PROOFS. What the body of each command can answer, said once: a refusal that changes nothing, or the effect with the checks
that let it through. -/
namespace Sys2Proof.Machine

@[simp] theorem refuse_state (s : State) (c : Code) : (refuse s c).state = s := rfl
@[simp] theorem accept_state (s : State) (values : List Word) : (accept s values).state = s := rfl

/-- What the checks of R15 leave of a CREATE: its length, its quota, its name, its record, its place and its slot. -/
structure State.CreateChecks (s : State) (p : PortId) (r : RegionId) (base : Nat) (rest : List Extent)
    (target : Option SlotIndex) : Prop where
  length_pos : 1 ≤ (s.param p 0).toNat
  length_le : (s.param p 0).toNat ≤ Config.maxLength
  name : s.param p 1 ≠ 0 → s.lookupName (s.param p 1) = none ∧ s.directory.length < Config.maxNames
  record : s.lowestVacant = some r
  place : firstFit s.freeList (s.param p 0).toNat = some (base, rest)
  slot : ∀ i ∈ target, ((s.port p).slot i).isBound = false

theorem createPlaced_cases (s : State) (p : PortId) (target : Option SlotIndex) (hpos : 1 ≤ (s.param p 0).toNat)
    (hle : (s.param p 0).toNat ≤ Config.maxLength) (hslot : ∀ i ∈ target, ((s.port p).slot i).isBound = false) :
    (createPlaced s p target).state = s ∨ (createPlaced s p target).state = s.watchFor p ∨
    ∃ r base rest, s.CreateChecks p r base rest target ∧
      (createPlaced s p target).state = s.createRegion p r base rest target := by
  unfold createPlaced
  dsimp only
  split
  · exact .inl rfl
  · split
    · exact .inl rfl
    · next htaken =>
      split
      · exact .inl rfl
      · next hfull =>
        cases hrecord : s.lowestVacant with
        | none => exact .inl rfl
        | some r =>
          dsimp only
          split
          · exact .inr (.inl rfl)
          · cases hplace : firstFit s.freeList (s.param p 0).toNat with
            | none => exact .inr (.inl rfl)
            | some place =>
              obtain ⟨base, rest⟩ := place
              refine .inr (.inr ⟨r, base, rest, ⟨hpos, hle, fun hname => ⟨?_, ?_⟩, hrecord, hplace, hslot⟩, rfl⟩)
              · by_contra hfound
                exact htaken ⟨hname, Option.isSome_iff_ne_none.mpr hfound⟩
              · by_contra hlength
                exact hfull ⟨hname, Nat.le_of_not_lt hlength⟩

/-- The watch is set only where the length asked is one a region can have (R38). -/
theorem createBody_cases (s : State) (p : PortId) :
    (createBody s p).state = s ∨
    ((createBody s p).state = s.watchFor p ∧ 1 ≤ (s.param p 0).toNat ∧ (s.param p 0).toNat ≤ Config.maxLength) ∨
    ∃ r base rest target, s.CreateChecks p r base rest target ∧
      (createBody s p).state = s.createRegion p r base rest target := by
  unfold createBody
  dsimp only
  split
  · exact .inl rfl
  · next hlength =>
    have hpos : 1 ≤ (s.param p 0).toNat := by omega
    have hle : (s.param p 0).toNat ≤ Config.maxLength := by omega
    have hplaced : ∀ target : Option SlotIndex, (∀ i ∈ target, ((s.port p).slot i).isBound = false) →
        (createPlaced s p target).state = s ∨
        ((createPlaced s p target).state = s.watchFor p ∧ 1 ≤ (s.param p 0).toNat ∧
          (s.param p 0).toNat ≤ Config.maxLength) ∨
        ∃ r base rest target', s.CreateChecks p r base rest target' ∧
          (createPlaced s p target).state = s.createRegion p r base rest target' := fun target hslot => by
      rcases createPlaced_cases s p target hpos hle hslot with h | h | ⟨r, base, rest, h⟩
      · exact .inl h
      · exact .inr (.inl ⟨h, hpos, hle⟩)
      · exact .inr (.inr ⟨r, base, rest, target, h⟩)
    split
    · cases createTarget (s.param p 3) with
      | none => exact .inl rfl
      | some i =>
        dsimp only
        split
        · exact .inl rfl
        · next hbound => exact hplaced (some i) fun j hj => by cases hj; simpa using hbound
    · exact hplaced none nofun

theorem openBody_cases (s : State) (p : PortId) :
    (openBody s p).state = s ∨
    ∃ i rights r, rightsWanted (s.param p 3) = some rights ∧ ((s.port p).slot i).isBound = false ∧
      (s.region r).state = .live ∧ rightsCover ((s.region r).bindable p) rights = true ∧
      (openBody s p).state = s.bindSlot p i r rights (s.param p 5) := by
  unfold openBody
  split
  · next i rights hi hrights =>
    split
    · exact .inl rfl
    · next hbound =>
      split
      · exact .inl rfl
      · next r hr =>
        dsimp only
        split
        · exact .inl rfl
        · next hlive =>
          split
          · exact .inl rfl
          · next hcover =>
            split
            · exact .inl rfl
            · exact .inr ⟨i, rights, r, hrights, by simpa using hbound, by simpa using hlive, by simpa using hcover, rfl⟩
  · exact .inl rfl

theorem closeBody_cases (s : State) (p : PortId) :
    (closeBody s p).state = s ∨
    (∃ i r rights origin, (s.port p).slot i = .bound r rights origin ∧ (closeBody s p).state = s.closeBound p i r) ∨
    ∃ i r cause, (s.port p).slot i = .lapsed r cause ∧
      (closeBody s p).state = s.modifyPort p fun q => q.setSlot i .empty := by
  unfold closeBody
  cases htarget : targetSlot (s.param p 0) with
  | none => exact .inl rfl
  | some i =>
    dsimp only
    cases hslot : (s.port p).slot i with
    | empty => exact .inl rfl
    | bound r rights origin => exact .inr (.inl ⟨i, r, rights, origin, hslot, rfl⟩)
    | lapsed r cause => exact .inr (.inr ⟨i, r, cause, hslot, rfl⟩)

theorem grantBody_cases (s : State) (p : PortId) :
    (grantBody s p).state = s ∨
    ∃ g r asked, g ≠ p ∧ (s.region r).owner = p ∧ (s.region r).state = .live ∧
      (grantBody s p).state = (s.grantCase r g ((s.region r).grants.get g) asked).1 := by
  unfold grantBody
  split
  · next g asked hg hasked =>
    split
    · exact .inl rfl
    · next hother =>
      split
      · exact .inl rfl
      · next r hr =>
        dsimp only
        split
        · exact .inl rfl
        · next howner =>
          split
          · exact .inl rfl
          · next hlive => exact .inr ⟨g, r, asked, hother, by simpa using howner, by simpa using hlive, rfl⟩
  · exact .inl rfl

/-- The rows of Table 5-1. -/
theorem State.grantCase_cases (s : State) (r : RegionId) (g : PortId) (previous asked : Option Rights) :
    (previous = some .readWrite ∧ asked = some .read ∧
      (s.grantCase r g previous asked).1 = (s.setGrant r g asked).narrowSlots g r) ∨
    (previous ≠ none ∧ asked = none ∧ (s.grantCase r g previous asked).1 = (s.setGrant r g none).revokeSlots g r) ∨
    ((previous = none ∨ rightsCover asked (previous.getD .read) = true) ∧
      (s.grantCase r g previous asked).1 = s.setGrant r g asked) := by
  rcases previous with _ | _ | _
  · exact .inr (.inr ⟨.inl rfl, by rcases asked with _ | _ | _ <;> rfl⟩)
  · rcases asked with _ | _ | _
    · exact .inr (.inl ⟨nofun, rfl, rfl⟩)
    · exact .inr (.inr ⟨.inr rfl, rfl⟩)
    · exact .inr (.inr ⟨.inr rfl, rfl⟩)
  · rcases asked with _ | _ | _
    · exact .inr (.inl ⟨nofun, rfl, rfl⟩)
    · exact .inl ⟨rfl, rfl, rfl⟩
    · exact .inr (.inr ⟨.inr rfl, rfl⟩)

theorem retireBody_cases (s : State) (p : PortId) :
    (retireBody s p).state = s ∨
    ∃ r, s.resolveParams p = .ok r ∧ (s.region r).state ≠ .scrubbing ∧
      (((s.region r).state ≠ .draining ∧ (retireBody s p).state = s.retireGentle p r) ∨
        (retireBody s p).state = s.retireForce p r) := by
  unfold retireBody
  dsimp only
  split
  · exact .inl rfl
  · split
    · exact .inl rfl
    · next r hr =>
      split
      · exact .inl rfl
      · split
        · exact .inl rfl
        · next hstate =>
          simp only [not_or, not_and] at hstate
          split
          · next hmode => exact .inr ⟨r, hr, hstate.1, .inl ⟨hstate.2 hmode, rfl⟩⟩
          · exact .inr ⟨r, hr, hstate.1, .inr rfl⟩

theorem inquireBody_state (s : State) (p : PortId) : (inquireBody s p).state = s := by
  unfold inquireBody
  cases s.resolveParams p <;> rfl

/-- The COMPACTION job's state as COMPACT makes it (R133). -/
def Compaction.fresh (p : PortId) : Compaction :=
  { issuer := some p, halt := false, scanPoint := 0, phase := .scan, regionsMoved := 0, granulesMoved := 0 }

theorem compactBody_cases (s : State) (p : PortId) :
    (compactBody s p).state = s ∨
    (s.engine.compaction? = none ∧ (compactBody s p).state =
      s.withEngine fun e => (e.make (s.port p).level (.compaction (Compaction.fresh p))).choose) := by
  unfold compactBody
  cases hjob : s.engine.compaction? with
  | some c => exact .inl rfl
  | none => exact .inr ⟨rfl, rfl⟩

/-- The compaction state with its halt requested (R144). -/
def Compaction.halting (c : Compaction) : Compaction := { c with halt := true }

theorem haltBody_cases (s : State) (p : PortId) :
    (haltBody s p).state = s ∨ (haltBody s p).state = s.withEngine fun e => e.withCompaction Compaction.halting := by
  unfold haltBody
  cases s.engine.compaction? with
  | none => exact .inl rfl
  | some c =>
    dsimp only
    split
    · exact .inl rfl
    · exact .inr rfl

theorem setPortBody_cases (s : State) (p : PortId) :
    (setPortBody s p).state = s ∨
    ∃ x level, (s.param p 2).toNat ≤ Config.maxQuota ∧ (setPortBody s p).state =
      s.modifyPort x fun q => { q with level := level, quota := (s.param p 2).toNat } := by
  unfold setPortBody
  split
  · exact .inl rfl
  · split
    · next x level hx hlevel =>
      dsimp only
      split
      · exact .inl rfl
      · next hquota => exact .inr ⟨x, level, Nat.le_of_not_lt hquota, rfl⟩
    · exact .inl rfl

theorem resetPortBody_cases (s : State) (p : PortId) :
    (resetPortBody s p).state = s ∨ ∃ x, p = .p0 ∧ x ≠ .p0 ∧ (resetPortBody s p).state = s.portReset x := by
  unfold resetPortBody
  split
  · exact .inl rfl
  · next hp0 =>
    cases portNamed (s.param p 0) with
    | none => exact .inl rfl
    | some x =>
      dsimp only
      split
      · exact .inl rfl
      · next hx => exact .inr ⟨x, by simpa using hp0, hx, rfl⟩

/-! ### Table Controller operations leave the array and the arbiter alone -/

/-- A field that each step of a fold keeps is kept by the fold. -/
theorem foldl_keeps {β : Type} (field : State → β) {f : State → RegionId → State}
    (h : ∀ t r, field (f t r) = field t) (l : List RegionId) (s : State) : field (l.foldl f s) = field s := by
  induction l generalizing s with
  | nil => rfl
  | cons r l ih => rw [List.foldl_cons, ih, h]

@[simp] theorem State.unbindPort_array (s : State) (x : PortId) : (s.unbindPort x).array = s.array := by
  refine (foldl_keeps State.array (fun t r => ?_) _ _).trans ?_
  · rw [State.enterScrubbing_array]
  · rw [State.modifyPort_array, State.mapRegions_array]

@[simp] theorem State.retireOwned_array (s : State) (x : PortId) : (s.retireOwned x).array = s.array :=
  foldl_keeps State.array (fun t r => by rw [State.enterScrubbing_array, State.lapseAll_array]) _ _

theorem State.portReset_array (s : State) (x : PortId) : (s.portReset x).array = s.array := by
  simp [State.portReset, State.resetIssuer, State.resetEvents, State.dropGrants, State.resetUnit]

@[simp] theorem State.watchFor_array (s : State) (p : PortId) : (s.watchFor p).array = s.array := by
  unfold State.watchFor; split <;> rfl

@[simp] theorem State.createRegion_array (s : State) (p : PortId) (r : RegionId) (base : Nat) (rest : List Extent)
    (target : Option SlotIndex) : (s.createRegion p r base rest target).array = s.array := rfl

@[simp] theorem State.bindSlot_array (s : State) (p : PortId) (i : SlotIndex) (r : RegionId) (rights : Rights)
    (origin : Word) : (s.bindSlot p i r rights origin).array = s.array := rfl

@[simp] theorem State.closeBound_array (s : State) (p : PortId) (i : SlotIndex) (r : RegionId) :
    (s.closeBound p i r).array = s.array := by
  unfold State.closeBound
  dsimp only
  split <;> rfl

@[simp] theorem State.grantCase_array (s : State) (r : RegionId) (g : PortId) (previous asked : Option Rights) :
    (s.grantCase r g previous asked).1.array = s.array := by
  rcases s.grantCase_cases r g previous asked with ⟨-, -, h⟩ | ⟨-, -, h⟩ | ⟨-, h⟩ <;> rw [h] <;> rfl

@[simp] theorem State.retireGentle_array (s : State) (p : PortId) (r : RegionId) :
    (s.retireGentle p r).array = s.array := by
  unfold State.retireGentle
  dsimp only
  split <;> rfl

@[simp] theorem State.retireForce_array (s : State) (p : PortId) (r : RegionId) :
    (s.retireForce p r).array = s.array := rfl

/-- A take leaves the array as it was, whatever its command. -/
theorem State.takeCommand_array {s t : State} {p : PortId} {code : Word → Bool} {body : State → PortId → Answer}
    (hbody : ∀ s p, (body s p).state.array = s.array) (h : s.takeCommand p code body = .next t) : t.array = s.array := by
  rcases State.takeCommand_cases h with rfl | ⟨-, -, rfl⟩
  · rfl
  · rw [State.answered_array, hbody]

theorem createBody_array (s : State) (p : PortId) : (createBody s p).state.array = s.array := by
  rcases createBody_cases s p with h | ⟨h, -⟩ | ⟨r, base, rest, target, -, h⟩ <;> simp [h]

theorem openBody_array (s : State) (p : PortId) : (openBody s p).state.array = s.array := by
  rcases openBody_cases s p with h | ⟨i, rights, r, -, -, -, -, h⟩ <;> simp [h]

theorem closeBody_array (s : State) (p : PortId) : (closeBody s p).state.array = s.array := by
  rcases closeBody_cases s p with h | ⟨i, r, rights, origin, -, h⟩ | ⟨i, r, cause, -, h⟩ <;> simp [h]

theorem grantBody_array (s : State) (p : PortId) : (grantBody s p).state.array = s.array := by
  rcases grantBody_cases s p with h | ⟨g, r, asked, -, -, -, h⟩ <;> simp [h]

theorem retireBody_array (s : State) (p : PortId) : (retireBody s p).state.array = s.array := by
  rcases retireBody_cases s p with h | ⟨r, -, -, ⟨-, h⟩ | h⟩ <;> simp [h]

theorem compactBody_array (s : State) (p : PortId) : (compactBody s p).state.array = s.array := by
  rcases compactBody_cases s p with h | ⟨-, h⟩ <;> simp [h]

theorem haltBody_array (s : State) (p : PortId) : (haltBody s p).state.array = s.array := by
  rcases haltBody_cases s p with h | h <;> simp [h]

theorem setPortBody_array (s : State) (p : PortId) : (setPortBody s p).state.array = s.array := by
  rcases setPortBody_cases s p with h | ⟨x, level, -, h⟩ <;> simp [h]

theorem resetPortBody_array (s : State) (p : PortId) : (resetPortBody s p).state.array = s.array := by
  rcases resetPortBody_cases s p with h | ⟨x, -, -, h⟩ <;> simp [h, State.portReset_array]

end Sys2Proof.Machine
end

section
/-! PROOFS. The canonical form of the array (log 5): only five kinds of event write the array, and each write keeps the form. -/
namespace Sys2Proof.Machine

/-! ### What an access does to the array -/

/-- The array after a served access: one byte, two bytes or none (R87, R99). -/
theorem State.serve_array (s : State) (p : PortId) (a : Access) (y : Region) (e : Nat) :
    (s.serve p a y e).array =
      match a.dir, a.size with
      | .read, _ => s.array
      | .write, .byte => s.array.write (y.locate e) (lowByte a.data)
      | .write, .word => (s.array.write (y.locate e) (lowByte a.data)).write (y.locate (e + 1)) (highByte a.data) := by
  unfold State.serve
  cases a.dir <;> cases a.size <;> rfl

@[simp] theorem State.served_array (s : State) (p : PortId) (q : Port) (d : Option ReadData) :
    (s.served p q d).array = s.array := rfl

@[simp] theorem State.faulted_array (s : State) (p : PortId) (a : Access) (cause : FaultCause) (place : FaultPlace) :
    (s.faulted p a cause place).array = s.array := rfl

@[simp] theorem State.controlAccess_array (s : State) (p : PortId) (a : Access) (r : Register) (high : Bool) :
    (s.controlAccess p a r high).array = s.array := by
  rw [State.controlAccess_eq]
  cases a.dir <;> rfl

/-- An access leaves the array, or is a data access that is served inside the array. -/
theorem State.access_array_cases {s t : State} {p : PortId} {a : Access} {arrivals : List Claim}
    (h : s.access p a arrivals = .next t) :
    t.array = s.array ∨ ∃ r e, s.checkAccess p a = .ok (r, e) ∧ (s.region r).lastByte a e < Config.arrayBytes ∧
      t = (s.arriveAll (.port p a :: arrivals)).serve p a (s.region r) e := by
  rcases State.access_cases h with ⟨-, rfl⟩ | ⟨-, ⟨-, hdata⟩ | ⟨r, high, -, rfl⟩ | ⟨-, rfl⟩ | ⟨-, rfl⟩⟩
  · exact .inl rfl
  · rcases State.dataAccess_cases hdata with ⟨cause, -, rfl⟩ | ⟨r, e, hcheck, -, hin, ht⟩ | ⟨rfl, -⟩
    · exact .inl rfl
    · exact .inr ⟨r, e, hcheck, hin, ht⟩
    · exact .inl (State.arriveAll_array ..)
  · exact .inl (State.controlAccess_array ..)
  · exact .inl rfl
  · exact .inl rfl

/-- A served access writes inside the array, so the form is kept. -/
theorem State.access_keeps_wf {s t : State} {p : PortId} {a : Access} {arrivals : List Claim} (hwf : s.array.wf)
    (h : s.access p a arrivals = .next t) : t.array.wf := by
  rcases State.access_array_cases h with harray | ⟨r, e, -, hin, rfl⟩
  · rwa [harray]
  · rw [State.serve_array, State.arriveAll_array]
    rw [Region.lastByte, Nat.max_lt] at hin
    cases hdir : a.dir with
    | read => exact hwf
    | write =>
      cases hsize : a.size with
      | byte => exact Memory.wf_write _ _ hin.1 hwf
      | word =>
        have hsecond : (s.region r).locate (e + 1) < Config.arrayBytes := by
          rw [hsize] at hin; exact hin.2
        exact Memory.wf_write _ _ hsecond (Memory.wf_write _ _ hin.1 hwf)

/-! ### Rows that leave the array -/

@[simp] theorem State.endRunning_array (s : State) : s.endRunning.array = s.array := rfl

@[simp] theorem State.endCompaction_array (s : State) (c : Compaction) (ending : Ending) :
    (s.endCompaction c ending).array = s.array := by
  unfold State.endCompaction
  cases c.issuer <;> rfl

@[simp] theorem State.roundTest_array (s : State) (level : Level) (order : Nat) (c : Compaction) :
    (s.roundTest level order c).array = s.array := by
  rcases s.roundTest_cases level order c with ⟨ending, h⟩ | ⟨f, -, -, h | ⟨r, -, -, h⟩⟩
  · rw [h, State.endCompaction_array]
  · rw [h]; rfl
  · rw [h]; rfl

/-- Every event but a device reset keeps the form; a device reset makes an array in it. -/
theorem exec_keeps_wf {s t : State} {c : Instr} (hwf : s.array.wf) (h : exec c s = .next t) : t.array.wf := by
  have of_take : ∀ {p code body}, (∀ s p, (body s p : Answer).state.array = s.array) →
      s.takeCommand p code body = .next t → t.array.wf := fun hbody h => by
    rw [State.takeCommand_array hbody h]; exact hwf
  cases c with
  | deviceReset => rw [← Host.Outcome.next.inj h]; exact Memory.wf_ofBytes _
  | portResetInputAssert p =>
    change execPortResetInputAssert p s = _ at h
    unfold execPortResetInputAssert at h
    split at h <;> rw [← Host.Outcome.next.inj h]
    · exact hwf
    · rw [State.portReset_array]; exact hwf
  | portResetInputRelease p => rw [← Host.Outcome.next.inj h]; exact hwf
  | heldAccessDiscard p a => exact State.access_keeps_wf hwf h
  | dataAccess p a arrivals => exact State.access_keeps_wf hwf h
  | unmappedAccess p a => exact State.access_keeps_wf hwf h
  | commandWrite p a => exact State.access_keeps_wf hwf h
  | paramWrite p a => exact State.access_keeps_wf hwf h
  | bankWrite p a => exact State.access_keeps_wf hwf h
  | eventsWrite p a => exact State.access_keeps_wf hwf h
  | eventEnableWrite p a => exact State.access_keeps_wf hwf h
  | ignoredWrite p a => exact State.access_keeps_wf hwf h
  | controlMisalignedRead p a => exact State.access_keeps_wf hwf h
  | takeCreate p => exact of_take createBody_array h
  | takeOpen p => exact of_take openBody_array h
  | takeClose p => exact of_take closeBody_array h
  | takeGrant p => exact of_take grantBody_array h
  | takeRetire p => exact of_take retireBody_array h
  | takeInquire p => exact of_take (fun s p => by rw [inquireBody_state]) h
  | takeCompact p => exact of_take compactBody_array h
  | takeHalt p => exact of_take haltBody_array h
  | takeSetPort p => exact of_take setPortBody_array h
  | takeResetPort p => exact of_take resetPortBody_array h
  | takeUnknown p => exact of_take (fun s p => rfl) h
  | scrubStep arrivals =>
    rcases execScrubStep_cases h with rfl | ⟨rfl, -⟩ | ⟨level, order, target, span, cursor, -, -, -, -, rfl⟩
    · exact hwf
    · rw [State.arriveAll_array]; exact hwf
    · exact Memory.wf_clearGranule _ hwf
  | regionScrubEnd =>
    rcases execRegionScrubEnd_cases h with rfl | ⟨level, order, r, span, cursor, -, -, -, rfl⟩ <;> exact hwf
  | bootScrubEnd =>
    rcases execBootScrubEnd_cases h with rfl | ⟨level, order, k, span, cursor, -, -, -, rfl⟩ <;> exact hwf
  | roundTest =>
    rcases execRoundTest_cases h with rfl | ⟨level, order, c, -, -, -, rfl⟩
    · exact hwf
    · rw [State.noteCompletion_array, State.roundTest_array]; exact hwf
  | copyStep arrivals =>
    rcases execCopyStep_cases h with rfl | ⟨rfl, -⟩ | ⟨level, order, c, m, v, -, -, -, -, -, -, hdest, rfl⟩
    · exact hwf
    · rw [State.arriveAll_array]; exact hwf
    · exact Memory.wf_copyGranule _ _ hdest hwf
  | copyEnd =>
    rcases execCopyEnd_cases h with rfl | ⟨level, order, c, m, v, -, -, -, -, -, rfl⟩ <;> exact hwf
  | clearStep arrivals =>
    rcases execClearStep_cases h with rfl | ⟨rfl, -⟩ | ⟨level, order, c, m, vacated, dirty, cursor, -, -, -, -, -, rfl⟩
    · exact hwf
    · rw [State.arriveAll_array]; exact hwf
    · exact Memory.wf_clearGranule _ hwf
  | clearEnd =>
    rcases execClearEnd_cases h with rfl | ⟨level, order, c, m, vacated, dirty, cursor, -, -, -, -, rfl⟩ <;> exact hwf

/-- Settles O51: an idle step changes nothing, and the event of the front command keeps the form. -/
theorem stepKeepsMemoryForm : Obligations.StepKeepsMemoryForm := by
  unfold Obligations.StepKeepsMemoryForm
  intro s t hwf h
  rcases step_cases h with rfl | ⟨c, rest, -, hexec⟩
  · exact hwf
  · exact exec_keeps_wf (s := { s with pending := rest }) hwf hexec

end Sys2Proof.Machine
end

section
/-! PROOFS. Coalescing insertion (R29, Table 2-2): the neighbours that touch the extent are found at its two sides, and the new list
is the old one with them and the extent made into one. -/
namespace Sys2Proof.Machine

/-- How many of an extent's granules are `g`: 1 or 0. -/
def Extent.count (e : Extent) (g : Nat) : Nat := if e.contains g then 1 else 0

theorem Extent.count_eq (e : Extent) (g : Nat) : e.count g = if e.base ≤ g ∧ g < e.base + e.length then 1 else 0 := by
  simp only [Extent.count, Extent.contains_iff]

theorem Extent.count_eq_one_iff (e : Extent) (g : Nat) : e.count g = 1 ↔ e.contains g = true := by
  unfold Extent.count
  split <;> simp_all

theorem countP_contains_cons (e : Extent) (l : List Extent) (g : Nat) :
    (e :: l).countP (fun x => x.contains g) = e.count g + l.countP fun x => x.contains g := by
  rw [List.countP_cons, Extent.count, Nat.add_comm]

/-- Two spans that touch have the granules of the one span they make. -/
theorem Extent.count_join {x y f : Extent} (htouch : x.stop = y.base) (hbase : f.base = x.base) (hstop : f.stop = y.stop)
    (g : Nat) : f.count g = x.count g + y.count g := by
  simp only [Extent.stop] at htouch hstop
  simp only [Extent.count_eq]
  split_ifs <;> omega

/-- The entries below an extent after it has joined the last of them where they touch, and the extent they make. -/
def joinLower (below : List Extent) (e : Extent) : List Extent × Extent :=
  match below.getLast? with
  | some x => if x.stop = e.base then (below.dropLast, ⟨x.base, x.length + e.length⟩) else (below, e)
  | none => (below, e)

/-- The entries above an extent `e`, of which `f` has been made, after the first has joined it where they touch. -/
def joinUpper (above : List Extent) (e f : Extent) : List Extent × Extent :=
  match above with
  | y :: t => if e.stop = y.base then (t, ⟨f.base, f.length + y.length⟩) else (above, f)
  | [] => (above, f)

/-- Insertion joins on the lower side, then on the upper side. -/
theorem insertExtent_eq (l : List Extent) (e : Extent) :
    insertExtent l e =
      let low := joinLower (l.takeWhile fun x => x.base < e.base) e
      let high := joinUpper (l.dropWhile fun x => x.base < e.base) e low.2
      (low.1 ++ high.2 :: high.1, high.2) := rfl

/-- The side of an insertion towards the lower extents: what stays, what is joined, and where the extent formed begins. -/
structure LowerSide (below low joined : List Extent) (e : Extent) (base : Nat) : Prop where
  split : below = low ++ joined
  apart : ∀ x ∈ low, x.stop < base
  joins : (joined = [] ∧ base = e.base) ∨ ∃ x, joined = [x] ∧ x.stop = e.base ∧ base = x.base

/-- The side of an insertion towards the upper extents. -/
structure UpperSide (above high joined : List Extent) (e : Extent) (stop : Nat) : Prop where
  split : above = joined ++ high
  apart : ∀ y ∈ high, stop < y.base
  joins : (joined = [] ∧ stop = e.stop) ∨ ∃ y, joined = [y] ∧ e.stop = y.base ∧ stop = y.stop

/-- What the statements about free space ask of a list of free extents (R27). -/
abbrev Separated (l : List Extent) : Prop := l.Pairwise (fun x y => x.stop < y.base) ∧ ∀ x ∈ l, 1 ≤ x.length

/-- An insertion, with its two sides. -/
structure Inserted (l : List Extent) (e : Extent) (low lows highs high : List Extent) : Prop where
  lower : LowerSide (l.takeWhile fun x => x.base < e.base) low lows e (insertExtent l e).2.base
  upper : UpperSide (l.dropWhile fun x => x.base < e.base) high highs e (insertExtent l e).2.stop
  list : (insertExtent l e).1 = low ++ (insertExtent l e).2 :: high

section
variable {l : List Extent} {e : Extent}

theorem stop_le_of_mem_takeWhile (hfit : ∀ x ∈ l, x.stop ≤ e.base ∨ e.stop ≤ x.base) :
    ∀ x ∈ l.takeWhile (fun x => x.base < e.base), x.stop ≤ e.base := by
  intro x hx
  have hbase : x.base < e.base := by simpa using List.mem_takeWhile_imp hx
  have hside := hfit x ((List.takeWhile_sublist _).mem hx)
  simp only [Extent.stop] at *
  omega

theorem le_base_of_mem_dropWhile (hl : Separated l)
    (hfit : ∀ x ∈ l, x.stop ≤ e.base ∨ e.stop ≤ x.base) :
    ∀ y ∈ l.dropWhile (fun x => x.base < e.base), e.stop ≤ y.base := by
  have hsorted := hl.1.sublist (List.dropWhile_sublist fun x : Extent => decide (x.base < e.base))
  intro y hy
  have hmem : y ∈ l := (List.dropWhile_sublist _).mem hy
  have hfirst : e.base ≤ y.base := by
    cases habove : l.dropWhile (fun x => x.base < e.base) with
    | nil => rw [habove] at hy; cases hy
    | cons z t =>
      have hz : e.base ≤ z.base := by
        have := List.head_dropWhile_not (fun x : Extent => decide (x.base < e.base)) (l := l) (by rw [habove]; simp)
        simpa [habove] using this
      rw [habove] at hy hsorted
      rcases List.mem_cons.mp hy with rfl | hy
      · exact hz
      · have := (List.pairwise_cons.mp hsorted).1 y hy
        simp only [Extent.stop] at this
        omega
  have hside := hfit y hmem
  have hlength := hl.2 y hmem
  simp only [Extent.stop] at *
  omega

theorem lowerSide_exists (hl : Separated l) (hfit : ∀ x ∈ l, x.stop ≤ e.base ∨ e.stop ≤ x.base) :
    ∃ low joined f, LowerSide (l.takeWhile fun x => x.base < e.base) low joined e f.base ∧ f.stop = e.stop ∧
      joinLower (l.takeWhile fun x => x.base < e.base) e = (low, f) := by
  unfold joinLower
  have hsorted := hl.1.sublist (List.takeWhile_sublist fun x : Extent => decide (x.base < e.base))
  have hstop := stop_le_of_mem_takeWhile hfit
  rcases List.eq_nil_or_concat (l.takeWhile fun x => decide (x.base < e.base)) with hbelow | ⟨low, x, hbelow⟩
  · rw [hbelow]
    exact ⟨[], [], e, ⟨rfl, nofun, .inl ⟨rfl, rfl⟩⟩, rfl, rfl⟩
  · rw [List.concat_eq_append] at hbelow
    rw [hbelow] at hsorted hstop ⊢
    obtain ⟨-, -, hbefore⟩ := List.pairwise_append.mp hsorted
    simp only [List.getLast?_append, List.getLast?_singleton, Option.some_or, List.dropLast_concat]
    split
    · next htouch =>
      refine ⟨low, [x], ⟨x.base, x.length + e.length⟩,
        ⟨rfl, fun y hy => hbefore y hy x (by simp), .inr ⟨x, rfl, htouch, rfl⟩⟩, ?_, rfl⟩
      simp only [Extent.stop] at *
      omega
    · next htouch =>
      refine ⟨low ++ [x], [], e, ⟨by simp, fun y hy => ?_, .inl ⟨rfl, rfl⟩⟩, rfl, rfl⟩
      have hx := hstop x (by simp)
      rcases List.mem_append.mp hy with hy | hy
      · have := hbefore y hy x (by simp)
        simp only [Extent.stop] at *
        omega
      · rw [List.mem_singleton.mp hy]
        omega

theorem upperSide_exists (hl : Separated l)
    (hfit : ∀ x ∈ l, x.stop ≤ e.base ∨ e.stop ≤ x.base) {f : Extent} (hf : f.stop = e.stop) :
    ∃ high joined k, UpperSide (l.dropWhile fun x => x.base < e.base) high joined e k.stop ∧ k.base = f.base ∧
      joinUpper (l.dropWhile fun x => x.base < e.base) e f = (high, k) := by
  unfold joinUpper
  have hsorted := hl.1.sublist (List.dropWhile_sublist fun x : Extent => decide (x.base < e.base))
  have hbase := le_base_of_mem_dropWhile hl hfit
  have hlength : ∀ y ∈ l.dropWhile (fun x => decide (x.base < e.base)), 1 ≤ y.length :=
    fun y hy => hl.2 y ((List.dropWhile_sublist _).mem hy)
  cases habove : l.dropWhile fun x => decide (x.base < e.base) with
  | nil => exact ⟨[], [], f, ⟨rfl, nofun, .inl ⟨rfl, hf⟩⟩, rfl, rfl⟩
  | cons y t =>
    rw [habove] at hsorted hbase hlength
    obtain ⟨hafter, -⟩ := List.pairwise_cons.mp hsorted
    dsimp only
    split
    · next htouch =>
      have hstop : Extent.stop ⟨f.base, f.length + y.length⟩ = y.stop := by
        simp only [Extent.stop] at *
        omega
      exact ⟨t, [y], ⟨f.base, f.length + y.length⟩,
        ⟨rfl, fun z hz => by rw [hstop]; exact hafter z hz, .inr ⟨y, rfl, htouch, hstop⟩⟩, rfl, rfl⟩
    · next htouch =>
      refine ⟨y :: t, [], f, ⟨rfl, fun z hz => ?_, .inl ⟨rfl, hf⟩⟩, rfl, rfl⟩
      have hy := hbase y (by simp)
      have hylen := hlength y (by simp)
      rcases List.mem_cons.mp hz with rfl | hz
      · omega
      · have := hafter z hz
        simp only [Extent.stop] at *
        omega

/-- An extent that overlaps none of a list of free extents is inserted between its two sides. -/
theorem insertExtent_inserted (hl : Separated l)
    (hfit : ∀ x ∈ l, x.stop ≤ e.base ∨ e.stop ≤ x.base) : ∃ low lows highs high, Inserted l e low lows highs high := by
  obtain ⟨low, lows, f, hlower, hf, hlow⟩ := lowerSide_exists hl hfit
  obtain ⟨high, highs, k, hupper, hk, hhigh⟩ := upperSide_exists hl hfit hf
  have hins : insertExtent l e = (low ++ k :: high, k) := by
    rw [insertExtent_eq]
    simp only [hlow, hhigh]
  refine ⟨low, lows, highs, high, ?_, ?_, ?_⟩ <;> rw [hins]
  · rw [hk]; exact hlower
  · exact hupper

end

namespace Inserted

variable {l low lows highs high : List Extent} {e : Extent}

theorem split (h : Inserted l e low lows highs high) : l = low ++ lows ++ (highs ++ high) := by
  rw [← h.lower.split, ← h.upper.split, List.takeWhile_append_dropWhile]

/-- The extent formed begins at or below the one inserted. -/
theorem base_le (h : Inserted l e low lows highs high) : (insertExtent l e).2.base ≤ e.base := by
  rcases h.lower.joins with ⟨-, hbase⟩ | ⟨x, -, htouch, hbase⟩
  · exact hbase.le
  · simp only [Extent.stop] at htouch
    omega

theorem stop_le (h : Inserted l e low lows highs high) : e.stop ≤ (insertExtent l e).2.stop := by
  rcases h.upper.joins with ⟨-, hstop⟩ | ⟨y, -, htouch, hstop⟩
  · exact hstop.ge
  · rw [hstop, htouch, Extent.stop]
    omega

/-- Every entry below ends before every entry above begins. -/
theorem separated (h : Inserted l e low lows highs high) (hl : Separated l) (he : 1 ≤ e.length) :
    Separated (insertExtent l e).1 := by
  have hbase := h.base_le
  have hstop := h.stop_le
  have hsplit := h.split
  rw [h.list]
  rw [hsplit] at hl
  obtain ⟨hsorted, hlength⟩ := hl
  obtain ⟨hlows, hhighs, -⟩ := List.pairwise_append.mp hsorted
  have hbefore : ∀ x ∈ low, ∀ y ∈ high, x.stop < y.base := fun x hx y hy => by
    have hx := h.lower.apart x hx
    have hy := h.upper.apart y hy
    simp only [Extent.stop] at *
    omega
  refine ⟨List.pairwise_append.mpr ⟨(List.pairwise_append.mp hlows).1,
    List.pairwise_cons.mpr ⟨h.upper.apart, (List.pairwise_append.mp hhighs).2.1⟩, fun x hx y hy => ?_⟩, fun x hx => ?_⟩
  · rcases List.mem_cons.mp hy with rfl | hy
    · exact h.lower.apart x hx
    · exact hbefore x hx y hy
  · rcases List.mem_append.mp hx with hx | hx
    · exact hlength x (by simp [hx])
    · rcases List.mem_cons.mp hx with rfl | hx
      · simp only [Extent.stop] at *
        omega
      · exact hlength x (by simp [hx])

/-- The granules of the list grow by exactly those of the extent. -/
theorem countP (h : Inserted l e low lows highs high) (he : 1 ≤ e.length) (g : Nat) :
    (insertExtent l e).1.countP (fun x => x.contains g) = l.countP (fun x => x.contains g) + e.count g := by
  have hformed : (insertExtent l e).2.count g =
      lows.countP (fun x => x.contains g) + e.count g + highs.countP fun x => x.contains g := by
    rcases h.lower.joins with ⟨rfl, hbase⟩ | ⟨x, rfl, hxe, hbase⟩ <;>
      rcases h.upper.joins with ⟨rfl, hstop⟩ | ⟨y, rfl, hey, hstop⟩ <;>
      simp only [countP_contains_cons, List.countP_nil, Extent.count_eq, Extent.stop] at * <;> split_ifs <;> omega
  have hsplit : l.countP (fun x => x.contains g) =
      low.countP (fun x => x.contains g) + lows.countP (fun x => x.contains g) +
        (highs.countP (fun x => x.contains g) + high.countP fun x => x.contains g) := by
    conv_lhs => rw [h.split]
    simp only [List.countP_append]
  rw [h.list, hsplit, List.countP_append, countP_contains_cons, hformed]
  omega

/-- An entry that does not touch the extent stays. -/
theorem mem_of_apart (h : Inserted l e low lows highs high) {x : Extent} (hx : x ∈ l) (hlow : x.stop ≠ e.base)
    (hhigh : e.stop ≠ x.base) : x ∈ (insertExtent l e).1 := by
  rw [h.split] at hx
  rw [h.list]
  simp only [List.mem_append, List.mem_cons] at hx ⊢
  rcases hx with (hx | hx) | hx | hx
  · exact .inl hx
  · rcases h.lower.joins with ⟨rfl, -⟩ | ⟨y, rfl, htouch, -⟩
    · cases hx
    · rw [List.mem_singleton.mp hx] at hlow
      exact absurd htouch hlow
  · rcases h.upper.joins with ⟨rfl, -⟩ | ⟨y, rfl, htouch, -⟩
    · cases hx
    · rw [List.mem_singleton.mp hx] at hhigh
      exact absurd htouch hhigh
  · exact .inr (.inr hx)

end Inserted

theorem exists_contains_iff (l : List Extent) (g : Nat) :
    (∃ x ∈ l, x.contains g = true) ↔ 0 < l.countP fun x => x.contains g := List.countP_pos_iff.symm

/-- Settles O43: each clause is one of the facts about an insertion with its two sides. -/
theorem insertionCoalesces : Obligations.InsertionCoalesces := by
  unfold Obligations.InsertionCoalesces
  intro l e hsorted hlength he hfit
  obtain ⟨low, lows, highs, high, h⟩ := insertExtent_inserted ⟨hsorted, hlength⟩ hfit
  obtain ⟨hsorted', hlength'⟩ := h.separated ⟨hsorted, hlength⟩ he
  refine ⟨hsorted', hlength', by rw [h.list]; simp, h.base_le, h.stop_le, fun g => ?_, fun x hx => h.mem_of_apart hx⟩
  rw [exists_contains_iff, exists_contains_iff, h.countP he, ← Extent.count_eq_one_iff]
  have : e.count g ≤ 1 := by unfold Extent.count; split <;> decide
  omega

end Sys2Proof.Machine
end

section
/-! PROOFS. How the array is arranged: the laws about jobs, moves, free space, places and clean granules, said of a state and the
list of the tasks that its jobs have, so that an event is a change of that list. -/
namespace Sys2Proof.Machine

/-! ### Tasks -/

/-- What the laws about the array see of a job: a scrub, or the phase of the compaction; and, while an event is under way, a
clean extent that has left one place of R26 and not yet come to the next. -/
inductive Task where
  | scrub (target : ScrubTarget) (span : Extent) (cursor : Nat)
  | compaction (phase : Phase)
  | freed (span : Extent)

def Job.task (j : Job) : Task :=
  match j.work with
  | .scrub target span cursor => .scrub target span cursor
  | .compaction c => .compaction c.phase

/-- The tasks of the job set. -/
def Engine.tasks (e : Engine) : List Task := e.jobs.map Job.task

/-- The region a scrub answers for (R111). -/
def Task.region? : Task → Option RegionId
  | .scrub (.region r) _ _ => some r
  | _ => none

def Task.phase? : Task → Option Phase
  | .compaction phase => some phase
  | _ => none

/-- The region that a COPY phase moves (R132). -/
def Task.subject? : Task → Option RegionId
  | .compaction (.copy m) => some m.subject
  | _ => none

/-- The span that a task alone holds: a boot extent, a reservation or a vacated span (R26). -/
def Task.span? : Task → Option Extent
  | .scrub (.boot _) span _ => some span
  | .scrub (.region _) _ _ => none
  | .compaction .scan => none
  | .compaction (.copy m) => some m.extent
  | .compaction (.clear _ vacated _ _) => some vacated
  | .freed span => some span

/-- How many extents of a task hold granule `g`: 1 or 0. -/
def Task.count (task : Task) (g : Nat) : Nat := (task.span?.map fun e => e.count g).getD 0

/-- How many extents of a record hold granule `g`: 1 or 0. -/
def Region.count (x : Region) (g : Nat) : Nat := if x.state = .vacant then 0 else Extent.count ⟨x.base, x.length⟩ g

/-- How many records hold granule `g`. -/
def State.regionCount (s : State) (g : Nat) : Nat := ((List.finRange 128).map fun r => (s.region r).count g).sum

/-- How many free extents hold granule `g`. -/
def freeCount (l : List Extent) (g : Nat) : Nat := l.countP fun e => e.contains g

/-- The granules that a task holds clean: a scrub below its cursor, a copy above its cursor in the reservation, a clear but for
the dirty part above its cursor (R118, R186, R139). -/
def State.holdsClean (s : State) (task : Task) (g : Nat) : Prop :=
  match task with
  | .scrub _ span cursor => span.base ≤ g ∧ g < span.base + cursor
  | .compaction .scan => False
  | .compaction (.copy m) => ∃ v, (s.region m.subject).move = some v ∧ m.extent.base + v.cursor ≤ g ∧ g < m.extent.stop
  | .compaction (.clear _ vacated dirty cursor) =>
    (vacated.base ≤ g ∧ g < dirty.base) ∨ (dirty.base ≤ g ∧ g < dirty.base + cursor)
  | .freed span => span.contains g = true

/-- What the laws say of one task: it fits the region table, ends inside the array, and what it holds clean is. -/
structure State.TaskLaw (s : State) (task : Task) : Prop where
  fits : match task with
    | .scrub (.region r) span cursor => span = ⟨(s.region r).base, (s.region r).length⟩ ∧ cursor ≤ span.length
    | .scrub (.boot k) span cursor => span = ⟨256 * k.val, 256⟩ ∧ cursor ≤ span.length
    | .compaction phase => s.phaseLawful phase
    | .freed span => 1 ≤ span.length
  ends : ∀ e ∈ task.span?, e.stop ≤ 2048
  clean : ∀ a, s.holdsClean task (a / 256) → s.byteAt a = 0

/-- The array of `s`, its records and its free list are lawfully arranged for these tasks. -/
structure State.Arranged (s : State) (tasks : List Task) : Prop where
  memory : s.array.wf
  lawful : ∀ task ∈ tasks, s.TaskLaw task
  scrubs : ∀ r, (tasks.filterMap Task.region?).count r = if (s.region r).state = .scrubbing then 1 else 0
  oneCompaction : (tasks.filterMap Task.phase?).length ≤ 1
  moving : ∀ r, (s.region r).move ≠ none → r ∈ tasks.filterMap Task.subject?
  separated : Separated s.freeList
  placed : ∀ g < 2048, freeCount s.freeList g + s.regionCount g + (tasks.map fun task => task.count g).sum = 1
  freeEnds : ∀ e ∈ s.freeList, e.stop ≤ 2048
  freeClean : ∀ e ∈ s.freeList, ∀ a, e.contains (a / 256) = true → s.byteAt a = 0
  regionEnds : ∀ r, (s.region r).state ≠ .vacant → (s.region r).base + (s.region r).length ≤ 2048

theorem State.cleanSpan_iff (s : State) (low high : Nat) :
    s.cleanSpan low high ↔ ∀ a, low ≤ a / 256 → a / 256 < high → s.byteAt a = 0 := by
  unfold State.cleanSpan
  refine forall_congr' fun a => ?_
  simp only [Config.granuleBytes]
  exact ⟨fun h hlow hhigh => h (by omega) (by omega), fun h hlow hhigh => h (by omega) (by omega)⟩

theorem State.cleanSpan_extent_iff (s : State) (e : Extent) :
    s.cleanSpan e.base e.stop ↔ ∀ a, e.contains (a / 256) = true → s.byteAt a = 0 := by
  simp only [State.cleanSpan_iff, Extent.contains_iff, and_imp, Extent.stop]

/-- A phase of the compaction is clean exactly where its task holds clean granules. -/
theorem State.phaseClean_iff (s : State) (phase : Phase) :
    s.phaseClean phase ↔ ∀ a, s.holdsClean (.compaction phase) (a / 256) → s.byteAt a = 0 := by
  cases phase with
  | scan => exact ⟨fun _ _ h => h.elim, fun _ => trivial⟩
  | copy m =>
    simp only [State.phaseClean, State.holdsClean, State.cleanSpan_iff, Option.mem_def]
    exact ⟨fun h a ⟨v, hv, hlow, hhigh⟩ => h v hv a hlow hhigh, fun h v hv a hlow hhigh => h a ⟨v, hv, hlow, hhigh⟩⟩
  | clear m vacated dirty cursor =>
    simp only [State.phaseClean, State.holdsClean, State.cleanSpan_iff]
    exact ⟨fun ⟨h, h'⟩ a ha => ha.elim (fun ha => h a ha.1 ha.2) fun ha => h' a ha.1 ha.2,
      fun h => ⟨fun a hlow hhigh => h a (.inl ⟨hlow, hhigh⟩), fun a hlow hhigh => h a (.inr ⟨hlow, hhigh⟩)⟩⟩

/-! ### The tasks of the jobs -/

theorem Job.region?_task (j : Job) : j.task.region? = j.scrubRegion? := by
  obtain ⟨level, order, work⟩ := j
  rcases work with ⟨_ | _, span, cursor⟩ | c <;> rfl

theorem Job.phase?_task (j : Job) : j.task.phase? = j.compaction?.map Compaction.phase := by
  obtain ⟨level, order, work⟩ := j
  cases work <;> rfl

theorem Job.subject?_task (j : Job) : j.task.subject? = j.compaction?.bind Compaction.copySubject? := by
  obtain ⟨level, order, work⟩ := j
  rcases work with _ | ⟨issuer, halt, point, _ | _ | _, moved, granules⟩ <;> rfl

theorem Engine.filterMap_region?_tasks (e : Engine) :
    e.tasks.filterMap Task.region? = e.jobs.filterMap Job.scrubRegion? := by
  rw [Engine.tasks, List.filterMap_map]
  exact congrArg (List.filterMap · e.jobs) (funext Job.region?_task)

theorem Engine.length_phases (e : Engine) :
    (e.tasks.filterMap Task.phase?).length = (e.jobs.filterMap Job.compaction?).length := by
  have hphase : Task.phase? ∘ Job.task = fun j => j.compaction?.map Compaction.phase := funext Job.phase?_task
  rw [Engine.tasks, List.filterMap_map, hphase, ← List.map_filterMap, List.length_map]

/-- Of at most one COMPACTION job, the state in the job set is the job's own. -/
theorem Engine.compaction?_eq_some_iff {e : Engine} (h : (e.jobs.filterMap Job.compaction?).length ≤ 1) (c : Compaction) :
    e.compaction? = some c ↔ ∃ j ∈ e.jobs, j.compaction? = some c := by
  rw [Engine.compaction?, ← List.head?_filterMap, ← List.mem_filterMap]
  match hlist : e.jobs.filterMap Job.compaction?, h with
  | [], _ => simp
  | [d], _ => simp [eq_comm]

theorem Engine.mem_subjects_iff {e : Engine} (h : (e.jobs.filterMap Job.compaction?).length ≤ 1) (r : RegionId) :
    r ∈ e.tasks.filterMap Task.subject? ↔ e.compaction?.bind Compaction.copySubject? = some r := by
  simp only [Engine.tasks, List.filterMap_map, List.mem_filterMap, Function.comp, Job.subject?_task,
    Option.bind_eq_some_iff, Engine.compaction?_eq_some_iff h]
  exact ⟨fun ⟨j, hj, c, hc, hr⟩ => ⟨c, ⟨j, hj, hc⟩, hr⟩, fun ⟨c, ⟨j, hj, hc⟩, hr⟩ => ⟨j, hj, c, hc, hr⟩⟩

/-- The spans of the tasks are the compaction's span and the boot extents. -/
theorem sum_count_tasks {jobs : List Job} (h : (jobs.filterMap Job.compaction?).length ≤ 1) (g : Nat) :
    ((jobs.map Job.task).map fun task => task.count g).sum =
      ((jobs.findSome? Job.compaction?).bind Compaction.heldSpan?).toList.countP (fun e => e.contains g) +
        (jobs.filterMap Job.bootSpan?).countP fun e => e.contains g := by
  induction jobs with
  | nil => rfl
  | cons j jobs ih =>
    obtain ⟨level, order, work⟩ := j
    rw [List.map_cons, List.map_cons, List.sum_cons]
    rcases work with ⟨target, span, cursor⟩ | c
    · rw [ih h]
      rcases target with r | k
      · exact Nat.zero_add _
      · show span.count g + (_ + _) = _ + (span :: _).countP _
        rw [countP_contains_cons]
        exact Nat.add_left_comm ..
    · have htail : jobs.filterMap Job.compaction? = [] := List.length_eq_zero_iff.mp (Nat.le_zero.mp (Nat.le_of_succ_le_succ h))
      have hnone : jobs.findSome? Job.compaction? = none := by rw [← List.head?_filterMap, htail]; rfl
      rw [ih (by rw [htail]; exact Nat.zero_le _), hnone]
      show Task.count (.compaction c.phase) g + (0 + _) = _ + _
      rw [Nat.zero_add]
      congr 1
      show (Option.map _ (Task.span? _)).getD 0 = (c.heldSpan?).toList.countP _
      unfold Compaction.heldSpan?
      cases c.phase <;> first | rfl | exact (countP_contains_cons _ [] g).symm

theorem State.countP_records (s : State) (g : Nat) :
    (((List.finRange 128).filter fun r => decide ((s.region r).state ≠ .vacant)).map
      fun r => (⟨(s.region r).base, (s.region r).length⟩ : Extent)).countP (fun e => e.contains g) = s.regionCount g := by
  rw [State.regionCount]
  induction List.finRange 128 with
  | nil => rfl
  | cons r l ih =>
    rw [List.map_cons, List.sum_cons, Region.count, List.filter_cons]
    by_cases hr : (s.region r).state = .vacant
    · simpa [hr] using ih
    · simp only [hr, ne_eq, not_false_eq_true, decide_true, if_true, if_false, List.map_cons, countP_contains_cons, ih]

/-- The places of R26, counted. -/
theorem State.countP_places {s : State} (h : (s.engine.jobs.filterMap Job.compaction?).length ≤ 1) (g : Nat) :
    s.places.countP (fun e => e.contains g) =
      freeCount s.freeList g + s.regionCount g + (s.engine.tasks.map fun task => task.count g).sum := by
  rw [State.places, List.countP_append, List.countP_append, List.countP_append, State.countP_records, Engine.tasks,
    sum_count_tasks h, Engine.compaction?, freeCount]
  omega

/-- A span that a task alone holds is the compaction's or a boot extent. -/
theorem Engine.span?_mem_iff {e : Engine} (h : (e.jobs.filterMap Job.compaction?).length ≤ 1) (x : Extent) :
    (∃ task ∈ e.tasks, x ∈ task.span?) ↔
      x ∈ (e.compaction?.bind Compaction.heldSpan?).toList ∨ x ∈ e.jobs.filterMap Job.bootSpan? := by
  have hspan : ∀ j : Job, x ∈ j.task.span? ↔ (∃ c, j.compaction? = some c ∧ c.heldSpan? = some x) ∨ j.bootSpan? = some x := by
    rintro ⟨level, order, ⟨_ | _, span, cursor⟩ | ⟨issuer, halt, point, _ | _ | _, moved, granules⟩⟩ <;>
      simp [Job.task, Task.span?, Job.compaction?, Job.bootSpan?, Compaction.heldSpan?]
  simp only [Engine.tasks, List.mem_map, exists_exists_and_eq_and, hspan, Option.mem_toList, Option.bind_eq_some_iff,
    List.mem_filterMap, Engine.compaction?_eq_some_iff h]
  constructor
  · rintro ⟨j, hj, ⟨c, hc, hx⟩ | hx⟩
    · exact .inl ⟨c, ⟨j, hj, hc⟩, hx⟩
    · exact .inr ⟨j, hj, hx⟩
  · rintro (⟨c, ⟨j, hj, hc⟩, hx⟩ | ⟨j, hj, hx⟩)
    · exact ⟨j, hj, .inl ⟨c, hc, hx⟩⟩
    · exact ⟨j, hj, .inr hx⟩

/-! ### The laws and the arrangement -/

/-- The task of a job of a lawful state is lawful. -/
theorem State.Lawful.taskLaw {s : State} (h : s.Lawful) {j : Job} (hj : j ∈ s.engine.jobs) : s.TaskLaw j.task := by
  obtain ⟨-, -, hspan, hcursor, hboot, hone⟩ := h.jobs
  have hends : ∀ e ∈ j.task.span?, e.stop ≤ 2048 := fun e he => h.placement.2 e (by
    have := (Engine.span?_mem_iff hone e).mp ⟨j.task, List.mem_map_of_mem hj, he⟩
    simp only [State.places, List.mem_append]
    exact this.elim (.inl ∘ .inr) .inr)
  obtain ⟨level, order, work⟩ := j
  rcases work with ⟨r | k, span, cursor⟩ | c
  · exact ⟨⟨hspan _ hj r rfl (span, cursor) rfl, hcursor _ hj (span, cursor) rfl⟩, hends, fun a ha => (s.cleanSpan_iff _ _).mp (h.clean.2.1 _ hj _ rfl) a ha.1 ha.2⟩
  · exact ⟨⟨Option.some.inj (hboot _ hj k rfl), hcursor _ hj (span, cursor) rfl⟩, hends, fun a ha => (s.cleanSpan_iff _ _).mp (h.clean.2.1 _ hj _ rfl) a ha.1 ha.2⟩
  · have hc : c ∈ s.engine.compaction? := (Engine.compaction?_eq_some_iff hone c).mpr ⟨_, hj, rfl⟩
    exact ⟨h.moves.2 c hc, hends, (s.phaseClean_iff _).mp (h.clean.2.2 c hc)⟩

/-- A lawful state is arranged for the tasks of its jobs. -/
theorem State.Lawful.arranged {s : State} (h : s.Lawful) : s.Arranged s.engine.tasks where
  memory := h.memory
  lawful task htask := by
    obtain ⟨j, hj, rfl⟩ := List.mem_map.mp htask
    exact h.taskLaw hj
  scrubs r := by
    rw [Engine.filterMap_region?_tasks, List.Nodup.count h.jobs.1]
    simp only [h.jobs.2.1 r]
  oneCompaction := by rw [Engine.length_phases]; exact h.jobs.2.2.2.2.2
  moving r hr := (Engine.mem_subjects_iff h.jobs.2.2.2.2.2 r).mpr (h.moves.1 r hr)
  separated := h.freeList
  placed g hg := by rw [← State.countP_places h.jobs.2.2.2.2.2]; exact h.placement.1 g hg
  freeEnds e he := h.placement.2 e (by simp [State.places, he])
  freeClean e he := (s.cleanSpan_extent_iff e).mp (h.clean.1 e he)
  regionEnds r hr := h.extent_le hr

theorem State.Arranged.distinct {s : State} {tasks : List Task} (h : s.Arranged tasks) :
    (tasks.filterMap Task.region?).Nodup := by
  rw [List.nodup_iff_count_le_one]
  intro r
  rw [h.scrubs r]
  split <;> decide

theorem State.Arranged.scrubbing_iff {s : State} {tasks : List Task} (h : s.Arranged tasks) (r : RegionId) :
    (s.region r).state = .scrubbing ↔ r ∈ tasks.filterMap Task.region? := by
  rw [← List.count_pos_iff, h.scrubs r]
  split <;> simp_all

section
variable {s : State} (h : s.Arranged s.engine.tasks)
include h

theorem State.Arranged.length_compactions : (s.engine.jobs.filterMap Job.compaction?).length ≤ 1 := by
  rw [← Engine.length_phases]; exact h.oneCompaction

theorem State.Arranged.taskLaw {j : Job} (hj : j ∈ s.engine.jobs) : s.TaskLaw j.task :=
  h.lawful j.task (List.mem_map_of_mem hj)

theorem State.Arranged.taskLaw_of_compaction {c : Compaction} (hc : c ∈ s.engine.compaction?) :
    s.TaskLaw (.compaction c.phase) := by
  obtain ⟨⟨level, order, work⟩, hj, hwork⟩ := (Engine.compaction?_eq_some_iff h.length_compactions c).mp hc
  cases work with
  | scrub target span cursor => cases hwork
  | compaction d =>
    cases hwork
    exact h.taskLaw hj

theorem State.Arranged.jobLaw : s.JobLaw := by
  refine ⟨by rw [← Engine.filterMap_region?_tasks]; exact h.distinct,
    fun r => by rw [← Engine.filterMap_region?_tasks]; exact h.scrubbing_iff r, ?_, ?_, ?_, h.length_compactions⟩
  · rintro ⟨level, order, ⟨r' | k, span, cursor⟩ | c⟩ hj r hr w hw <;> cases hr
    cases hw
    exact (h.taskLaw hj).fits.1
  · rintro ⟨level, order, ⟨r | k, span, cursor⟩ | c⟩ hj w hw <;> cases hw
    · exact (h.taskLaw hj).fits.2
    · exact (h.taskLaw hj).fits.2
  · rintro ⟨level, order, ⟨r | k', span, cursor⟩ | c⟩ hj k hk <;> cases hk
    exact congrArg some (h.taskLaw hj).fits.1

theorem State.Arranged.moveLaw : s.MoveLaw :=
  ⟨fun r hr => (Engine.mem_subjects_iff h.length_compactions r).mp (h.moving r hr),
    fun _ hc => (h.taskLaw_of_compaction hc).fits⟩

theorem State.Arranged.placementLaw : s.PlacementLaw := by
  refine ⟨fun g hg => by rw [State.countP_places h.length_compactions]; exact h.placed g hg, fun e he => ?_⟩
  simp only [State.places, List.mem_append] at he
  rcases he with ((he | he) | he) | he
  · exact h.freeEnds e he
  · obtain ⟨r, hr, rfl⟩ := List.mem_map.mp he
    exact h.regionEnds r (by simpa using (List.mem_filter.mp hr).2)
  · obtain ⟨task, htask, hspan⟩ := (Engine.span?_mem_iff h.length_compactions e).mpr (.inl he)
    exact (h.lawful task htask).ends e hspan
  · obtain ⟨task, htask, hspan⟩ := (Engine.span?_mem_iff h.length_compactions e).mpr (.inr he)
    exact (h.lawful task htask).ends e hspan

theorem State.Arranged.cleanLaw : s.CleanLaw := by
  refine ⟨fun e he => (s.cleanSpan_extent_iff e).mpr (h.freeClean e he), ?_,
    fun c hc => (s.phaseClean_iff _).mpr (h.taskLaw_of_compaction hc).clean⟩
  rintro ⟨level, order, ⟨target, span, cursor⟩ | c⟩ hj w hw <;> cases hw
  exact (s.cleanSpan_iff _ _).mpr fun a hlow hhigh => (h.taskLaw hj).clean a ⟨hlow, hhigh⟩

end

end Sys2Proof.Machine
end

section
/-! PROOFS. Each granule of an arrangement is in one place: what is in one is in no other, and the ways an arrangement changes. -/
namespace Sys2Proof.Machine

/-! ### Counting granules -/

theorem RegionState.inUse_iff (state : RegionState) : state.inUse = true ↔ state ≠ .vacant ∧ state ≠ .scrubbing := by
  cases state <;> decide

theorem Extent.count_le_one (e : Extent) (g : Nat) : e.count g ≤ 1 := by
  unfold Extent.count; split <;> decide

theorem Region.count_of_ne_vacant {x : Region} (h : x.state ≠ .vacant) (g : Nat) :
    x.count g = Extent.count ⟨x.base, x.length⟩ g := if_neg h

theorem Region.count_eq_one_iff (x : Region) (g : Nat) :
    x.count g = 1 ↔ x.state ≠ .vacant ∧ x.base ≤ g ∧ g < x.base + x.length := by
  unfold Region.count
  split
  · next h => simp [h]
  · next h => simp [h, Extent.count_eq_one_iff, Extent.contains_iff]

theorem Region.count_le_one (x : Region) (g : Nat) : x.count g ≤ 1 := by
  unfold Region.count
  split
  · exact Nat.zero_le _
  · exact Extent.count_le_one _ g

theorem Task.count_of_span {task : Task} {e : Extent} (h : task.span? = some e) (g : Nat) : task.count g = e.count g := by
  rw [Task.count, h]; rfl

theorem Task.count_of_no_span {task : Task} (h : task.span? = none) (g : Nat) : task.count g = 0 := by
  rw [Task.count, h]; rfl

theorem Task.count_eq_one_iff (task : Task) (g : Nat) :
    task.count g = 1 ↔ ∃ e, task.span? = some e ∧ e.contains g = true := by
  cases h : task.span? with
  | none => simp [Task.count_of_no_span h]
  | some e => simp [Task.count_of_span h, Extent.count_eq_one_iff]

/-- Two sums over the same indices that differ at one of them. -/
theorem sum_finRange_add {n : Nat} {f k : Fin n → Nat} (r : Fin n) (h : ∀ i, i ≠ r → f i = k i) :
    ((List.finRange n).map f).sum + k r = ((List.finRange n).map k).sum + f r := by
  have hrest : ∑ i ∈ Finset.univ.erase r, f i = ∑ i ∈ Finset.univ.erase r, k i :=
    Finset.sum_congr rfl fun i hi => h i (Finset.ne_of_mem_erase hi)
  rw [← Fin.sum_univ_def, ← Fin.sum_univ_def, ← Finset.add_sum_erase _ f (Finset.mem_univ r),
    ← Finset.add_sum_erase _ k (Finset.mem_univ r), hrest]
  omega

/-- One term of a sum over all indices, and two of them. -/
theorem le_sum_finRange {n : Nat} (f : Fin n → Nat) (r : Fin n) : f r ≤ ((List.finRange n).map f).sum := by
  have := sum_finRange_add (f := f) (k := fun i => if i = r then 0 else f i) r fun i hi => (if_neg hi).symm
  simp only [if_true] at this
  omega

theorem add_le_sum_finRange {n : Nat} (f : Fin n → Nat) {r i : Fin n} (h : i ≠ r) :
    f r + f i ≤ ((List.finRange n).map f).sum := by
  have hsum := sum_finRange_add (f := f) (k := fun i => if i = r then 0 else f i) r fun i hi => (if_neg hi).symm
  have hterm := le_sum_finRange (fun i => if i = r then 0 else f i) i
  simp only [if_true, if_neg h] at hsum hterm
  omega

theorem State.regionCount_change {s t : State} (r : RegionId) {g : Nat}
    (h : ∀ i, i ≠ r → t.region i = s.region i) :
    t.regionCount g + (s.region r).count g = s.regionCount g + (t.region r).count g :=
  sum_finRange_add (f := fun i => (t.region i).count g) (k := fun i => (s.region i).count g) r
    fun i hi => by rw [h i hi]

theorem State.count_le_regionCount (s : State) (r : RegionId) (g : Nat) : (s.region r).count g ≤ s.regionCount g :=
  le_sum_finRange (fun i => (s.region i).count g) r

theorem State.count_add_le_regionCount (s : State) {r i : RegionId} (h : i ≠ r) (g : Nat) :
    (s.region r).count g + (s.region i).count g ≤ s.regionCount g :=
  add_le_sum_finRange (fun i => (s.region i).count g) h

theorem Task.count_le_sum {tasks : List Task} {task : Task} (h : task ∈ tasks) (g : Nat) :
    task.count g ≤ (tasks.map fun task => task.count g).sum := by
  obtain ⟨before, after, rfl⟩ := List.append_of_mem h
  simp only [List.map_append, List.map_cons, List.sum_append, List.sum_cons]
  omega

theorem Task.count_add_le_sum {tasks : List Task} {task other : Task} (h : task ∈ tasks) (ho : other ∈ tasks)
    (hne : other ≠ task) (g : Nat) : task.count g + other.count g ≤ (tasks.map fun task => task.count g).sum := by
  obtain ⟨before, after, rfl⟩ := List.append_of_mem h
  have : other ∈ before ∨ other ∈ after := by simpa [hne] using ho
  simp only [List.map_append, List.map_cons, List.sum_append, List.sum_cons]
  rcases this with hmem | hmem
  · have := Task.count_le_sum hmem g
    omega
  · have := Task.count_le_sum hmem g
    omega

theorem one_le_freeCount {l : List Extent} {e : Extent} {g : Nat} (he : e ∈ l) (hg : e.contains g = true) :
    1 ≤ freeCount l g := List.countP_pos_iff.mpr ⟨e, he, hg⟩

/-! ### One place for each granule (R26) -/

namespace State.Arranged

variable {s : State} {tasks : List Task} {task : Task} {e : Extent} {r : RegionId} {g : Nat}

theorem lt_of_region (h : s.Arranged tasks) (hr : (s.region r).count g = 1) : g < 2048 := by
  obtain ⟨hstate, -, hg⟩ := (Region.count_eq_one_iff ..).mp hr
  have := h.regionEnds r hstate
  omega

theorem lt_of_task (h : s.Arranged tasks) (ht : task ∈ tasks) (hg : task.count g = 1) : g < 2048 := by
  obtain ⟨e, he, hg⟩ := (Task.count_eq_one_iff ..).mp hg
  have hend := (h.lawful task ht).ends e he
  rw [Extent.contains_iff] at hg
  rw [Extent.stop] at hend
  omega

theorem region_unique (h : s.Arranged tasks) {i : RegionId} (hr : (s.region r).count g = 1)
    (hi : (s.region i).count g = 1) : i = r := by
  by_contra hne
  have hone := h.placed g (h.lt_of_region hr)
  have htwo := s.count_add_le_regionCount hne g
  omega

theorem task_of_region (h : s.Arranged tasks) (hr : (s.region r).count g = 1) (ht : task ∈ tasks) : task.count g = 0 := by
  have hone := h.placed g (h.lt_of_region hr)
  have hregion := s.count_le_regionCount r g
  have htask := Task.count_le_sum ht g
  omega

theorem free_of_region (h : s.Arranged tasks) (hr : (s.region r).count g = 1) (he : e ∈ s.freeList) :
    ¬ e.contains g = true := fun hg => by
  have hone := h.placed g (h.lt_of_region hr)
  have hregion := s.count_le_regionCount r g
  have hfree := one_le_freeCount he hg
  omega

theorem free_of_task (h : s.Arranged tasks) (ht : task ∈ tasks) (hg : task.count g = 1) (he : e ∈ s.freeList) :
    ¬ e.contains g = true := fun hc => by
  have hone := h.placed g (h.lt_of_task ht hg)
  have htask := Task.count_le_sum ht g
  have hfree := one_le_freeCount he hc
  omega

theorem task_unique (h : s.Arranged tasks) {other : Task} (ht : task ∈ tasks) (ho : other ∈ tasks)
    (hg : task.count g = 1) (hog : other.count g = 1) : other = task := by
  by_contra hne
  have hone := h.placed g (h.lt_of_task ht hg)
  have htwo := Task.count_add_le_sum ht ho hne g
  omega

end State.Arranged

/-- What a task holds clean lies in the span it holds, or in the extent of the region it scrubs. -/
theorem State.TaskLaw.occupies {s : State} {task : Task} {g : Nat} (h : s.TaskLaw task) (hg : s.holdsClean task g) :
    task.count g = 1 ∨
      ∃ r, task.region? = some r ∧ (s.region r).base ≤ g ∧ g < (s.region r).base + (s.region r).length := by
  rw [Task.count_eq_one_iff]
  obtain ⟨hfits, -, -⟩ := h
  match task with
  | .scrub (.region r) span cursor =>
    obtain ⟨rfl, hcursor⟩ := hfits
    obtain ⟨hlow, hhigh⟩ := hg
    exact .inr ⟨r, rfl, hlow, by dsimp only at *; omega⟩
  | .scrub (.boot k) span cursor =>
    obtain ⟨hlow, hhigh⟩ := hg
    refine .inl ⟨span, rfl, (Extent.contains_iff ..).mpr ⟨hlow, ?_⟩⟩
    have := hfits.2
    omega
  | .compaction .scan => exact hg.elim
  | .compaction (.copy m) =>
    obtain ⟨v, -, hlow, hhigh⟩ := hg
    refine .inl ⟨m.extent, rfl, (Extent.contains_iff ..).mpr ⟨by omega, hhigh⟩⟩
  | .compaction (.clear m vacated dirty cursor) =>
    obtain ⟨⟨hstop, -, -⟩, rfl, rfl, hcursor⟩ := hfits
    refine .inl ⟨m.vacated, rfl, (Extent.contains_iff ..).mpr ?_⟩
    simp only [State.holdsClean, Move.vacated, Move.dirty, Extent.stop] at *
    omega
  | .freed span => exact .inl ⟨span, rfl, hg⟩

/-- A granule that no task and no free extent is to keep clean. -/
def State.Unclean (s : State) (tasks : List Task) (g : Nat) : Prop :=
  (∀ e ∈ s.freeList, ¬ e.contains g = true) ∧ ∀ task ∈ tasks, ¬ s.holdsClean task g

/-- A granule of a region that is not being scrubbed need not be clean. -/
theorem State.Arranged.unclean_of_region {s : State} {tasks : List Task} {r : RegionId} {g : Nat} (h : s.Arranged tasks)
    (hr : (s.region r).count g = 1) (hstate : (s.region r).state ≠ .scrubbing) : s.Unclean tasks g := by
  refine ⟨fun e he => h.free_of_region hr he, fun task htask hclean => ?_⟩
  rcases (h.lawful task htask).occupies hclean with hcount | ⟨i, hi, hlow, hhigh⟩
  · have := h.task_of_region hr htask
    omega
  · have hscrub : (s.region i).state = .scrubbing :=
      (h.scrubbing_iff i).mpr (List.mem_filterMap.mpr ⟨task, htask, hi⟩)
    have hcount : (s.region i).count g = 1 := (Region.count_eq_one_iff ..).mpr ⟨by rw [hscrub]; decide, hlow, hhigh⟩
    rw [h.region_unique hr hcount] at hscrub
    exact hstate hscrub

/-- A granule of a task's own span need be clean only where the task holds it so. -/
theorem State.Arranged.unclean_of_task {s : State} {tasks : List Task} {task : Task} {g : Nat} (h : s.Arranged tasks)
    (ht : task ∈ tasks) (hg : task.count g = 1) (hclean : ¬ s.holdsClean task g) : s.Unclean tasks g := by
  refine ⟨fun e he => h.free_of_task ht hg he, fun other hother hholds => ?_⟩
  rcases (h.lawful other hother).occupies hholds with hcount | ⟨i, hi, hlow, hhigh⟩
  · rw [h.task_unique ht hother hg hcount] at hholds
    exact hclean hholds
  · have hscrub : (s.region i).state = .scrubbing :=
      (h.scrubbing_iff i).mpr (List.mem_filterMap.mpr ⟨other, hother, hi⟩)
    have hcount : (s.region i).count g = 1 := (Region.count_eq_one_iff ..).mpr ⟨by rw [hscrub]; decide, hlow, hhigh⟩
    have := h.task_of_region hcount ht
    omega

/-! ### Records that the arrangement sees alike -/

/-- Two records that stand at the same place with the same move, both free, both in use or both scrubbed. -/
structure Region.SameSpace (x y : Region) : Prop where
  vacant : x.state = .vacant ↔ y.state = .vacant
  scrubbing : x.state = .scrubbing ↔ y.state = .scrubbing
  base : x.base = y.base
  length : x.length = y.length
  move : x.move = y.move

theorem Region.SameSpace.refl (x : Region) : x.SameSpace x := ⟨.rfl, .rfl, rfl, rfl, rfl⟩

theorem Region.SameSpace.trans {x y z : Region} (h : x.SameSpace y) (h' : y.SameSpace z) : x.SameSpace z :=
  ⟨h.vacant.trans h'.vacant, h.scrubbing.trans h'.scrubbing, h.base.trans h'.base, h.length.trans h'.length,
    h.move.trans h'.move⟩

theorem Region.SameSpace.inUse {x y : Region} (h : x.SameSpace y) : x.state.inUse = y.state.inUse := by
  rw [Bool.eq_iff_iff, RegionState.inUse_iff, RegionState.inUse_iff, ne_eq, ne_eq, ne_eq, ne_eq, h.vacant, h.scrubbing]

theorem Region.SameSpace.count {x y : Region} (h : x.SameSpace y) (g : Nat) : x.count g = y.count g := by
  simp only [Region.count, h.vacant, h.base, h.length]

/-- A task's law carries over to a state that sees its region alike and keeps what it holds clean. -/
theorem State.TaskLaw.of_same {s t : State} {task : Task} (h : s.TaskLaw task)
    (hr : ∀ r, task.region? = some r ∨ task.subject? = some r → (t.region r).SameSpace (s.region r))
    (hbytes : ∀ a, s.holdsClean task (a / 256) → t.byteAt a = s.byteAt a ∨ t.byteAt a = 0) : t.TaskLaw task := by
  obtain ⟨hfits, hends, hclean⟩ := h
  have keep : ∀ a, s.holdsClean task (a / 256) → t.byteAt a = 0 := fun a ha =>
    (hbytes a ha).elim (fun heq => heq.trans (hclean a ha)) id
  match task with
  | .scrub (.region r) span cursor =>
    have hsame := hr r (.inl rfl)
    refine ⟨?_, hends, keep⟩
    show span = ⟨(t.region r).base, (t.region r).length⟩ ∧ _
    rw [hsame.base, hsame.length]
    exact hfits
  | .scrub (.boot k) span cursor => exact ⟨hfits, hends, keep⟩
  | .compaction .scan => exact ⟨hfits, hends, keep⟩
  | .compaction (.copy m) =>
    have hsame := hr m.subject (.inr rfl)
    refine ⟨?_, hends, fun a ⟨v, hv, ha⟩ => keep a ⟨v, by rw [← hsame.move]; exact hv, ha⟩⟩
    have hfits' : s.phaseLawful (.copy m) := hfits
    show t.phaseLawful (.copy m)
    simp only [State.phaseLawful, hsame.inUse, hsame.base, hsame.length, hsame.move] at hfits' ⊢
    exact hfits'
  | .compaction (.clear m vacated dirty cursor) => exact ⟨hfits, hends, keep⟩
  | .freed span => exact ⟨hfits, hends, keep⟩

namespace State.Arranged

variable {s t : State} {tasks : List Task}

/-- The order of the tasks does not matter. -/
theorem perm {tasks' : List Task} (h : s.Arranged tasks) (hp : tasks'.Perm tasks) : s.Arranged tasks' where
  memory := h.memory
  lawful task ht := h.lawful task (hp.mem_iff.mp ht)
  scrubs r := by rw [(hp.filterMap Task.region?).count_eq]; exact h.scrubs r
  oneCompaction := by rw [(hp.filterMap Task.phase?).length_eq]; exact h.oneCompaction
  moving r hr := (hp.filterMap Task.subject?).mem_iff.mpr (h.moving r hr)
  separated := h.separated
  placed g hg := by rw [(hp.map fun task => task.count g).sum_eq]; exact h.placed g hg
  freeEnds := h.freeEnds
  freeClean := h.freeClean
  regionEnds := h.regionEnds

/-- Records seen alike, the same free list, and bytes changed to 00h or where nothing is to be clean: the arrangement stands. -/
theorem of_same (h : s.Arranged tasks) (hr : ∀ r, (t.region r).SameSpace (s.region r)) (hf : t.freeList = s.freeList)
    (hm : t.array.wf) (hb : ∀ a, t.byteAt a = s.byteAt a ∨ t.byteAt a = 0 ∨ s.Unclean tasks (a / 256)) :
    t.Arranged tasks where
  memory := hm
  lawful task ht := (h.lawful task ht).of_same (fun r _ => hr r) fun a ha => by
    rcases hb a with hsame | hzero | hunclean
    · exact .inl hsame
    · exact .inr hzero
    · exact absurd ha (hunclean.2 task ht)
  scrubs r := by rw [h.scrubs r]; simp only [(hr r).scrubbing]
  oneCompaction := h.oneCompaction
  moving r hmove := h.moving r (by rw [← (hr r).move]; exact hmove)
  separated := by rw [hf]; exact h.separated
  placed g hg := by
    have : t.regionCount g = s.regionCount g := by simp only [State.regionCount, fun r => (hr r).count g]
    rw [hf, this]
    exact h.placed g hg
  freeEnds := by rw [hf]; exact h.freeEnds
  freeClean e he a ha := by
    rw [hf] at he
    rcases hb a with hsame | hzero | hunclean
    · rw [hsame]; exact h.freeClean e he a ha
    · exact hzero
    · exact absurd ha (hunclean.1 e he)
  regionEnds r hstate := by
    rw [(hr r).base, (hr r).length]
    exact h.regionEnds r fun hv => hstate ((hr r).vacant.mpr hv)

/-- Records seen alike, with the same free list and array. -/
theorem of_sameSpace (h : s.Arranged tasks) (hr : ∀ r, (t.region r).SameSpace (s.region r)) (hf : t.freeList = s.freeList)
    (ha : t.array = s.array) : t.Arranged tasks :=
  h.of_same hr hf (by rw [ha]; exact h.memory) fun a => .inl (by rw [State.byteAt, ha, State.byteAt])

/-- One record changes and with it the tasks that answer for it: the others, which do not look at it, stand. -/
theorem change {old new rest : List Task} (h : s.Arranged (old ++ rest)) (r : RegionId)
    (hothers : ∀ i, i ≠ r → t.region i = s.region i) (hf : t.freeList = s.freeList) (ha : t.array = s.array)
    (hnew : ∀ task ∈ new, t.TaskLaw task)
    (hrest : ∀ task ∈ rest, (t.region r).SameSpace (s.region r) ∨ (task.region? ≠ some r ∧ task.subject? ≠ some r))
    (hscrubs : ∀ i, (new.filterMap Task.region?).count i + (if (s.region i).state = .scrubbing then 1 else 0) =
      (old.filterMap Task.region?).count i + if (t.region i).state = .scrubbing then 1 else 0)
    (hone : (new.filterMap Task.phase?).length ≤ (old.filterMap Task.phase?).length)
    (hmoving : ∀ i, (t.region i).move ≠ none → i ∈ new.filterMap Task.subject? ∨
      (i ∉ old.filterMap Task.subject? ∧ (s.region i).move ≠ none))
    (hcount : ∀ g < 2048, (t.region r).count g + (new.map fun task => task.count g).sum =
      (s.region r).count g + (old.map fun task => task.count g).sum)
    (hends : (t.region r).state ≠ .vacant → (t.region r).base + (t.region r).length ≤ 2048) :
    t.Arranged (new ++ rest) where
  memory := by rw [ha]; exact h.memory
  lawful task ht := by
    rcases List.mem_append.mp ht with hnew' | hrest'
    · exact hnew task hnew'
    · refine (h.lawful task (List.mem_append_right _ hrest')).of_same (fun i hi => ?_)
        fun a _ => .inl (by rw [State.byteAt, ha, State.byteAt])
      by_cases hir : i = r
      · subst hir
        exact (hrest task hrest').elim id fun hno => hi.elim (absurd · hno.1) (absurd · hno.2)
      · rw [hothers i hir]
        exact .refl _
  scrubs i := by
    have hold := h.scrubs i
    have hchange := hscrubs i
    rw [List.filterMap_append, List.count_append] at hold ⊢
    omega
  oneCompaction := by
    have hold := h.oneCompaction
    rw [List.filterMap_append, List.length_append] at hold ⊢
    omega
  moving i hi := by
    rw [List.filterMap_append, List.mem_append]
    rcases hmoving i hi with hin | ⟨hnot, hbefore⟩
    · exact .inl hin
    · have hold := h.moving i hbefore
      rw [List.filterMap_append, List.mem_append] at hold
      exact .inr (hold.resolve_left hnot)
  separated := by rw [hf]; exact h.separated
  placed g hg := by
    have hold := h.placed g hg
    have hsum := hcount g hg
    have hregions := State.regionCount_change (g := g) r hothers
    rw [List.map_append, List.sum_append] at hold ⊢
    rw [hf]
    omega
  freeEnds := by rw [hf]; exact h.freeEnds
  freeClean e he a hea := by
    rw [State.byteAt, ha]
    rw [hf] at he
    exact h.freeClean e he a hea
  regionEnds i hi := by
    by_cases hir : i = r
    · subst hir; exact hends hi
    · rw [hothers i hir] at hi ⊢
      exact h.regionEnds i hi

/-- Tasks change and no record does. -/
theorem retask {old new rest : List Task} (h : s.Arranged (old ++ rest)) (hnew : ∀ task ∈ new, s.TaskLaw task)
    (hregions : new.filterMap Task.region? = old.filterMap Task.region?)
    (hone : (new.filterMap Task.phase?).length ≤ (old.filterMap Task.phase?).length)
    (hsubjects : ∀ i, (s.region i).move ≠ none → i ∈ old.filterMap Task.subject? → i ∈ new.filterMap Task.subject?)
    (hcount : ∀ g, (new.map fun task => task.count g).sum = (old.map fun task => task.count g).sum) :
    s.Arranged (new ++ rest) :=
  h.change 0 (fun _ _ => rfl) rfl rfl hnew (fun _ _ => .inl (.refl _)) (fun i => by rw [hregions]) hone
    (fun i hi => by
      by_cases hold : i ∈ old.filterMap Task.subject?
      · exact .inl (hsubjects i hi hold)
      · exact .inr ⟨hold, hi⟩)
    (fun g _ => by rw [hcount]) (h.regionEnds 0)

/-- A clean extent joins the free-extent list (R29). -/
theorem withFree {e : Extent} (h : s.Arranged (.freed e :: tasks)) : (s.withFree e).Arranged tasks := by
  have hlaw := h.lawful (.freed e) (by simp)
  have he : 1 ≤ e.length := hlaw.fits
  have hstop : e.stop ≤ 2048 := hlaw.ends e rfl
  have hplaced : ∀ g < 2048,
      freeCount s.freeList g + s.regionCount g + (e.count g + (tasks.map fun task => task.count g).sum) = 1 :=
    h.placed
  have hfit : ∀ x ∈ s.freeList, x.stop ≤ e.base ∨ e.stop ≤ x.base := fun x hx => by
    by_contra hover
    have hlength := h.separated.2 x hx
    simp only [Extent.stop] at *
    have hin : e.count (max e.base x.base) = 1 := by rw [Extent.count_eq, if_pos (by omega)]
    have hinfree := one_le_freeCount hx ((x.contains_iff (max e.base x.base)).mpr (by omega))
    have := hplaced (max e.base x.base) (by omega)
    omega
  obtain ⟨low, lows, highs, high, hins⟩ := insertExtent_inserted h.separated hfit
  have hcount : ∀ g, freeCount (insertExtent s.freeList e).1 g = freeCount s.freeList g + e.count g := hins.countP he
  have hcovered : ∀ x ∈ (insertExtent s.freeList e).1, ∀ g, x.contains g = true →
      g < 2048 ∧ ∀ a, a / 256 = g → s.byteAt a = 0 := fun x hx g hg => by
    have hsum := hcount g
    have hpos := one_le_freeCount hx hg
    by_cases heg : e.count g = 1
    · rw [Extent.count_eq_one_iff] at heg
      refine ⟨?_, fun a ha => hlaw.clean a (by rw [ha]; exact heg)⟩
      rw [Extent.contains_iff] at heg
      rw [Extent.stop] at hstop
      omega
    · have := e.count_le_one g
      obtain ⟨y, hy, hyg⟩ := List.countP_pos_iff.mp (show 0 < freeCount s.freeList g by omega)
      refine ⟨?_, fun a ha => h.freeClean y hy a (by rw [ha]; exact hyg)⟩
      have := h.freeEnds y hy
      rw [Extent.contains_iff] at hyg
      rw [Extent.stop] at this
      omega
  exact {
    memory := h.memory
    lawful := fun task ht => by
      obtain ⟨hfits, hends, hclean⟩ := h.lawful task (by simp [ht])
      exact ⟨hfits, hends, hclean⟩
    scrubs := h.scrubs
    oneCompaction := h.oneCompaction
    moving := h.moving
    separated := hins.separated h.separated he
    placed := fun g hg => by
      have hbefore := hplaced g hg
      have hsum := hcount g
      show freeCount (insertExtent s.freeList e).1 g + s.regionCount g + _ = 1
      omega
    freeEnds := fun x hx => by
      have hx' : x ∈ (insertExtent s.freeList e).1 := hx
      have hlength := (hins.separated h.separated he).2 x hx'
      have := (hcovered x hx' (x.base + x.length - 1) ((Extent.contains_iff ..).mpr (by omega))).1
      rw [Extent.stop]
      omega
    freeClean := fun x hx a ha => (hcovered x hx _ ha).2 a rfl
    regionEnds := h.regionEnds }

/-- The lowest granules of a free extent leave the free-extent list (R31, R32). -/
theorem takeFree {low high : List Extent} {f : Extent} {n : Nat} (h : s.Arranged tasks)
    (hlist : s.freeList = low ++ f :: high) (hpos : 1 ≤ n) (hle : n ≤ f.length)
    (ht : t = { s with freeList := low ++ (if f.length = n then [] else [⟨f.base + n, f.length - n⟩]) ++ high }) :
    t.Arranged (.freed ⟨f.base, n⟩ :: tasks) := by
  subst ht
  have hf : f ∈ s.freeList := by rw [hlist]; simp
  have hstop : f.base + f.length ≤ 2048 := h.freeEnds f hf
  obtain ⟨hsorted, hlength⟩ := hlist ▸ h.separated
  obtain ⟨hlow, hhigh, hbefore⟩ := List.pairwise_append.mp hsorted
  obtain ⟨hafter, hhigh⟩ := List.pairwise_cons.mp hhigh
  have hmem : ∀ x ∈ low ++ (if f.length = n then [] else [⟨f.base + n, f.length - n⟩]) ++ high,
      x ∈ low ∨ (x = ⟨f.base + n, f.length - n⟩ ∧ n < f.length) ∨ x ∈ high := fun x hx => by
    split at hx
    · simp only [List.append_nil, List.mem_append] at hx
      exact hx.imp_right .inr
    · simp only [List.mem_append, List.mem_singleton] at hx
      rcases hx with (hx | hx) | hx
      · exact .inl hx
      · exact .inr (.inl ⟨hx, by omega⟩)
      · exact .inr (.inr hx)
  have hsub : ∀ x ∈ low ++ (if f.length = n then [] else [⟨f.base + n, f.length - n⟩]) ++ high,
      ∃ y ∈ s.freeList, y.base ≤ x.base ∧ x.stop = y.stop ∧ 1 ≤ x.length := fun x hx => by
    rcases hmem x hx with hx | ⟨rfl, hlt⟩ | hx
    · exact ⟨x, by rw [hlist]; simp [hx], le_rfl, rfl, hlength x (by simp [hx])⟩
    · have hstop' : Extent.stop ⟨f.base + n, f.length - n⟩ = f.stop := by simp only [Extent.stop]; omega
      exact ⟨f, hf, Nat.le_add_right f.base n, hstop', by dsimp only; omega⟩
    · exact ⟨x, by rw [hlist]; simp [hx], le_rfl, rfl, hlength x (by simp [hx])⟩
  have hsplit : ∀ g, freeCount (low ++ (if f.length = n then [] else [⟨f.base + n, f.length - n⟩]) ++ high) g +
      Extent.count ⟨f.base, n⟩ g = freeCount s.freeList g := fun g => by
    rw [hlist]
    simp only [freeCount, List.countP_append, countP_contains_cons]
    by_cases heq : f.length = n
    · have : f.count g = Extent.count ⟨f.base, n⟩ g := by rw [← heq]
      simp only [if_pos heq, List.countP_nil]
      omega
    · have hjoin : f.count g = Extent.count ⟨f.base, n⟩ g + Extent.count ⟨f.base + n, f.length - n⟩ g :=
        Extent.count_join (f := f) (x := ⟨f.base, n⟩) (y := ⟨f.base + n, f.length - n⟩) rfl rfl
          (by simp only [Extent.stop]; omega) g
      simp only [if_neg heq, countP_contains_cons, List.countP_nil]
      omega
  exact {
    memory := h.memory
    lawful := fun task ht => by
      rcases List.mem_cons.mp ht with rfl | ht
      · refine ⟨hpos, ?_, fun a ha => h.freeClean f hf a ?_⟩
        · intro e he
          cases he
          simp only [Extent.stop]
          omega
        · have ha' : Extent.contains ⟨f.base, n⟩ (a / 256) = true := ha
          rw [Extent.contains_iff] at ha' ⊢
          dsimp only at ha'
          omega
      · obtain ⟨hfits, hends, hclean⟩ := h.lawful task ht
        exact ⟨hfits, hends, hclean⟩
    scrubs := h.scrubs
    oneCompaction := h.oneCompaction
    moving := h.moving
    separated := by
      refine ⟨?_, fun x hx => (hsub x hx).choose_spec.2.2.2⟩
      have hhead : ∀ x ∈ low, ∀ y ∈ (if f.length = n then [] else [(⟨f.base + n, f.length - n⟩ : Extent)]),
          x.stop < y.base := fun x hx y hy => by
        split at hy
        · cases hy
        · have := hbefore x hx f (by simp)
          rw [List.mem_singleton.mp hy]
          dsimp only
          omega
      refine List.pairwise_append.mpr ⟨List.pairwise_append.mpr ⟨hlow, by split <;> simp, hhead⟩, hhigh, fun x hx y hy => ?_⟩
      rcases hmem x (List.mem_append_left _ hx) with hx | ⟨rfl, hlt⟩ | hx'
      · exact hbefore x hx y (by simp [hy])
      · have := hafter y hy
        simp only [Extent.stop] at *
        omega
      · rcases List.mem_append.mp hx with hx | hx
        · exact hbefore x hx y (by simp [hy])
        · split at hx
          · cases hx
          · have := hafter y hy
            rw [List.mem_singleton.mp hx]
            simp only [Extent.stop] at *
            omega
    placed := fun g hg => by
      have hbefore := h.placed g hg
      have hsum := hsplit g
      rw [List.map_cons, List.sum_cons, Task.count_of_span rfl]
      show freeCount (low ++ _ ++ high) g + s.regionCount g + _ = 1
      omega
    freeEnds := fun x hx => by
      obtain ⟨y, hy, -, hxy, -⟩ := hsub x hx
      rw [hxy]; exact h.freeEnds y hy
    freeClean := fun x hx a ha => by
      obtain ⟨y, hy, hbase, hxy, -⟩ := hsub x hx
      refine h.freeClean y hy a ?_
      rw [Extent.contains_iff] at ha ⊢
      simp only [Extent.stop] at hxy
      omega
    regionEnds := h.regionEnds }

end State.Arranged

end Sys2Proof.Machine
end

section
/-! PROOFS. What each event of the array does to an arrangement: granule steps, ends of jobs, moves, a region made, and a region that
enters SCRUBBING. -/
namespace Sys2Proof.Machine

namespace State.Arranged

variable {s t : State} {rest tasks : List Task}

/-! ### What the tasks look at -/

theorem task_of_head {task : Task} (h : s.Arranged (task :: rest)) : s.TaskLaw task := h.lawful task (by simp)

/-- Beside a compaction there is no other. -/
theorem phase?_of_rest {phase : Phase} (h : s.Arranged (.compaction phase :: rest)) : rest.filterMap Task.phase? = [] := by
  have hone := h.oneCompaction
  exact List.length_eq_zero_iff.mp (Nat.le_zero.mp (Nat.le_of_succ_le_succ hone))

theorem subject?_of_phase? {task : Task} (h : task.phase? = none) : task.subject? = none := by
  match task with
  | .scrub _ _ _ => rfl
  | .freed _ => rfl
  | .compaction phase => cases h

theorem subject?_of_rest {phase : Phase} (h : s.Arranged (.compaction phase :: rest)) {task : Task} (ht : task ∈ rest) :
    task.subject? = none := by
  refine subject?_of_phase? ?_
  by_contra hphase
  obtain ⟨phase', hphase'⟩ := Option.ne_none_iff_exists'.mp hphase
  have : phase' ∈ rest.filterMap Task.phase? := List.mem_filterMap.mpr ⟨task, ht, hphase'⟩
  rw [h.phase?_of_rest] at this
  cases this

theorem region?_ne {r : RegionId} (h : s.Arranged tasks) (hr : (s.region r).state ≠ .scrubbing) {task : Task}
    (ht : task ∈ tasks) : task.region? ≠ some r := fun hregion =>
  hr ((h.scrubbing_iff r).mpr (List.mem_filterMap.mpr ⟨task, ht, hregion⟩))

/-- The region of a COPY phase is in use and carries the move record. -/
theorem of_subject? {task : Task} {r : RegionId} (ht : s.TaskLaw task) (hs : task.subject? = some r) :
    (s.region r).state.inUse = true ∧ (s.region r).move ≠ none := by
  match task with
  | .compaction (.copy m) =>
    cases hs
    obtain ⟨-, huse, -, -, v, hv, -⟩ := ht.fits
    rw [Option.mem_def] at hv
    exact ⟨huse, by rw [hv]; nofun⟩

/-- A region that carries a move record is the subject of a COPY phase of the arrangement. -/
theorem exists_copy {r : RegionId} {v : MoveRecord} (h : s.Arranged tasks) (hv : (s.region r).move = some v) :
    ∃ m rest, m.subject = r ∧ tasks.Perm (.compaction (.copy m) :: rest) ∧ m.lawful ∧ (s.region r).base = m.source ∧
      (s.region r).length = m.length ∧ v.dest = m.extent.base ∧ v.cursor ≤ m.length := by
  obtain ⟨task, ht, hsubject⟩ := List.mem_filterMap.mp (h.moving r (by rw [hv]; nofun))
  match task with
  | .compaction (.copy m) =>
    cases hsubject
    obtain ⟨hlawful, -, hbase, hlength, w, hw, hdest, hcursor⟩ := (h.lawful _ ht).fits
    rw [Option.mem_def, hv] at hw
    cases hw
    obtain ⟨before, after, rfl⟩ := List.append_of_mem ht
    exact ⟨m, before ++ after, rfl, List.perm_middle, hlawful, hbase, hlength, hdest, hcursor⟩

/-! ### Granule steps -/

/-- A scrub step clears the granule at its cursor (R120). -/
theorem scrubStep {target : ScrubTarget} {span : Extent} {cursor : Nat}
    (h : s.Arranged (.scrub target span cursor :: rest)) (hcursor : cursor < span.length)
    (hr : ∀ r, t.region r = s.region r) (hf : t.freeList = s.freeList)
    (ha : t.array = s.array.clearGranule (span.base + cursor)) : t.Arranged (.scrub target span (cursor + 1) :: rest) := by
  have hbyte : ∀ a, t.byteAt a = if a / 256 = span.base + cursor then 0 else s.byteAt a := fun a => by
    rw [State.byteAt, ha, Memory.read_clearGranule]; rfl
  have hcleared : t.Arranged (.scrub target span cursor :: rest) :=
    h.of_same (fun r => by rw [hr r]; exact .refl _) hf (by rw [ha]; exact Memory.wf_clearGranule _ h.memory) fun a => by
      rw [hbyte]
      split
      · exact .inr (.inl rfl)
      · exact .inl rfl
  refine hcleared.retask (old := [_]) (new := [_]) (fun task ht => ?_) ?_ ?_ (fun _ _ => id) fun g => ?_
  · obtain ⟨hfits, hends, hclean⟩ := hcleared.task_of_head
    rw [List.mem_singleton.mp ht]
    refine ⟨?_, ?_, fun a ⟨hlow, hhigh⟩ => ?_⟩
    · cases target with
      | region r => exact ⟨hfits.1, hcursor⟩
      | boot k => exact ⟨hfits.1, hcursor⟩
    · cases target with
      | region r => exact nofun
      | boot k => exact hends
    · by_cases hgranule : a / 256 = span.base + cursor
      · rw [hbyte, if_pos hgranule]
      · exact hclean a ⟨hlow, by omega⟩
  · cases target <;> rfl
  · exact le_rfl
  · cases target <;> rfl

/-- A clear step clears the granule at its cursor (R140). -/
theorem clearStep {m : Move} {vacated dirty : Extent} {cursor : Nat}
    (h : s.Arranged (.compaction (.clear m vacated dirty cursor) :: rest)) (hcursor : cursor < dirty.length)
    (hr : ∀ r, t.region r = s.region r) (hf : t.freeList = s.freeList)
    (ha : t.array = s.array.clearGranule (dirty.base + cursor)) :
    t.Arranged (.compaction (.clear m vacated dirty (cursor + 1)) :: rest) := by
  have hbyte : ∀ a, t.byteAt a = if a / 256 = dirty.base + cursor then 0 else s.byteAt a := fun a => by
    rw [State.byteAt, ha, Memory.read_clearGranule]; rfl
  have hcleared : t.Arranged (.compaction (.clear m vacated dirty cursor) :: rest) :=
    h.of_same (fun r => by rw [hr r]; exact .refl _) hf (by rw [ha]; exact Memory.wf_clearGranule _ h.memory) fun a => by
      rw [hbyte]
      split
      · exact .inr (.inl rfl)
      · exact .inl rfl
  refine hcleared.retask (old := [_]) (new := [_]) (fun task ht => ?_) rfl le_rfl (fun _ _ => id) fun g => rfl
  obtain ⟨⟨hmove, hvacated, hdirty, -⟩, hends, hclean⟩ := hcleared.task_of_head
  rw [List.mem_singleton.mp ht]
  refine ⟨⟨hmove, hvacated, hdirty, hcursor⟩, hends, fun a ha' => ?_⟩
  by_cases hgranule : a / 256 = dirty.base + cursor
  · rw [hbyte, if_pos hgranule]
  · exact hclean a (ha'.imp_right fun ⟨hlow, hhigh⟩ => ⟨hlow, by omega⟩)

/-- A copy step fills the granule of the reservation at its cursor and raises the cursor (R138). -/
theorem copyStep {m : Move} {v : MoveRecord} (h : s.Arranged (.compaction (.copy m) :: rest))
    (hv : (s.region m.subject).move = some v) (hcursor : v.cursor < m.length)
    (hr : ∀ r, t.region r = if r = m.subject then { s.region r with move := some ⟨v.dest, v.cursor + 1⟩ } else s.region r)
    (hf : t.freeList = s.freeList)
    (ha : t.array = s.array.copyGranule (m.source + v.cursor) (m.extent.base + v.cursor)) :
    t.Arranged (.compaction (.copy m) :: rest) := by
  obtain ⟨⟨⟨hstop, hextent, hlength⟩, huse, hbase, hlen, w, hw, hdest, hle⟩, hends, hclean⟩ := h.task_of_head
  rw [Option.mem_def, hv] at hw
  cases hw
  have hsubject : t.region m.subject = { s.region m.subject with move := some ⟨v.dest, v.cursor + 1⟩ } := by
    rw [hr, if_pos rfl]
  have hstate : (s.region m.subject).state ≠ .scrubbing := ((RegionState.inUse_iff _).mp huse).2
  have hend := h.regionEnds m.subject ((RegionState.inUse_iff _).mp huse).1
  simp only [Extent.stop] at hstop
  -- The cursor is raised before the granule is filled, so that the granule is no longer one to keep clean.
  have hraised : ({ t with array := s.array } : State).Arranged (.compaction (.copy m) :: rest) := by
    refine h.change (old := [_]) (new := [_]) m.subject (fun i hi => ?_) hf rfl (fun task ht => ?_) (fun task ht => .inr ?_)
      (fun i => ?_) le_rfl (fun i hi => ?_) (fun g _ => ?_) fun _ => ?_
    · exact (hr i).trans (if_neg hi)
    · rw [List.mem_singleton.mp ht]
      refine ⟨?_, hends, fun a ⟨u, hu, hlow, hhigh⟩ => hclean a ⟨v, hv, ?_, hhigh⟩⟩
      · have hmove : ({ t with array := s.array } : State).region m.subject =
          { s.region m.subject with move := some ⟨v.dest, v.cursor + 1⟩ } := hsubject
        show State.phaseLawful _ (.copy m)
        simp only [State.phaseLawful, hmove]
        exact ⟨⟨hstop, hextent, hlength⟩, huse, hbase, hlen, ⟨v.dest, v.cursor + 1⟩, rfl, hdest, hcursor⟩
      · have hu' : (t.region m.subject).move = some u := hu
        rw [hsubject] at hu'
        cases hu'
        dsimp only at hlow
        omega
    · refine ⟨h.region?_ne hstate (List.mem_cons_of_mem _ ht), ?_⟩
      rw [h.subject?_of_rest ht]
      nofun
    · have hsame : (t.region i).state = (s.region i).state := by rw [hr i]; split <;> rfl
      show _ + _ = _ + if (t.region i).state = .scrubbing then 1 else 0
      rw [hsame]
    · have hi' : (t.region i).move ≠ none := hi
      rw [hr i] at hi'
      split at hi'
      · next hsub => exact .inl (by simp [Task.subject?, hsub])
      · next hsub => exact .inr ⟨by simpa [List.filterMap_cons, Task.subject?] using hsub, hi'⟩
    · show (t.region m.subject).count g + _ = _
      rw [hsubject]
      rfl
    · show (t.region m.subject).base + (t.region m.subject).length ≤ 2048
      rw [hsubject]
      exact hend
  have hmoved : ({ t with array := s.array } : State).region m.subject =
      { s.region m.subject with move := some ⟨v.dest, v.cursor + 1⟩ } := hsubject
  refine hraised.of_same (fun r => .refl _) rfl ?_ fun a => ?_
  · rw [ha]
    exact Memory.wf_copyGranule _ _ (by omega) h.memory
  · have hbyte : t.byteAt a = if a / 256 = m.extent.base + v.cursor then s.byteAt (256 * (m.source + v.cursor) + a % 256)
        else s.byteAt a := by
      rw [State.byteAt, ha, Memory.read_copyGranule]; rfl
    by_cases hgranule : a / 256 = m.extent.base + v.cursor
    · refine .inr (.inr ?_)
      by_cases hin : m.extent.base + v.cursor < m.extent.stop
      · refine hraised.unclean_of_task (task := .compaction (.copy m)) (by simp) ?_ ?_
        · rw [Task.count_eq_one_iff]
          exact ⟨m.extent, rfl, (Extent.contains_iff ..).mpr ⟨by omega, by rw [Extent.stop] at hin; omega⟩⟩
        · rintro ⟨u, hu, hlow, -⟩
          rw [hmoved] at hu
          cases hu
          dsimp only at hlow
          omega
      · refine hraised.unclean_of_region (r := m.subject) ?_ (by rw [hmoved]; exact hstate)
        rw [hmoved, Region.count_eq_one_iff]
        rw [Extent.stop] at hin
        exact ⟨((RegionState.inUse_iff _).mp huse).1, by dsimp only; omega, by dsimp only; omega⟩
    · exact .inl (by rw [hbyte, if_neg hgranule]; rfl)

/-! ### The ends of jobs -/

/-- The end of a region's scrub frees its record and gives its extent to the free list (R124, R30). -/
theorem regionScrubEnd {r : RegionId} {span : Extent} {cursor : Nat}
    (h : s.Arranged (.scrub (.region r) span cursor :: rest)) (hend : span.length ≤ cursor)
    (hpos : 1 ≤ (s.region r).length) (g : Byte) :
    ((s.setRegion r (Region.cleared g)).withFree ⟨(s.region r).base, (s.region r).length⟩).Arranged rest := by
  obtain ⟨⟨rfl, -⟩, hends, hclean⟩ := h.task_of_head
  have hscrub : (s.region r).state = .scrubbing := (h.scrubbing_iff r).mpr (by simp [Task.region?])
  have hstop := h.regionEnds r (by rw [hscrub]; nofun)
  have hdistinct := h.distinct
  refine Arranged.withFree (h.change (old := [_]) (new := [_]) r (fun i hi => ?_) rfl rfl (fun task ht => ?_)
    (fun task ht => .inr ⟨fun hregion => ?_, fun hsubject => ?_⟩) (fun i => ?_) (Nat.zero_le _) (fun i hi => ?_) (fun k _ => ?_)
    fun hstate => ?_)
  · rw [State.region_setRegion, if_neg hi]
  · rw [List.mem_singleton.mp ht]
    refine ⟨hpos, fun e he => by cases he; exact hstop, fun a ha => hclean a ?_⟩
    have ha' := (Extent.contains_iff ..).mp ha
    exact ⟨ha'.1, by dsimp only at *; omega⟩
  · have : r ∈ rest.filterMap Task.region? := List.mem_filterMap.mpr ⟨task, ht, hregion⟩
    exact (List.nodup_cons.mp hdistinct).1 this
  · have := (of_subject? (h.lawful task (List.mem_cons_of_mem _ ht)) hsubject).1
    rw [hscrub] at this
    cases this
  · rw [State.region_setRegion]
    by_cases hi : i = r
    · subst hi
      simp [List.filterMap_cons, Task.region?, hscrub, Region.cleared]
    · simp [List.filterMap_cons, Task.region?, hi, Ne.symm hi]
  · rw [State.region_setRegion] at hi
    split at hi
    · exact absurd rfl hi
    · exact .inr ⟨by simp [List.filterMap_cons, Task.subject?], hi⟩
  · rw [State.region_setRegion, if_pos rfl, Region.count_of_ne_vacant (x := s.region r) (by rw [hscrub]; nofun)]
    simp [Region.count, Region.cleared, Task.count, Task.span?]
  · rw [State.region_setRegion, if_pos rfl] at hstate
    exact absurd rfl hstate

/-- The end of a boot scrub gives its boot extent to the free list (R125). -/
theorem bootScrubEnd {k : Fin 8} {span : Extent} {cursor : Nat} (h : s.Arranged (.scrub (.boot k) span cursor :: rest))
    (hend : span.length ≤ cursor) : (s.withFree span).Arranged rest := by
  obtain ⟨⟨hspan, -⟩, hends, hclean⟩ := h.task_of_head
  refine Arranged.withFree (h.retask (old := [_]) (new := [_]) (fun task ht => ?_) rfl le_rfl (fun _ _ => id) fun g => rfl)
  rw [List.mem_singleton.mp ht]
  refine ⟨?_, hends, fun a ha => hclean a ?_⟩
  · show 1 ≤ span.length
    rw [hspan]
    exact (by decide : 1 ≤ 256)
  · have ha' := (Extent.contains_iff ..).mp ha
    exact ⟨ha'.1, by omega⟩

/-- The end of CLEAR gives the vacated span to the free list (R141). -/
theorem clearEnd {m : Move} {vacated dirty : Extent} {cursor : Nat}
    (h : s.Arranged (.compaction (.clear m vacated dirty cursor) :: rest)) (hend : dirty.length ≤ cursor) :
    (s.withFree vacated).Arranged (.compaction .scan :: rest) := by
  obtain ⟨⟨⟨hstop, hextent, hlength⟩, rfl, rfl, -⟩, hends, hclean⟩ := h.task_of_head
  refine Arranged.withFree (h.retask (old := [_]) (new := [.freed m.vacated, .compaction .scan]) (fun task ht => ?_) rfl
    le_rfl (fun _ _ hi => by cases hi) fun g => rfl)
  rcases List.mem_pair.mp ht with rfl | rfl
  · refine ⟨hextent, hends, fun a ha => hclean a ?_⟩
    have ha' := (Extent.contains_iff ..).mp ha
    simp only [State.holdsClean, Move.vacated, Move.dirty, Extent.stop] at *
    omega
  · exact ⟨trivial, nofun, fun a ha => ha.elim⟩

/-- The end of COPY moves the region to the reservation's base and leaves the vacated span above it (R139). -/
theorem copyEnd {m : Move} {v : MoveRecord} (h : s.Arranged (.compaction (.copy m) :: rest))
    (hv : (s.region m.subject).move = some v) (hend : m.length ≤ v.cursor)
    (hr : ∀ r, t.region r = if r = m.subject then { s.region r with base := v.dest, move := none } else s.region r)
    (hf : t.freeList = s.freeList) (ha : t.array = s.array) :
    t.Arranged (.compaction (.clear m m.vacated m.dirty 0) :: rest) := by
  obtain ⟨⟨⟨hstop, hextent, hlength⟩, huse, hbase, hlen, w, hw, hdest, hle⟩, hends, hclean⟩ := h.task_of_head
  rw [Option.mem_def, hv] at hw
  cases hw
  have hsubject : t.region m.subject = { s.region m.subject with base := v.dest, move := none } := by rw [hr, if_pos rfl]
  have huse' := (RegionState.inUse_iff _).mp huse
  have hregion := h.regionEnds m.subject huse'.1
  have hbyte : ∀ a, t.byteAt a = s.byteAt a := fun a => by rw [State.byteAt, ha, State.byteAt]
  simp only [Extent.stop] at hstop
  refine h.change (old := [_]) (new := [_]) m.subject (fun i hi => ?_) hf ha (fun task ht => ?_)
    (fun task ht => .inr ⟨h.region?_ne huse'.2 (List.mem_cons_of_mem _ ht), ?_⟩) (fun i => ?_) le_rfl (fun i hi => ?_)
    (fun g _ => ?_) fun _ => ?_
  · rw [hr, if_neg hi]
  · rw [List.mem_singleton.mp ht]
    refine ⟨⟨⟨hstop, hextent, hlength⟩, rfl, rfl, Nat.zero_le _⟩, ?_, fun a ha' => ?_⟩
    · intro e he
      cases he
      simp only [Move.vacated, Extent.stop]
      omega
    · rw [hbyte]
      refine hclean a ⟨v, hv, ?_⟩
      simp only [State.holdsClean, Move.vacated, Move.dirty, Extent.stop] at *
      omega
  · rw [h.subject?_of_rest ht]
    nofun
  · have hsame : (t.region i).state = (s.region i).state := by rw [hr i]; split <;> rfl
    rw [hsame]
    rfl
  · rw [hr i] at hi
    split at hi
    · exact absurd rfl hi
    · next hsub => exact .inr ⟨by simpa [List.filterMap_cons, Task.subject?] using hsub, hi⟩
  · rw [hsubject, Region.count_of_ne_vacant huse'.1, Region.count_of_ne_vacant (by exact huse'.1)]
    simp only [List.map_cons, List.map_nil, List.sum_cons, List.sum_nil, Nat.add_zero, Task.count, Task.span?,
      Option.map_some, Option.getD_some, Extent.count_eq, Move.vacated, hbase, hlen, hdest]
    split_ifs <;> omega
  · rw [hsubject]
    dsimp only
    omega

/-! ### Rounds of the compaction -/

/-- The compaction job joins the job set in SCAN (R133). -/
theorem addScan (h : s.Arranged tasks) (hnone : tasks.filterMap Task.phase? = []) :
    s.Arranged (.compaction .scan :: tasks) where
  memory := h.memory
  lawful task ht := by
    rcases List.mem_cons.mp ht with rfl | ht
    · exact ⟨trivial, nofun, fun a ha => ha.elim⟩
    · exact h.lawful task ht
  scrubs := h.scrubs
  oneCompaction := by
    show (tasks.filterMap Task.phase?).length + 1 ≤ 1
    rw [hnone]
    exact le_rfl
  moving := h.moving
  separated := h.separated
  placed g hg := by
    rw [List.map_cons, List.sum_cons, Task.count_of_no_span rfl, Nat.zero_add]
    exact h.placed g hg
  freeEnds := h.freeEnds
  freeClean := h.freeClean
  regionEnds := h.regionEnds

/-- The compaction job leaves the job set in SCAN (R148). -/
theorem dropScan (h : s.Arranged (.compaction .scan :: rest)) : s.Arranged rest :=
  h.retask (old := [_]) (new := []) nofun rfl (Nat.zero_le _) (fun _ _ hi => by cases hi) fun g => rfl

/-- A move starts: the free extent below the region becomes the reservation, clean and not yet written (R137). -/
theorem startMove {r : RegionId} {low high : List Extent} {f : Extent} (h : s.Arranged (.compaction .scan :: rest))
    (hlist : s.freeList = low ++ f :: high) (hbase : (s.region r).base = f.stop) (hlive : (s.region r).state = .live)
    (hpos : 1 ≤ (s.region r).length)
    (hr : ∀ i, t.region i = if i = r then { s.region i with move := some ⟨f.base, 0⟩ } else s.region i)
    (hf : t.freeList = low ++ high) (ha : t.array = s.array) :
    t.Arranged (.compaction (.copy ⟨r, f, (s.region r).base, (s.region r).length⟩) :: rest) := by
  have hfmem : f ∈ s.freeList := by rw [hlist]; simp
  have hfpos := h.separated.2 f hfmem
  have htaken := h.takeFree (t := { s with freeList := t.freeList }) hlist hfpos le_rfl (by rw [hf]; simp)
  have hregion : t.region r = { s.region r with move := some ⟨f.base, 0⟩ } := by rw [hr, if_pos rfl]
  have hrest : ∀ task ∈ rest, task.subject? ≠ some r := fun task ht => by
    rw [h.subject?_of_rest ht]
    nofun
  refine htaken.change (old := [_, _]) (new := [_]) r (fun i hi => ?_) rfl ha (fun task ht => ?_)
    (fun task ht => .inr ⟨h.region?_ne (by rw [hlive]; nofun) (List.mem_cons_of_mem _ ht), hrest task ht⟩) (fun i => ?_) le_rfl
    (fun i hi => ?_) (fun g _ => ?_) fun _ => ?_
  · rw [hr, if_neg hi]
    rfl
  · rw [List.mem_singleton.mp ht]
    refine ⟨?_, fun e he => ?_, fun a ⟨v, hv, hlow, hhigh⟩ => ?_⟩
    · show t.phaseLawful (.copy _)
      simp only [State.phaseLawful, hregion]
      exact ⟨⟨hbase.symm, hfpos, hpos⟩, by rw [hlive]; rfl, trivial, trivial, ⟨f.base, 0⟩, rfl, rfl, Nat.zero_le _⟩
    · cases he
      exact h.freeEnds f hfmem
    · rw [State.byteAt, ha]
      refine h.freeClean f hfmem a ((Extent.contains_iff ..).mpr ⟨by dsimp only at hlow; omega, ?_⟩)
      rw [Extent.stop] at hhigh
      exact hhigh
  · have hsame : (t.region i).state = (s.region i).state := by rw [hr i]; split <;> rfl
    rw [hsame]
    rfl
  · rw [hr i] at hi
    split at hi
    · next hir => exact .inl (by simp [Task.subject?, hir])
    · exact .inr ⟨by simp [List.filterMap_cons, Task.subject?], hi⟩
  · rw [hregion]
    rfl
  · rw [hregion]
    exact h.regionEnds r (by rw [hlive]; nofun)

/-! ### Regions made and retired -/

/-- A VACANT record is no task's. -/
theorem not_mentioned_of_vacant {r : RegionId} (h : s.Arranged tasks) (hr : (s.region r).state = .vacant) {task : Task}
    (ht : task ∈ tasks) : task.region? ≠ some r ∧ task.subject? ≠ some r := by
  refine ⟨h.region?_ne (by rw [hr]; nofun) ht, fun hs => ?_⟩
  have := (of_subject? (h.lawful task ht) hs).1
  rw [hr] at this
  cases this

/-- A CREATE makes a region of the lowest granules of a free extent (R16, R31). -/
theorem create {r : RegionId} {n base : Nat} {list : List Extent} (h : s.Arranged tasks)
    (hfit : firstFit s.freeList n = some (base, list)) (hpos : 1 ≤ n) (hr : (s.region r).state = .vacant)
    (hothers : ∀ i, i ≠ r → t.region i = s.region i) (hlive : (t.region r).state = .live)
    (hbase : (t.region r).base = base) (hlength : (t.region r).length = n) (hmove : (t.region r).move = none)
    (hf : t.freeList = list) (ha : t.array = s.array) :
    t.Arranged tasks ∧ ∀ a, base ≤ a / 256 → a / 256 < base + n → t.byteAt a = 0 := by
  obtain ⟨low, f, high, hlist, -, hle, rfl, rfl⟩ := firstFit_cases hfit
  have htaken := h.takeFree (t := { s with freeList := t.freeList }) hlist hpos hle (by rw [hf])
  obtain ⟨-, hstop, hclean⟩ := htaken.task_of_head
  have hends : f.base + n ≤ 2048 := hstop _ rfl
  refine ⟨htaken.change (old := [_]) (new := []) r (fun i hi => ?_) rfl ha nofun
    (fun task ht => .inr (h.not_mentioned_of_vacant hr ht)) (fun i => ?_) le_rfl (fun i hi => ?_) (fun g _ => ?_) fun _ => ?_,
    fun a hlow hhigh => ?_⟩
  · exact hothers i hi
  · by_cases hi : i = r
    · subst hi
      simp only [hlive, reduceCtorEq, if_false]
      show _ + (if (s.region i).state = .scrubbing then 1 else 0) = _
      simp [List.filterMap_cons, hr, Task.region?]
    · rw [hothers i hi]
      simp only [Task.region?, List.filterMap_cons, List.filterMap_nil]
      rfl
  · by_cases hir : i = r
    · subst hir
      exact absurd hmove hi
    · rw [hothers i hir] at hi
      exact .inr ⟨by simp [List.filterMap_cons, Task.subject?], hi⟩
  · have hold : ({ s with freeList := t.freeList } : State).region r = s.region r := rfl
    rw [Region.count_of_ne_vacant (by rw [hlive]; nofun), hold, Region.count, if_pos hr, hbase, hlength]
    simp [Task.count, Task.span?]
  · rw [hbase, hlength]
    exact hends
  · rw [State.byteAt, ha]
    exact hclean a ((Extent.contains_iff ..).mpr ⟨hlow, hhigh⟩)

/-- A region in use that is not being moved enters SCRUBBING over its own extent (R8). -/
theorem retire {r : RegionId} (h : s.Arranged tasks) (huse : (s.region r).state.inUse = true)
    (hmove : (s.region r).move = none) (hothers : ∀ i, i ≠ r → t.region i = s.region i)
    (hstate : (t.region r).state = .scrubbing) (hbase : (t.region r).base = (s.region r).base)
    (hlength : (t.region r).length = (s.region r).length) (hmove' : (t.region r).move = none)
    (hf : t.freeList = s.freeList) (ha : t.array = s.array) :
    t.Arranged (.scrub (.region r) ⟨(s.region r).base, (s.region r).length⟩ 0 :: tasks) := by
  obtain ⟨hvacant, hscrub⟩ := (RegionState.inUse_iff _).mp huse
  refine State.Arranged.change (old := []) (new := [_]) h r hothers hf ha (fun task ht => ?_)
    (fun task ht => .inr ⟨h.region?_ne hscrub ht, fun hs => (of_subject? (h.lawful task ht) hs).2 hmove⟩) (fun i => ?_) le_rfl
    (fun i hi => ?_) (fun g _ => ?_) fun _ => ?_
  · rw [List.mem_singleton.mp ht]
    exact ⟨⟨by rw [hbase, hlength], Nat.zero_le _⟩, nofun, fun a ⟨hlow, hhigh⟩ => absurd hhigh (by omega)⟩
  · by_cases hi : i = r
    · subst hi
      simp [Task.region?, hstate, hscrub]
    · rw [hothers i hi]
      simp [Task.region?, Ne.symm hi]
  · by_cases hir : i = r
    · subst hir
      exact absurd hmove' hi
    · rw [hothers i hir] at hi
      exact .inr ⟨by simp, hi⟩
  · rw [Region.count_of_ne_vacant (by rw [hstate]; nofun), Region.count_of_ne_vacant hvacant, hbase, hlength]
    rfl
  · rw [hbase, hlength]
    exact h.regionEnds r hvacant

/-- A region that is being moved enters SCRUBBING: the move is abandoned, and the span to scrub is the reservation and the old
extent together (R9, R142). -/
theorem retireMoving {r : RegionId} {v : MoveRecord} {m : Move} (h : s.Arranged (.compaction (.copy m) :: rest))
    (hm : m.subject = r) (hmove : (s.region r).move = some v) (hothers : ∀ i, i ≠ r → t.region i = s.region i)
    (hstate : (t.region r).state = .scrubbing) (hbase : (t.region r).base = v.dest)
    (hlength : (t.region r).length = (s.region r).base + (s.region r).length - v.dest) (hmove' : (t.region r).move = none)
    (hf : t.freeList = s.freeList) (ha : t.array = s.array) :
    t.Arranged (.scrub (.region r) ⟨v.dest, (s.region r).base + (s.region r).length - v.dest⟩ 0 :: .compaction .scan :: rest) := by
  subst hm
  obtain ⟨⟨⟨hstop, hextent, hpos⟩, huse, hsource, hlen, w, hw, hdest, hle⟩, hends, hclean⟩ := h.task_of_head
  rw [Option.mem_def, hmove] at hw
  cases hw
  obtain ⟨hvacant, hscrub⟩ := (RegionState.inUse_iff _).mp huse
  have hend := h.regionEnds m.subject hvacant
  simp only [Extent.stop] at hstop
  refine h.change (old := [_]) (new := [_, _]) m.subject hothers hf ha (fun task ht => ?_)
    (fun task ht => .inr ⟨h.region?_ne hscrub (List.mem_cons_of_mem _ ht), ?_⟩) (fun i => ?_) le_rfl (fun i hi => ?_)
    (fun g _ => ?_) fun _ => ?_
  · rcases List.mem_pair.mp ht with rfl | rfl
    · exact ⟨⟨by rw [hbase, hlength], Nat.zero_le _⟩, nofun, fun a ⟨hlow, hhigh⟩ => absurd hhigh (by omega)⟩
    · exact ⟨trivial, nofun, fun a ha => ha.elim⟩
  · rw [h.subject?_of_rest ht]
    nofun
  · by_cases hi : i = m.subject
    · subst hi
      simp [List.filterMap_cons, Task.region?, hstate, hscrub]
    · rw [hothers i hi]
      simp [List.filterMap_cons, Task.region?, Ne.symm hi]
  · by_cases hir : i = m.subject
    · subst hir
      exact absurd hmove' hi
    · rw [hothers i hir] at hi
      exact .inr ⟨by simpa [List.filterMap_cons, Task.subject?] using hir, hi⟩
  · rw [Region.count_of_ne_vacant (by rw [hstate]; nofun), Region.count_of_ne_vacant hvacant, hbase, hlength]
    simp only [List.map_cons, List.map_nil, List.sum_cons, List.sum_nil, Nat.add_zero, Task.count, Task.span?,
      Option.map_some, Option.map_none, Option.getD_some, Option.getD_none, Extent.count_eq, hsource, hlen, hdest]
    split_ifs <;> omega
  · rw [hbase, hlength]
    omega

end State.Arranged

end Sys2Proof.Machine
end

section
/-! PROOFS. The laws about records, bindings, holdings and names, and the ways the Table Controller changes them: a change of slots,
a change of one record, a change of the directory. -/
namespace Sys2Proof.Machine

/-- The laws that speak of records, slots, holdings and names, and not of the array (R1, R60, R80, R14, R42). -/
structure State.TableLaws (s : State) : Prop where
  records : s.RecordLaw
  bindings : s.BindingLaw
  rights : s.RightsLaw
  holdings : s.HoldingsLaw
  directory : s.DirectoryLaw

theorem State.Lawful.tableLaws {s : State} (h : s.Lawful) : s.TableLaws :=
  ⟨h.records, h.bindings, h.rights, h.holdings, h.directory⟩

/-! ### Counting bindings -/

theorem countP_eq_sum {α : Type} (f : α → Bool) (l : List α) : l.countP f = (l.map fun a => if f a then 1 else 0).sum := by
  induction l with
  | nil => rfl
  | cons a l ih => rw [List.countP_cons, List.map_cons, List.sum_cons, ih, Nat.add_comm]

theorem Port.boundCount_eq_sum (q : Port) (r : RegionId) :
    q.boundCount r = ((List.finRange 32).map fun i => if (q.slot i).binds r then 1 else 0).sum := by
  rw [Port.boundCount, Port.countP_slots, ← List.countP_eq_length_filter, countP_eq_sum]

theorem Port.boundCount_of_binds {q q' : Port} {r r' : RegionId} (h : ∀ i, (q.slot i).binds r = (q'.slot i).binds r') :
    q.boundCount r = q'.boundCount r' := by
  simp only [Port.boundCount_eq_sum, h]

theorem Port.boundCount_eq_zero {q : Port} {r : RegionId} (h : ∀ i, (q.slot i).binds r = false) : q.boundCount r = 0 := by
  simp [Port.boundCount_eq_sum, h]

theorem Port.boundCount_change {q q' : Port} {i : SlotIndex} (h : ∀ j, j ≠ i → q'.slot j = q.slot j) (r : RegionId) :
    q'.boundCount r + (if (q.slot i).binds r then 1 else 0) = q.boundCount r + if (q'.slot i).binds r then 1 else 0 := by
  rw [Port.boundCount_eq_sum, Port.boundCount_eq_sum]
  exact sum_finRange_add (f := fun j => if (q'.slot j).binds r then 1 else 0)
    (k := fun j => if (q.slot j).binds r then 1 else 0) i fun j hj => by rw [h j hj]

theorem Port.one_le_boundCount {q : Port} {i : SlotIndex} {r : RegionId} (h : (q.slot i).binds r = true) :
    1 ≤ q.boundCount r := by
  rw [Port.boundCount_eq_sum]
  have := le_sum_finRange (fun j => if (q.slot j).binds r then 1 else 0) i
  simpa only [h, if_true] using this

theorem State.boundCount_eq (s : State) (r : RegionId) :
    s.boundCount r = (s.port .p0).boundCount r + ((s.port .p1).boundCount r + ((s.port .p2).boundCount r +
      (s.port .p3).boundCount r)) := rfl

theorem State.boundCount_congr {s t : State} {r : RegionId} (h : ∀ p, (t.port p).boundCount r = (s.port p).boundCount r) :
    t.boundCount r = s.boundCount r := by
  simp only [State.boundCount_eq, h]

theorem State.boundCount_change {s t : State} {p : PortId} {r : RegionId}
    (h : ∀ x, x ≠ p → (t.port x).boundCount r = (s.port x).boundCount r) :
    t.boundCount r + (s.port p).boundCount r = s.boundCount r + (t.port p).boundCount r := by
  simp only [State.boundCount_eq]
  cases p
  · rw [h .p1 nofun, h .p2 nofun, h .p3 nofun]; omega
  · rw [h .p0 nofun, h .p2 nofun, h .p3 nofun]; omega
  · rw [h .p0 nofun, h .p1 nofun, h .p3 nofun]; omega
  · rw [h .p0 nofun, h .p1 nofun, h .p2 nofun]; omega

theorem State.port_boundCount_le (s : State) (p : PortId) (r : RegionId) : (s.port p).boundCount r ≤ s.boundCount r := by
  rw [State.boundCount_eq]
  cases p <;> omega

/-- What a bound slot says, in the two ways the model says it. -/
theorem Slot.binds_of_binding {x : Slot} {b : RegionId × Rights} (h : b ∈ x.binding?) : x.binds b.1 = true := by
  cases x with
  | bound r rights origin => cases h; simp [Slot.binds]
  | _ => cases h

theorem Slot.exists_binding {x : Slot} {r : RegionId} (h : x.binds r = true) : ∃ rights, (r, rights) ∈ x.binding? := by
  obtain ⟨rights, origin, rfl⟩ := (Slot.binds_iff r x).mp h
  exact ⟨rights, rfl⟩

theorem Slot.binds_of_not_isBound {x : Slot} (h : x.isBound = false) (r : RegionId) : x.binds r = false := by
  cases x with
  | bound _ _ _ => cases h
  | _ => rfl

theorem Slot.mem_binding?_lapsedFrom {r : RegionId} {cause : LapseCause} {x : Slot} {b : RegionId × Rights} :
    b ∈ (x.lapsedFrom r cause).binding? ↔ b ∈ x.binding? ∧ b.1 ≠ r := by
  cases x with
  | bound r' rights origin =>
    by_cases h : r' = r
    · simp only [Slot.lapsedFrom, if_pos h, Slot.binding?, Option.mem_def, reduceCtorEq, false_iff, Option.some.injEq]
      rintro ⟨rfl, hne⟩
      exact hne h
    · simp only [Slot.lapsedFrom, if_neg h, Slot.binding?, Option.mem_def, Option.some.injEq]
      exact ⟨fun hb => ⟨hb, by rw [← hb]; exact h⟩, And.left⟩
  | _ => simp [Slot.lapsedFrom, Slot.binding?]

theorem Slot.binds_lapsedFrom (r k : RegionId) (cause : LapseCause) (x : Slot) :
    (x.lapsedFrom r cause).binds k = (x.binds k && decide (k ≠ r)) := by
  cases x with
  | bound r' rights origin =>
    by_cases h : r' = r
    · by_cases hk : r = k
      · simp [Slot.lapsedFrom, Slot.binds, h, hk]
      · simp [Slot.lapsedFrom, Slot.binds, h, hk]
    · by_cases hk : r' = k
      · subst hk
        simp [Slot.lapsedFrom, Slot.binds, h]
      · simp [Slot.lapsedFrom, Slot.binds, h, hk]
  | _ => rfl

theorem Slot.binds_narrow (r k : RegionId) (x : Slot) : (x.narrow r).binds k = x.binds k := by
  cases x with
  | bound r' rights origin => by_cases hr : r' = r <;> simp [Slot.narrow, Slot.binds, hr]
  | _ => rfl

theorem Slot.mem_binding?_narrow {r : RegionId} {x : Slot} {b : RegionId × Rights} (h : b ∈ (x.narrow r).binding?) :
    (b.1 ≠ r ∧ b ∈ x.binding?) ∨ (b.1 = r ∧ b.2 = .read ∧ x.binds r = true) := by
  cases x with
  | bound r' rights origin =>
    by_cases hr : r' = r
    · simp only [Slot.narrow, if_pos hr] at h
      cases h
      exact .inr ⟨hr, rfl, by simp [Slot.binds, hr]⟩
    · simp only [Slot.narrow, if_neg hr] at h
      cases h
      exact .inl ⟨hr, rfl⟩
  | _ => cases h

theorem Port.boundCount_lapse (q : Port) (r k : RegionId) (cause : LapseCause) :
    (q.lapse r cause).boundCount k = if k = r then 0 else q.boundCount k := by
  split
  · next h => exact Port.boundCount_eq_zero fun i => by rw [Port.lapse_slot, Slot.binds_lapsedFrom, h]; simp
  · next h => exact Port.boundCount_of_binds fun i => by rw [Port.lapse_slot, Slot.binds_lapsedFrom]; simp [h]

theorem rightsCover_trans {have_ : Option Rights} {mid want : Rights} (h : rightsCover have_ mid = true)
    (h' : rightsCover (some mid) want = true) : rightsCover have_ want = true := by
  simp only [rightsCover, decide_eq_true_eq] at *
  exact le_trans h' h

/-- The granules of a record that count for a port's holdings (R14). -/
def Region.heldBy (x : Region) (p : PortId) : Nat :=
  if x.owner = p ∧ x.state.inUse = true then x.length else 0

namespace State.TableLaws

variable {s t : State}

theorem inUse_of_binding (h : s.TableLaws) {p : PortId} {i : SlotIndex} {b : RegionId × Rights}
    (hb : b ∈ ((s.port p).slot i).binding?) : (s.region b.1).state.inUse = true := h.bindings.2 p i b hb

/-- A bound slot is one of its region's bindings. -/
theorem bindings_pos (h : s.TableLaws) {p : PortId} {i : SlotIndex} {r : RegionId}
    (hb : ((s.port p).slot i).binds r = true) : 1 ≤ (s.region r).bindings := by
  rw [h.bindings.1 r]
  exact le_trans (Port.one_le_boundCount hb) (s.port_boundCount_le p r)

theorem bindings_of_idle (h : s.TableLaws) {r : RegionId} (hr : (s.region r).state.inUse = false) :
    (s.region r).bindings = 0 := by
  cases hstate : (s.region r).state with
  | vacant => rw [(h.records r).1 hstate]; rfl
  | scrubbing => exact ((h.records r).2.1 hstate).1
  | live => rw [hstate] at hr; cases hr
  | draining => rw [hstate] at hr; cases hr

theorem grants_of_idle (h : s.TableLaws) {r : RegionId} (hr : (s.region r).state.inUse = false) :
    (s.region r).grants = ⟨none, none, none, none⟩ := by
  cases hstate : (s.region r).state with
  | vacant => rw [(h.records r).1 hstate]; rfl
  | scrubbing => exact ((h.records r).2.1 hstate).2.2
  | live => rw [hstate] at hr; cases hr
  | draining => rw [hstate] at hr; cases hr

end State.TableLaws

/-! ### Names -/

namespace State.DirectoryLaw

variable {s t : State}

theorem of_same (h : s.DirectoryLaw) (hd : t.directory = s.directory)
    (hr : ∀ r, ((s.region r).state = .live → (t.region r).state = .live) ∧ (t.region r).name = (s.region r).name) :
    t.DirectoryLaw := by
  obtain ⟨hsorted, hlength, hentries, hnames⟩ := h
  rw [State.DirectoryLaw, hd]
  refine ⟨hsorted, hlength, fun e he => ⟨(hr _).1 (hentries e he).1, by rw [(hr _).2]; exact (hentries e he).2⟩,
    fun r n hn => hnames r n ?_⟩
  rw [← (hr r).2]
  exact hn

/-- The name of a region leaves with its record's (R46). -/
theorem drop (h : s.DirectoryLaw) (r : RegionId) (hothers : ∀ i, i ≠ r → t.region i = s.region i)
    (hname : (t.region r).name = none) (hd : t.directory = dropName s.directory (s.region r).name) : t.DirectoryLaw := by
  rw [h.dropName_eq r] at hd
  obtain ⟨hsorted, hlength, hentries, hnames⟩ := h
  rw [State.DirectoryLaw, hd]
  refine ⟨hsorted.filter _, le_trans (List.length_filter_le ..) hlength, fun e he => ?_, fun i n hn => ?_⟩
  · obtain ⟨hmem, hne⟩ := List.mem_filter.mp he
    rw [hothers _ (by simpa using hne)]
    exact hentries e hmem
  · by_cases hi : i = r
    · subst hi
      rw [hname] at hn
      cases hn
    · rw [hothers i hi] at hn
      exact List.mem_filter.mpr ⟨hnames i n hn, by simpa using hi⟩

/-- A new name stands in its place (R44). -/
theorem add (h : s.DirectoryLaw) {r : RegionId} {n : Word} (hothers : ∀ i, i ≠ r → t.region i = s.region i)
    (hnone : (s.region r).name = none) (hlive : (t.region r).state = .live) (hname : (t.region r).name = some n)
    (hnew : s.lookupName n = none) (hroom : s.directory.length < Config.maxNames)
    (hd : t.directory = addName ⟨n, r⟩ s.directory) : t.DirectoryLaw := by
  obtain ⟨hsorted, hlength, hentries, hnames⟩ := h
  have hfresh : ∀ d ∈ s.directory, d.name ≠ n := (s.lookupName_eq_none_iff n).mp hnew
  rw [addName_eq hsorted hfresh] at hd
  have hmem : ∀ e, e ∈ t.directory ↔ e = ⟨n, r⟩ ∨ e ∈ s.directory := fun e => by
    rw [hd]
    simp only [List.mem_append, List.mem_filter, List.mem_cons, decide_eq_true_eq]
    refine ⟨?_, ?_⟩
    · rintro (⟨he, -⟩ | he | ⟨he, -⟩)
      · exact .inr he
      · exact .inl he
      · exact .inr he
    · rintro (he | he)
      · exact .inr (.inl he)
      · have hne : e.name.toNat ≠ n.toNat := fun heq => hfresh e he (BitVec.eq_of_toNat_eq heq)
        rcases Nat.lt_or_gt_of_ne hne with hlt | hgt
        · exact .inl ⟨he, hlt⟩
        · exact .inr (.inr ⟨he, hgt⟩)
  refine ⟨?_, ?_, fun e he => ?_, fun i k hk => ?_⟩
  · rw [hd]
    refine List.pairwise_append.mpr ⟨hsorted.filter _, List.pairwise_cons.mpr ⟨fun e he => ?_, hsorted.filter _⟩,
      fun d hdl e he => ?_⟩
    · simpa using (List.mem_filter.mp he).2
    · have hlow : d.name.toNat < n.toNat := by simpa using (List.mem_filter.mp hdl).2
      rcases List.mem_cons.mp he with rfl | he
      · exact hlow
      · have hhigh : n.toNat < e.name.toNat := by simpa using (List.mem_filter.mp he).2
        exact lt_trans hlow hhigh
  · have hperm : (s.directory.filter fun d => decide (d.name.toNat < n.toNat)).length +
        (s.directory.filter fun d => decide (n.toNat < d.name.toNat)).length ≤ s.directory.length := by
      rw [← List.countP_eq_length_filter, ← List.countP_eq_length_filter]
      have := List.length_eq_countP_add_countP (fun d : DirEntry => decide (d.name.toNat < n.toNat)) (l := s.directory)
      have hle := List.countP_mono_left (l := s.directory) (p := fun d => decide (n.toNat < d.name.toNat))
        (q := fun d => decide ¬ (decide (d.name.toNat < n.toNat) = true)) fun d _ hlt => by
          simp only [decide_eq_true_eq] at hlt ⊢
          omega
      omega
    rw [hd, List.length_append, List.length_cons]
    exact le_trans (Nat.succ_le_succ hperm) hroom
  · rcases (hmem e).mp he with rfl | he
    · exact ⟨hlive, hname⟩
    · have hentry := hentries e he
      have hne : e.region ≠ r := fun heq => by
        rw [heq, hnone] at hentry
        cases hentry.2
      rw [hothers _ hne]
      exact hentry
  · by_cases hi : i = r
    · subst hi
      rw [hname] at hk
      cases hk
      exact (hmem _).mpr (.inl rfl)
    · rw [hothers i hi] at hk
      exact (hmem _).mpr (.inr (hnames i k hk))

end State.DirectoryLaw

namespace State.TableLaws

variable {s t : State}

/-! ### A change of slots -/

/-- Slots, binding counts and grants change; the rest of the records, the holdings and the directory stand. -/
theorem of_slots (h : s.TableLaws)
    (hregion : ∀ r, t.region r = { s.region r with bindings := (t.region r).bindings, grants := (t.region r).grants })
    (hidle : ∀ r, (s.region r).state.inUse = false → t.region r = s.region r)
    (howner : ∀ r, (t.region r).grants.get (s.region r).owner = none)
    (hcount : ∀ r, (t.region r).bindings = t.boundCount r)
    (hslots : ∀ p i, ∀ b ∈ ((t.port p).slot i).binding?, (s.region b.1).state.inUse = true ∧
      ((s.region b.1).owner = p ∨ rightsCover ((t.region b.1).grants.get p) b.2 = true))
    (hholdings : ∀ p, (t.port p).holdings = (s.port p).holdings) (hd : t.directory = s.directory) : t.TableLaws := by
  have hstate : ∀ r, (t.region r).state = (s.region r).state := fun r => by rw [hregion r]
  have hown : ∀ r, (t.region r).owner = (s.region r).owner := fun r => by rw [hregion r]
  have hlen : ∀ r, (t.region r).length = (s.region r).length := fun r => by rw [hregion r]
  have hname : ∀ r, (t.region r).name = (s.region r).name := fun r => by rw [hregion r]
  refine ⟨fun r => ?_, ⟨hcount, fun p i b hb => ?_⟩, fun p i b hb => ?_, fun p => ?_,
    h.directory.of_same hd fun r => ⟨fun hlive => by rw [hstate r, hlive], hname r⟩⟩
  · by_cases huse : (s.region r).state.inUse = true
    · obtain ⟨hv, hs⟩ := (RegionState.inUse_iff _).mp huse
      obtain ⟨-, -, hlive, hzero, hpos, hmax, -⟩ := h.records r
      rw [Region.lawful, hstate r, hname r, hlen r, hown r]
      exact ⟨fun hc => absurd hc hv, fun hc => absurd hc hs, hlive, hzero, hpos, hmax, howner r⟩
    · rw [hidle r (by simpa using huse)]
      exact h.records r
  · rw [hstate b.1]
    exact (hslots p i b hb).1
  · rw [hown b.1]
    exact (hslots p i b hb).2
  · rw [hholdings p, h.holdings p]
    simp only [State.ownedGranules, hown, hstate, hlen]

/-- No record, slot, holdings or name changes. -/
theorem of_same (h : s.TableLaws) (hr : ∀ r, t.region r = s.region r)
    (hp : ∀ p, (t.port p).slots = (s.port p).slots ∧ (t.port p).holdings = (s.port p).holdings)
    (hd : t.directory = s.directory) : t.TableLaws := by
  have hslot : ∀ p i, (t.port p).slot i = (s.port p).slot i := fun p i => by simp only [Port.slot, (hp p).1]
  refine h.of_slots (fun r => by rw [hr r]) (fun r _ => hr r) (fun r => ?_) (fun r => ?_) (fun p i b hb => ?_)
    (fun p => (hp p).2) hd
  · rw [hr r]
    exact (h.records r).2.2.2.2.2.2
  · rw [hr r, h.bindings.1 r]
    exact State.boundCount_congr fun p => Port.boundCount_of_binds fun i => by rw [hslot]
  · rw [hslot p i] at hb
    rw [hr b.1]
    exact ⟨h.inUse_of_binding hb, h.rights p i b hb⟩

/-- The target slot becomes BOUND (R62). -/
theorem bindSlot (h : s.TableLaws) {p : PortId} {i : SlotIndex} {r : RegionId} {rights : Rights} {origin : Word}
    (hslot : ((s.port p).slot i).isBound = false) (huse : (s.region r).state.inUse = true)
    (hcover : (s.region r).owner = p ∨ rightsCover ((s.region r).grants.get p) rights = true)
    (hr : ∀ k, t.region k = if k = r then { s.region k with bindings := (s.region k).bindings + 1 } else s.region k)
    (hp : ∀ x j, (t.port x).slot j = if x = p ∧ j = i then .bound r rights origin else (s.port x).slot j)
    (hholdings : ∀ x, (t.port x).holdings = (s.port x).holdings) (hd : t.directory = s.directory) : t.TableLaws := by
  refine h.of_slots (fun k => ?_) (fun k hk => ?_) (fun k => ?_) (fun k => ?_) (fun x j b hb => ?_) hholdings hd
  · rw [hr k]
    split <;> rfl
  · rw [hr k, if_neg]
    rintro rfl
    rw [huse] at hk
    cases hk
  · have := (h.records k).2.2.2.2.2.2
    rw [hr k]
    split <;> exact this
  · have hother := State.boundCount_change (s := s) (t := t) (p := p) (r := k) fun x hx =>
      Port.boundCount_of_binds fun j => by rw [hp x j, if_neg fun hc => hx hc.1]
    have hport := Port.boundCount_change (q := s.port p) (q' := t.port p) (i := i)
      (fun j hj => by rw [hp p j, if_neg fun hc => hj hc.2]) k
    have hnew : (t.port p).slot i = .bound r rights origin := by rw [hp, if_pos ⟨rfl, rfl⟩]
    rw [hnew, Slot.binds_of_not_isBound hslot] at hport
    have hold := h.bindings.1 k
    rw [hr k]
    by_cases hk : k = r
    · subst hk
      simp only [Slot.binds, decide_true, if_true, Bool.false_eq_true, if_false] at hport
      rw [if_pos rfl]
      dsimp only
      omega
    · simp only [Slot.binds, Ne.symm hk, decide_false, Bool.false_eq_true, if_false] at hport
      rw [if_neg hk]
      omega
  · have hgrants : (t.region b.1).grants = (s.region b.1).grants := by
      rw [hr b.1]
      split <;> rfl
    rw [hgrants]
    rw [hp x j] at hb
    split at hb
    · next hxj =>
      cases hb
      rw [hxj.1]
      exact ⟨huse, hcover⟩
    · exact ⟨h.inUse_of_binding hb, h.rights x j b hb⟩

/-- Slots are emptied or lapse, and each binding count falls with them (R64, R66, R68, R78). Grants may fall too, where the port
keeps no slot on the region that needs them. -/
theorem unbind (h : s.TableLaws)
    (hregion : ∀ r, t.region r = { s.region r with bindings := (t.region r).bindings, grants := (t.region r).grants })
    (hcount : ∀ r, (t.region r).bindings = t.boundCount r)
    (hslots : ∀ p i, ∀ b ∈ ((t.port p).slot i).binding?, b ∈ ((s.port p).slot i).binding? ∧
      (t.region b.1).grants.get p = (s.region b.1).grants.get p)
    (hgrants : ∀ r p, (t.region r).grants.get p = (s.region r).grants.get p ∨ (t.region r).grants.get p = none)
    (hholdings : ∀ p, (t.port p).holdings = (s.port p).holdings) (hd : t.directory = s.directory) : t.TableLaws := by
  refine h.of_slots hregion (fun r hr => ?_) (fun r => ?_) hcount (fun p i b hb => ?_) hholdings hd
  · have hzero : t.boundCount r = 0 := by
      simp only [State.boundCount_eq, Nat.add_eq_zero_iff]
      have : ∀ p, (t.port p).boundCount r = 0 := fun p => Port.boundCount_eq_zero fun i => by
        by_contra hb
        obtain ⟨rights, hb⟩ := Slot.exists_binding (by simpa using hb)
        have := h.inUse_of_binding (hslots p i _ hb).1
        rw [hr] at this
        cases this
      exact ⟨this _, this _, this _, this _⟩
    have hg : (t.region r).grants = (s.region r).grants := PerPort.ext_get fun p => by
      rcases hgrants r p with hsame | hnone
      · exact hsame
      · rw [hnone, h.grants_of_idle hr]
        cases p <;> rfl
    have hb : (t.region r).bindings = (s.region r).bindings := by
      rw [hcount r, hzero, h.bindings_of_idle hr]
    rw [hregion r, hg, hb]
  · rcases hgrants r (s.region r).owner with hsame | hnone
    · rw [hsame]
      exact (h.records r).2.2.2.2.2.2
    · exact hnone
  · obtain ⟨hbefore, hgrant⟩ := hslots p i b hb
    rw [hgrant]
    exact ⟨h.inUse_of_binding hbefore, h.rights p i b hbefore⟩

/-- The grantee's entry takes rights that cover every slot it keeps on the region (R76, R77). -/
theorem setGrant (h : s.TableLaws) {g : PortId} {r : RegionId} {asked : Option Rights} (howner : g ≠ (s.region r).owner)
    (huse : (s.region r).state.inUse = true)
    (hr : ∀ k, t.region k = if k = r then { s.region k with grants := (s.region k).grants.set g asked } else s.region k)
    (hbinds : ∀ p i k, ((t.port p).slot i).binds k = ((s.port p).slot i).binds k)
    (hslots : ∀ p i, ∀ b ∈ ((t.port p).slot i).binding?, (b.1 = r ∧ p = g ∧ rightsCover asked b.2 = true) ∨
      ((b.1 ≠ r ∨ p ≠ g) ∧ b ∈ ((s.port p).slot i).binding?))
    (hholdings : ∀ p, (t.port p).holdings = (s.port p).holdings) (hd : t.directory = s.directory) : t.TableLaws := by
  refine h.of_slots (fun k => ?_) (fun k hk => ?_) (fun k => ?_) (fun k => ?_) (fun p i b hb => ?_) hholdings hd
  · rw [hr k]
    split <;> rfl
  · rw [hr k, if_neg]
    rintro rfl
    rw [huse] at hk
    cases hk
  · have := (h.records k).2.2.2.2.2.2
    rw [hr k]
    split
    · next hk =>
      subst hk
      rw [PerPort.get_set, if_neg howner.symm]
      exact this
    · exact this
  · have : (t.region k).bindings = (s.region k).bindings := by
      rw [hr k]
      split <;> rfl
    rw [this, h.bindings.1 k]
    exact (State.boundCount_congr fun p => Port.boundCount_of_binds fun i => hbinds p i k).symm
  · rcases hslots p i b hb with ⟨rfl, rfl, hcover⟩ | ⟨hne, hbefore⟩
    · refine ⟨huse, .inr ?_⟩
      rw [hr, if_pos rfl, PerPort.get_set, if_pos rfl]
      exact hcover
    · have hgrant : (t.region b.1).grants.get p = (s.region b.1).grants.get p := by
        rw [hr]
        split
        · next hb1 => rw [PerPort.get_set, if_neg (hne.resolve_left fun hc => hc hb1)]
        · rfl
      rw [hgrant]
      exact ⟨h.inUse_of_binding hbefore, h.rights p i b hbefore⟩

/-! ### A change of one record -/

/-- One record changes, and no slot is bound to it or all that its slots rest on stands. -/
theorem of_record (h : s.TableLaws) (r : RegionId) (hothers : ∀ i, i ≠ r → t.region i = s.region i)
    (hlawful : (t.region r).lawful) (hslots : ∀ p, (t.port p).slots = (s.port p).slots)
    (hbindings : (t.region r).bindings = (s.region r).bindings)
    (hkeep : (s.region r).bindings = 0 ∨ ((t.region r).state.inUse = true ∧ (t.region r).owner = (s.region r).owner ∧
      (t.region r).grants = (s.region r).grants))
    (hholdings : ∀ p, (t.port p).holdings + (s.region r).heldBy p = (s.port p).holdings + (t.region r).heldBy p)
    (hd : t.DirectoryLaw) : t.TableLaws := by
  have hslot : ∀ p i, (t.port p).slot i = (s.port p).slot i := fun p i => by simp only [Port.slot, hslots p]
  have hbound : ∀ {p i b}, b ∈ ((s.port p).slot i).binding? → b.1 = r → (t.region r).state.inUse = true ∧
      (t.region r).owner = (s.region r).owner ∧ (t.region r).grants = (s.region r).grants := fun {p i b} hb hbr => by
    refine hkeep.resolve_left fun hzero => ?_
    have := h.bindings_pos (Slot.binds_of_binding hb)
    rw [hbr, hzero] at this
    exact absurd this (by decide)
  refine ⟨fun i => ?_, ⟨fun i => ?_, fun p i b hb => ?_⟩, fun p i b hb => ?_, fun p => ?_, hd⟩
  · by_cases hi : i = r
    · rw [hi]; exact hlawful
    · rw [hothers i hi]; exact h.records i
  · have hsum : t.boundCount i = s.boundCount i :=
      State.boundCount_congr fun p => Port.boundCount_of_binds fun j => by rw [hslot]
    rw [hsum, ← h.bindings.1 i]
    by_cases hi : i = r
    · rw [hi]; exact hbindings
    · rw [hothers i hi]
  · rw [hslot] at hb
    by_cases hi : b.1 = r
    · rw [hi]; exact (hbound hb hi).1
    · rw [hothers _ hi]; exact h.inUse_of_binding hb
  · rw [hslot] at hb
    have hbefore := h.rights p i b hb
    by_cases hi : b.1 = r
    · obtain ⟨-, hown, hgrants⟩ := hbound hb hi
      rw [hi] at hbefore ⊢
      rw [hown, hgrants]
      exact hbefore
    · rw [hothers _ hi]; exact hbefore
  · have hsum : t.ownedGranules p + (s.region r).heldBy p = s.ownedGranules p + (t.region r).heldBy p :=
      sum_finRange_add (f := fun i => (t.region i).heldBy p) (k := fun i => (s.region i).heldBy p) r
        fun i hi => by rw [hothers i hi]
    have hold := h.holdings p
    have hchange := hholdings p
    omega

/-- What an owner holds is part of its holdings. -/
theorem heldBy_le_holdings (h : s.TableLaws) (r : RegionId) (p : PortId) : (s.region r).heldBy p ≤ (s.port p).holdings := by
  rw [h.holdings p]
  exact le_sum_finRange (fun i => (s.region i).heldBy p) r

end State.TableLaws

end Sys2Proof.Machine
end

section
/-! PROOFS. The laws that hold at every point inside an event, and what the engine's operations and the entry to SCRUBBING do to
them. -/
namespace Sys2Proof.Machine

/-! ### Jobs, tasks and compactions of the engine -/

/-- The compaction states of the job set; at most one in a lawful state (R127). -/
def Engine.compactions (e : Engine) : List Compaction := e.jobs.filterMap Job.compaction?

theorem Engine.forall_compactions {e : Engine} {P : Compaction → Prop} :
    (∀ j ∈ e.jobs, ∀ c ∈ j.compaction?, P c) ↔ ∀ c ∈ e.compactions, P c := by
  simp only [Engine.compactions, List.mem_filterMap, Option.mem_def]
  exact ⟨fun h c ⟨j, hj, hc⟩ => h j hj c hc, fun h j hj c hc => h c ⟨j, hj, hc⟩⟩

theorem Engine.tasks_perm {e e' : Engine} (h : e'.jobs.Perm e.jobs) : e'.tasks.Perm e.tasks := h.map Job.task

theorem Engine.compactions_perm {e e' : Engine} (h : e'.jobs.Perm e.jobs) : e'.compactions.Perm e.compactions :=
  h.filterMap Job.compaction?

theorem Engine.tasks_make (e : Engine) (level : Level) (work : Work) :
    (e.make level work).tasks.Perm (Job.task ⟨level, e.nextOrder, work⟩ :: e.tasks) := (e.jobs_make level work).map Job.task

theorem Engine.compactions_make_scrub (e : Engine) (level : Level) (target : ScrubTarget) (span : Extent) (cursor : Nat) :
    (e.make level (.scrub target span cursor)).compactions.Perm e.compactions := (e.jobs_make level _).filterMap Job.compaction?

theorem Engine.compactions_make_compaction (e : Engine) (level : Level) (c : Compaction) :
    (e.make level (.compaction c)).compactions.Perm (c :: e.compactions) := (e.jobs_make level _).filterMap Job.compaction?

theorem Engine.compactions_withCompaction (e : Engine) (f : Compaction → Compaction) :
    (e.withCompaction f).compactions = e.compactions.map f := by
  rw [Engine.compactions, Engine.jobs_withCompaction, List.filterMap_map, Engine.compactions, List.map_filterMap]
  exact congrArg (List.filterMap · e.jobs) (funext (Job.compaction?_withCompaction f))

theorem Engine.compaction?_eq_head? (e : Engine) : e.compaction? = e.compactions.head? := by
  rw [Engine.compaction?, Engine.compactions, List.head?_filterMap]

/-- The jobs beside the running one. -/
def Engine.others (e : Engine) : List Job := e.stack ++ e.queue

theorem Engine.jobs_of_running {e : Engine} {j : Job} (h : e.running = some j) : e.jobs = j :: e.others := by
  rw [Engine.jobs, h]; rfl

theorem Engine.jobs_rework (e : Engine) (j : Job) : ({ e with running := some j } : Engine).jobs = j :: e.others := rfl

theorem Engine.jobs_drop (e : Engine) : ({ e with running := none } : Engine).jobs = e.others := rfl

theorem Engine.tasks_of_running {e : Engine} {j : Job} (h : e.running = some j) : e.tasks = j.task :: e.others.map Job.task := by
  rw [Engine.tasks, e.jobs_of_running h]; rfl

/-- A task whose compaction, if it is one, is back in SCAN (R142). -/
def Task.abandoned : Task → Task
  | .compaction _ => .compaction .scan
  | task => task

theorem Task.map_abandoned {tasks : List Task} (h : tasks.filterMap Task.phase? = []) : tasks.map Task.abandoned = tasks := by
  have hnone := List.filterMap_eq_nil_iff.mp h
  refine (List.map_congr_left fun task ht => ?_).trans tasks.map_id
  cases task with
  | compaction phase => cases hnone _ ht
  | scrub _ _ _ => rfl
  | freed _ => rfl

theorem Engine.tasks_abandon (e : Engine) (dest : Nat) :
    (e.withCompaction (Compaction.abandon dest)).tasks = e.tasks.map Task.abandoned := by
  rw [Engine.tasks, Engine.jobs_withCompaction, List.map_map, Engine.tasks, List.map_map]
  refine List.map_congr_left fun j _ => ?_
  obtain ⟨level, order, work⟩ := j
  cases work <;> rfl

theorem Engine.tasks_withCompaction (e : Engine) {f : Compaction → Compaction} (h : ∀ c, (f c).phase = c.phase) :
    (e.withCompaction f).tasks = e.tasks := by
  rw [Engine.tasks, Engine.jobs_withCompaction, List.map_map, Engine.tasks]
  refine List.map_congr_left fun j _ => ?_
  obtain ⟨level, order, work⟩ := j
  cases work with
  | scrub target span cursor => rfl
  | compaction c => exact congrArg Task.compaction (h c)

/-- The running job's work changes, its level and making order not. -/
theorem Engine.Ordered.rework {e : Engine} {level : Level} {order : Nat} {work : Work} (h : e.Ordered)
    (hrun : e.running = some ⟨level, order, work⟩) (work' : Work) :
    ({ e with running := some ⟨level, order, work'⟩ } : Engine).Ordered := by
  obtain ⟨run, stack, queue, next⟩ := e
  cases hrun
  obtain ⟨hqueue, horders, hchain, hlength, -⟩ := h
  refine ⟨hqueue, ?_, ?_, hlength, nofun⟩
  · rw [Engine.jobs_rework]
    rw [Engine.jobs_of_running rfl] at horders
    intro j hj
    rcases List.mem_cons.mp hj with rfl | hj
    · exact horders ⟨level, order, work⟩ List.mem_cons_self
    · exact horders j (List.mem_cons_of_mem _ hj)
  · exact List.pairwise_cons.mpr (List.pairwise_cons.mp hchain)

/-! ### The next granule step -/

theorem State.granuleNext_of_idle {s : State} (h : s.engine.running = none) : s.granuleNext = false := by
  rw [State.granuleNext, h]

theorem State.granuleNext_congr {s t : State} (he : t.engine = s.engine) (hr : ∀ r, (t.region r).move = (s.region r).move) :
    t.granuleNext = s.granuleNext := by
  simp only [State.granuleNext, he, hr]

theorem State.granuleNext_withCompaction {s : State} {f : Compaction → Compaction} (h : ∀ c, (f c).phase = c.phase) :
    ({ s with engine := s.engine.withCompaction f } : State).granuleNext = s.granuleNext := by
  unfold State.granuleNext
  simp only [Engine.withCompaction]
  rcases s.engine.running with _ | ⟨level, order, target | c⟩
  · rfl
  · rfl
  · simp only [Option.map_some, Job.withCompaction, h]
    rfl

/-! ### Laws inside an event -/

/-- The laws that hold at every point inside an event, while the engine has yet to choose and a port may be half reset. -/
structure State.Sound (s : State) : Prop where
  tables : s.TableLaws
  arranged : s.Arranged s.engine.tasks
  inOrder : s.engine.InOrder
  ports : s.PortLaw
  claims : s.ClaimLaw

theorem State.Lawful.sound {s : State} (h : s.Lawful) : s.Sound :=
  ⟨h.tableLaws, h.arranged, h.ordered.inOrder, h.ports, h.claims⟩

theorem State.Sound.lawful {s : State} (h : s.Sound) (hordered : s.engine.Ordered) (hheld : s.HeldLaw) : s.Lawful where
  memory := h.arranged.memory
  records := h.tables.records
  bindings := h.tables.bindings
  rights := h.tables.rights
  holdings := h.tables.holdings
  directory := h.tables.directory
  jobs := h.arranged.jobLaw
  ordered := hordered
  moves := h.arranged.moveLaw
  freeList := h.arranged.separated
  placement := h.arranged.placementLaw
  clean := h.arranged.cleanLaw
  held := hheld
  ports := h.ports
  claims := h.claims

namespace State.Sound

variable {s t : State}

/-- Records, slots, ports and waiting claims change lawfully, and neither the engine nor what the array holds does. -/
theorem of_tables (h : s.Sound) (ht : t.TableLaws) (he : t.engine = s.engine) (hr : ∀ r, (t.region r).SameSpace (s.region r))
    (hf : t.freeList = s.freeList) (ha : t.array = s.array) (hp : ∀ p, (t.port p).lawful) (hw : t.waits = s.waits) :
    t.Sound where
  tables := ht
  arranged := by rw [he]; exact h.arranged.of_sameSpace hr hf ha
  inOrder := by rw [he]; exact h.inOrder
  ports := ⟨hp, by rw [he]; exact h.ports.2⟩
  claims := by
    rw [State.ClaimLaw, hw, State.granuleNext_congr he fun r => (hr r).move]
    exact h.claims

/-- Port fields beside slots and holdings change. -/
theorem of_ports (h : s.Sound) (he : t.engine = s.engine) (hr : ∀ r, t.region r = s.region r)
    (hf : t.freeList = s.freeList) (ha : t.array = s.array) (hd : t.directory = s.directory) (hw : t.waits = s.waits)
    (hs : ∀ p, (t.port p).slots = (s.port p).slots ∧ (t.port p).holdings = (s.port p).holdings)
    (hp : ∀ p, (t.port p).lawful) : t.Sound :=
  h.of_tables (h.tables.of_same hr hs hd) he (fun r => by rw [hr r]; exact .refl _) hf ha hp hw

/-- The engine changes, its tasks not. -/
theorem withEngine {e : Engine} (h : s.Sound) (ht : e.tasks.Perm s.engine.tasks) (ho : e.InOrder)
    (hc : ∀ c ∈ e.compactions, c.regionsMoved ≤ Config.maxMoved ∧ c.granulesMoved ≤ Config.maxGranulesMoved)
    (hn : s.waits.step = true → ({ s with engine := e } : State).granuleNext = true) : ({ s with engine := e } : State).Sound where
  tables := h.tables.of_same (fun _ => rfl) (fun _ => ⟨rfl, rfl⟩) rfl
  arranged := (h.arranged.perm ht).of_sameSpace (fun _ => .refl _) rfl rfl
  inOrder := ho
  ports := ⟨h.ports.1, Engine.forall_compactions.mpr hc⟩
  claims := ⟨h.claims.1, hn⟩

theorem counts (h : s.Sound) : ∀ c ∈ s.engine.compactions,
    c.regionsMoved ≤ Config.maxMoved ∧ c.granulesMoved ≤ Config.maxGranulesMoved := Engine.forall_compactions.mp h.ports.2

/-- The engine's choice (R114). -/
theorem choose (h : s.Sound) : (s.withEngine Engine.choose).Sound := by
  refine h.withEngine (Engine.tasks_perm s.engine.jobs_choose) h.inOrder.choose.inOrder
    (fun c hc => h.counts c ((Engine.compactions_perm s.engine.jobs_choose).mem_iff.mp hc)) fun hstep => ?_
  have hnext := h.claims.2 hstep
  cases hrun : s.engine.running with
  | none =>
    rw [State.granuleNext_of_idle hrun] at hnext
    cases hnext
  | some j =>
    rw [Engine.choose, hrun]
    exact hnext

/-- A change of the compaction's issuer or halt request (R144, R146). -/
theorem withCompaction {f : Compaction → Compaction} (h : s.Sound) (hphase : ∀ c, (f c).phase = c.phase)
    (hcount : ∀ c, (f c).regionsMoved = c.regionsMoved ∧ (f c).granulesMoved = c.granulesMoved) :
    (s.withEngine fun e => e.withCompaction f).Sound := by
  refine h.withEngine (by rw [Engine.tasks_withCompaction _ hphase]) (h.inOrder.withCompaction f) (fun c hc => ?_) fun hstep => ?_
  · rw [Engine.compactions_withCompaction] at hc
    obtain ⟨d, hd, rfl⟩ := List.mem_map.mp hc
    rw [(hcount d).1, (hcount d).2]
    exact h.counts d hd
  · rw [State.granuleNext_withCompaction hphase]
    exact h.claims.2 hstep

end State.Sound

/-! ### The entry to SCRUBBING (R8, R9) -/

theorem Port.lawful_holdings {q : Port} (h : q.lawful) (n : Nat) : ({ q with holdings := n } : Port).lawful := h

theorem Port.lawful_lapse {q : Port} (h : q.lawful) (r : RegionId) (cause : LapseCause) : (q.lapse r cause).lawful := by
  obtain ⟨hfurther, hwatch, hquota, hmoved, hgranules, hlargest⟩ := h
  rw [Port.lapse]
  refine ⟨?_, hwatch, hquota, ?_, ?_, ?_⟩ <;> dsimp only <;> split <;> assumption

/-- The tasks of the engine once a region has entered SCRUBBING. -/
theorem Engine.tasks_withScrub_still (e : Engine) (r : RegionId) {x : Region} (level : Level) (h : x.move = none) :
    (e.withScrub r x level).tasks.Perm (.scrub (.region r) ⟨x.base, x.length⟩ 0 :: e.tasks) := by
  have := e.tasks_make level (.scrub (.region r) x.spanToScrub 0)
  simp only [Engine.withScrub, h, Region.spanToScrub] at *
  exact this

theorem Engine.tasks_withScrub_moving (e : Engine) (r : RegionId) {x : Region} {v : MoveRecord} {m : Move} {rest : List Task}
    (level : Level) (h : x.move = some v) (ht : e.tasks.Perm (.compaction (.copy m) :: rest))
    (hrest : rest.filterMap Task.phase? = []) :
    (e.withScrub r x level).tasks.Perm
      (.scrub (.region r) ⟨v.dest, x.base + x.length - v.dest⟩ 0 :: .compaction .scan :: rest) := by
  have hmake := (e.withCompaction (Compaction.abandon v.dest)).tasks_make level (.scrub (.region r) x.spanToScrub 0)
  have htasks : (e.withCompaction (Compaction.abandon v.dest)).tasks.Perm (.compaction .scan :: rest) := by
    rw [Engine.tasks_abandon]
    refine (ht.map Task.abandoned).trans ?_
    rw [List.map_cons, Task.map_abandoned hrest]
    exact .refl _
  simp only [Engine.withScrub, h, Region.spanToScrub] at *
  exact hmake.trans (htasks.cons _)

theorem Engine.InOrder.withScrub {e : Engine} (h : e.InOrder) (r : RegionId) (x : Region) (level : Level) :
    (e.withScrub r x level).InOrder := by
  unfold Engine.withScrub
  cases x.move with
  | none => exact h.make level _
  | some v => exact (h.withCompaction _).make level _

/-- The compaction goes on with its counts and its issuer, whatever region enters SCRUBBING. -/
theorem Engine.mem_compactions_withScrub {e : Engine} {r : RegionId} {x : Region} {level : Level} {c : Compaction}
    (h : c ∈ (e.withScrub r x level).compactions) : ∃ d ∈ e.compactions, c.issuer = d.issuer ∧
      c.regionsMoved = d.regionsMoved ∧ c.granulesMoved = d.granulesMoved := by
  unfold Engine.withScrub at h
  cases hmove : x.move with
  | none =>
    rw [hmove] at h
    exact ⟨c, (e.compactions_make_scrub ..).mem_iff.mp h, rfl, rfl, rfl⟩
  | some v =>
    rw [hmove] at h
    have h' := (Engine.compactions_make_scrub ..).mem_iff.mp h
    rw [Engine.compactions_withCompaction] at h'
    obtain ⟨d, hd, rfl⟩ := List.mem_map.mp h'
    exact ⟨d, hd, rfl, rfl, rfl⟩

namespace State.Sound

variable {s t : State} {r : RegionId}

/-- The span that a region in use is scrubbed over is not empty. -/
theorem one_le_toScrubbing (h : s.Sound) (huse : (s.region r).state.inUse = true) : 1 ≤ (s.region r).toScrubbing.length := by
  have hpos := (h.tables.records r).2.2.2.2.1 ((RegionState.inUse_iff _).mp huse).1
  cases hmove : (s.region r).move with
  | none => simpa only [Region.toScrubbing, Region.scrubSpan, hmove] using hpos
  | some v =>
    obtain ⟨m, rest, -, -, ⟨hstop, hextent, -⟩, hbase, -, hdest, -⟩ := h.arranged.exists_copy hmove
    simp only [Region.toScrubbing, Region.scrubSpan, hmove]
    simp only [Extent.stop] at hstop
    omega

theorem tables_enterScrubbing (h : s.Sound) (huse : (s.region r).state.inUse = true) (hzero : (s.region r).bindings = 0)
    (level : Level) : (s.enterScrubbing r level).TableLaws := by
  have hlength := h.one_le_toScrubbing huse
  refine h.tables.of_record r (fun i hi => by rw [State.enterScrubbing_region, if_neg hi]) ?_ (fun p => ?_) ?_ (.inl hzero)
    (fun p => ?_) (h.tables.directory.drop r (fun i hi => by rw [State.enterScrubbing_region, if_neg hi]) ?_ rfl)
  · rw [State.enterScrubbing_region, if_pos rfl]
    refine ⟨nofun, fun _ => ⟨hzero, rfl, rfl⟩, fun _ => rfl, nofun, fun _ => hlength, nofun, ?_⟩
    cases (s.region r).toScrubbing.owner <;> rfl
  · rw [State.enterScrubbing_port]
    split <;> rfl
  · rw [State.enterScrubbing_region, if_pos rfl]
    rfl
  · have hle := h.tables.heldBy_le_holdings r p
    rw [State.enterScrubbing_port, State.enterScrubbing_region, if_pos rfl]
    simp only [Region.heldBy, huse, and_true, eq_comm (a := p)] at *
    have : (s.region r).toScrubbing.state.inUse = false := rfl
    simp only [this, Bool.false_eq_true, and_false, if_false]
    split
    · next howner =>
      rw [if_pos howner] at hle
      dsimp only
      omega
    · rfl
  · rw [State.enterScrubbing_region, if_pos rfl]
    rfl

theorem arranged_enterScrubbing (h : s.Sound) (huse : (s.region r).state.inUse = true) (level : Level) :
    (s.enterScrubbing r level).Arranged (s.enterScrubbing r level).engine.tasks := by
  have hothers : ∀ i, i ≠ r → (s.enterScrubbing r level).region i = s.region i := fun i hi => by
    rw [State.enterScrubbing_region, if_neg hi]
  have hrecord : (s.enterScrubbing r level).region r = (s.region r).toScrubbing := by
    rw [State.enterScrubbing_region, if_pos rfl]
  rw [State.enterScrubbing_engine]
  cases hmove : (s.region r).move with
  | none =>
    refine State.Arranged.perm (h.arranged.retire huse hmove hothers ?_ ?_ ?_ ?_ rfl rfl)
      (Engine.tasks_withScrub_still _ r level hmove) <;> rw [hrecord] <;> simp only [Region.toScrubbing, Region.scrubSpan, hmove]
  | some v =>
    obtain ⟨m, rest, hsubject, hperm, -⟩ := h.arranged.exists_copy hmove
    have harranged := h.arranged.perm hperm.symm
    refine State.Arranged.perm (harranged.retireMoving hsubject hmove hothers ?_ ?_ ?_ ?_ rfl rfl)
      (Engine.tasks_withScrub_moving _ r level hmove hperm harranged.phase?_of_rest) <;> rw [hrecord] <;>
      simp only [Region.toScrubbing, Region.scrubSpan, hmove]

/-- A region in use without bindings enters SCRUBBING. -/
theorem enterScrubbing (h : s.Sound) (huse : (s.region r).state.inUse = true) (hzero : (s.region r).bindings = 0)
    (level : Level) : (s.enterScrubbing r level).Sound where
  tables := h.tables_enterScrubbing huse hzero level
  arranged := h.arranged_enterScrubbing huse level
  inOrder := by rw [State.enterScrubbing_engine]; exact h.inOrder.withScrub r _ level
  ports := by
    refine ⟨fun p => ?_, Engine.forall_compactions.mpr fun c hc => ?_⟩
    · rw [State.enterScrubbing_port]
      split
      · exact Port.lawful_holdings (h.ports.1 p) _
      · exact h.ports.1 p
    · rw [State.enterScrubbing_engine] at hc
      obtain ⟨d, hd, -, hmoved, hgranules⟩ := Engine.mem_compactions_withScrub hc
      rw [hmoved, hgranules]
      exact h.counts d hd
  claims := by
    refine ⟨h.claims.1, fun hstep => ?_⟩
    rw [State.enterScrubbing_waits, Bool.and_eq_true] at hstep
    exact hstep.2

/-- Every binding of a region lapses (R66). -/
theorem lapseAll (h : s.Sound) (r : RegionId) (cause : LapseCause) : (s.lapseAll r cause).Sound := by
  have hregion : ∀ k, (s.lapseAll r cause).region k = if k = r then { s.region k with bindings := 0 } else s.region k :=
    fun k => s.lapseAll_region r cause k
  refine h.of_tables (h.tables.unbind (fun k => ?_) (fun k => ?_) (fun p i b hb => ?_) (fun k p => .inl ?_) (fun p => ?_) rfl) rfl
    (fun k => ?_) rfl rfl (fun p => ?_) rfl
  · rw [hregion]
    split <;> rfl
  · have hcount : (s.lapseAll r cause).boundCount k = if k = r then 0 else s.boundCount k := by
      simp only [State.boundCount_eq, State.lapseAll_port, Port.boundCount_lapse]
      split <;> rfl
    rw [hcount, hregion]
    split
    · rfl
    · exact h.tables.bindings.1 k
  · rw [State.lapseAll_port, Port.lapse_slot, Slot.mem_binding?_lapsedFrom] at hb
    rw [hregion, if_neg hb.2]
    exact ⟨hb.1, rfl⟩
  · rw [hregion]
    split <;> rfl
  · rw [State.lapseAll_port]
    rfl
  · rw [hregion]
    split
    · exact ⟨.rfl, .rfl, rfl, rfl, rfl⟩
    · exact .refl _
  · rw [State.lapseAll_port]
    exact Port.lawful_lapse (h.ports.1 p) r cause

/-- A region enters SCRUBBING once its bindings have lapsed (R5, R7). -/
theorem retire (h : s.Sound) (huse : (s.region r).state.inUse = true) (cause : LapseCause) (level : Level) :
    ((s.lapseAll r cause).enterScrubbing r level).Sound := by
  have hrecord : (s.lapseAll r cause).region r = { s.region r with bindings := 0 } := by
    rw [State.lapseAll_region, if_pos rfl]
  exact (h.lapseAll r cause).enterScrubbing (by rw [hrecord]; exact huse) (by rw [hrecord]) level

end State.Sound

end Sys2Proof.Machine
end

section
/-! PROOFS. What each command's body leaves of a lawful state: the laws inside an event, the engine in order, and HELD ports as they
were. -/
namespace Sys2Proof.Machine

/-! ### The effects of the commands, field by field -/

@[simp] theorem State.createRegion_region (s : State) (p : PortId) (r : RegionId) (base : Nat) (rest : List Extent)
    (target : Option SlotIndex) (i : RegionId) :
    (s.createRegion p r base rest target).region i = if i = r then (s.region r).created p base (s.param p 0).toNat
      (nameField (s.param p 1)) ((s.param p 2).getLsbD 0) (if target.isSome then 1 else 0) else s.region i :=
  State.region_setRegion s r _ i

@[simp] theorem State.createRegion_port (s : State) (p : PortId) (r : RegionId) (base : Nat) (rest : List Extent)
    (target : Option SlotIndex) (x : PortId) :
    (s.createRegion p r base rest target).port x = if x = p then { (match target with
      | some i => (s.port x).setSlot i (.bound r .readWrite 0)
      | none => s.port x) with holdings := (s.port x).holdings + (s.param p 0).toNat } else s.port x := by
  cases target with
  | none => exact State.port_modifyPort s p (fun q => { q with holdings := q.holdings + (s.param p 0).toNat }) x
  | some i =>
    exact State.port_modifyPort s p (fun q =>
      { q.setSlot i (.bound r .readWrite 0) with holdings := q.holdings + (s.param p 0).toNat }) x

@[simp] theorem State.bindSlot_region (s : State) (p : PortId) (i : SlotIndex) (r : RegionId) (rights : Rights) (origin : Word)
    (k : RegionId) : (s.bindSlot p i r rights origin).region k =
      if k = r then { s.region k with bindings := (s.region k).bindings + 1 } else s.region k :=
  State.region_modifyRegion (s.modifyPort p _) r _ k

@[simp] theorem State.bindSlot_port (s : State) (p : PortId) (i : SlotIndex) (r : RegionId) (rights : Rights) (origin : Word)
    (x : PortId) : (s.bindSlot p i r rights origin).port x =
      if x = p then (s.port x).setSlot i (.bound r rights origin) else s.port x :=
  State.port_modifyPort s p (fun q => q.setSlot i (.bound r rights origin)) x

/-- A BOUND slot given up, before a drain that it may end (R64). -/
def State.unbindSlot (s : State) (p : PortId) (i : SlotIndex) (r : RegionId) : State :=
  (s.modifyPort p fun q => q.setSlot i .empty).modifyRegion r fun x => { x with bindings := x.bindings - 1 }

theorem State.closeBound_eq (s : State) (p : PortId) (i : SlotIndex) (r : RegionId) :
    s.closeBound p i r =
      if ((s.unbindSlot p i r).region r).state = .draining ∧ ((s.unbindSlot p i r).region r).bindings = 0 then
        ((s.unbindSlot p i r).enterScrubbing r (s.port p).level).withEngine Engine.choose
      else s.unbindSlot p i r := rfl

@[simp] theorem State.unbindSlot_region (s : State) (p : PortId) (i : SlotIndex) (r : RegionId) (k : RegionId) :
    (s.unbindSlot p i r).region k =
      if k = r then { s.region k with bindings := (s.region k).bindings - 1 } else s.region k :=
  State.region_modifyRegion (s.modifyPort p _) r _ k

@[simp] theorem State.unbindSlot_port (s : State) (p : PortId) (i : SlotIndex) (r : RegionId) (x : PortId) :
    (s.unbindSlot p i r).port x = if x = p then (s.port x).setSlot i .empty else s.port x :=
  State.port_modifyPort s p (fun q => q.setSlot i .empty) x

@[simp] theorem State.setGrant_region (s : State) (r : RegionId) (g : PortId) (asked : Option Rights) (k : RegionId) :
    (s.setGrant r g asked).region k =
      if k = r then { s.region k with grants := (s.region k).grants.set g asked } else s.region k :=
  State.region_modifyRegion s r _ k

@[simp] theorem State.narrowSlots_port (s : State) (g : PortId) (r : RegionId) (x : PortId) :
    (s.narrowSlots g r).port x = if x = g then { s.port x with slots := (s.port x).slots.map (Slot.narrow r) } else s.port x :=
  State.port_modifyPort s g _ x

@[simp] theorem State.narrowSlots_region (s : State) (g : PortId) (r k : RegionId) : (s.narrowSlots g r).region k = s.region k := rfl

@[simp] theorem State.revokeSlots_port (s : State) (g : PortId) (r : RegionId) (x : PortId) :
    (s.revokeSlots g r).port x = if x = g then (s.port x).lapse r .revoked else s.port x :=
  State.port_modifyPort s g (fun q => q.lapse r .revoked) x

@[simp] theorem State.revokeSlots_region (s : State) (g : PortId) (r k : RegionId) :
    (s.revokeSlots g r).region k =
      if k = r then { s.region k with bindings := (s.region k).bindings - (s.port g).boundCount r } else s.region k :=
  State.region_modifyRegion (s.modifyPort g _) r _ k

theorem Region.SameSpace.of_eq {x y : Region} (hstate : x.state = y.state) (hbase : x.base = y.base)
    (hlength : x.length = y.length) (hmove : x.move = y.move) : x.SameSpace y :=
  ⟨by rw [hstate], by rw [hstate], hbase, hlength, hmove⟩

/-! ### HELD ports -/

/-- Port `p` is as its port reset left it (R169). -/
structure State.HeldAt (s : State) (p : PortId) : Prop where
  unit : (s.port p).unit = CommandUnit.reset
  events : (s.port p).events = EventBlock.reset
  slots : ∀ i : SlotIndex, (s.port p).slot i = .empty
  bank : (s.port p).bank = 0
  watch : (s.port p).watch = none
  response : (s.port p).response = none
  waits : s.waits.ports.get p = none
  issuer : ∀ c ∈ s.engine.compactions, c.issuer ≠ some p

theorem State.heldLaw_iff (s : State) : s.HeldLaw ↔ ∀ p, (s.port p).portState = .held → s.HeldAt p := by
  refine forall_congr' fun p => imp_congr_right fun _ => ?_
  rw [Engine.forall_compactions]
  exact ⟨fun ⟨hunit, hevents, hslots, hbank, hwatch, hresponse, hwaits, hissuer⟩ =>
    ⟨hunit, hevents, hslots, hbank, hwatch, hresponse, hwaits, hissuer⟩,
    fun ⟨hunit, hevents, hslots, hbank, hwatch, hresponse, hwaits, hissuer⟩ =>
    ⟨hunit, hevents, hslots, hbank, hwatch, hresponse, hwaits, hissuer⟩⟩

theorem State.HeldAt.boundCount {s : State} {p : PortId} (h : s.HeldAt p) (r : RegionId) : (s.port p).boundCount r = 0 :=
  Port.boundCount_eq_zero fun i => by rw [h.slots i]; rfl

/-- Only settings, holdings and the state of the port's input change, and it becomes issuer of no compaction. -/
theorem State.HeldAt.of_same {s t : State} {p : PortId} (h : s.HeldAt p)
    (hq : t.port p = { s.port p with
      portState := (t.port p).portState, level := (t.port p).level, quota := (t.port p).quota, holdings := (t.port p).holdings })
    (hw : t.waits.ports.get p = s.waits.ports.get p)
    (hi : ∀ c ∈ t.engine.compactions, c.issuer = some p → ∃ d ∈ s.engine.compactions, d.issuer = some p) : t.HeldAt p where
  unit := by rw [hq]; exact h.unit
  events := by rw [hq]; exact h.events
  slots i := by rw [hq]; exact h.slots i
  bank := by rw [hq]; exact h.bank
  watch := by rw [hq]; exact h.watch
  response := by rw [hq]; exact h.response
  waits := by rw [hw]; exact h.waits
  issuer c hc hp := by
    obtain ⟨d, hd, hdp⟩ := hi c hc hp
    exact h.issuer d hd hdp

/-- Nothing of the port's EMPTY slots lapses or is narrowed. -/
theorem State.HeldAt.map_slots {s : State} {p : PortId} (h : s.HeldAt p) {f : Slot → Slot} (hf : f .empty = .empty) :
    (s.port p).slots.map f = (s.port p).slots := by
  refine Vector.ext fun i hi => ?_
  have hslot : (s.port p).slots[i] = .empty := h.slots ⟨i, hi⟩
  rw [Vector.getElem_map, hslot, hf]

theorem State.HeldAt.lapse {s : State} {p : PortId} (h : s.HeldAt p) (r : RegionId) (cause : LapseCause) :
    (s.port p).lapse r cause = s.port p := by
  rw [Port.lapse, h.map_slots rfl, if_pos (h.boundCount r)]

/-- The same port, no other claim of it, and the same engine. -/
theorem State.HeldAt.of_port {s t : State} {p : PortId} (h : s.HeldAt p) (hq : t.port p = s.port p)
    (hw : t.waits.ports.get p = s.waits.ports.get p) (he : t.engine = s.engine) : t.HeldAt p :=
  h.of_same (by rw [hq]) hw fun c hc hp => ⟨c, by rw [← he]; exact hc, hp⟩

/-- A HELD port's unit is IDLE, so it is not the one taken next. -/
theorem State.Lawful.attached_of_nextTake {s : State} {p : PortId} (h : s.Lawful) (hp : s.nextTake = some p) :
    (s.port p).portState = .attached := by
  cases hstate : (s.port p).portState with
  | attached => rfl
  | held =>
    have hpending := State.pending_of_nextTake hp
    rw [((s.heldLaw_iff.mp h.held) p hstate).unit] at hpending
    cases hpending

/-! ### What a body leaves -/

/-- `u` is what an event of port `p` at the Table Controller may leave of `s`. -/
structure State.Settles (s u : State) (p : PortId) : Prop where
  sound : u.Sound
  ordered : u.engine.Ordered
  held : ∀ x, x ≠ p → s.HeldAt x → u.HeldAt x
  portState : ∀ x, (u.port x).portState = (s.port x).portState

theorem State.Settles.refl {s : State} (h : s.Lawful) (p : PortId) : s.Settles s p :=
  ⟨h.sound, h.ordered, fun _ _ => id, fun _ => rfl⟩

/-- The engine's choice ends an event. -/
theorem State.Sound.settles_choose {s u : State} {p : PortId} (h : u.Sound) (hheld : ∀ x, x ≠ p → s.HeldAt x → u.HeldAt x)
    (hstate : ∀ x, (u.port x).portState = (s.port x).portState) : s.Settles (u.withEngine Engine.choose) p :=
  ⟨h.choose, h.inOrder.choose, fun x hx hs => (hheld x hx hs).of_same rfl rfl fun c hc hp =>
    ⟨c, (Engine.compactions_perm u.engine.jobs_choose).mem_iff.mp hc, hp⟩, hstate⟩

/-- An event that leaves the engine alone. -/
theorem State.Sound.settles {s u : State} {p : PortId} (h : u.Sound) (hs : s.Lawful) (he : u.engine = s.engine)
    (hw : u.waits = s.waits) (hp : ∀ x, x ≠ p → s.HeldAt x → u.port x = s.port x)
    (hstate : ∀ x, (u.port x).portState = (s.port x).portState) : s.Settles u p where
  sound := h
  ordered := by rw [he]; exact hs.ordered
  held x hx hheld := hheld.of_port (hp x hx hheld) (by rw [hw]) he
  portState := hstate

/-- The answer of a command changes the taken port's unit and flags (R161, R165). -/
theorem State.Settles.answered {s u : State} {p : PortId} (h : s.Settles u p) (hs : s.Lawful) (hp : s.nextTake = some p)
    (words : List Word) : (u.answered p words).Lawful := by
  have hport : ∀ x, x ≠ p → (u.answered p words).port x = u.port x := fun x hx => by rw [State.answered_port, if_neg hx]
  have hheldAt := s.heldLaw_iff.mp hs.held
  refine (h.sound.of_ports (t := u.answered p words) rfl (fun _ => rfl) rfl rfl rfl rfl (fun x => ?_) fun x => ?_).lawful h.ordered
    ((State.heldLaw_iff _).mpr fun x hx => ?_)
  · rw [State.answered_port]
    split
    · next hxp => rw [hxp]; exact ⟨rfl, rfl⟩
    · exact ⟨rfl, rfl⟩
  · rw [State.answered_port]
    split
    · exact h.sound.ports.1 _
    · exact h.sound.ports.1 x
  · by_cases hxp : x = p
    · subst hxp
      have hattached := hs.attached_of_nextTake hp
      rw [State.answered_port, if_pos rfl] at hx
      rw [← h.portState x] at hattached
      rw [hattached] at hx
      cases hx
    · rw [hport x hxp] at hx
      exact (h.held x hxp (hheldAt x (by rw [← h.portState x]; exact hx))).of_port (hport x hxp) rfl rfl

/-- A command's take keeps the laws where its body does. -/
theorem State.Lawful.takeCommand {s t : State} {p : PortId} {code : Word → Bool} {body : State → PortId → Answer} (hs : s.Lawful)
    (hbody : s.Settles (body s p).state p) (h : s.takeCommand p code body = .next t) : t.Lawful := by
  rcases State.takeCommand_cases h with rfl | ⟨htaking, -, rfl⟩
  · exact hs
  · exact hbody.answered hs htaking.1 _

/-! ### CREATE -/

namespace State.Lawful

variable {s : State} {p : PortId} {r : RegionId}

theorem settles_watchFor (h : s.Lawful) (hpos : 1 ≤ (s.param p 0).toNat) (hle : (s.param p 0).toNat ≤ Config.maxLength) :
    s.Settles (s.watchFor p) p := by
  unfold State.watchFor
  split
  · refine (h.sound.of_ports (t := s.modifyPort p _) rfl (fun _ => rfl) rfl rfl rfl rfl (fun x => ?_) fun x => ?_).settles h rfl rfl
      (fun x hx _ => by rw [State.port_modifyPort, if_neg hx]) (fun x => by rw [State.port_modifyPort]; split <;> rfl)
    · rw [State.port_modifyPort]
      split <;> exact ⟨rfl, rfl⟩
    · obtain ⟨hfurther, hwatch, hlimits⟩ := h.ports.1 x
      rw [State.port_modifyPort]
      split
      · exact ⟨hfurther, fun w hw => by cases hw; exact ⟨hpos, hle⟩, hlimits⟩
      · exact ⟨hfurther, hwatch, hlimits⟩
  · exact .refl h p

theorem vacant_eq (h : s.Lawful) (hr : (s.region r).state = .vacant) : s.region r = Region.cleared (s.region r).generation :=
  (h.records r).1 hr

/-- CREATE without a target slot makes a record, an entry and holdings (R16). -/
theorem tables_createRegion (h : s.Lawful) {base : Nat} {rest : List Extent} {target : Option SlotIndex}
    (hc : s.CreateChecks p r base rest target) : (s.createRegion p r base rest none).TableLaws := by
  have hvacant : (s.region r).state = .vacant := by simpa using List.find?_some hc.record
  have hcleared := h.vacant_eq hvacant
  have hothers : ∀ i, i ≠ r → (s.createRegion p r base rest none).region i = s.region i := fun i hi => by
    rw [State.createRegion_region, if_neg hi]
  have hrecord : (s.createRegion p r base rest none).region r =
      (s.region r).created p base (s.param p 0).toNat (nameField (s.param p 1)) ((s.param p 2).getLsbD 0) 0 := by
    rw [State.createRegion_region, if_pos rfl]
    rfl
  refine h.tableLaws.of_record r hothers ?_ (fun x => ?_) ?_ (.inl (by rw [hcleared]; rfl)) (fun x => ?_) ?_
  · rw [hrecord]
    refine ⟨nofun, nofun, fun hne => absurd rfl hne, fun hname => ?_, fun _ => hc.length_pos, fun _ => hc.length_le, ?_⟩
    · have hname' : nameField (s.param p 1) = some 0 := hname
      unfold nameField at hname'
      split at hname'
      · cases hname'
      · next hne => exact hne (Option.some.inj hname')
    · cases p <;> rfl
  · rw [State.createRegion_port]
    split <;> rfl
  · rw [hrecord, hcleared]
    rfl
  · have hzero : (s.region r).heldBy x = 0 := by
      rw [hcleared]
      exact if_neg fun hx => by cases hx.2
    rw [State.createRegion_port, hrecord, hzero]
    by_cases hx : x = p
    · rw [if_pos hx]
      exact congrArg ((s.port x).holdings + ·) (if_pos (c := p = x ∧ _) ⟨hx.symm, rfl⟩).symm
    · rw [if_neg hx]
      exact congrArg ((s.port x).holdings + ·) (if_neg (c := p = x ∧ _) fun hc => hx hc.1.symm).symm
  · by_cases hname : s.param p 1 = 0
    · have hnone : nameField (s.param p 1) = none := if_pos hname
      refine h.directory.of_same ?_ fun i => ?_
      · simp only [State.createRegion, hnone]
      · by_cases hi : i = r
        · subst hi
          rw [hrecord, hnone, hcleared]
          exact ⟨fun _ => rfl, rfl⟩
        · rw [hothers i hi]
          exact ⟨id, rfl⟩
    · have hsome : nameField (s.param p 1) = some (s.param p 1) := if_neg hname
      obtain ⟨hnew, hroom⟩ := hc.name hname
      refine h.directory.add (n := s.param p 1) hothers (by rw [hcleared]; rfl) (by rw [hrecord]; rfl) ?_ hnew hroom ?_
      · rw [hrecord]
        exact hsome
      · simp only [State.createRegion, hsome]

/-- A target slot is bound to the new region in the same event. -/
theorem tables_createRegion_bound (h : s.Lawful) {base : Nat} {rest : List Extent} {target : Option SlotIndex}
    (hc : s.CreateChecks p r base rest target) : (s.createRegion p r base rest target).TableLaws := by
  have htables := h.tables_createRegion hc
  cases htarget : target with
  | none => exact htables
  | some i =>
    refine htables.bindSlot (p := p) (i := i) (r := r) (rights := .readWrite) (origin := 0) ?_ ?_ (.inl ?_) (fun k => ?_)
      (fun x j => ?_) (fun x => ?_) rfl
    · rw [State.createRegion_port, if_pos rfl]
      exact hc.slot i htarget
    · rw [State.createRegion_region, if_pos rfl]
      rfl
    · rw [State.createRegion_region, if_pos rfl]
      rfl
    · rw [State.createRegion_region, State.createRegion_region]
      split <;> rfl
    · rw [State.createRegion_port, State.createRegion_port]
      by_cases hx : x = p
      · simp only [hx, true_and, if_true]
        exact Port.slot_setSlot (s.port p) i (.bound r .readWrite 0) j
      · simp only [hx, false_and, if_false]
    · rw [State.createRegion_port, State.createRegion_port]
      split <;> rfl

theorem arranged_createRegion (h : s.Lawful) {base : Nat} {rest : List Extent} {target : Option SlotIndex}
    (hc : s.CreateChecks p r base rest target) : (s.createRegion p r base rest target).Arranged s.engine.tasks ∧
      ∀ a, base ≤ a / 256 → a / 256 < base + (s.param p 0).toNat → (s.createRegion p r base rest target).byteAt a = 0 := by
  refine h.arranged.create hc.place hc.length_pos (by simpa using List.find?_some hc.record) (fun i hi => ?_) ?_ ?_ ?_ ?_ rfl rfl
  · rw [State.createRegion_region, if_neg hi]
  all_goals
    rw [State.createRegion_region, if_pos rfl]
    rfl

theorem settles_createRegion (h : s.Lawful) {base : Nat} {rest : List Extent} {target : Option SlotIndex}
    (hc : s.CreateChecks p r base rest target) : s.Settles (s.createRegion p r base rest target) p := by
  have hvacant : (s.region r).state = .vacant := by simpa using List.find?_some hc.record
  have hnext : (s.createRegion p r base rest target).granuleNext = s.granuleNext := by
    refine State.granuleNext_congr rfl fun i => ?_
    rw [State.createRegion_region]
    split
    · next hi =>
      rw [hi, h.vacant_eq hvacant]
      rfl
    · rfl
  refine State.Sound.settles ⟨h.tables_createRegion_bound hc, (h.arranged_createRegion hc).1, h.ordered.inOrder,
    ⟨fun x => ?_, h.ports.2⟩, h.claims.1, fun hstep => hnext.trans (h.claims.2 hstep)⟩ h rfl rfl (fun x hx _ => ?_) fun x => ?_
  · rw [State.createRegion_port]
    split
    · cases target <;> exact h.ports.1 x
    · exact h.ports.1 x
  · rw [State.createRegion_port, if_neg hx]
  · rw [State.createRegion_port]
    split
    · cases target <;> rfl
    · rfl

theorem settles_create (h : s.Lawful) (p : PortId) : s.Settles (createBody s p).state p := by
  rcases createBody_cases s p with hstate | ⟨hstate, hpos, hle⟩ | ⟨r, base, rest, target, hc, hstate⟩
  · rw [hstate]; exact .refl h p
  · rw [hstate]; exact h.settles_watchFor hpos hle
  · rw [hstate]; exact h.settles_createRegion hc

/-! ### OPEN and CLOSE -/

theorem settles_bindSlot (h : s.Lawful) {i : SlotIndex} {rights : Rights} {origin : Word}
    (hslot : ((s.port p).slot i).isBound = false) (hlive : (s.region r).state = .live)
    (hcover : rightsCover ((s.region r).bindable p) rights = true) : s.Settles (s.bindSlot p i r rights origin) p := by
  have howner : (s.region r).owner = p ∨ rightsCover ((s.region r).grants.get p) rights = true := by
    unfold Region.bindable at hcover
    split at hcover
    · next howner => exact .inl howner
    · exact .inr hcover
  refine (h.sound.of_tables (t := s.bindSlot p i r rights origin) (h.tableLaws.bindSlot (origin := origin) hslot (by rw [hlive]; rfl) howner (fun k => State.bindSlot_region ..)
    (fun x j => ?_) (fun x => ?_) rfl) rfl (fun k => ?_) rfl rfl (fun x => ?_) rfl).settles h rfl rfl (fun x hx _ => ?_) fun x => ?_
  · rw [State.bindSlot_port]
    by_cases hx : x = p
    · simp only [hx, true_and, if_true]
      exact Port.slot_setSlot ..
    · simp only [hx, false_and, if_false]
  · rw [State.bindSlot_port]
    split <;> rfl
  · rw [State.bindSlot_region]
    split
    · exact .of_eq rfl rfl rfl rfl
    · exact .refl _
  · rw [State.bindSlot_port]
    split <;> exact h.ports.1 x
  · rw [State.bindSlot_port, if_neg hx]
  · rw [State.bindSlot_port]
    split <;> rfl

theorem settles_open (h : s.Lawful) (p : PortId) : s.Settles (openBody s p).state p := by
  rcases openBody_cases s p with hstate | ⟨i, rights, r, -, hslot, hlive, hcover, hstate⟩
  · rw [hstate]; exact .refl h p
  · rw [hstate]; exact h.settles_bindSlot hslot hlive hcover

/-- A slot is emptied, its binding given up where it had one (R64, R65). -/
theorem settles_emptySlot (h : s.Lawful) {i : SlotIndex} {t : State}
    (hregion : ∀ k, t.region k =
      if ((s.port p).slot i).binds k then { s.region k with bindings := (s.region k).bindings - 1 } else s.region k)
    (hport : ∀ x, t.port x = if x = p then (s.port x).setSlot i .empty else s.port x)
    (hd : t.directory = s.directory) (he : t.engine = s.engine) (hf : t.freeList = s.freeList) (ha : t.array = s.array)
    (hw : t.waits = s.waits) : s.Settles t p := by
  have hslot : ∀ x j, (t.port x).slot j = if x = p ∧ j = i then .empty else (s.port x).slot j := fun x j => by
    rw [hport]
    by_cases hx : x = p
    · simp only [hx, true_and, if_true]
      exact Port.slot_setSlot ..
    · simp only [hx, false_and, if_false]
  have hgrants : ∀ k, (t.region k).grants = (s.region k).grants := fun k => by
    rw [hregion]
    split <;> rfl
  refine (h.sound.of_tables (h.tableLaws.unbind (fun k => ?_) (fun k => ?_) (fun x j b hb => ?_) (fun k x => .inl ?_)
    (fun x => ?_) hd) he (fun k => ?_) hf ha (fun x => ?_) hw).settles h he hw (fun x hx _ => ?_) fun x => ?_
  · rw [hregion]
    split <;> rfl
  · have hother := State.boundCount_change (s := s) (t := t) (p := p) (r := k) fun x hx =>
      Port.boundCount_of_binds fun j => by rw [hslot, if_neg fun hc => hx hc.1]
    have hown := Port.boundCount_change (q := s.port p) (q' := t.port p) (i := i)
      (fun j hj => by rw [hslot, if_neg fun hc => hj hc.2]) k
    have hempty : ((t.port p).slot i).binds k = false := by rw [hslot, if_pos ⟨rfl, rfl⟩]; rfl
    have hbefore := h.bindings.1 k
    simp only [hempty, Bool.false_eq_true, if_false] at hown
    rw [hregion]
    split
    · next hbinds =>
      rw [if_pos hbinds] at hown
      dsimp only
      omega
    · next hbinds =>
      rw [if_neg hbinds] at hown
      omega
  · rw [hslot] at hb
    split at hb
    · cases hb
    · exact ⟨hb, by rw [hgrants]⟩
  · rw [hgrants]
  · rw [hport]
    split <;> rfl
  · rw [hregion]
    split
    · exact .of_eq rfl rfl rfl rfl
    · exact .refl _
  · rw [hport]
    split <;> exact h.ports.1 x
  · rw [hport, if_neg hx]
  · rw [hport]
    split <;> rfl

/-- A region enters SCRUBBING at the end of an event: HELD ports stay so. -/
theorem held_enterScrubbing {u : State} {x : PortId} (hx : u.HeldAt x) (r : RegionId) (level : Level) :
    (u.enterScrubbing r level).HeldAt x := by
  refine hx.of_same ?_ rfl fun c hc hp => ?_
  · rw [State.enterScrubbing_port]
    split <;> rfl
  · rw [State.enterScrubbing_engine] at hc
    obtain ⟨d, hd, hissuer, -⟩ := Engine.mem_compactions_withScrub hc
    exact ⟨d, hd, hissuer ▸ hp⟩

theorem portState_enterScrubbing (u : State) (r : RegionId) (level : Level) (x : PortId) :
    ((u.enterScrubbing r level).port x).portState = (u.port x).portState := by
  rw [State.enterScrubbing_port]
  split <;> rfl

theorem settles_enterScrubbing {u : State} (h : u.Sound) (huse : (u.region r).state.inUse = true)
    (hzero : (u.region r).bindings = 0) (level : Level) (hheld : ∀ x, x ≠ p → s.HeldAt x → u.HeldAt x)
    (hstate : ∀ x, (u.port x).portState = (s.port x).portState) :
    s.Settles ((u.enterScrubbing r level).withEngine Engine.choose) p :=
  (h.enterScrubbing huse hzero level).settles_choose (fun x hx hs => held_enterScrubbing (hheld x hx hs) r level)
    fun x => (portState_enterScrubbing u r level x).trans (hstate x)

theorem settles_unbindSlot (h : s.Lawful) {i : SlotIndex} {rights : Rights} {origin : Word}
    (hslot : (s.port p).slot i = .bound r rights origin) : s.Settles (s.unbindSlot p i r) p := by
  refine h.settles_emptySlot (i := i) (fun k => ?_) (State.unbindSlot_port s p i r) rfl rfl rfl rfl rfl
  rw [State.unbindSlot_region, hslot]
  simp only [Slot.binds, decide_eq_true_eq, eq_comm (a := k)]

theorem settles_closeBound (h : s.Lawful) {i : SlotIndex} {rights : Rights} {origin : Word}
    (hslot : (s.port p).slot i = .bound r rights origin) : s.Settles (s.closeBound p i r) p := by
  have hsettles := h.settles_unbindSlot hslot
  rw [State.closeBound_eq]
  split
  · next hdrain =>
    exact settles_enterScrubbing hsettles.sound (by rw [hdrain.1]; rfl) hdrain.2 _ hsettles.held hsettles.portState
  · exact hsettles

theorem settles_close (h : s.Lawful) (p : PortId) : s.Settles (closeBody s p).state p := by
  rcases closeBody_cases s p with hstate | ⟨i, r, rights, origin, hslot, hstate⟩ | ⟨i, r, cause, hslot, hstate⟩
  · rw [hstate]; exact .refl h p
  · rw [hstate]; exact h.settles_closeBound hslot
  · rw [hstate]
    refine h.settles_emptySlot (i := i) (fun k => ?_) (State.port_modifyPort s p _) rfl rfl rfl rfl rfl
    rw [hslot]
    rfl

/-! ### GRANT -/

/-- A right that is at least what a slot of the grantee has (R80). -/
theorem rights_of_grantee (h : s.Lawful) {g : PortId} {j : SlotIndex} {b : RegionId × Rights} (howner : g ≠ (s.region r).owner)
    (hb : b ∈ ((s.port g).slot j).binding?) (hbr : b.1 = r) : rightsCover ((s.region r).grants.get g) b.2 = true := by
  subst hbr
  exact (h.rights g j b hb).resolve_left howner.symm

theorem not_rightsCover_none (rights : Rights) : rightsCover none rights = false := by cases rights <;> rfl

/-- A grant that takes no right away from a slot (R76). -/
theorem settles_widen (h : s.Lawful) {g : PortId} {asked : Option Rights} (howner : g ≠ (s.region r).owner)
    (hlive : (s.region r).state = .live)
    (hcover : (s.region r).grants.get g = none ∨ rightsCover asked (((s.region r).grants.get g).getD .read) = true) (p : PortId) :
    s.Settles (s.setGrant r g asked) p := by
  refine (h.sound.of_tables (h.tableLaws.setGrant howner (by rw [hlive]; rfl) (State.setGrant_region s r g asked)
    (fun _ _ _ => rfl) (fun x j b hb => ?_) (fun _ => rfl) rfl) rfl (fun k => ?_) rfl rfl h.ports.1 rfl).settles h rfl rfl
    (fun _ _ _ => rfl) fun _ => rfl
  · by_cases hbr : b.1 = r ∧ x = g
    · obtain ⟨hbr, rfl⟩ := hbr
      have hgrant := h.rights_of_grantee howner hb hbr
      refine .inl ⟨hbr, rfl, ?_⟩
      cases hprevious : (s.region r).grants.get x with
      | none =>
        rw [hprevious, not_rightsCover_none] at hgrant
        cases hgrant
      | some previous =>
        rw [hprevious] at hgrant hcover
        exact rightsCover_trans (hcover.resolve_left nofun) hgrant
    · exact .inr ⟨by rwa [← not_and_or], hb⟩
  · rw [State.setGrant_region]
    split
    · exact .of_eq rfl rfl rfl rfl
    · exact .refl _

/-- READ_WRITE narrowed to READ (R77). -/
theorem settles_narrow (h : s.Lawful) {g : PortId} (howner : g ≠ (s.region r).owner) (hlive : (s.region r).state = .live)
    (p : PortId) : s.Settles ((s.setGrant r g (some .read)).narrowSlots g r) p := by
  have hslot : ∀ x i, (((s.setGrant r g (some .read)).narrowSlots g r).port x).slot i =
      if x = g then ((s.port x).slot i).narrow r else (s.port x).slot i := fun x i => by
    rw [State.narrowSlots_port]
    split
    · exact Port.slot_map ..
    · rfl
  refine (h.sound.of_tables (t := (s.setGrant r g (some .read)).narrowSlots g r)
    (h.tableLaws.setGrant howner (by rw [hlive]; rfl) (State.setGrant_region s r g _)
    (fun x i k => ?_) (fun x j b hb => ?_) (fun x => ?_) rfl) rfl (fun k => ?_) rfl rfl (fun x => ?_) rfl).settles h rfl rfl
    (fun x _ hx => ?_) fun x => ?_
  · rw [hslot]
    split
    · exact Slot.binds_narrow ..
    · rfl
  · rw [hslot] at hb
    split at hb
    · next hx =>
      rcases Slot.mem_binding?_narrow hb with ⟨hne, hb⟩ | ⟨hbr, hread, -⟩
      · exact .inr ⟨.inl hne, hb⟩
      · exact .inl ⟨hbr, hx, by rw [hread]; rfl⟩
    · next hx => exact .inr ⟨.inr hx, hb⟩
  · rw [State.narrowSlots_port]
    split <;> rfl
  · rw [State.narrowSlots_region, State.setGrant_region]
    split
    · exact .of_eq rfl rfl rfl rfl
    · exact .refl _
  · rw [State.narrowSlots_port]
    split <;> exact h.ports.1 x
  · rw [State.narrowSlots_port]
    split
    · exact (congrArg (fun v => ({ s.port x with slots := v } : Port)) (hx.map_slots rfl))
    · rfl
  · rw [State.narrowSlots_port]
    split <;> rfl

/-- A revocation (R78). -/
theorem settles_revoke (h : s.Lawful) {g : PortId} (howner : g ≠ (s.region r).owner) (p : PortId) :
    s.Settles ((s.setGrant r g none).revokeSlots g r) p := by
  have hregion : ∀ k, ((s.setGrant r g none).revokeSlots g r).region k = if k = r then
      { s.region k with
        grants := (s.region k).grants.set g none, bindings := (s.region k).bindings - (s.port g).boundCount r }
      else s.region k := fun k => by
    rw [State.revokeSlots_region, State.setGrant_region]
    split <;> rfl
  have hport : ∀ x, ((s.setGrant r g none).revokeSlots g r).port x = if x = g then (s.port x).lapse r .revoked else s.port x :=
    State.revokeSlots_port _ g r
  refine (h.sound.of_tables (t := (s.setGrant r g none).revokeSlots g r)
    (h.tableLaws.unbind (fun k => ?_) (fun k => ?_) (fun x j b hb => ?_) (fun k x => ?_)
    (fun x => ?_) rfl) rfl (fun k => ?_) rfl rfl (fun x => ?_) rfl).settles h rfl rfl (fun x _ hx => ?_) fun x => ?_
  · rw [hregion]
    split <;> rfl
  · have hchange := State.boundCount_change (s := s) (t := (s.setGrant r g none).revokeSlots g r) (p := g) (r := k)
      fun x hx => by rw [hport, if_neg hx]
    have hbefore := h.bindings.1 k
    rw [hport g, if_pos rfl, Port.boundCount_lapse] at hchange
    rw [hregion]
    split
    · next hk =>
      subst hk
      rw [if_pos rfl] at hchange
      dsimp only
      omega
    · next hk =>
      rw [if_neg hk] at hchange
      omega
  · rw [hport] at hb
    by_cases hx : x = g
    · rw [if_pos hx, Port.lapse_slot, Slot.mem_binding?_lapsedFrom] at hb
      rw [hregion, if_neg hb.2]
      exact ⟨hb.1, rfl⟩
    · rw [if_neg hx] at hb
      refine ⟨hb, ?_⟩
      rw [hregion]
      split
      · rw [PerPort.get_set, if_neg hx]
      · rfl
  · rw [hregion]
    split
    · rw [PerPort.get_set]
      split
      · exact .inr rfl
      · exact .inl rfl
    · exact .inl rfl
  · rw [hport]
    split <;> rfl
  · rw [hregion]
    split
    · exact .of_eq rfl rfl rfl rfl
    · exact .refl _
  · rw [hport]
    split
    · exact Port.lawful_lapse (h.ports.1 x) r _
    · exact h.ports.1 x
  · rw [hport]
    split
    · exact hx.lapse r _
    · rfl
  · rw [hport]
    split <;> rfl

theorem settles_grant (h : s.Lawful) (p : PortId) : s.Settles (grantBody s p).state p := by
  rcases grantBody_cases s p with hstate | ⟨g, r, asked, hg, howner, hlive, hstate⟩
  · rw [hstate]; exact .refl h p
  have hother : g ≠ (s.region r).owner := fun hc => hg (hc.trans howner)
  rw [hstate]
  rcases s.grantCase_cases r g ((s.region r).grants.get g) asked with ⟨-, hasked, hcase⟩ | ⟨-, -, hcase⟩ | ⟨hcover, hcase⟩
  · rw [hcase, hasked]; exact h.settles_narrow hother hlive p
  · rw [hcase]; exact h.settles_revoke hother p
  · rw [hcase]; exact h.settles_widen hother hlive hcover p

end State.Lawful

end Sys2Proof.Machine
end

section
/-! PROOFS. What the bodies of RETIRE, COMPACT, HALT, SET_PORT and RESET_PORT leave of a lawful state, and the port reset step by
step. -/
namespace Sys2Proof.Machine

namespace State.Lawful

variable {s : State} {p : PortId} {r : RegionId}

/-! ### RETIRE -/

/-- A reference resolves to no VACANT record (R12). -/
theorem ne_vacant_of_resolve (h : s.Lawful) (hr : s.resolveParams p = .ok r) : (s.region r).state ≠ .vacant := by
  rcases State.resolve_cases hr with ⟨-, hname⟩ | ⟨-, -, hstate⟩
  · have hlive := (h.directory.2.2.1 _ (State.mem_directory_of_lookupName hname)).1
    rw [hlive]
    nofun
  · exact hstate

theorem settles_draining (h : s.Lawful) (hlive : (s.region r).state = .live) (p : PortId) :
    s.Settles { s.setRegion r { s.region r with state := .draining, name := none } with
      directory := dropName s.directory (s.region r).name } p := by
  have hregion : ∀ k, ({ s.setRegion r { s.region r with state := .draining, name := none } with
      directory := dropName s.directory (s.region r).name } : State).region k =
      if k = r then { s.region r with state := .draining, name := none } else s.region k := State.region_setRegion s r _
  have hrecord := (hregion r).trans (if_pos rfl)
  have hothers : ∀ k, k ≠ r → _ := fun k hk => (hregion k).trans (if_neg hk)
  obtain ⟨-, -, -, -, hpos, hmax, howner⟩ := h.records r
  refine (h.sound.of_tables (h.tableLaws.of_record r hothers ?_ (fun _ => rfl) ?_ (.inr ?_) (fun x => ?_)
    (h.directory.drop r hothers ?_ rfl)) rfl (fun k => ?_) rfl rfl h.ports.1 rfl).settles h rfl rfl (fun _ _ _ => rfl) fun _ => rfl
  · rw [hrecord]
    exact ⟨nofun, nofun, fun _ => rfl, nofun, fun _ => hpos (by rw [hlive]; nofun), fun _ => hmax (by rw [hlive]; rfl), howner⟩
  · rw [hrecord]
  · rw [hrecord]
    exact ⟨rfl, rfl, rfl⟩
  · rw [hrecord]
    have hheld : (s.region r).heldBy x = Region.heldBy { s.region r with state := .draining, name := none } x := by
      simp only [Region.heldBy, hlive, RegionState.inUse]
    rw [hheld]
    rfl
  · rw [hrecord]
  · rw [hregion]
    split
    · next hk =>
      rw [hk]
      exact ⟨by simp [hlive], by simp [hlive], rfl, rfl, rfl⟩
    · exact .refl _

theorem settles_retireGentle (h : s.Lawful) (hlive : (s.region r).state = .live) : s.Settles (s.retireGentle p r) p := by
  unfold State.retireGentle
  dsimp only
  split
  · exact h.settles_draining hlive p
  · next hzero =>
    exact settles_enterScrubbing h.sound (by rw [hlive]; rfl) (Nat.eq_zero_of_not_pos hzero) _ (fun _ _ => id) fun _ => rfl

theorem held_lapseAll {u : State} {x : PortId} (hx : u.HeldAt x) (r : RegionId) (cause : LapseCause) :
    (u.lapseAll r cause).HeldAt x :=
  hx.of_port (by rw [State.lapseAll_port, hx.lapse]) rfl rfl

theorem settles_retireForce (h : s.Lawful) (huse : (s.region r).state.inUse = true) : s.Settles (s.retireForce p r) p := by
  have hrecord : (s.lapseAll r .retired).region r = { s.region r with bindings := 0 } := by
    rw [State.lapseAll_region, if_pos rfl]
  exact settles_enterScrubbing (h.sound.lapseAll r .retired) (by rw [hrecord]; exact huse) (by rw [hrecord]) _
    (fun x _ hx => held_lapseAll hx r _) fun x => by rw [State.lapseAll_port]; rfl

theorem settles_retire (h : s.Lawful) (p : PortId) : s.Settles (retireBody s p).state p := by
  rcases retireBody_cases s p with hstate | ⟨r, hr, hscrub, ⟨hdrain, hstate⟩ | hstate⟩
  · rw [hstate]; exact .refl h p
  · rw [hstate]
    refine h.settles_retireGentle ?_
    have hvacant := h.ne_vacant_of_resolve hr
    cases hs : (s.region r).state with
    | live => rfl
    | vacant => exact absurd hs hvacant
    | draining => exact absurd hs hdrain
    | scrubbing => exact absurd hs hscrub
  · rw [hstate]
    exact h.settles_retireForce ((RegionState.inUse_iff _).mpr ⟨h.ne_vacant_of_resolve hr, hscrub⟩)

/-! ### COMPACT, HALT and SET_PORT -/

theorem settles_compact (h : s.Lawful) (p : PortId) : s.Settles (compactBody s p).state p := by
  rcases compactBody_cases s p with hstate | ⟨hnone, hstate⟩
  · rw [hstate]; exact .refl h p
  have hempty : s.engine.compactions = [] := by
    rw [Engine.compaction?_eq_head?, List.head?_eq_none_iff] at hnone
    exact hnone
  have hmade := s.engine.compactions_make_compaction (s.port p).level (Compaction.fresh p)
  rw [hempty] at hmade
  have hphases : s.engine.tasks.filterMap Task.phase? = [] := by
    rw [← List.length_eq_zero_iff, Engine.length_phases]
    exact List.length_eq_zero_iff.mpr hempty
  have hsound : (s.withEngine fun e => e.make (s.port p).level (.compaction (Compaction.fresh p))).Sound :=
    { tables := h.tableLaws.of_same (fun _ => rfl) (fun _ => ⟨rfl, rfl⟩) rfl
      arranged := ((h.arranged.addScan hphases).perm (s.engine.tasks_make ..)).of_sameSpace (fun _ => .refl _) rfl rfl
      inOrder := h.ordered.inOrder.make _ _
      ports := ⟨h.ports.1, Engine.forall_compactions.mpr fun c hc => by
        rw [List.mem_singleton.mp (hmade.mem_iff.mp hc)]
        exact ⟨Nat.zero_le _, Nat.zero_le _⟩⟩
      claims := h.claims }
  rw [hstate]
  refine hsound.settles_choose (fun x hx hheld => hheld.of_same rfl rfl fun c hc hp => ?_) fun _ => rfl
  rw [List.mem_singleton.mp (hmade.mem_iff.mp hc)] at hp
  exact absurd (Option.some.inj hp).symm hx

/-- Of the compaction only the halt request and the issuer change. -/
theorem held_withCompaction {u : State} {x : PortId} {f : Compaction → Compaction} (hx : u.HeldAt x)
    (hf : ∀ c, (f c).issuer = some x → c.issuer = some x) : (u.withEngine fun e => e.withCompaction f).HeldAt x := by
  refine hx.of_same rfl rfl fun c hc hp => ?_
  rw [State.withEngine, Engine.compactions_withCompaction] at hc
  obtain ⟨d, hd, rfl⟩ := List.mem_map.mp hc
  exact ⟨d, hd, hf d hp⟩

theorem ordered_withCompaction {e : Engine} (h : e.Ordered) (f : Compaction → Compaction) : (e.withCompaction f).Ordered := by
  obtain ⟨hqueue, horders, hchain⟩ := h.inOrder.withCompaction f
  obtain ⟨-, -, -, hlength, hidle⟩ := h
  refine ⟨hqueue, horders, hchain, by simpa [Engine.withCompaction] using hlength, fun hrun => ?_⟩
  obtain ⟨hq, hst⟩ := hidle (Option.map_eq_none_iff.mp hrun)
  simp [Engine.withCompaction, hq, hst]

theorem settles_halt (h : s.Lawful) (p : PortId) : s.Settles (haltBody s p).state p := by
  rcases haltBody_cases s p with hstate | hstate
  · rw [hstate]; exact .refl h p
  · rw [hstate]
    exact ⟨h.sound.withCompaction (fun _ => rfl) fun _ => ⟨rfl, rfl⟩, ordered_withCompaction h.ordered _,
      fun x _ hx => held_withCompaction hx fun _ => id, fun _ => rfl⟩

theorem settles_setPort (h : s.Lawful) (p : PortId) : s.Settles (setPortBody s p).state p := by
  rcases setPortBody_cases s p with hstate | ⟨x, level, hquota, hstate⟩
  · rw [hstate]; exact .refl h p
  rw [hstate]
  have hport : ∀ y, (s.modifyPort x fun q => { q with level := level, quota := (s.param p 2).toNat }).port y =
      if y = x then { s.port y with level := level, quota := (s.param p 2).toNat } else s.port y := State.port_modifyPort s x _
  refine ⟨h.sound.of_ports rfl (fun _ => rfl) rfl rfl rfl rfl (fun y => ?_) fun y => ?_, h.ordered,
    fun y _ hy => hy.of_same ?_ rfl fun c hc hp => ⟨c, hc, hp⟩, fun y => ?_⟩
  · rw [hport]
    split <;> exact ⟨rfl, rfl⟩
  · obtain ⟨hfurther, hwatch, -, hreport⟩ := h.ports.1 y
    rw [hport]
    split
    · exact ⟨hfurther, hwatch, hquota, hreport⟩
    · exact h.ports.1 y
  · rw [hport]
    split <;> rfl
  · rw [hport]
    split <;> rfl

end State.Lawful

/-! ### The port reset (R179) -/

namespace State

variable {s : State} {x : PortId}

theorem resetUnit_port (s : State) (x y : PortId) :
    (s.resetUnit x).port y = if y = x then { s.port y with unit := CommandUnit.reset } else s.port y := port_modifyPort s x _ y

/-- The state after the slots of a port have been emptied, before the regions that this drains enter SCRUBBING. -/
def emptySlots (s : State) (x : PortId) : State :=
  (s.mapRegions fun r y => { y with bindings := y.bindings - (s.port x).boundCount r }).modifyPort x fun q =>
    { q with slots := Vector.replicate 32 .empty, bank := 0 }

/-- Regions enter SCRUBBING one after another. -/
def scrubAll (s : State) (l : List RegionId) (level : Level) : State := l.foldl (fun t r => t.enterScrubbing r level) s

/-- Regions are retired one after another, their bindings lapsing with `cause`. -/
def retireAll (s : State) (l : List RegionId) (cause : LapseCause) (level : Level) : State :=
  l.foldl (fun t r => (t.lapseAll r cause).enterScrubbing r level) s

theorem unbindPort_eq (s : State) (x : PortId) :
    s.unbindPort x = (s.emptySlots x).scrubAll (s.drainedBy x) (s.port x).level := rfl

theorem retireOwned_eq (s : State) (x : PortId) :
    s.retireOwned x = s.retireAll (s.ownedBy x) .ownerReset (s.port x).level := rfl

theorem scrubAll_cons (s : State) (r : RegionId) (l : List RegionId) (level : Level) :
    s.scrubAll (r :: l) level = (s.enterScrubbing r level).scrubAll l level := rfl

theorem scrubAll_slots (s : State) (l : List RegionId) (level : Level) (y : PortId) :
    ((s.scrubAll l level).port y).slots = (s.port y).slots := by
  induction l generalizing s with
  | nil => rfl
  | cons r l ih =>
    rw [scrubAll_cons, ih, enterScrubbing_port]
    split <;> rfl

theorem retireAll_cons (s : State) (r : RegionId) (l : List RegionId) (cause : LapseCause) (level : Level) :
    s.retireAll (r :: l) cause level = ((s.lapseAll r cause).enterScrubbing r level).retireAll l cause level := rfl

@[simp] theorem emptySlots_port (s : State) (x y : PortId) : (s.emptySlots x).port y =
    if y = x then { s.port y with slots := Vector.replicate 32 .empty, bank := 0 } else s.port y := by
  rw [emptySlots, port_modifyPort]
  simp only [port, mapRegions_ports]

@[simp] theorem emptySlots_region (s : State) (x : PortId) (r : RegionId) : (s.emptySlots x).region r =
    { s.region r with bindings := (s.region r).bindings - (s.port x).boundCount r } := by
  rw [emptySlots, modifyPort_region, region_mapRegions]

@[simp] theorem dropGrants_region (s : State) (x : PortId) (r : RegionId) :
    (s.dropGrants x).region r = { s.region r with grants := (s.region r).grants.set x none } := region_mapRegions s _ r

@[simp] theorem dropGrants_port (s : State) (x y : PortId) : (s.dropGrants x).port y = s.port y := by
  simp only [port, dropGrants, mapRegions_ports]

@[simp] theorem resetEvents_port (s : State) (x y : PortId) : (s.resetEvents x).port y =
    if y = x then { s.port y with watch := none, events := EventBlock.reset } else s.port y := port_modifyPort s x _ y

/-- What each step of the reset leaves of a port's input, response and waiting access. -/
structure SameInputs (s t : State) : Prop where
  portState : ∀ y, (t.port y).portState = (s.port y).portState
  response : ∀ y, (t.port y).response = (s.port y).response
  waits : ∀ y, t.waits.ports.get y = s.waits.ports.get y

theorem SameInputs.refl (s : State) : s.SameInputs s := ⟨fun _ => rfl, fun _ => rfl, fun _ => rfl⟩

theorem SameInputs.trans {t u : State} (h : s.SameInputs t) (h' : t.SameInputs u) : s.SameInputs u :=
  ⟨fun y => (h'.portState y).trans (h.portState y), fun y => (h'.response y).trans (h.response y),
    fun y => (h'.waits y).trans (h.waits y)⟩

/-- What holds after each step of the reset of port `x`: the laws inside an event, HELD ports beside `x` as they were, and no
port's input, response or waiting access changed. -/
structure ResetStep (s t : State) (x : PortId) : Prop where
  sound : t.Sound
  held : ∀ y, y ≠ x → s.HeldAt y → t.HeldAt y
  inputs : s.SameInputs t

theorem ResetStep.trans {t u : State} (h : s.ResetStep t x) (h' : t.ResetStep u x) : s.ResetStep u x :=
  ⟨h'.sound, fun y hy hs => h'.held y hy (h.held y hy hs), h.inputs.trans h'.inputs⟩

namespace Sound

theorem resetStep_unit (h : s.Sound) (x : PortId) : s.ResetStep (s.resetUnit x) x := by
  refine ⟨h.of_ports rfl (fun _ => rfl) rfl rfl rfl rfl (fun y => ?_) fun y => ?_,
    fun y hy hs => hs.of_port (by rw [resetUnit_port, if_neg hy]) rfl rfl, ⟨fun y => ?_, fun y => ?_, fun _ => rfl⟩⟩
  · rw [resetUnit_port]
    split <;> exact ⟨rfl, rfl⟩
  · rw [resetUnit_port]
    split <;> exact h.ports.1 y
  · rw [resetUnit_port]
    split <;> rfl
  · rw [resetUnit_port]
    split <;> rfl

theorem resetStep_emptySlots (h : s.Sound) (x : PortId) : s.ResetStep (s.emptySlots x) x := by
  refine ⟨h.of_tables (h.tables.unbind (fun r => ?_) (fun r => ?_) (fun y i b hb => ?_) (fun r y => .inl ?_) (fun y => ?_) ?_) ?_
    (fun r => ?_) ?_ ?_ (fun y => ?_) ?_, fun y hy hs => hs.of_port (by rw [emptySlots_port, if_neg hy]) ?_ ?_,
    ⟨fun y => ?_, fun y => ?_, fun y => ?_⟩⟩
  · rw [emptySlots_region]
  · have hchange := boundCount_change (s := s) (t := s.emptySlots x) (p := x) (r := r) fun y hy => by
      rw [emptySlots_port, if_neg hy]
    have hnone : ((s.emptySlots x).port x).boundCount r = 0 := Port.boundCount_eq_zero fun i => by
      rw [emptySlots_port, if_pos rfl, Port.slot, Vector.getElem_replicate]
      rfl
    have hbefore := h.tables.bindings.1 r
    rw [emptySlots_region]
    dsimp only
    omega
  · rw [emptySlots_port] at hb
    split at hb
    · rw [Port.slot, Vector.getElem_replicate] at hb
      cases hb
    · exact ⟨hb, by rw [emptySlots_region]⟩
  · rw [emptySlots_region]
  · rw [emptySlots_port]
    split <;> rfl
  · simp [emptySlots]
  · simp [emptySlots]
  · rw [emptySlots_region]
    exact .of_eq rfl rfl rfl rfl
  · simp [emptySlots]
  · simp [emptySlots]
  · rw [emptySlots_port]
    split <;> exact h.ports.1 y
  · simp [emptySlots]
  · simp [emptySlots]
  · simp [emptySlots]
  · rw [emptySlots_port]
    split <;> rfl
  · rw [emptySlots_port]
    split <;> rfl
  · simp [emptySlots]

theorem inputs_enterScrubbing (s : State) (r : RegionId) (level : Level) : s.SameInputs (s.enterScrubbing r level) := by
  refine ⟨fun y => ?_, fun y => ?_, fun _ => rfl⟩
  · rw [enterScrubbing_port]
    split <;> rfl
  · rw [enterScrubbing_port]
    split <;> rfl

theorem inputs_lapseAll (s : State) (r : RegionId) (cause : LapseCause) : s.SameInputs (s.lapseAll r cause) :=
  ⟨fun y => by rw [lapseAll_port]; rfl, fun y => by rw [lapseAll_port]; rfl, fun _ => rfl⟩

theorem resetStep_retireAll {l : List RegionId} (h : s.Sound) (x : PortId) (hl : l.Nodup)
    (hall : ∀ r ∈ l, (s.region r).state.inUse = true) (cause : LapseCause) (level : Level) :
    s.ResetStep (s.retireAll l cause level) x := by
  induction l generalizing s with
  | nil => exact ⟨h, fun _ _ => id, .refl s⟩
  | cons r l ih =>
    obtain ⟨hnot, hl⟩ := List.nodup_cons.mp hl
    have hstep : s.ResetStep ((s.lapseAll r cause).enterScrubbing r level) x := ⟨h.retire (hall r List.mem_cons_self) cause level,
      fun y _ hs => State.Lawful.held_enterScrubbing (State.Lawful.held_lapseAll hs r cause) r level,
      (inputs_lapseAll s r cause).trans (inputs_enterScrubbing _ r level)⟩
    refine hstep.trans (ih hstep.sound hl fun i hi => ?_)
    have hne : i ≠ r := fun hc => hnot (hc ▸ hi)
    rw [enterScrubbing_region, if_neg hne, lapseAll_region, if_neg hne]
    exact hall i (List.mem_cons_of_mem _ hi)

end Sound

end State

end Sys2Proof.Machine
end

section
/-! PROOFS. The port reset (R179): every field of the state after it, and the laws it keeps. -/
namespace Sys2Proof.Machine

/-! ### Regions retired one after another -/

/-- A port without bindings of a region has nothing to lapse. -/
theorem Port.lapse_eq_self {q : Port} {r : RegionId} (h : q.boundCount r = 0) (cause : LapseCause) : q.lapse r cause = q := by
  have hslots : q.slots.map (Slot.lapse r cause) = q.slots := Vector.ext fun i hi => by
    rw [Vector.getElem_map, Slot.lapse, if_neg]
    intro hbinds
    have := Port.one_le_boundCount (q := q) (i := ⟨i, hi⟩) hbinds
    omega
  rw [Port.lapse, hslots, if_pos h]

theorem Slot.lapsedFrom_eq_self {x : Slot} {r : RegionId} (h : x.binds r = false) (cause : LapseCause) :
    x.lapsedFrom r cause = x := by
  rw [← Slot.lapse_eq, Slot.lapse, h]
  rfl

theorem Port.slotsOn_eq_nil_iff_binds (q : Port) (r : RegionId) : q.slotsOn r = [] ↔ ∀ i, (q.slot i).binds r = false := by
  rw [Port.slotsOn_eq_nil_iff]
  refine ⟨fun h i => ?_, Port.boundCount_eq_zero⟩
  by_contra hbinds
  have := Port.one_le_boundCount (q := q) (i := i) (r := r) (by simpa using hbinds)
  omega

/-- One region retired, seen from a port (R66, R67, R8). -/
theorem State.retire_port (s : State) (r : RegionId) (cause : LapseCause) (level : Level) (y : PortId) :
    ((s.lapseAll r cause).enterScrubbing r level).port y = (s.port y).loses y r (s.region r) cause := by
  rw [State.enterScrubbing_port, State.lapseAll_port, State.lapseAll_region, if_pos rfl, Port.lapse_eq, Port.loses]
  by_cases h : y = (s.region r).owner
  · simp only [h, if_true]
  · simp only [h, Ne.symm h, if_false]

theorem State.retire_region (s : State) (r : RegionId) (cause : LapseCause) (level : Level) (k : RegionId) :
    ((s.lapseAll r cause).enterScrubbing r level).region k = if k = r then (s.region r).gone else s.region k := by
  rw [State.enterScrubbing_region, State.lapseAll_region, State.lapseAll_region, if_pos rfl]
  split
  · exact Region.toScrubbing_eq_gone { s.region r with bindings := 0 } rfl
  · rfl

theorem State.retire_engine (s : State) (r : RegionId) (cause : LapseCause) (level : Level) :
    ((s.lapseAll r cause).enterScrubbing r level).engine = s.engine.withScrub r (s.region r) level := by
  rw [State.enterScrubbing_engine, State.lapseAll_region, if_pos rfl]
  rfl

theorem Slot.foldl_lapsedFrom_of_not_bound {x : Slot} (l : List RegionId) (h : ∀ r ∈ l, x.binds r = false) (cause : LapseCause) :
    l.foldl (fun c r => c.lapsedFrom r cause) x = x := by
  induction l with
  | nil => rfl
  | cons r l ih =>
    rw [List.foldl_cons, Slot.lapsedFrom_eq_self (h r List.mem_cons_self), ih fun k hk => h k (List.mem_cons_of_mem _ hk)]

/-- Several regions retired, seen from a port. -/
def Port.losesAll (q : Port) (y : PortId) (l : List RegionId) (region : RegionId → Region) (cause : LapseCause) : Port :=
  { q with
    slots := q.slots.map fun c => l.foldl (fun c r => c.lapsedFrom r cause) c
    events := if l.all fun r => q.slotsOn r = [] then q.events else { q.events with flags := q.events.flags ||| 4#6 }
    holdings := q.holdings - ((l.filter fun r => (region r).owner = y).map fun r => (region r).length).sum }

theorem Port.losesAll_nil (q : Port) (y : PortId) (region : RegionId → Region) (cause : LapseCause) :
    q.losesAll y [] region cause = q := by
  simp [Port.losesAll]

theorem Port.slotsOn_loses {q : Port} {y : PortId} {r k : RegionId} {x : Region} {cause : LapseCause} (h : k ≠ r) :
    (q.loses y r x cause).slotsOn k = [] ↔ q.slotsOn k = [] := by
  simp only [Port.slotsOn_eq_nil_iff_binds]
  refine forall_congr' fun i => ?_
  have hslot : (q.loses y r x cause).slot i = (q.slot i).lapsedFrom r cause := by simp [Port.slot, Port.loses]
  rw [hslot, Slot.binds_lapsedFrom]
  simp [h]

theorem Port.losesAll_cons (q : Port) (y : PortId) {r : RegionId} {l : List RegionId} (h : r ∉ l) (region : RegionId → Region)
    (cause : LapseCause) :
    q.losesAll y (r :: l) region cause = (q.loses y r (region r) cause).losesAll y l region cause := by
  have hall : (l.all fun k => decide ((q.loses y r (region r) cause).slotsOn k = [])) = l.all fun k => decide (q.slotsOn k = []) := by
    rw [Bool.eq_iff_iff, List.all_eq_true, List.all_eq_true]
    refine forall₂_congr fun k hk => ?_
    rw [decide_eq_true_eq, decide_eq_true_eq, Port.slotsOn_loses (ne_of_mem_of_not_mem hk h)]
  rw [Port.losesAll, Port.losesAll, hall]
  congr 1
  · simp only [Port.loses, Vector.map_map]
    rfl
  · simp only [List.all_cons, Port.loses, Bool.and_eq_true, decide_eq_true_eq]
    by_cases hr : q.slotsOn r = []
    · simp only [hr, true_and, if_true]
    · simp only [hr, false_and, if_false]
      split
      · rfl
      · rw [BitVec.or_assoc, BitVec.or_self]
  · simp only [Port.loses, List.filter_cons, decide_eq_true_eq]
    split
    · rw [List.map_cons, List.sum_cons, Nat.sub_sub]
    · rfl

namespace State

variable {s t : State} {x : PortId}

theorem retireAll_region (s : State) {l : List RegionId} (hl : l.Nodup) (cause : LapseCause) (level : Level) (k : RegionId) :
    (s.retireAll l cause level).region k = if k ∈ l then (s.region k).gone else s.region k := by
  induction l generalizing s with
  | nil => rw [if_neg List.not_mem_nil]; rfl
  | cons r l ih =>
    obtain ⟨hnot, hl⟩ := List.nodup_cons.mp hl
    rw [retireAll_cons, ih _ hl, retire_region]
    by_cases hk : k = r
    · subst hk
      simp [hnot]
    · simp [hk]

theorem retireAll_port (s : State) {l : List RegionId} (hl : l.Nodup) (cause : LapseCause) (level : Level) (y : PortId) :
    (s.retireAll l cause level).port y = (s.port y).losesAll y l s.region cause := by
  induction l generalizing s with
  | nil => rw [Port.losesAll_nil]; rfl
  | cons r l ih =>
    obtain ⟨hnot, hl⟩ := List.nodup_cons.mp hl
    rw [retireAll_cons, ih _ hl, retire_port, Port.losesAll_cons _ _ hnot]
    have hsame : ∀ k ∈ l, ((s.lapseAll r cause).enterScrubbing r level).region k = s.region k := fun k hk => by
      rw [retire_region, if_neg (ne_of_mem_of_not_mem hk hnot)]
    simp only [Port.losesAll]
    congr 2
    rw [List.filter_congr fun k hk => by rw [hsame k hk]]
    exact congrArg List.sum (List.map_congr_left fun k hk => by rw [hsame k (List.mem_filter.mp hk).1])

theorem retireAll_engine (s : State) {l : List RegionId} (hl : l.Nodup) (cause : LapseCause) (level : Level) :
    (s.retireAll l cause level).engine = l.foldl (fun e r => e.withScrub r (s.region r) level) s.engine := by
  induction l generalizing s with
  | nil => rfl
  | cons r l ih =>
    obtain ⟨hnot, hl⟩ := List.nodup_cons.mp hl
    rw [retireAll_cons, ih _ hl, retire_engine, List.foldl_cons]
    refine List.foldl_ext _ _ _ fun e k hk => ?_
    rw [retire_region, if_neg (ne_of_mem_of_not_mem hk hnot)]

/-- What retiring regions leaves alone. -/
theorem retireAll_rest (s : State) (l : List RegionId) (cause : LapseCause) (level : Level) :
    (s.retireAll l cause level).freeList = s.freeList ∧ (s.retireAll l cause level).lastPort = s.lastPort ∧
    (s.retireAll l cause level).lastTaken = s.lastTaken ∧ (s.retireAll l cause level).array = s.array ∧
    (s.retireAll l cause level).lastServed = s.lastServed ∧ (s.retireAll l cause level).pending = s.pending ∧
    (s.retireAll l cause level).resets = s.resets := by
  induction l generalizing s with
  | nil => exact ⟨rfl, rfl, rfl, rfl, rfl, rfl, rfl⟩
  | cons r l ih => exact ih _

theorem Sound.retireAll_directory (h : s.Sound) {l : List RegionId} (hl : l.Nodup)
    (hall : ∀ r ∈ l, (s.region r).state.inUse = true) (cause : LapseCause) (level : Level) :
    (s.retireAll l cause level).directory = s.directory.filter fun e => e.region ∉ l := by
  induction l generalizing s with
  | nil => exact (List.filter_eq_self.mpr fun e _ => by simp).symm
  | cons r l ih =>
    obtain ⟨hnot, hl⟩ := List.nodup_cons.mp hl
    have hnext := h.retire (hall r List.mem_cons_self) cause level
    have hdir : ((s.lapseAll r cause).enterScrubbing r level).directory = s.directory.filter fun e => decide (e.region ≠ r) := by
      rw [enterScrubbing_directory, (h.lapseAll r cause).tables.directory.dropName_eq, lapseAll_directory]
    rw [retireAll_cons, ih hnext hl fun k hk => ?_, hdir, List.filter_filter]
    · refine List.filter_congr fun e _ => ?_
      simp only [List.mem_cons, not_or, Bool.decide_and, Bool.and_comm]
    · rw [retire_region, if_neg (ne_of_mem_of_not_mem hk hnot)]
      exact hall k (List.mem_cons_of_mem _ hk)

/-! ### The engine's claim -/

/-- The engine goes on waiting where its job still calls for a granule step; nothing else of what waits changes (R142). -/
def StepSettled (s t : State) : Prop := t.waits = { s.waits with step := s.waits.step && t.granuleNext }

theorem StepSettled.trans {u : State} (h : s.StepSettled t) (h' : t.StepSettled u)
    (hn : u.granuleNext = true → t.granuleNext = true) : s.StepSettled u := by
  unfold StepSettled at *
  rw [h', h]
  cases hu : u.granuleNext with
  | false => simp
  | true => simp [hn hu]

theorem StepSettled.of_same (hw : t.waits = s.waits) (hn : t.granuleNext = s.granuleNext) (h : s.ClaimLaw) : s.StepSettled t := by
  have hstep : (s.waits.step && s.granuleNext) = s.waits.step := by
    cases hwaits : s.waits.step with
    | false => rfl
    | true => exact h.2 hwaits
  rw [StepSettled, hw, hn, hstep]

theorem granuleNext_of_enterScrubbing (s : State) (r : RegionId) (level : Level)
    (h : (s.enterScrubbing r level).granuleNext = true) : s.granuleNext = true := by
  cases hmove : (s.region r).move with
  | none =>
    rw [← h]
    have hrun : (s.enterScrubbing r level).engine.running = s.engine.running := by
      rw [enterScrubbing_engine, Engine.withScrub, hmove]
      rfl
    have hmoves : ∀ k, ((s.enterScrubbing r level).region k).move = (s.region k).move := fun k => by
      rw [enterScrubbing_region]
      split
      · next hk => rw [hk, hmove]; rfl
      · rfl
    simp only [granuleNext, hrun, hmoves]
  | some v =>
    have hrun : (s.enterScrubbing r level).engine.running = s.engine.running.map (Job.withCompaction (Compaction.abandon v.dest)) := by
      rw [enterScrubbing_engine, Engine.withScrub, hmove]
      rfl
    unfold granuleNext at h ⊢
    rw [hrun] at h
    rcases hrunning : s.engine.running with _ | ⟨level', order, target | c⟩
    · rw [hrunning] at h
      cases h
    · rw [hrunning] at h
      exact h
    · rw [hrunning] at h
      cases h

theorem granuleNext_lapseAll (s : State) (r : RegionId) (cause : LapseCause) : (s.lapseAll r cause).granuleNext = s.granuleNext :=
  granuleNext_congr rfl fun k => by
    rw [lapseAll_region]
    split <;> rfl

theorem stepSettled_retireAll (l : List RegionId) (h : s.ClaimLaw) (cause : LapseCause) (level : Level) :
    s.StepSettled (s.retireAll l cause level) ∧ ((s.retireAll l cause level).granuleNext = true → s.granuleNext = true) := by
  induction l generalizing s with
  | nil => exact ⟨.of_same rfl rfl h, id⟩
  | cons r l ih =>
    have hnext : ((s.lapseAll r cause).enterScrubbing r level).ClaimLaw := ⟨h.1, fun hstep => by
      rw [enterScrubbing_waits, Bool.and_eq_true] at hstep
      exact hstep.2⟩
    obtain ⟨hsettled, hback⟩ := ih hnext
    refine ⟨StepSettled.trans (enterScrubbing_waits (s.lapseAll r cause) r level) hsettled hback, fun hn => ?_⟩
    rw [← granuleNext_lapseAll s r cause]
    exact granuleNext_of_enterScrubbing _ r level (hback hn)

end State

end Sys2Proof.Machine
end

section
/-! PROOFS. The port reset assembled (R179), and the two ways to take one: the reset input and RESET_PORT. -/
namespace Sys2Proof.Machine

theorem Compaction.loseIssuer_phase (x : PortId) (c : Compaction) : (c.loseIssuer x).phase = c.phase := by
  unfold Compaction.loseIssuer
  split <;> rfl

/-- The record of a region gone does not depend on its bindings and holds no grants. -/
theorem Region.gone_of_bindings (y : Region) (n : Nat) : Region.gone { y with bindings := n } = y.gone := rfl

theorem Region.gone_set_grants (y : Region) (x : PortId) : { y.gone with grants := y.gone.grants.set x none } = y.gone := by
  cases x <;> rfl

theorem Engine.choose_of_running {e : Engine} (h : e.running.isSome = true) : e.choose = e := by
  unfold Engine.choose
  cases hrun : e.running with
  | none => rw [hrun] at h; cases h
  | some j => rfl

theorem Engine.isSome_running_withScrub (e : Engine) (r : RegionId) (x : Region) (level : Level) :
    (e.withScrub r x level).running.isSome = e.running.isSome := by
  unfold Engine.withScrub
  cases x.move with
  | none => rfl
  | some v => exact Option.isSome_map

theorem Engine.isSome_running_foldl_withScrub (e : Engine) (l : List RegionId) (region : RegionId → Region) (level : Level) :
    (l.foldl (fun e r => e.withScrub r (region r) level) e).running.isSome = e.running.isSome := by
  induction l generalizing e with
  | nil => rfl
  | cons r l ih => rw [List.foldl_cons, ih, Engine.isSome_running_withScrub]

namespace State

variable {s t : State} {x : PortId}

/-! ### The regions that a reset drains and retires -/

theorem mem_lastHeldBy_iff (s : State) (x : PortId) (r : RegionId) : r ∈ s.lastHeldBy x ↔
    (s.region r).state = .draining ∧ (s.port x).slotsOn r ≠ [] ∧ (s.region r).bindings = ((s.port x).slotsOn r).length := by
  simp only [lastHeldBy, List.mem_filter, List.mem_finRange, true_and, decide_eq_true_eq]

theorem mem_retiredWith_iff (s : State) (x : PortId) (r : RegionId) : r ∈ s.retiredWith x ↔
    (s.region r).owner = x ∧ (s.region r).state.inUse = true ∧ r ∉ s.lastHeldBy x := by
  simp only [retiredWith, List.mem_filter, List.mem_finRange, true_and, decide_eq_true_eq]

/-- The regions that a reset of port `x` sends to SCRUBBING, in the order of R179. -/
def goneWith (s : State) (x : PortId) : List RegionId := s.lastHeldBy x ++ s.retiredWith x

theorem nodup_lastHeldBy (s : State) (x : PortId) : (s.lastHeldBy x).Nodup := (List.nodup_finRange 128).filter _

theorem nodup_goneWith (s : State) (x : PortId) : (s.goneWith x).Nodup :=
  List.nodup_append'.mpr ⟨(List.nodup_finRange 128).filter _, (List.nodup_finRange 128).filter _,
    fun r hr hr' => ((s.mem_retiredWith_iff x r).mp hr').2.2 hr⟩

theorem inUse_of_mem_goneWith {r : RegionId} (h : r ∈ s.goneWith x) : (s.region r).state.inUse = true := by
  rcases List.mem_append.mp h with hr | hr
  · rw [((s.mem_lastHeldBy_iff x r).mp hr).1]
    rfl
  · exact ((s.mem_retiredWith_iff x r).mp hr).2.1

/-- The bindings of two ports are among all. -/
theorem boundCount_add_le (s : State) {x y : PortId} (hy : y ≠ x) (r : RegionId) :
    (s.port y).boundCount r + (s.port x).boundCount r ≤ s.boundCount r := by
  have hchange := boundCount_change (s := s) (t := s.emptySlots x) (p := x) (r := r) fun z hz => by
    rw [emptySlots_port, if_neg hz]
  have hnone : ((s.emptySlots x).port x).boundCount r = 0 := Port.boundCount_eq_zero fun i => by
    rw [emptySlots_port, if_pos rfl, Port.slot, Vector.getElem_replicate]
    rfl
  have hle := (s.emptySlots x).port_boundCount_le y r
  rw [emptySlots_port, if_neg hy] at hle
  omega

/-- A region that a reset drains is bound by no other port. -/
theorem Sound.slotsOn_of_lastHeld (h : s.Sound) {y : PortId} {r : RegionId} (hr : r ∈ s.lastHeldBy x) (hy : y ≠ x) :
    (s.port y).slotsOn r = [] := by
  obtain ⟨-, -, hbindings⟩ := (s.mem_lastHeldBy_iff x r).mp hr
  have hsum := s.boundCount_add_le hy r
  rw [h.tables.bindings.1 r, ← Port.boundCount_eq] at hbindings
  rw [Port.slotsOn_eq_nil_iff]
  omega

theorem resetUnit_boundCount (s : State) (x y : PortId) (r : RegionId) :
    ((s.resetUnit x).port y).boundCount r = (s.port y).boundCount r := by
  rw [resetUnit_port]
  split <;> rfl

theorem Sound.drainedBy_eq (h : s.Sound) (x : PortId) : s.drainedBy x = s.lastHeldBy x := by
  refine List.filter_congr fun r _ => decide_eq_decide.mpr ?_
  have hle : (s.port x).boundCount r ≤ (s.region r).bindings := by
    rw [h.tables.bindings.1 r]
    exact s.port_boundCount_le x r
  rw [ne_eq, Port.slotsOn_eq_nil_iff, ← Port.boundCount_eq]
  refine and_congr_right fun _ => ?_
  omega

theorem Sound.drainedBy_resetUnit (h : s.Sound) (x : PortId) : (s.resetUnit x).drainedBy x = s.lastHeldBy x := by
  rw [← h.drainedBy_eq]
  refine List.filter_congr fun r _ => ?_
  rw [resetUnit_boundCount]
  rfl

/-! ### Steps 1 to 3 -/

/-- A region without bindings has none to lapse. -/
theorem Sound.lapseAll_eq_self (h : s.Sound) {r : RegionId} (hzero : (s.region r).bindings = 0) (cause : LapseCause) :
    s.lapseAll r cause = s := by
  have hbound := h.tables.bindings.1 r
  rw [hzero] at hbound
  refine ext_blocks (fun y => ?_) (fun k => ?_) rfl rfl rfl rfl rfl rfl rfl rfl rfl rfl
  · rw [lapseAll_port]
    exact Port.lapse_eq_self (Nat.le_zero.mp (hbound.symm ▸ s.port_boundCount_le y r)) cause
  · rw [lapseAll_region]
    split
    · next hk => rw [hk]; exact congrArg (fun n => ({ s.region r with bindings := n } : Region)) hzero.symm
    · rfl

/-- Regions without bindings are retired in entering SCRUBBING. -/
theorem Sound.scrubAll_eq_retireAll (h : s.Sound) {l : List RegionId} (hl : l.Nodup)
    (hall : ∀ r ∈ l, (s.region r).state.inUse = true ∧ (s.region r).bindings = 0) (cause : LapseCause) (level : Level) :
    s.scrubAll l level = s.retireAll l cause level := by
  induction l generalizing s with
  | nil => rfl
  | cons r l ih =>
    obtain ⟨hnot, hl⟩ := List.nodup_cons.mp hl
    obtain ⟨huse, hzero⟩ := hall r List.mem_cons_self
    rw [scrubAll_cons, retireAll_cons, h.lapseAll_eq_self hzero]
    refine ih (h.enterScrubbing huse hzero level) hl fun k hk => ?_
    rw [enterScrubbing_region, if_neg (ne_of_mem_of_not_mem hk hnot)]
    exact hall k (List.mem_cons_of_mem _ hk)

/-- The state after step 1 and the unbinding of step 2. -/
def unitAndSlotsReset (s : State) (x : PortId) : State := (s.resetUnit x).emptySlots x

theorem unitAndSlotsReset_port (s : State) (x y : PortId) : (s.unitAndSlotsReset x).port y =
    if y = x then { s.port y with unit := CommandUnit.reset, slots := Vector.replicate 32 .empty, bank := 0 } else s.port y := by
  rw [unitAndSlotsReset, emptySlots_port, resetUnit_port]
  split <;> rfl

theorem unitAndSlotsReset_region (s : State) (x : PortId) (r : RegionId) : (s.unitAndSlotsReset x).region r =
    { s.region r with bindings := (s.region r).bindings - ((s.port x).slotsOn r).length } := by
  rw [unitAndSlotsReset, emptySlots_region, resetUnit_boundCount, ← Port.boundCount_eq]
  rfl

theorem Sound.resetStep_unitAndSlots (h : s.Sound) (x : PortId) : s.ResetStep (s.unitAndSlotsReset x) x :=
  (h.resetStep_unit x).trans ((h.resetStep_unit x).sound.resetStep_emptySlots x)

theorem Sound.unbindPort_resetUnit (h : s.Sound) (x : PortId) : (s.resetUnit x).unbindPort x =
    (s.unitAndSlotsReset x).retireAll (s.lastHeldBy x) .ownerReset (s.port x).level := by
  have hlevel : ((s.resetUnit x).port x).level = (s.port x).level := by
    rw [resetUnit_port, if_pos rfl]
  rw [unbindPort_eq, h.drainedBy_resetUnit, hlevel]
  refine (h.resetStep_unitAndSlots x).sound.scrubAll_eq_retireAll (s.nodup_lastHeldBy x) (fun r hr => ?_) _ _
  obtain ⟨hstate, -, hbindings⟩ := (s.mem_lastHeldBy_iff x r).mp hr
  rw [unitAndSlotsReset_region]
  exact ⟨by rw [hstate]; rfl, by dsimp only; omega⟩

theorem Sound.ownedBy_unbindPort (h : s.Sound) (x : PortId) : ((s.resetUnit x).unbindPort x).ownedBy x = s.retiredWith x := by
  rw [h.unbindPort_resetUnit x]
  refine List.filter_congr fun r _ => decide_eq_decide.mpr ?_
  rw [retireAll_region _ (s.nodup_lastHeldBy x), unitAndSlotsReset_region]
  split
  · next hr => exact ⟨fun ⟨_, huse⟩ => (nomatch huse), fun ⟨_, _, hnot⟩ => absurd hr hnot⟩
  · next hr => exact ⟨fun hc => ⟨hc.1, hc.2, hr⟩, fun hc => ⟨hc.1, hc.2.1⟩⟩

/-- The state after steps 1 to 3. -/
def regionsReset (s : State) (x : PortId) : State :=
  (s.unitAndSlotsReset x).retireAll (s.goneWith x) .ownerReset (s.port x).level

theorem Sound.retireOwned_unbindPort (h : s.Sound) (x : PortId) :
    ((s.resetUnit x).unbindPort x).retireOwned x = s.regionsReset x := by
  have hlevel : (((s.resetUnit x).unbindPort x).port x).level = (s.port x).level := by
    rw [h.unbindPort_resetUnit, retireAll_port _ (s.nodup_lastHeldBy x), unitAndSlotsReset_port, if_pos rfl]
    rfl
  rw [retireOwned_eq, h.ownedBy_unbindPort, hlevel, h.unbindPort_resetUnit, regionsReset, goneWith, retireAll, retireAll, retireAll,
    List.foldl_append]

/-- The state after steps 1 to 7, before the engine's choice. -/
def stepsReset (s : State) (x : PortId) : State := (((s.regionsReset x).dropGrants x).resetEvents x).resetIssuer x

theorem withEngine_engine (s : State) (f : Engine → Engine) : (s.withEngine f).engine = f s.engine := rfl

theorem stepsReset_region (s : State) (x : PortId) (r : RegionId) :
    (s.stepsReset x).region r = ((s.regionsReset x).dropGrants x).region r := by
  simp only [stepsReset, resetIssuer, resetEvents, withEngine_region, modifyPort_region]

theorem stepsReset_port (s : State) (x y : PortId) :
    (s.stepsReset x).port y = (((s.regionsReset x).dropGrants x).resetEvents x).port y := by
  simp only [stepsReset, resetIssuer, withEngine_port]

theorem stepsReset_engine (s : State) (x : PortId) :
    (s.stepsReset x).engine = (s.regionsReset x).engine.withCompaction (Compaction.loseIssuer x) := by
  simp only [stepsReset, resetIssuer, withEngine_engine, resetEvents, modifyPort_engine, dropGrants, mapRegions_engine]

/-- What steps 4 to 7 leave alone. -/
theorem stepsReset_rest (s : State) (x : PortId) : (s.stepsReset x).directory = (s.regionsReset x).directory ∧
    (s.stepsReset x).freeList = (s.regionsReset x).freeList ∧ (s.stepsReset x).lastPort = (s.regionsReset x).lastPort ∧
    (s.stepsReset x).lastTaken = (s.regionsReset x).lastTaken ∧ (s.stepsReset x).array = (s.regionsReset x).array ∧
    (s.stepsReset x).lastServed = (s.regionsReset x).lastServed ∧ (s.stepsReset x).waits = (s.regionsReset x).waits ∧
    (s.stepsReset x).pending = (s.regionsReset x).pending ∧ (s.stepsReset x).resets = (s.regionsReset x).resets := by
  simp [stepsReset, resetIssuer, resetEvents, dropGrants]

/-- What steps 1 and 2 leave alone before a region enters SCRUBBING. -/
theorem unitAndSlotsReset_rest (s : State) (x : PortId) : (s.unitAndSlotsReset x).directory = s.directory ∧
    (s.unitAndSlotsReset x).freeList = s.freeList ∧ (s.unitAndSlotsReset x).lastPort = s.lastPort ∧
    (s.unitAndSlotsReset x).lastTaken = s.lastTaken ∧ (s.unitAndSlotsReset x).array = s.array ∧
    (s.unitAndSlotsReset x).lastServed = s.lastServed ∧ (s.unitAndSlotsReset x).waits = s.waits ∧
    (s.unitAndSlotsReset x).pending = s.pending ∧ (s.unitAndSlotsReset x).resets = s.resets ∧
    (s.unitAndSlotsReset x).engine = s.engine := by
  simp [unitAndSlotsReset, emptySlots, resetUnit]

theorem Sound.portReset_eq (h : s.Sound) (x : PortId) : s.portReset x = (s.stepsReset x).withEngine Engine.choose := by
  rw [portReset, h.retireOwned_unbindPort, stepsReset]

theorem inUse_unitAndSlotsReset {r : RegionId} (hr : r ∈ s.goneWith x) : ((s.unitAndSlotsReset x).region r).state.inUse = true := by
  rw [unitAndSlotsReset_region]
  exact inUse_of_mem_goneWith hr

theorem Sound.resetStep_regions (h : s.Sound) (x : PortId) : s.ResetStep (s.regionsReset x) x :=
  (h.resetStep_unitAndSlots x).trans ((h.resetStep_unitAndSlots x).sound.resetStep_retireAll x (s.nodup_goneWith x)
    (fun _ hr => inUse_unitAndSlotsReset hr) _ _)

theorem regionsReset_port (s : State) (x y : PortId) : (s.regionsReset x).port y =
    ((s.unitAndSlotsReset x).port y).losesAll y (s.goneWith x) (s.unitAndSlotsReset x).region .ownerReset :=
  retireAll_port _ (s.nodup_goneWith x) _ _ y

/-- The slots of the port that is reset stay EMPTY. -/
theorem regionsReset_slots (s : State) (x : PortId) : ((s.regionsReset x).port x).slots = Vector.replicate 32 .empty := by
  rw [regionsReset_port, unitAndSlotsReset_port, if_pos rfl]
  refine Vector.ext fun i hi => ?_
  simp only [Port.losesAll, Vector.getElem_map, Vector.getElem_replicate]
  exact Slot.foldl_lapsedFrom_of_not_bound _ (fun _ _ => rfl) _

/-! ### Steps 4 to 7 -/

theorem Sound.resetStep_dropGrants (h : s.Sound) (hslots : (s.port x).slots = Vector.replicate 32 .empty) :
    s.ResetStep (s.dropGrants x) x := by
  have hrest : (s.dropGrants x).engine = s.engine ∧ (s.dropGrants x).waits = s.waits ∧ (s.dropGrants x).directory = s.directory ∧
      (s.dropGrants x).freeList = s.freeList ∧ (s.dropGrants x).array = s.array := by simp [dropGrants]
  obtain ⟨hengine, hwaits, hdirectory, hfree, harray⟩ := hrest
  refine ⟨h.of_tables (h.tables.unbind (fun r => ?_) (fun r => ?_) (fun y i b hb => ?_) (fun r y => ?_) (fun y => ?_) hdirectory)
    hengine (fun r => ?_) hfree harray (fun y => ?_) hwaits, fun y _ hy => hy.of_port (dropGrants_port s x y) (by rw [hwaits]) hengine,
    fun y => by rw [dropGrants_port], fun y => by rw [dropGrants_port], fun y => by rw [hwaits]⟩
  · rw [dropGrants_region]
  · rw [dropGrants_region, boundCount_congr (s := s) fun y => by rw [dropGrants_port]]
    exact h.tables.bindings.1 r
  · rw [dropGrants_port] at hb
    refine ⟨hb, ?_⟩
    rw [dropGrants_region, PerPort.get_set, if_neg]
    rintro rfl
    rw [Port.slot, hslots, Vector.getElem_replicate] at hb
    cases hb
  · rw [dropGrants_region, PerPort.get_set]
    split
    · exact .inr rfl
    · exact .inl rfl
  · rw [dropGrants_port]
  · rw [dropGrants_region]
    exact .of_eq rfl rfl rfl rfl
  · rw [dropGrants_port]
    exact h.ports.1 y

theorem Sound.resetStep_events (h : s.Sound) (x : PortId) : s.ResetStep (s.resetEvents x) x := by
  refine ⟨h.of_ports rfl (fun _ => rfl) rfl rfl rfl rfl (fun y => ?_) fun y => ?_,
    fun y hy hs => hs.of_port (by rw [resetEvents_port, if_neg hy]) rfl rfl, ⟨fun y => ?_, fun y => ?_, fun _ => rfl⟩⟩
  · rw [resetEvents_port]
    split <;> exact ⟨rfl, rfl⟩
  · rw [resetEvents_port]
    split
    · exact ⟨fun _ => rfl, nofun, (h.ports.1 y).2.2.1, Nat.zero_le _, Nat.zero_le _, Nat.zero_le _⟩
    · exact h.ports.1 y
  · rw [resetEvents_port]
    split <;> rfl
  · rw [resetEvents_port]
    split <;> rfl

theorem Sound.resetStep_issuer (h : s.Sound) (x : PortId) : s.ResetStep (s.resetIssuer x) x := by
  refine ⟨h.withCompaction (Compaction.loseIssuer_phase x) fun c => ?_,
    fun _ _ hy => Lawful.held_withCompaction hy fun c hc => ?_,
    fun _ => rfl, fun _ => rfl, fun _ => rfl⟩
  · unfold Compaction.loseIssuer
    split <;> exact ⟨rfl, rfl⟩
  · unfold Compaction.loseIssuer at hc
    split at hc
    · cases hc
    · exact hc

theorem Sound.resetStep_choose (h : s.Sound) (x : PortId) : s.ResetStep (s.withEngine Engine.choose) x :=
  ⟨h.choose, fun _ _ hy => hy.of_same rfl rfl fun c hc hp =>
    ⟨c, (Engine.compactions_perm s.engine.jobs_choose).mem_iff.mp hc, hp⟩,
    fun _ => rfl, fun _ => rfl, fun _ => rfl⟩

/-! ### The whole reset -/

theorem Sound.resetStep_beforeChoice (h : s.Sound) (x : PortId) :
    s.ResetStep (s.stepsReset x) x := by
  have hregions := h.resetStep_regions x
  have hgrants := hregions.sound.resetStep_dropGrants (s.regionsReset_slots x)
  have hevents := hgrants.sound.resetStep_events x
  exact ((hregions.trans hgrants).trans hevents).trans (hevents.sound.resetStep_issuer x)

/-- The port reset keeps the laws inside an event, and HELD ports beside its own. -/
theorem Sound.resetStep_portReset (h : s.Sound) (x : PortId) : s.ResetStep (s.portReset x) x := by
  rw [h.portReset_eq]
  exact (h.resetStep_beforeChoice x).trans ((h.resetStep_beforeChoice x).sound.resetStep_choose x)

theorem Sound.ordered_portReset (h : s.Sound) (x : PortId) : (s.portReset x).engine.Ordered := by
  rw [h.portReset_eq]
  exact (h.resetStep_beforeChoice x).sound.inOrder.choose

theorem Sound.portReset_region (h : s.Sound) (x : PortId) (r : RegionId) : (s.portReset x).region r =
    { (if r ∈ s.goneWith x then ((s.unitAndSlotsReset x).region r).gone else (s.unitAndSlotsReset x).region r) with
      grants := ((if r ∈ s.goneWith x then ((s.unitAndSlotsReset x).region r).gone
        else (s.unitAndSlotsReset x).region r).grants.set x none) } := by
  have hchain : (s.portReset x).region r = ((s.regionsReset x).dropGrants x).region r := by
    rw [h.portReset_eq, withEngine_region, stepsReset_region]
  rw [hchain, dropGrants_region, regionsReset, retireAll_region _ (s.nodup_goneWith x)]

theorem Sound.portReset_port (h : s.Sound) (x y : PortId) : (s.portReset x).port y =
    if y = x then { (s.regionsReset x).port y with watch := none, events := EventBlock.reset } else (s.regionsReset x).port y := by
  have hchain : (s.portReset x).port y = (((s.regionsReset x).dropGrants x).resetEvents x).port y := by
    rw [h.portReset_eq, withEngine_port, stepsReset_port]
  rw [hchain, resetEvents_port, dropGrants_port]

/-- After the reset its port owns no region in use. -/
theorem Sound.portReset_holdings (h : s.Sound) (x : PortId) : ((s.portReset x).port x).holdings = 0 := by
  rw [(h.resetStep_portReset x).sound.tables.holdings x, ownedGranules]
  refine List.sum_eq_zero fun n hn => ?_
  obtain ⟨r, -, rfl⟩ := List.mem_map.mp hn
  refine if_neg fun ⟨howner, huse⟩ => ?_
  rw [h.portReset_region] at howner huse
  split at huse
  · cases huse
  · next hr =>
    rw [if_neg hr, unitAndSlotsReset_region] at howner
    rw [unitAndSlotsReset_region] at huse
    refine hr (List.mem_append.mpr ?_)
    rw [mem_retiredWith_iff]
    by_cases hlast : r ∈ s.lastHeldBy x
    · exact .inl hlast
    · exact .inr ⟨howner, huse, hlast⟩

theorem Sound.portReset_own (h : s.Sound) (x : PortId) : (s.portReset x).port x =
    { s.port x with
      unit := CommandUnit.reset, events := EventBlock.reset, slots := Vector.replicate 32 .empty, bank := 0,
      watch := none, holdings := 0 } := by
  have hslots := s.regionsReset_slots x
  have hholdings := h.portReset_holdings x
  rw [h.portReset_port, if_pos rfl] at hholdings ⊢
  rw [regionsReset_port, unitAndSlotsReset_port, if_pos rfl] at hslots hholdings ⊢
  simp only [Port.losesAll] at hslots hholdings ⊢
  rw [hslots, hholdings]

theorem Sound.portReset_other (h : s.Sound) {x y : PortId} (hy : y ≠ x) : (s.portReset x).port y =
    { s.port y with
      slots := (s.port y).slots.map fun c => (s.retiredWith x).foldl (fun c r => c.lapsedFrom r .ownerReset) c
      events := if (s.retiredWith x).all (fun r => (s.port y).slotsOn r = []) then (s.port y).events
        else { (s.port y).events with flags := (s.port y).events.flags ||| 4#6 }
      holdings := (s.port y).holdings -
        (((s.lastHeldBy x).filter fun r => (s.region r).owner = y).map fun r => (s.region r).length).sum } := by
  have hlast : ∀ r ∈ s.lastHeldBy x, (s.port y).slotsOn r = [] := fun r hr => h.slotsOn_of_lastHeld hr hy
  have hslots : (s.port y).slots.map (fun c => (s.goneWith x).foldl (fun c r => c.lapsedFrom r .ownerReset) c) =
      (s.port y).slots.map fun c => (s.retiredWith x).foldl (fun c r => c.lapsedFrom r .ownerReset) c := by
    refine Vector.ext fun i hi => ?_
    have hfold := Slot.foldl_lapsedFrom_of_not_bound (x := (s.port y).slot ⟨i, hi⟩) (s.lastHeldBy x)
      (fun r hr => (Port.slotsOn_eq_nil_iff_binds _ r).mp (hlast r hr) ⟨i, hi⟩) .ownerReset
    rw [Port.slot] at hfold
    rw [Vector.getElem_map, Vector.getElem_map, goneWith, List.foldl_append, hfold]
  have hevents : ((s.goneWith x).all fun r => (s.port y).slotsOn r = []) =
      (s.retiredWith x).all fun r => (s.port y).slotsOn r = [] := by
    rw [goneWith, List.all_append, List.all_eq_true.mpr fun r hr => decide_eq_true (hlast r hr), Bool.true_and]
  have hretired : ((s.retiredWith x).filter fun r => (s.region r).owner = y) = [] :=
    List.filter_eq_nil_iff.mpr fun r hr hc => hy (((decide_eq_true_eq.mp hc).symm).trans ((s.mem_retiredWith_iff x r).mp hr).1)
  rw [h.portReset_port, if_neg hy, regionsReset_port, unitAndSlotsReset_port, if_neg hy, Port.losesAll, hslots, hevents]
  simp only [unitAndSlotsReset_region]
  rw [goneWith, List.filter_append, hretired, List.append_nil]

theorem stepsReset_granuleNext (s : State) (x : PortId) :
    (s.stepsReset x).granuleNext = (s.regionsReset x).granuleNext := by
  refine (granuleNext_withCompaction (s := ((s.regionsReset x).dropGrants x).resetEvents x)
    (Compaction.loseIssuer_phase x)).trans (granuleNext_congr ?_ fun r => ?_)
  · simp only [resetEvents, modifyPort_engine, dropGrants, mapRegions_engine]
  · simp only [resetEvents, modifyPort_region, dropGrants_region]

theorem Sound.portReset_engine (h : s.Sound) (x : PortId) : (s.portReset x).engine =
    (((s.lastHeldBy x ++ s.retiredWith x).foldl (fun e r => e.withScrub r (s.region r) (s.port x).level) s.engine).withCompaction
      (Compaction.loseIssuer x)).choose := by
  obtain ⟨-, -, -, -, -, -, -, -, -, hstart⟩ := s.unitAndSlotsReset_rest x
  rw [h.portReset_eq, withEngine_engine, stepsReset_engine, regionsReset, retireAll_engine _ (s.nodup_goneWith x), hstart]
  refine congrArg (fun e : Engine => (e.withCompaction (Compaction.loseIssuer x)).choose) (List.foldl_ext _ _ _ fun e r _ => ?_)
  rw [unitAndSlotsReset_region]
  rfl

/-- Where the engine waits at the arbiter it has a running job, and chooses no other. -/
theorem Sound.choose_stepsReset (h : s.Sound) (x : PortId) (hstep : s.waits.step = true) :
    (s.stepsReset x).withEngine Engine.choose = s.stepsReset x := by
  obtain ⟨-, -, -, -, -, -, -, -, -, hstart⟩ := s.unitAndSlotsReset_rest x
  have hrunning : (s.stepsReset x).engine.running.isSome = true := by
    rw [stepsReset_engine, Engine.withCompaction, Option.isSome_map, regionsReset, retireAll_engine _ (s.nodup_goneWith x),
      Engine.isSome_running_foldl_withScrub, hstart]
    cases hrun : s.engine.running with
    | some j => rfl
    | none =>
      have := h.claims.2 hstep
      rw [granuleNext_of_idle hrun] at this
      cases this
  rw [State.withEngine, Engine.choose_of_running hrunning]

theorem Sound.stepSettled_portReset (h : s.Sound) (x : PortId) : s.StepSettled (s.portReset x) := by
  obtain ⟨-, -, -, -, -, -, hwaits, -, -, hengine⟩ := s.unitAndSlotsReset_rest x
  have hunit : s.StepSettled (s.unitAndSlotsReset x) :=
    .of_same hwaits (granuleNext_congr hengine fun r => by rw [unitAndSlotsReset_region]) h.claims
  obtain ⟨hregions, hback⟩ := stepSettled_retireAll (s.goneWith x) (h.resetStep_unitAndSlots x).sound.claims .ownerReset (s.port x).level
  have hnext := s.stepsReset_granuleNext x
  obtain ⟨-, -, -, -, -, -, hwaits', -, -⟩ := s.stepsReset_rest x
  have hbefore : s.StepSettled (s.stepsReset x) :=
    (hunit.trans hregions hback).trans (.of_same hwaits' hnext (h.resetStep_regions x).sound.claims) fun hn => hnext ▸ hn
  rw [h.portReset_eq]
  cases hstep : s.waits.step with
  | true => rw [h.choose_stepsReset x hstep]; exact hbefore
  | false =>
    unfold StepSettled at hbefore ⊢
    rw [withEngine_waits, hbefore, hstep, Bool.false_and, Bool.false_and]

/-- The port reset does what R179 says, step by step. -/
theorem Sound.portReset (h : s.Sound) (x : PortId) : s.PortReset (s.portReset x) x where
  own := h.portReset_own x
  other _ hy := h.portReset_other hy
  records r := by
    rw [h.portReset_region, unitAndSlotsReset_region]
    by_cases hr : r ∈ s.goneWith x
    · rw [if_pos hr, if_pos (List.mem_append.mp hr), Region.gone_of_bindings]
      exact Region.gone_set_grants _ x
    · rw [if_neg hr, if_neg fun hc => hr (List.mem_append.mpr hc)]
  directory := by
    obtain ⟨hdirectory, -⟩ := s.stepsReset_rest x
    obtain ⟨hstart, -⟩ := s.unitAndSlotsReset_rest x
    rw [h.portReset_eq, withEngine_directory, hdirectory, regionsReset,
      (h.resetStep_unitAndSlots x).sound.retireAll_directory (s.nodup_goneWith x) (fun _ hr => inUse_unitAndSlotsReset hr), hstart,
      goneWith]
  engine := h.portReset_engine x
  rest := by
    obtain ⟨-, hfree, hlastPort, hlastTaken, harray, hlastServed, -, hpending, hresets⟩ := s.stepsReset_rest x
    obtain ⟨-, hfree', hlastPort', hlastTaken', harray', hlastServed', -, hpending', hresets', -⟩ := s.unitAndSlotsReset_rest x
    obtain ⟨hfree'', hlastPort'', hlastTaken'', harray'', hlastServed'', hpending'', hresets''⟩ :=
      retireAll_rest (s.unitAndSlotsReset x) (s.goneWith x) .ownerReset (s.port x).level
    have hwaits := h.stepSettled_portReset x
    rw [h.portReset_eq] at hwaits ⊢
    rw [withEngine_freeList, withEngine_lastPort, withEngine_lastTaken, withEngine_array, withEngine_lastServed, withEngine_pending,
      withEngine_resets]
    exact ⟨hfree.trans (hfree''.trans hfree'), hlastPort.trans (hlastPort''.trans hlastPort'),
      hlastTaken.trans (hlastTaken''.trans hlastTaken'), harray.trans (harray''.trans harray'),
      hlastServed.trans (hlastServed''.trans hlastServed'), hwaits, hpending.trans (hpending''.trans hpending'),
      hresets.trans (hresets''.trans hresets')⟩

end State

end Sys2Proof.Machine
end

section
/-! PROOFS. RESET_PORT, the reset inputs and the device reset: the laws they keep, and the statements about them. -/
namespace Sys2Proof.Machine

namespace State

variable {s : State} {p x : PortId}

/-! ### HELD ports and resets -/

/-- A port that has been reset is as R169 asks once no response and no access of it stand. -/
theorem Sound.heldAt_portReset (h : s.Sound) (hresponse : (s.port x).response = none) (hwaits : s.waits.ports.get x = none) :
    (s.portReset x).HeldAt x := by
  have hreset := h.portReset x
  have hslots : ∀ i, ((s.portReset x).port x).slot i = .empty := fun i => by
    rw [hreset.own, Port.slot, Vector.getElem_replicate]
  refine ⟨?_, ?_, hslots, ?_, ?_, ?_, ?_, fun c hc hp => ?_⟩
  · rw [hreset.own]
  · rw [hreset.own]
  · rw [hreset.own]
  · rw [hreset.own]
  · rw [hreset.own]
    exact hresponse
  · rw [hreset.rest.2.2.2.2.2.1]
    exact hwaits
  · rw [hreset.engine] at hc
    have hc' := (Engine.compactions_perm (Engine.jobs_choose _)).mem_iff.mp hc
    rw [Engine.compactions_withCompaction] at hc'
    obtain ⟨d, -, rfl⟩ := List.mem_map.mp hc'
    split at hp
    · cases hp
    · next hd => exact hd hp

theorem Lawful.settles_portReset (h : s.Lawful) (p x : PortId) : s.Settles (s.portReset x) p := by
  obtain ⟨hsound, hheld, hinputs⟩ := h.sound.resetStep_portReset x
  refine ⟨hsound, h.sound.ordered_portReset x, fun y hy hs => ?_, hinputs.portState⟩
  by_cases hyx : y = x
  · rw [hyx] at hs ⊢
    exact h.sound.heldAt_portReset hs.response hs.waits
  · exact hheld y hyx hs

theorem Lawful.settles_resetPort (h : s.Lawful) (p : PortId) : s.Settles (resetPortBody s p).state p := by
  rcases resetPortBody_cases s p with hstate | ⟨x, -, -, hstate⟩
  · rw [hstate]; exact .refl h p
  · rw [hstate]; exact h.settles_portReset p x

/-! ### The reset inputs -/

/-- A port whose reset input has been asserted, before its port reset (R168, R107). -/
def inputAsserted (s : State) (p : PortId) : State :=
  { s.modifyPort p fun q => { q with portState := .held, response := none } with waits := s.waits.drop (.port p) }

@[simp] theorem inputAsserted_port (s : State) (p y : PortId) : (s.inputAsserted p).port y =
    if y = p then { s.port y with portState := .held, response := none } else s.port y :=
  port_modifyPort s p (fun q => { q with portState := .held, response := none }) y

theorem execPortResetInputAssert_attached (h : (s.port p).portState = .attached) :
    execPortResetInputAssert p s = .next ((s.inputAsserted p).portReset p) := by
  unfold execPortResetInputAssert
  rw [h]
  rfl

theorem execPortResetInputAssert_held (h : (s.port p).portState = .held) : execPortResetInputAssert p s = .next s := by
  unfold execPortResetInputAssert
  rw [h]

theorem Sound.inputAsserted (h : s.Sound) (p : PortId) : (s.inputAsserted p).Sound := by
  refine ⟨h.tables.of_same (fun _ => rfl) (fun y => ?_) rfl, h.arranged.of_sameSpace (fun _ => .refl _) rfl rfl, h.inOrder,
    ⟨fun y => ?_, h.ports.2⟩, fun y a ha => ?_, h.claims.2⟩
  · rw [inputAsserted_port]
    split <;> exact ⟨rfl, rfl⟩
  · rw [inputAsserted_port]
    split <;> exact h.ports.1 y
  · have hget : (s.inputAsserted p).waits.ports.get y = if y = p then none else s.waits.ports.get y := Waits.get_drop_port ..
    rw [hget] at ha
    split at ha
    · cases ha
    · exact h.claims.1 y a ha

theorem Lawful.inputAssert {t : State} (h : s.Lawful) (ht : execPortResetInputAssert p s = .next t) : t.Lawful := by
  cases hp : (s.port p).portState with
  | held =>
    rw [execPortResetInputAssert_held hp] at ht
    cases ht
    exact h
  | attached =>
    rw [execPortResetInputAssert_attached hp] at ht
    cases ht
    have hbefore := h.sound.inputAsserted p
    obtain ⟨hsound, hheld, hinputs⟩ := hbefore.resetStep_portReset p
    refine hsound.lawful (hbefore.ordered_portReset p) ((heldLaw_iff _).mpr fun y hy => ?_)
    by_cases hyp : y = p
    · subst hyp
      exact hbefore.heldAt_portReset (by rw [inputAsserted_port, if_pos rfl])
        ((Waits.get_drop_port ..).trans (if_pos rfl))
    · rw [hinputs.portState, inputAsserted_port, if_neg hyp] at hy
      exact hheld y hyp (((heldLaw_iff s).mp h.held y hy).of_port (by rw [inputAsserted_port, if_neg hyp])
        ((Waits.get_drop_port ..).trans (if_neg hyp)) rfl)

theorem Lawful.inputRelease (h : s.Lawful) (p : PortId) :
    (s.modifyPort p fun q => { q with portState := .attached }).Lawful := by
  have hport : ∀ y, (s.modifyPort p fun q => { q with portState := .attached }).port y =
      if y = p then { s.port y with portState := .attached } else s.port y := port_modifyPort s p _
  refine (h.sound.of_ports (t := s.modifyPort p fun q => { q with portState := .attached }) rfl (fun _ => rfl) rfl rfl rfl rfl
    (fun y => ?_) fun y => ?_).lawful h.ordered
    ((heldLaw_iff _).mpr fun y hy => ?_)
  · rw [hport]
    split <;> exact ⟨rfl, rfl⟩
  · rw [hport]
    split <;> exact h.ports.1 y
  · rw [hport] at hy
    split at hy
    · cases hy
    · next hyp => exact ((heldLaw_iff s).mp h.held y hy).of_port (by rw [hport, if_neg hyp]) rfl rfl

end State

/-! ### Statements about resets -/

theorem exec_portResetInputAssert (p : PortId) (s : State) :
    exec (.portResetInputAssert p) s = execPortResetInputAssert p s := rfl

theorem exec_portResetInputRelease (p : PortId) (s : State) :
    exec (.portResetInputRelease p) s = .next (s.modifyPort p fun q => { q with portState := .attached }) := rfl

theorem exec_takeResetPort (p : PortId) (s : State) :
    exec (.takeResetPort p) s = s.takeCommand p (fun w => w = 0x000A) resetPortBody := rfl

/-- Settles O5: the assertion is the port reset of the state in which the input is asserted, and that state is sound. -/
theorem portResetByInput : Obligations.PortResetByInput := by
  unfold Obligations.PortResetByInput
  refine ⟨fun s p h hp => ?_, fun s p hp => ?_⟩
  · rw [exec_portResetInputAssert, State.execPortResetInputAssert_attached hp]
    exact ⟨_, rfl, (h.sound.inputAsserted p).portReset p⟩
  · rw [exec_portResetInputAssert, State.execPortResetInputAssert_held hp]

/-- Settles O6: a HELD port presents no access, and the release sets the port state. -/
theorem heldUntilRelease : Obligations.HeldUntilRelease := by
  unfold Obligations.HeldUntilRelease
  refine ⟨fun s p a arrivals hp c hc => ?_, fun s p => rfl⟩
  obtain ⟨l, hexec, -⟩ := exec_accessRow hc s
  rw [hexec, State.access_of_held hp]

/-- The slots that a reset empties of the port itself. -/
theorem Port.bindings_eq (q : Port) : q.bindings = ((List.finRange 32).filter fun i => (q.slot i).isBound).length :=
  q.countP_slots Slot.isBound

/-- The slots of other ports that lapse when the regions of `l` are retired. -/
theorem State.length_slotsOn_others (s : State) (x : PortId) (l : List RegionId) :
    (PortId.all.flatMap fun y => if y = x then [] else l.flatMap fun r => (s.port y).slotsOn r).length =
      (l.map fun r => (PortId.all.map fun y => if y = x then 0 else (s.port y).boundCount r).sum).sum := by
  have hport : ∀ y, (if y = x then [] else l.flatMap fun r => (s.port y).slotsOn r).length =
      (l.map fun r => if y = x then 0 else (s.port y).boundCount r).sum := fun y => by
    split
    · simp
    · rw [List.length_flatMap]
      simp only [Port.boundCount_eq]
  rw [List.length_flatMap]
  simp only [PortId.all, List.map_cons, List.map_nil, hport, List.sum_cons, List.sum_nil, List.sum_map_add, List.sum_map_zero]

/-- The bindings left once the port's own slots are emptied. -/
theorem State.boundCount_unbindPort (s : State) (x : PortId) (r : RegionId) : ((s.resetUnit x).unbindPort x).boundCount r =
    (PortId.all.map fun y => if y = x then 0 else (s.port y).boundCount r).sum := by
  have hport : ∀ y, (((s.resetUnit x).unbindPort x).port y).boundCount r = if y = x then 0 else (s.port y).boundCount r := fun y => by
    rw [State.unbindPort_eq]
    refine (Port.boundCount_of_binds fun i => ?_).trans (?_ : ((s.unitAndSlotsReset x).port y).boundCount r = _)
    · rw [Port.slot, State.scrubAll_slots]
      rfl
    · rw [State.unitAndSlotsReset_port]
      split
      · exact Port.boundCount_eq_zero fun i => by
          rw [Port.slot, Vector.getElem_replicate]
          rfl
      · rfl
  simp only [State.boundCount, hport]

theorem yesNo_toWord (c : Prop) [Decidable c] : toWord (yesNo (decide c)) = if c then 1 else 0 := by
  by_cases h : c <;> simp [h, yesNo, toWord]

theorem toWord_toNat (w : Word) : toWord w.toNat = w := BitVec.eq_of_toNat_eq (by simp [toWord])

/-- The checks of R181 in order. -/
theorem resetPortBody_of_not_supervisor {s : State} {p : PortId} (h : p ≠ .p0) : resetPortBody s p = refuse s .notSupervisor := by
  rw [resetPortBody, if_pos h]

theorem resetPortBody_of_bad_port {s : State} {p : PortId} (hp : p = .p0)
    (h : (s.param p 0).toNat = 0 ∨ 3 < (s.param p 0).toNat) : resetPortBody s p = refuse s .badParam := by
  rw [resetPortBody, if_neg (not_not.mpr hp)]
  rcases h with h | h
  · rw [(portNamed_eq_some_iff _ .p0).mpr h]
    rfl
  · rw [(portNamed_eq_none_iff _).mpr h]

theorem resetPortBody_of_port {s : State} {p x : PortId} (hp : p = .p0) (hx : x ≠ .p0) (h : (s.param p 0).toNat = x.toNat) :
    resetPortBody s p = accept (s.portReset x)
      [toWord x.toNat, toWord (yesNo ((s.port x).unit.state = .pending)), toWord (s.port x).bindings,
        toWord ((s.drainedBy x).length + (((s.resetUnit x).unbindPort x).ownedBy x).length),
        toWord ((((s.resetUnit x).unbindPort x).ownedBy x).map fun r => ((s.resetUnit x).unbindPort x).boundCount r).sum] := by
  rw [resetPortBody, if_neg (not_not.mpr hp), (portNamed_eq_some_iff _ x).mpr h]
  exact if_neg hx

/-- Settles O38: the checks of R181, the reset, and its figures. -/
theorem resetPortAnswered : Obligations.ResetPortAnswered := by
  unfold Obligations.ResetPortAnswered
  intro s p htaking
  rw [exec_takeResetPort, State.takeCommand_of_taking htaking (by decide)]
  refine ⟨fun hp => ?_, fun hp hparam => ?_, fun hp h x hx hparam => ⟨s.portReset x, h.sound.portReset x, ?_⟩⟩
  · rw [resetPortBody_of_not_supervisor hp]
    rfl
  · rw [resetPortBody_of_bad_port hp hparam]
    rfl
  · have hcounts : ∀ r, ((s.resetUnit x).unbindPort x).boundCount r = _ := s.boundCount_unbindPort x
    rw [resetPortBody_of_port hp hx hparam, h.sound.drainedBy_eq, h.sound.ownedBy_unbindPort, List.length_append,
      State.length_slotsOn_others, ← hparam, toWord_toNat, yesNo_toWord, Port.bindings_eq]
    simp only [hcounts]
    rfl

end Sys2Proof.Machine
end

section
/-! PROOFS. Accesses and the device reset keep the laws; the state after a device reset. -/
namespace Sys2Proof.Machine

/-! ### Device reset -/

/-- The tasks of the eight BOOT_SCRUB jobs. -/
theorem Engine.tasks_reset :
    Engine.reset.tasks = (List.finRange 8).map fun k => Task.scrub (.boot k) ⟨256 * k.val, 256⟩ 0 := rfl

/-- The eight boot extents hold each granule once. -/
theorem count_boot_extents {g : Nat} (hg : g < 2048) :
    (((List.finRange 8).map fun k : Fin 8 => Task.scrub (.boot k) ⟨256 * k.val, 256⟩ 0).map fun task => task.count g).sum = 1 := by
  have hk : g / 256 < 8 := by omega
  have hcount : ∀ k : Fin 8, Task.count (.scrub (.boot k) ⟨256 * k.val, 256⟩ 0) g = if k = ⟨g / 256, hk⟩ then 1 else 0 := fun k => by
    rw [Task.count_of_span rfl, Extent.count_eq]
    refine if_congr ?_ rfl rfl
    rw [Fin.ext_iff]
    dsimp only
    omega
  rw [List.map_map]
  have hsum := sum_finRange_add (f := fun k : Fin 8 => if k = ⟨g / 256, hk⟩ then 1 else 0) (k := fun _ => 0) ⟨g / 256, hk⟩
    fun i hi => if_neg hi
  simp only [if_true, List.map_const', List.sum_replicate, smul_eq_mul, Nat.mul_zero, Nat.add_zero, Nat.zero_add] at hsum
  rw [← hsum]
  exact congrArg List.sum (List.map_congr_left fun k _ => hcount k)

theorem State.reset_region (r : RegionId) : State.reset.region r = Region.cleared 0 := Vector.getElem_replicate r.isLt

theorem State.reset_slot (p : PortId) (i : SlotIndex) : (State.reset.port p).slot i = .empty := by
  cases p <;> exact Vector.getElem_replicate i.isLt

/-- What a device reset leaves: ports as reset but for their inputs, an array in canonical form, and all else as after reset. -/
structure State.AfterReset (t : State) : Prop where
  ports : ∀ p, t.port p = { State.reset.port p with portState := (t.port p).portState }
  regions : t.regions = State.reset.regions
  directory : t.directory = []
  freeList : t.freeList = []
  engine : t.engine = Engine.reset
  waits : t.waits = Waits.reset
  array : t.array.wf

namespace State.AfterReset

variable {t : State}

theorem region (h : t.AfterReset) (r : RegionId) : t.region r = Region.cleared 0 := by
  rw [State.region, h.regions]
  exact State.reset_region r

theorem slot (h : t.AfterReset) (p : PortId) (i : SlotIndex) : (t.port p).slot i = .empty := by
  rw [h.ports p]
  exact State.reset_slot p i

theorem tableLaws (h : t.AfterReset) : t.TableLaws := by
  refine ⟨fun r => ?_, ⟨fun r => ?_, fun p i b hb => ?_⟩, fun p i b hb => ?_, fun p => ?_, ?_⟩
  · rw [h.region r]
    exact ⟨fun _ => rfl, nofun, fun _ => rfl, nofun, fun hc => absurd rfl hc, nofun, rfl⟩
  · have hzero : ∀ p, (t.port p).boundCount r = 0 := fun p => Port.boundCount_eq_zero fun i => by rw [h.slot p i]; rfl
    rw [h.region r, State.boundCount_eq, hzero, hzero, hzero, hzero]
    rfl
  · rw [h.slot p i] at hb
    cases hb
  · rw [h.slot p i] at hb
    cases hb
  · have hzero : t.ownedGranules p = 0 := List.sum_eq_zero fun n hn => by
      obtain ⟨r, -, rfl⟩ := List.mem_map.mp hn
      rw [h.region r]
      exact if_neg fun hc => nomatch hc.2
    rw [h.ports p, hzero]
    cases p <;> rfl
  · refine ⟨?_, ?_, fun e he => ?_, fun r n hn => ?_⟩
    · rw [h.directory]; exact .nil
    · rw [h.directory]; exact Nat.zero_le _
    · rw [h.directory] at he; cases he
    · rw [h.region r] at hn; cases hn

theorem arranged (h : t.AfterReset) : t.Arranged t.engine.tasks := by
  rw [h.engine, Engine.tasks_reset]
  refine ⟨h.array, fun task htask => ?_, fun r => ?_, ?_, fun r hr => ?_, ?_, fun g hg => ?_, fun e he => ?_, fun e he => ?_,
    fun r hr => ?_⟩
  · obtain ⟨k, -, rfl⟩ := List.mem_map.mp htask
    refine ⟨⟨rfl, Nat.zero_le _⟩, fun e he => ?_, fun a ⟨hlow, hhigh⟩ => absurd hhigh (by dsimp only at *; omega)⟩
    cases he
    have := k.isLt
    simp only [Extent.stop]
    omega
  · have hnone : ((List.finRange 8).map fun k => Task.scrub (.boot k) ⟨256 * k.val, 256⟩ 0).filterMap Task.region? = [] :=
      List.filterMap_eq_nil_iff.mpr fun task htask => by
        obtain ⟨k, -, rfl⟩ := List.mem_map.mp htask
        rfl
    rw [hnone, h.region r]
    rfl
  · exact Nat.zero_le _
  · rw [h.region r] at hr
    exact absurd rfl hr
  · rw [h.freeList]
    exact ⟨.nil, nofun⟩
  · have hzero : t.regionCount g = 0 := List.sum_eq_zero fun n hn => by
      obtain ⟨r, -, rfl⟩ := List.mem_map.mp hn
      rw [h.region r]
      rfl
    rw [h.freeList, hzero, count_boot_extents hg]
    rfl
  · rw [h.freeList] at he; cases he
  · rw [h.freeList] at he; cases he
  · rw [h.region r] at hr
    exact absurd rfl hr

theorem lawful (h : t.AfterReset) : t.Lawful := by
  have hordered : t.engine.Ordered := by
    rw [h.engine]
    decide
  have hcompactions : t.engine.compactions = [] := by
    rw [h.engine]
    rfl
  have hwaits : ∀ p, t.waits.ports.get p = none := fun p => by
    rw [h.waits]
    cases p <;> rfl
  refine State.Sound.lawful ⟨h.tableLaws, h.arranged, hordered.inOrder, ⟨fun p => ?_, Engine.forall_compactions.mpr ?_⟩,
    fun p a ha => ?_, fun hstep => ?_⟩ hordered ((State.heldLaw_iff t).mpr fun p _ => ?_)
  · rw [h.ports p]
    cases p <;> exact ⟨fun _ => rfl, nofun, (by decide : 512 ≤ 2048), Nat.zero_le _, Nat.zero_le _, Nat.zero_le _⟩
  · rw [hcompactions]
    exact nofun
  · rw [hwaits p] at ha
    cases ha
  · rw [h.waits] at hstep
    cases hstep
  · refine ⟨?_, ?_, h.slot p, ?_, ?_, ?_, hwaits p, by rw [hcompactions]; exact nofun⟩ <;> rw [h.ports p] <;> cases p <;> rfl

end State.AfterReset

/-- The state after a device reset (R183). -/
def State.deviceReset (s : State) : State :=
  { State.reset with
    ports := State.reset.ports.map fun p q => { q with portState := (s.port p).portState }
    array := Memory.ofBytes (Config.arrayAfterReset s.resets)
    pending := s.pending
    resets := s.resets + 1 }

theorem exec_deviceReset (s : State) : exec .deviceReset s = .next s.deviceReset := rfl

theorem State.deviceReset_port (s : State) (p : PortId) :
    s.deviceReset.port p = { State.reset.port p with portState := (s.port p).portState } := PerPort.get_map ..

theorem State.afterReset_deviceReset (s : State) : s.deviceReset.AfterReset :=
  ⟨fun p => by rw [State.deviceReset_port], rfl, rfl, rfl, rfl, rfl, Memory.wf_ofBytes _⟩

/-- Settles O2: the reset values are those of the model's reset, and the array holds the free bytes. -/
theorem deviceResetValues : Obligations.DeviceResetValues := by
  unfold Obligations.DeviceResetValues
  intro s
  have hreset := s.afterReset_deviceReset
  refine ⟨s.deviceReset, rfl, fun p => ?_, hreset.region, rfl, rfl, rfl, rfl, fun p => ?_, rfl, rfl, rfl, rfl, rfl, rfl, rfl, rfl,
    hreset.array, fun a ha => Memory.read_ofBytes _ a ha⟩
  · rw [State.deviceReset_port]
    cases p <;> rfl
  · cases p <;> rfl

/-- Settles O3: the state after reset is one that a device reset leaves, with an array of its own. -/
theorem resetIsLawful : Obligations.ResetIsLawful := by
  unfold Obligations.ResetIsLawful
  exact State.AfterReset.lawful ⟨fun p => rfl, rfl, rfl, rfl, rfl, rfl, State.reset_array_wf⟩

/-! ### Accesses -/

namespace State.Lawful

variable {s t : State} {p : PortId}

/-- An access that is answered changes its ATTACHED port's fields, but neither slots nor holdings, and ends its own claim. -/
theorem of_answeredAccess (h : s.Lawful) {q : Port}
    (hstate : q.portState = .attached) (hslots : q.slots = (s.port p).slots) (hholdings : q.holdings = (s.port p).holdings)
    (hq : q.lawful) : ({ s.setPort p q with waits := s.waits.drop (.port p) } : State).Lawful := by
  have hport : ∀ x, ({ s.setPort p q with waits := s.waits.drop (.port p) } : State).port x = if x = p then q else s.port x :=
    State.port_setPort s p q
  have hget : ∀ x, (s.waits.drop (.port p)).ports.get x = if x = p then none else s.waits.ports.get x := fun x =>
    Waits.get_drop_port ..
  refine h.of_ports rfl rfl rfl rfl rfl (fun x => ?_) ((State.heldLaw_iff _).mpr fun x hx => ?_) (fun x => ?_) (fun x => ?_) rfl
  · rw [hport]
    split
    · next hxp => rw [hxp]; exact ⟨hslots, hholdings⟩
    · exact ⟨rfl, rfl⟩
  · rw [hport] at hx
    split at hx
    · rw [hstate] at hx
      cases hx
    · next hxp =>
      exact ((State.heldLaw_iff s).mp h.held x hx).of_port ((hport x).trans (if_neg hxp)) ((hget x).trans (if_neg hxp)) rfl
  · rw [hport]
    split
    · exact hq
    · exact h.ports.1 x
  · show (s.waits.drop (.port p)).ports.get x = s.waits.ports.get x ∨ _
    rw [hget]
    split
    · exact .inr rfl
    · exact .inl rfl

theorem served (h : s.Lawful) (hp : (s.port p).portState = .attached) {q : Port}
    (hstate : q.portState = (s.port p).portState) (hslots : q.slots = (s.port p).slots)
    (hholdings : q.holdings = (s.port p).holdings) (hq : q.lawful) (data : Option ReadData) : (s.served p q data).Lawful :=
  h.of_answeredAccess (q := { q with response := some ⟨true, data⟩ }) (hstate.trans hp) hslots hholdings hq

theorem faulted (h : s.Lawful) (hp : (s.port p).portState = .attached) (a : Access) (cause : FaultCause) (place : FaultPlace) :
    (s.faulted p a cause place).Lawful := by
  obtain ⟨-, hwatch, hquota, hreport⟩ := h.ports.1 p
  refine h.of_answeredAccess hp rfl rfl ⟨fun hfault => ?_, hwatch, hquota, hreport⟩
  cases hrecord : (s.port p).events.fault with
  | none => rfl
  | some f => simp only [hrecord, reduceCtorEq] at hfault

end State.Lawful

/-- A write of a register keeps the limits of the port's fields, and neither slots nor holdings nor the port state change. -/
theorem Port.writeRegister_keeps {q : Port} (h : q.lawful) (r : Register) (size : Size) (high : Bool) (data : Word) :
    (q.writeRegister r size high data).lawful ∧ (q.writeRegister r size high data).slots = q.slots ∧
    (q.writeRegister r size high data).holdings = q.holdings ∧ (q.writeRegister r size high data).portState = q.portState := by
  obtain ⟨hfurther, hlimits⟩ := h
  have hsame : (q.writeRegister .unnamed size high data).lawful ∧ (q.writeRegister .unnamed size high data).slots = q.slots ∧
      (q.writeRegister .unnamed size high data).holdings = q.holdings ∧
      (q.writeRegister .unnamed size high data).portState = q.portState := ⟨⟨hfurther, hlimits⟩, rfl, rfl, rfl⟩
  cases r with
  | events =>
    cases high with
    | true => exact hsame
    | false =>
      rw [Port.writeRegister_events_low, EventBlock.clearFlags_eq]
      refine ⟨⟨fun hfault => ?_, hlimits⟩, rfl, rfl, rfl⟩
      dsimp only at hfault ⊢
      split
      · rfl
      · next hbit =>
        rw [if_neg hbit] at hfault
        exact hfurther hfault
  | eventEnable => cases high <;> exact ⟨⟨hfurther, hlimits⟩, rfl, rfl, rfl⟩
  | bank => cases high <;> exact ⟨⟨hfurther, hlimits⟩, rfl, rfl, rfl⟩
  | command =>
    cases high with
    | true => exact hsame
    | false =>
      simp only [Port.writeRegister, Port.writeCommand, Bool.false_eq_true, if_false]
      cases q.unit.state <;> exact ⟨⟨hfurther, hlimits⟩, rfl, rfl, rfl⟩
  | param i =>
    simp only [Port.writeRegister, Port.writeParam]
    cases q.unit.state <;> exact ⟨⟨hfurther, hlimits⟩, rfl, rfl, rfl⟩
  | status => exact hsame
  | result i => exact hsame
  | faultInfo => exact hsame
  | faultOffset => exact hsame
  | faultCount => exact hsame
  | report0 => exact hsame
  | report1 => exact hsame
  | report2 => exact hsame
  | slotView i => exact hsame
  | unnamed => exact hsame

/-! ### Bytes of a region in use -/

/-- The granule that an offset of a region lies in (R96, R97). -/
theorem State.location_div (s : State) (r : RegionId) (x : Nat) : s.location r x / 256 =
    (match (s.region r).move with
      | none => (s.region r).base
      | some v => if x / 256 < v.cursor then v.dest else (s.region r).base) + x / 256 := by
  unfold State.location
  cases (s.region r).move with
  | none => dsimp only; rw [Nat.mul_comm, Nat.mul_add_div (by decide)]
  | some v => dsimp only; rw [Nat.mul_comm, Nat.mul_add_div (by decide)]

/-- A byte of a region in use lies in the region's own extent, or in the reservation of its move where that has been filled. -/
theorem State.Arranged.location_cases {s : State} {tasks : List Task} (h : s.Arranged tasks) {r : RegionId}
    (huse : (s.region r).state.inUse = true) {x : Nat} (hx : x < (s.region r).length * 256) :
    (s.region r).count (s.location r x / 256) = 1 ∨
    ∃ m v rest, m.subject = r ∧ (s.region r).move = some v ∧ tasks.Perm (.compaction (.copy m) :: rest) ∧
      m.extent.contains (s.location r x / 256) = true ∧ s.location r x / 256 < m.extent.base + v.cursor := by
  have hvacant := ((RegionState.inUse_iff _).mp huse).1
  have hdiv := s.location_div r x
  rw [Region.count_eq_one_iff]
  cases hmove : (s.region r).move with
  | none =>
    rw [hmove] at hdiv
    dsimp only at hdiv
    exact .inl ⟨hvacant, by omega, by omega⟩
  | some v =>
    rw [hmove] at hdiv
    dsimp only at hdiv
    obtain ⟨m, rest, hsubject, hperm, ⟨hstop, hextent, hpos⟩, hbase, hlength, hdest, hcursor⟩ := h.exists_copy hmove
    rw [Extent.stop] at hstop
    simp only [Extent.contains_iff]
    split at hdiv
    · by_cases hin : v.dest + x / 256 < (s.region r).base
      · exact .inr ⟨m, v, rest, hsubject, rfl, hperm, by omega, by omega⟩
      · exact .inl ⟨hvacant, by omega, by omega⟩
    · exact .inl ⟨hvacant, by omega, by omega⟩

/-- No law asks a byte of a region in use to be clean. -/
theorem State.Arranged.unclean_of_location {s : State} {tasks : List Task} (h : s.Arranged tasks) {r : RegionId}
    (huse : (s.region r).state.inUse = true) {x : Nat} (hx : x < (s.region r).length * 256) :
    s.Unclean tasks (s.location r x / 256) := by
  rcases h.location_cases huse hx with hcount | ⟨m, v, rest, hsubject, hmove, hperm, hin, hbelow⟩
  · exact h.unclean_of_region hcount ((RegionState.inUse_iff _).mp huse).2
  · refine h.unclean_of_task (task := .compaction (.copy m)) (hperm.mem_iff.mpr List.mem_cons_self) ?_ ?_
    · exact (Task.count_eq_one_iff ..).mpr ⟨m.extent, rfl, hin⟩
    · rintro ⟨u, hu, hlow, -⟩
      rw [hsubject, hmove] at hu
      cases hu
      omega

namespace State.Lawful

variable {s t : State} {p : PortId}

/-- Bytes of a region in use are written, or none. -/
theorem withArray (h : s.Lawful) {r : RegionId} (huse : (s.region r).state.inUse = true) {m : Memory} (hm : m.wf)
    (hbytes : ∀ a, m.read a = s.byteAt a ∨ ∃ x < (s.region r).length * 256, a = s.location r x) (c : Claimant) :
    ({ s with array := m, lastServed := c } : State).Lawful := by
  refine State.Sound.lawful ⟨h.tableLaws.of_same (fun _ => rfl) (fun _ => ⟨rfl, rfl⟩) rfl,
    h.arranged.of_same (fun _ => .refl _) rfl hm fun a => ?_, h.ordered.inOrder, h.ports, h.claims⟩ h.ordered h.held
  rcases hbytes a with hsame | ⟨x, hx, rfl⟩
  · exact .inl hsame
  · exact .inr (.inr (h.arranged.unclean_of_location huse hx))

/-- An access that passes the checks is inside a region in use. -/
theorem inUse_of_checkAccess (h : s.Lawful) {a : Access} {r : RegionId} {e : Nat} (hc : s.checkAccess p a = .ok (r, e)) :
    (s.region r).state.inUse = true ∧ e + a.size.bytes - 1 < (s.region r).length * 256 := by
  obtain ⟨rights, origin, hslot, -, -, hbound, -⟩ := (s.checkAccess_eq_ok_iff p a r e).mp hc
  exact ⟨h.inUse_of_bound hslot, hbound⟩

/-- What a served access leaves of the state beside the array is an answer OK. -/
theorem serve_eq (s : State) (p : PortId) (a : Access) (y : Region) (e : Nat) : ∃ data, s.serve p a y e =
    ({ s with array := (s.serve p a y e).array, lastServed := .port p } : State).served p (s.port p) data := by
  unfold State.serve
  cases a.dir <;> cases a.size <;> exact ⟨_, rfl⟩

theorem serve (h : s.Lawful) (hp : (s.port p).portState = .attached) {a : Access} {r : RegionId} {e : Nat}
    (hc : s.checkAccess p a = .ok (r, e)) (hin : (s.region r).lastByte a e < Config.arrayBytes) :
    (s.serve p a (s.region r) e).Lawful := by
  obtain ⟨huse, hbound⟩ := h.inUse_of_checkAccess hc
  obtain ⟨data, hserve⟩ := serve_eq s p a (s.region r) e
  have harray : (s.serve p a (s.region r) e).array.wf ∧ ∀ b, (s.serve p a (s.region r) e).array.read b = s.byteAt b ∨
      ∃ x < (s.region r).length * 256, b = s.location r x := by
    rw [Region.lastByte, Nat.max_lt] at hin
    rw [State.serve_array]
    simp only [State.location_eq_locate]
    cases hdir : a.dir with
    | read => exact ⟨h.memory, fun b => .inl rfl⟩
    | write =>
      cases hsize : a.size with
      | byte =>
        rw [hsize] at hbound
        simp only [Size.bytes] at hbound
        refine ⟨Memory.wf_write _ _ hin.1 h.memory, fun b => ?_⟩
        rw [Memory.read_write _ _ _ _ h.memory]
        split
        · next hb => exact .inr ⟨e, by omega, hb⟩
        · exact .inl rfl
      | word =>
        rw [hsize] at hbound hin
        simp only [Size.bytes] at hbound
        have hfirst := Memory.wf_write _ (lowByte a.data) hin.1 h.memory
        refine ⟨Memory.wf_write _ _ hin.2 hfirst, fun b => ?_⟩
        dsimp only
        rw [Memory.read_write _ _ _ _ hfirst, Memory.read_write _ _ _ _ h.memory]
        split
        · next hb => exact .inr ⟨e + 1, by omega, hb⟩
        · split
          · next hb => exact .inr ⟨e, by omega, hb⟩
          · exact .inl rfl
  rw [hserve]
  exact (h.withArray huse harray.1 harray.2 _).served (p := p) hp rfl rfl rfl (h.ports.1 p) data

/-- An access keeps the laws. -/
theorem access (h : s.Lawful) {a : Access} {arrivals : List Claim} (ht : s.access p a arrivals = .next t) : t.Lawful := by
  rcases State.access_cases ht with ⟨-, rfl⟩ | ⟨hpresents, hcases⟩
  · exact h
  have hp := ((s.presents_iff p a).mp hpresents).1
  rcases hcases with ⟨-, hdata⟩ | ⟨r, high, -, rfl⟩ | ⟨-, rfl⟩ | ⟨-, rfl⟩
  · have harrived := h.arriveAll (.port p a :: arrivals)
    rcases State.dataAccess_cases hdata with ⟨cause, -, rfl⟩ | ⟨r, e, hcheck, -, hin, rfl⟩ | ⟨rfl, -⟩
    · exact h.faulted hp a cause _
    · have hregion := s.arriveAll_region (.port p a :: arrivals) r
      rw [← hregion] at hin ⊢
      refine harrived.serve (by rw [State.arriveAll_port]; exact hp) ?_ hin
      rw [State.arriveAll_eq]
      exact hcheck
    · exact harrived
  · rw [State.controlAccess_eq]
    obtain ⟨hlawful, hslots, hholdings, hstate⟩ := Port.writeRegister_keeps (h.ports.1 p) r a.size high a.data
    cases a.dir with
    | read => exact h.served hp rfl rfl rfl (h.ports.1 p) _
    | write => exact h.served hp hstate hslots hholdings hlawful _
  · exact h.faulted hp a _ _
  · exact h.faulted hp a _ _

end State.Lawful

end Sys2Proof.Machine
end

section
/-! PROOFS. The events of the Granule Engine keep the laws; with the other rows, every event and every step does. -/
namespace Sys2Proof.Machine

/-! ### The running job -/

theorem Engine.mem_compactions_rework {e : Engine} {level : Level} {order : Nat} {c c' d : Compaction}
    (hrun : e.running = some ⟨level, order, .compaction c⟩) (hd : d ∈ (e.setRunning level order c').compactions) :
    d = c' ∨ d ∈ e.compactions := by
  rw [Engine.compactions, e.jobs_of_running hrun]
  rcases List.mem_cons.mp (show d ∈ c' :: e.others.filterMap Job.compaction? from hd) with rfl | hd
  · exact .inl rfl
  · exact .inr (List.mem_cons_of_mem _ hd)

theorem Engine.compaction_mem {e : Engine} {level : Level} {order : Nat} {c : Compaction}
    (hrun : e.running = some ⟨level, order, .compaction c⟩) : c ∈ e.compactions := by
  rw [Engine.compactions, e.jobs_of_running hrun]
  exact List.mem_cons_self

theorem Engine.mem_compactions_boundary {e : Engine} {c : Compaction} : c ∈ e.boundary.compactions ↔ c ∈ e.compactions :=
  (Engine.compactions_perm e.jobs_boundary).mem_iff

theorem Engine.tasks_boundary (e : Engine) : e.boundary.tasks.Perm e.tasks := Engine.tasks_perm e.jobs_boundary

theorem Engine.tasks_choose (e : Engine) : e.choose.tasks.Perm e.tasks := Engine.tasks_perm e.jobs_choose

/-- The engine once its running job has left the set (R114). -/
def Engine.endRunning (e : Engine) : Engine := ({ e with running := none } : Engine).choose

theorem Engine.tasks_endRunning (e : Engine) : e.endRunning.tasks.Perm (e.others.map Job.task) := Engine.tasks_choose _

theorem Engine.Ordered.endRunning {e : Engine} (h : e.Ordered) : e.endRunning.Ordered := h.inOrder.drop.choose

theorem Engine.mem_compactions_endRunning {e : Engine} {c : Compaction} (h : c ∈ e.endRunning.compactions) : c ∈ e.compactions := by
  have hrest := (Engine.compactions_perm (Engine.jobs_choose _)).mem_iff.mp h
  obtain ⟨j, hj, hc⟩ := List.mem_filterMap.mp hrest
  refine List.mem_filterMap.mpr ⟨j, ?_, hc⟩
  rw [Engine.jobs_drop] at hj
  rw [Engine.mem_jobs_iff]
  exact .inr (List.mem_append.mp hj)

/-! ### Ports beside the engine's events -/

theorem Port.lawful_watched {q : Port} (h : q.lawful) (n : Nat) : (q.watched n).lawful := by
  obtain ⟨hfurther, hwatch, hlimits⟩ := h
  unfold Port.watched
  split
  · exact ⟨hfurther, nofun, hlimits⟩
  · exact ⟨hfurther, hwatch, hlimits⟩

theorem State.HeldAt.watched {s : State} {p : PortId} (h : s.HeldAt p) (n : Nat) : (s.port p).watched n = s.port p := by
  rw [Port.watched, h.watch]
  rfl

theorem largestFree_le {l : List Extent} {n : Nat} (h : ∀ e ∈ l, e.stop ≤ n) : largestFree l ≤ n := by
  induction l with
  | nil => exact Nat.zero_le n
  | cons e l ih =>
    refine max_le ?_ (ih fun x hx => h x (List.mem_cons_of_mem _ hx))
    have := h e List.mem_cons_self
    rw [Extent.stop] at this
    dsimp only
    omega

/-- A change of where a region in use stands, or of its move. -/
theorem State.TableLaws.of_place {s t : State} (h : s.TableLaws) (r : RegionId) (huse : (s.region r).state.inUse = true)
    (hothers : ∀ i, i ≠ r → t.region i = s.region i)
    (hrecord : t.region r = { s.region r with base := (t.region r).base, move := (t.region r).move })
    (hports : ∀ p, (t.port p).slots = (s.port p).slots ∧ (t.port p).holdings = (s.port p).holdings)
    (hd : t.directory = s.directory) : t.TableLaws := by
  obtain ⟨hvacant, hscrub⟩ := (RegionState.inUse_iff _).mp huse
  refine h.of_record r hothers ?_ (fun p => (hports p).1) (by rw [hrecord]) (.inr ?_) (fun p => ?_)
    (h.directory.of_same hd fun i => ?_)
  · obtain ⟨-, -, hlive, hzero, hpos, hmax, howner⟩ := h.records r
    rw [hrecord]
    exact ⟨fun hc => absurd hc hvacant, fun hc => absurd hc hscrub, hlive, hzero, hpos, hmax, howner⟩
  · rw [hrecord]
    exact ⟨huse, rfl, rfl⟩
  · rw [(hports p).2, hrecord]
    rfl
  · by_cases hi : i = r
    · rw [hi, hrecord]
      exact ⟨id, rfl⟩
    · rw [hothers i hi]
      exact ⟨id, rfl⟩

namespace State.Lawful

variable {s t u : State}

/-- An event of the engine after which it does not wait at the arbiter. -/
theorem of_engineEvent (h : u.Lawful) (htables : t.TableLaws) (harranged : t.Arranged t.engine.tasks)
    (hordered : t.engine.Ordered) (hports : ∀ p, (t.port p).lawful) (hheld : ∀ p, u.HeldAt p → t.port p = u.port p)
    (hstate : ∀ p, (t.port p).portState = (u.port p).portState) (hwaits : t.waits.ports = u.waits.ports)
    (hstep : t.waits.step = false) (hcompactions : ∀ c ∈ t.engine.compactions,
      (c.regionsMoved ≤ Config.maxMoved ∧ c.granulesMoved ≤ Config.maxGranulesMoved) ∧
      ∀ p, c.issuer = some p → ∃ d ∈ u.engine.compactions, d.issuer = some p) : t.Lawful := by
  refine State.Sound.lawful ⟨htables, harranged, hordered.inOrder,
    ⟨hports, Engine.forall_compactions.mpr fun c hc => (hcompactions c hc).1⟩, fun p a ha => ?_, fun hc => ?_⟩ hordered
    ((State.heldLaw_iff t).mpr fun p hp => ?_)
  · rw [hwaits] at ha
    exact h.claims.1 p a ha
  · rw [hstep] at hc
    cases hc
  · rw [hstate] at hp
    have hbefore := (State.heldLaw_iff u).mp h.held p hp
    exact hbefore.of_same (by rw [hheld p hbefore]) (by rw [hwaits]) fun c hc hissuer => (hcompactions c hc).2 p hissuer

/-- The compactions of a lawful state meet what an event asks of those it leaves. -/
theorem compactions_ok (h : u.Lawful) {c : Compaction} (hc : c ∈ u.engine.compactions) :
    (c.regionsMoved ≤ Config.maxMoved ∧ c.granulesMoved ≤ Config.maxGranulesMoved) ∧
      ∀ p, c.issuer = some p → ∃ d ∈ u.engine.compactions, d.issuer = some p :=
  ⟨h.sound.counts c hc, fun _ hp => ⟨c, hc, hp⟩⟩

/-- The running compaction with its phase and scan point changed. -/
theorem compactions_setRunning_ok (h : u.Lawful) {level : Level} {order : Nat} {c c' d : Compaction}
    (hrun : u.engine.running = some ⟨level, order, .compaction c⟩) (hissuer : c'.issuer = c.issuer)
    (hcounts : c'.regionsMoved ≤ Config.maxMoved ∧ c'.granulesMoved ≤ Config.maxGranulesMoved)
    (hd : d ∈ (u.engine.setRunning level order c').boundary.compactions) :
    (d.regionsMoved ≤ Config.maxMoved ∧ d.granulesMoved ≤ Config.maxGranulesMoved) ∧
      ∀ p, d.issuer = some p → ∃ d ∈ u.engine.compactions, d.issuer = some p := by
  rcases Engine.mem_compactions_rework hrun (Engine.mem_compactions_boundary.mp hd) with rfl | hd
  · exact ⟨hcounts, fun p hp => ⟨c, Engine.compaction_mem hrun, hissuer ▸ hp⟩⟩
  · exact h.compactions_ok hd

theorem tasks_setRunning (e : Engine) (level : Level) (order : Nat) (c : Compaction) :
    (e.setRunning level order c).boundary.tasks.Perm (.compaction c.phase :: e.others.map Job.task) := Engine.tasks_boundary _

theorem arranged_running (h : u.Lawful) {j : Job} (hrun : u.engine.running = some j) :
    u.Arranged (j.task :: u.engine.others.map Job.task) := by
  rw [← Engine.tasks_of_running hrun]
  exact h.arranged

theorem arranged_compaction (h : u.Lawful) {level : Level} {order : Nat} {c : Compaction} {phase : Phase}
    (hrun : u.engine.running = some ⟨level, order, .compaction c⟩) (hphase : c.phase = phase) :
    u.Arranged (.compaction phase :: u.engine.others.map Job.task) := by
  rw [← hphase]
  exact h.arranged_running hrun

/-! ### Granule steps -/

theorem scrubbed (hs : s.Lawful) (arrivals : List Claim) {level : Level} {order : Nat} {target : ScrubTarget} {span : Extent}
    {cursor : Nat} (hrun : s.engine.running = some ⟨level, order, .scrub target span cursor⟩) (hcursor : cursor < span.length) :
    (s.scrubbed (s.arriveAll arrivals) level order target span cursor).Lawful := by
  have hordered := hs.ordered.rework hrun (.scrub target span (cursor + 1))
  have hengine : (s.scrubbed (s.arriveAll arrivals) level order target span cursor).engine.Ordered ∧
      (s.scrubbed (s.arriveAll arrivals) level order target span cursor).engine.jobs.Perm
        ({ s.engine with running := some ⟨level, order, .scrub target span (cursor + 1)⟩ } : Engine).jobs := by
    unfold State.scrubbed
    dsimp only
    split
    · exact ⟨hordered.boundary, Engine.jobs_boundary _⟩
    · exact ⟨hordered, .refl _⟩
  obtain ⟨hordered', hjobs⟩ := hengine
  have hregion : ∀ r, (s.scrubbed (s.arriveAll arrivals) level order target span cursor).region r = s.region r :=
    s.arriveAll_region arrivals
  have hport : ∀ p, (s.scrubbed (s.arriveAll arrivals) level order target span cursor).port p = s.port p :=
    s.arriveAll_port arrivals
  refine (hs.arriveAll arrivals).of_engineEvent (hs.tableLaws.of_same hregion (fun p => by rw [hport]; exact ⟨rfl, rfl⟩)
    (s.arriveAll_directory arrivals)) (State.Arranged.perm ((hs.arranged_running hrun).scrubStep hcursor hregion
    (s.arriveAll_freeList arrivals) rfl) (Engine.tasks_perm hjobs)) hordered' (fun p => ?_) (fun p _ => rfl) (fun p => rfl) rfl rfl
    fun c hc => ?_
  · rw [hport]
    exact hs.ports.1 p
  · refine (hs.arriveAll arrivals).compactions_ok ?_
    have hc' := (Engine.compactions_perm hjobs).mem_iff.mp hc
    rw [State.arriveAll_engine, Engine.compactions, s.engine.jobs_of_running hrun]
    exact hc'

theorem copied (hs : s.Lawful) (arrivals : List Claim) {level : Level} {order : Nat} {c : Compaction} {m : Move} {v : MoveRecord}
    (hrun : s.engine.running = some ⟨level, order, .compaction c⟩) (hphase : c.phase = .copy m)
    (hv : (s.region m.subject).move = some v) (hcursor : v.cursor < m.length) :
    (s.copied (s.arriveAll arrivals) m v).Lawful := by
  have hregion : ∀ r, (s.copied (s.arriveAll arrivals) m v).region r =
      if r = m.subject then { s.region r with move := some ⟨v.dest, v.cursor + 1⟩ } else s.region r := fun r => by
    refine (State.region_modifyRegion (s.arriveAll arrivals) m.subject
      (fun x => { x with move := some { v with cursor := v.cursor + 1 } }) r).trans ?_
    rw [State.arriveAll_region]
  have hport : ∀ p, (s.copied (s.arriveAll arrivals) m v).port p = s.port p := s.arriveAll_port arrivals
  have harranged := hs.arranged_compaction hrun hphase
  have huse := (State.Arranged.of_subject? harranged.task_of_head rfl).1
  refine (hs.arriveAll arrivals).of_engineEvent (hs.tableLaws.of_place m.subject huse (fun i hi => by rw [hregion, if_neg hi])
    (by rw [hregion, if_pos rfl]) (fun p => by rw [hport]; exact ⟨rfl, rfl⟩) (s.arriveAll_directory arrivals)) ?_ hs.ordered.boundary
    (fun p => ?_) (fun p _ => rfl) (fun p => rfl) rfl rfl fun d hd => ?_
  · refine State.Arranged.perm (harranged.copyStep hv hcursor hregion (s.arriveAll_freeList arrivals) rfl)
      ((Engine.tasks_boundary _).trans ?_)
    rw [Engine.tasks_of_running hrun, ← hphase]
    exact .refl _
  · rw [hport]
    exact hs.ports.1 p
  · refine (hs.arriveAll arrivals).compactions_ok ?_
    rw [State.arriveAll_engine]
    exact Engine.mem_compactions_boundary.mp hd

theorem cleared (hs : s.Lawful) (arrivals : List Claim) {level : Level} {order : Nat} {c : Compaction} {m : Move}
    {vacated dirty : Extent} {cursor : Nat} (hrun : s.engine.running = some ⟨level, order, .compaction c⟩)
    (hphase : c.phase = .clear m vacated dirty cursor) (hcursor : cursor < dirty.length) :
    (s.cleared (s.arriveAll arrivals) level order c m vacated dirty cursor).Lawful := by
  have hregion : ∀ r, (s.cleared (s.arriveAll arrivals) level order c m vacated dirty cursor).region r = s.region r :=
    s.arriveAll_region arrivals
  have hport : ∀ p, (s.cleared (s.arriveAll arrivals) level order c m vacated dirty cursor).port p = s.port p :=
    s.arriveAll_port arrivals
  have harranged := hs.arranged_compaction hrun hphase
  refine (hs.arriveAll arrivals).of_engineEvent (hs.tableLaws.of_same hregion (fun p => by rw [hport]; exact ⟨rfl, rfl⟩)
    (s.arriveAll_directory arrivals)) (State.Arranged.perm (harranged.clearStep hcursor hregion (s.arriveAll_freeList arrivals) rfl)
    (tasks_setRunning ..)) (hs.ordered.rework hrun _).boundary (fun p => ?_) (fun p _ => rfl) (fun p => rfl) rfl rfl fun d hd => ?_
  · rw [hport]
    exact hs.ports.1 p
  · rw [State.arriveAll_engine]
    exact hs.compactions_setRunning_ok (c' := { c with phase := .clear m vacated dirty (cursor + 1) }) hrun rfl
      (hs.sound.counts c (Engine.compaction_mem hrun)) hd

/-! ### Completions -/

/-- While the running job calls for an action at the Table Controller the engine does not wait at the arbiter. -/
theorem step_of_granuleNext (h : s.Lawful) (hn : s.granuleNext = false) : s.waits.step = false := by
  by_contra hstep
  have := h.claims.2 (by simpa using hstep)
  rw [hn] at this
  cases this

theorem granuleNext_scrub {level : Level} {order : Nat} {target : ScrubTarget} {span : Extent} {cursor : Nat}
    (hrun : s.engine.running = some ⟨level, order, .scrub target span cursor⟩) (hend : span.length ≤ cursor) :
    s.granuleNext = false := by
  rw [State.granuleNext, hrun]
  exact decide_eq_false (Nat.not_lt.mpr hend)

theorem granuleNext_scan {level : Level} {order : Nat} {c : Compaction}
    (hrun : s.engine.running = some ⟨level, order, .compaction c⟩) (hphase : c.phase = .scan) : s.granuleNext = false := by
  rw [State.granuleNext, hrun]
  dsimp only
  rw [hphase]

theorem granuleNext_copy {level : Level} {order : Nat} {c : Compaction} {m : Move} {v : MoveRecord}
    (hrun : s.engine.running = some ⟨level, order, .compaction c⟩) (hphase : c.phase = .copy m)
    (hv : (s.region m.subject).move = some v) (hend : m.length ≤ v.cursor) : s.granuleNext = false := by
  rw [State.granuleNext, hrun]
  dsimp only
  rw [hphase]
  dsimp only
  rw [hv]
  exact decide_eq_false (Nat.not_lt.mpr hend)

theorem granuleNext_clear {level : Level} {order : Nat} {c : Compaction} {m : Move} {vacated dirty : Extent} {cursor : Nat}
    (hrun : s.engine.running = some ⟨level, order, .compaction c⟩) (hphase : c.phase = .clear m vacated dirty cursor)
    (hend : dirty.length ≤ cursor) : s.granuleNext = false := by
  rw [State.granuleNext, hrun]
  dsimp only
  rw [hphase]
  exact decide_eq_false (Nat.not_lt.mpr hend)

theorem regionScrubEnd (h : s.Lawful) (ht : execRegionScrubEnd s = .next t) : t.Lawful := by
  rcases execRegionScrubEnd_cases ht with rfl | ⟨level, order, r, span, cursor, hrun, hend, -, rfl⟩
  · exact h
  have harranged := h.arranged_running hrun
  have hscrub : (s.region r).state = .scrubbing := (harranged.scrubbing_iff r).mpr List.mem_cons_self
  obtain ⟨-, hscrubbing, hlive, -, hpos, -⟩ := h.records r
  obtain ⟨hzero, -, -⟩ := hscrubbing hscrub
  have hregion : ∀ k, (s.setRegion r (Region.cleared (s.region r).generation)).region k =
      if k = r then Region.cleared (s.region r).generation else s.region k := State.region_setRegion s r _
  have hport : ∀ p, ((s.setRegion r (Region.cleared (s.region r).generation)).withFree
      ⟨(s.region r).base, (s.region r).length⟩).noteCompletion.endRunning.port p =
      (s.port p).watched (insertExtent s.freeList ⟨(s.region r).base, (s.region r).length⟩).2.length := fun p =>
    State.port_withFree (s.setRegion r _) _ p
  refine h.of_engineEvent (h.tableLaws.of_record r (fun i hi => (hregion i).trans (if_neg hi)) ?_ (fun p => ?_) ?_ (.inl hzero)
    (fun p => ?_) (h.directory.of_same rfl fun i => ?_)) ?_ h.ordered.endRunning (fun p => ?_) (fun p hp => ?_) (fun p => ?_) rfl
    (h.step_of_granuleNext (granuleNext_scrub hrun hend)) fun c hc => h.compactions_ok (Engine.mem_compactions_endRunning hc)
  · refine ((hregion r).trans (if_pos rfl)).symm ▸ ?_
    exact ⟨fun _ => rfl, nofun, fun _ => rfl, nofun, fun hc => absurd rfl hc, nofun, rfl⟩
  · rw [hport, Port.watched_slots]
  · exact (congrArg Region.bindings ((hregion r).trans (if_pos rfl))).trans hzero.symm
  · rw [hport, Port.watched_holdings]
    have hold : (s.region r).heldBy p = 0 := if_neg fun hc => by rw [hscrub] at hc; cases hc.2
    refine congrArg ((s.port p).holdings + ·) (hold.trans (Eq.symm ?_))
    exact (congrArg (fun x : Region => x.heldBy p) ((hregion r).trans (if_pos rfl))).trans (if_neg fun hc => nomatch hc.2)
  · by_cases hi : i = r
    · have hcleared := (hregion i).trans (if_pos hi)
      refine ⟨fun hc => ?_, (congrArg Region.name hcleared).trans ?_⟩
      · rw [hi, hscrub] at hc
        cases hc
      · rw [hi]
        exact (hlive (by rw [hscrub]; nofun)).symm
    · have hsame := (hregion i).trans (if_neg hi)
      exact ⟨fun hc => (congrArg Region.state hsame).trans hc, congrArg Region.name hsame⟩
  · refine State.Arranged.perm ?_ (Engine.tasks_endRunning s.engine)
    exact (harranged.regionScrubEnd hend (hpos (by rw [hscrub]; nofun)) (s.region r).generation).of_sameSpace
      (fun _ => .refl _) rfl rfl
  · rw [hport]
    exact Port.lawful_watched (h.ports.1 p) _
  · rw [hport, hp.watched]
  · rw [hport, Port.watched_portState]

theorem bootScrubEnd (h : s.Lawful) (ht : execBootScrubEnd s = .next t) : t.Lawful := by
  rcases execBootScrubEnd_cases ht with rfl | ⟨level, order, k, span, cursor, hrun, hend, -, rfl⟩
  · exact h
  have hport : ∀ p, (s.withFree span).noteCompletion.endRunning.port p =
      (s.port p).watched (insertExtent s.freeList span).2.length := State.port_withFree s span
  refine h.of_engineEvent (h.tableLaws.of_same (fun _ => rfl) (fun p => ?_) rfl) ?_ h.ordered.endRunning (fun p => ?_) (fun p hp => ?_)
    (fun p => ?_) rfl (h.step_of_granuleNext (granuleNext_scrub hrun hend)) fun c hc =>
    h.compactions_ok (Engine.mem_compactions_endRunning hc)
  · rw [hport]
    exact ⟨Port.watched_slots .., Port.watched_holdings ..⟩
  · exact State.Arranged.perm (((h.arranged_running hrun).bootScrubEnd hend).of_sameSpace (fun _ => .refl _) rfl rfl)
      (Engine.tasks_endRunning s.engine)
  · rw [hport]
    exact Port.lawful_watched (h.ports.1 p) _
  · rw [hport, hp.watched]
  · rw [hport, Port.watched_portState]

theorem clearEnd (h : s.Lawful) (ht : execClearEnd s = .next t) : t.Lawful := by
  rcases execClearEnd_cases ht with rfl | ⟨level, order, c, m, vacated, dirty, cursor, hrun, hphase, hend, -, rfl⟩
  · exact h
  have harranged := h.arranged_compaction hrun hphase
  have hport : ∀ p, ((s.withFree vacated).withEngine fun e =>
      (e.setRunning level order (c.countMove m)).boundary).noteCompletion.port p =
      (s.port p).watched (insertExtent s.freeList vacated).2.length := State.port_withFree s vacated
  refine h.of_engineEvent (h.tableLaws.of_same (fun _ => rfl) (fun p => ?_) rfl) ?_ (h.ordered.rework hrun _).boundary (fun p => ?_)
    (fun p hp => ?_) (fun p => ?_) rfl (h.step_of_granuleNext (granuleNext_clear hrun hphase hend)) fun d hd =>
    h.compactions_setRunning_ok (c' := c.countMove m) hrun rfl ⟨min_le_right .., min_le_right ..⟩ hd
  · rw [hport]
    exact ⟨Port.watched_slots .., Port.watched_holdings ..⟩
  · exact State.Arranged.perm ((harranged.clearEnd hend).of_sameSpace (fun _ => .refl _) rfl rfl) (tasks_setRunning ..)
  · rw [hport]
    exact Port.lawful_watched (h.ports.1 p) _
  · rw [hport, hp.watched]
  · rw [hport, Port.watched_portState]

theorem copyEnd (h : s.Lawful) (ht : execCopyEnd s = .next t) : t.Lawful := by
  rcases execCopyEnd_cases ht with rfl | ⟨level, order, c, m, v, hrun, hphase, hv, hend, -, rfl⟩
  · exact h
  have harranged := h.arranged_compaction hrun hphase
  have huse := (State.Arranged.of_subject? harranged.task_of_head rfl).1
  have hregion : ∀ r, (s.copyEnded level order c m v.dest).region r =
      if r = m.subject then { s.region r with base := v.dest, move := none } else s.region r :=
    State.region_modifyRegion s m.subject (fun x => { x with base := v.dest, move := none })
  refine h.of_engineEvent (h.tableLaws.of_place m.subject huse (fun i hi => by rw [hregion, if_neg hi])
    (by rw [hregion, if_pos rfl]) (fun _ => ⟨rfl, rfl⟩) rfl) ?_ (h.ordered.rework hrun _).boundary h.ports.1 (fun _ _ => rfl)
    (fun _ => rfl) rfl (h.step_of_granuleNext (granuleNext_copy hrun hphase hv hend)) fun d hd =>
    h.compactions_setRunning_ok (c' := { c with phase := .clear m m.vacated m.dirty 0 }) hrun rfl
      (h.sound.counts c (Engine.compaction_mem hrun)) hd
  exact State.Arranged.perm (harranged.copyEnd hv hend hregion rfl rfl) (tasks_setRunning ..)

/-! ### Round tests -/

theorem endCompaction_port (s : State) (c : Compaction) (ending : Ending) (p : PortId) : (s.endCompaction c ending).port p =
    if c.issuer = some p then (s.port p).withEvents fun e =>
      { e.raise .compactEnd with
        report := { regionsMoved := c.regionsMoved, granulesMoved := c.granulesMoved,
                    largestFree := largestFree s.freeList, ending := ending } } else s.port p := by
  unfold State.endCompaction
  cases hissuer : c.issuer with
  | none => rfl
  | some q =>
    dsimp only
    rw [State.endRunning, State.withEngine_port, State.port_modifyPort]
    simp only [Option.some.injEq, eq_comm (a := p)]

theorem endCompaction_rest (s : State) (c : Compaction) (ending : Ending) :
    (s.endCompaction c ending).regions = s.regions ∧ (s.endCompaction c ending).directory = s.directory ∧
    (s.endCompaction c ending).freeList = s.freeList ∧ (s.endCompaction c ending).waits = s.waits ∧
    (s.endCompaction c ending).engine = s.engine.endRunning := by
  unfold State.endCompaction
  cases c.issuer <;> exact ⟨rfl, rfl, rfl, rfl, rfl⟩

theorem endCompaction (h : s.Lawful) {level : Level} {order : Nat} {c : Compaction}
    (hrun : s.engine.running = some ⟨level, order, .compaction c⟩) (hphase : c.phase = .scan) (ending : Ending) :
    (s.endCompaction c ending).noteCompletion.Lawful := by
  obtain ⟨hregions, hdirectory, hfree, hwaits, hengine⟩ := endCompaction_rest s c ending
  have hregion : ∀ r, (s.endCompaction c ending).noteCompletion.region r = s.region r := fun r => by
    rw [State.noteCompletion_region, State.region, hregions, State.region]
  have hport : ∀ p, (s.endCompaction c ending).noteCompletion.port p = _ := endCompaction_port s c ending
  have hmember := Engine.compaction_mem hrun
  have harranged := h.arranged_compaction hrun hphase
  refine h.of_engineEvent (h.tableLaws.of_same hregion (fun p => ?_) hdirectory) ?_ ?_ (fun p => ?_) (fun p hp => ?_) (fun p => ?_)
    (by rw [State.noteCompletion_waits, hwaits]) ?_ fun d hd => ?_
  · rw [hport]
    split <;> exact ⟨rfl, rfl⟩
  · rw [State.noteCompletion_engine, hengine]
    exact State.Arranged.perm (harranged.dropScan.of_sameSpace (fun r => by rw [hregion]; exact .refl _) hfree
      (State.endCompaction_array ..)) (Engine.tasks_endRunning s.engine)
  · rw [State.noteCompletion_engine, hengine]
    exact h.ordered.endRunning
  · obtain ⟨hfurther, hwatch, hquota, -⟩ := h.ports.1 p
    obtain ⟨hmoved, hgranules⟩ := h.sound.counts c hmember
    rw [hport]
    split
    · exact ⟨hfurther, hwatch, hquota, hmoved, hgranules, largestFree_le h.arranged.freeEnds⟩
    · exact h.ports.1 p
  · rw [hport, if_neg (hp.issuer c hmember)]
  · rw [hport]
    split <;> rfl
  · rw [State.noteCompletion_waits, hwaits]
    exact h.step_of_granuleNext (granuleNext_scan hrun hphase)
  · rw [State.noteCompletion_engine, hengine] at hd
    exact h.compactions_ok (Engine.mem_compactions_endRunning hd)

theorem passBy (h : s.Lawful) {level : Level} {order : Nat} {c : Compaction}
    (hrun : s.engine.running = some ⟨level, order, .compaction c⟩) (hphase : c.phase = .scan) (f : Extent) :
    (s.passBy level order c f).noteCompletion.Lawful := by
  have harranged := h.arranged_running hrun
  refine h.of_engineEvent (h.tableLaws.of_same (fun _ => rfl) (fun _ => ⟨rfl, rfl⟩) rfl) ?_ (h.ordered.rework hrun _).boundary
    h.ports.1 (fun _ _ => rfl) (fun _ => rfl) rfl (h.step_of_granuleNext (granuleNext_scan hrun hphase)) fun d hd =>
    h.compactions_setRunning_ok (c' := { c with scanPoint := f.stop }) hrun rfl
      (h.sound.counts c (Engine.compaction_mem hrun)) hd
  exact State.Arranged.perm (harranged.of_sameSpace (fun _ => .refl _) rfl rfl)
    (tasks_setRunning s.engine level order { c with scanPoint := f.stop })

/-- An extent stands in the free-extent list once. -/
theorem filter_ne (h : s.Lawful) {low high : List Extent} {f : Extent} (hlist : s.freeList = low ++ f :: high) :
    (s.freeList.filter fun y => decide (y ≠ f)) = low ++ high := by
  obtain ⟨hsorted, hlength⟩ := h.freeList
  rw [hlist] at hsorted hlength ⊢
  obtain ⟨-, hhigh, hcross⟩ := List.pairwise_append.mp hsorted
  have hself := hlength f (by simp)
  rw [List.filter_append, List.filter_cons_of_neg (by simp)]
  congr 1
  · refine List.filter_eq_self.mpr fun y hy => decide_eq_true fun hc => ?_
    have := hcross y hy f List.mem_cons_self
    rw [hc, Extent.stop] at this
    omega
  · refine List.filter_eq_self.mpr fun y hy => decide_eq_true fun hc => ?_
    have := (List.pairwise_cons.mp hhigh).1 y hy
    rw [hc, Extent.stop] at this
    omega

theorem startMove (h : s.Lawful) {level : Level} {order : Nat} {c : Compaction} {f : Extent} {r : RegionId}
    (hrun : s.engine.running = some ⟨level, order, .compaction c⟩) (hphase : c.phase = .scan) (hf : f ∈ s.freeList)
    (hbase : (s.region r).base = f.stop) (hmove : (s.region r).mayMove = true) :
    (s.startMove level order c f r).noteCompletion.Lawful := by
  obtain ⟨hlive, -, -⟩ : (s.region r).state = .live ∧ (s.region r).fixed = false ∧ (s.region r).move = none := by
    simpa [Region.mayMove] using hmove
  have hregion : ∀ i, (s.startMove level order c f r).region i =
      if i = r then { s.region i with move := some ⟨f.base, 0⟩ } else s.region i := fun i => by
    refine (State.region_setRegion s r _ i).trans ?_
    split
    · next hi => rw [hi]
    · rfl
  obtain ⟨low, high, hlist⟩ := List.append_of_mem hf
  have hsplit := h.filter_ne hlist
  have harranged := h.arranged_compaction hrun hphase
  have hpos := (h.records r).2.2.2.2.1 (by rw [hlive]; nofun)
  refine h.of_engineEvent (h.tableLaws.of_place r (by rw [hlive]; rfl) (fun i hi => (hregion i).trans (if_neg hi)) ?_
    (fun _ => ⟨rfl, rfl⟩) rfl) ?_ (h.ordered.rework hrun _).boundary h.ports.1 (fun _ _ => rfl) (fun _ => rfl) rfl
    (h.step_of_granuleNext (granuleNext_scan hrun hphase)) fun d hd =>
    h.compactions_setRunning_ok (c' := { c with phase := .copy ⟨r, f, (s.region r).base, (s.region r).length⟩ }) hrun rfl
      (h.sound.counts c (Engine.compaction_mem hrun)) hd
  · rw [State.noteCompletion_region, hregion, if_pos rfl]
  · exact State.Arranged.perm (harranged.startMove (t := (s.startMove level order c f r).noteCompletion) hlist hbase hlive hpos hregion
      hsplit rfl) (tasks_setRunning ..)

theorem roundTest (h : s.Lawful) (ht : execRoundTest s = .next t) : t.Lawful := by
  rcases execRoundTest_cases ht with rfl | ⟨level, order, c, hrun, hphase, -, rfl⟩
  · exact h
  rcases s.roundTest_cases level order c with ⟨ending, hcase⟩ | ⟨f, hf, -, hcase | ⟨r, hbase, hmove, hcase⟩⟩
  · rw [hcase]; exact h.endCompaction hrun hphase ending
  · rw [hcase]; exact h.passBy hrun hphase f
  · rw [hcase]; exact h.startMove hrun hphase hf hbase hmove

theorem scrubStep (h : s.Lawful) {arrivals : List Claim} (ht : execScrubStep arrivals s = .next t) : t.Lawful := by
  rcases execScrubStep_cases ht with rfl | ⟨rfl, -⟩ | ⟨level, order, target, span, cursor, hrun, hcursor, -, -, rfl⟩
  · exact h
  · exact h.arriveAll _
  · exact h.scrubbed _ hrun hcursor

theorem copyStep (h : s.Lawful) {arrivals : List Claim} (ht : execCopyStep arrivals s = .next t) : t.Lawful := by
  rcases execCopyStep_cases ht with rfl | ⟨rfl, -⟩ | ⟨level, order, c, m, v, hrun, hphase, hv, hcursor, -, -, -, rfl⟩
  · exact h
  · exact h.arriveAll _
  · exact h.copied _ hrun hphase hv hcursor

theorem clearStep (h : s.Lawful) {arrivals : List Claim} (ht : execClearStep arrivals s = .next t) : t.Lawful := by
  rcases execClearStep_cases ht with rfl | ⟨rfl, -⟩ | ⟨level, order, c, m, vacated, dirty, cursor, hrun, hphase, hcursor, -, -, rfl⟩
  · exact h
  · exact h.arriveAll _
  · exact h.cleared _ hrun hphase hcursor

/-! ### Every event -/

/-- Every event keeps every law. -/
theorem exec {c : Instr} (h : s.Lawful) (ht : exec c s = .next t) : t.Lawful := by
  cases c with
  | deviceReset =>
    rw [exec_deviceReset] at ht
    cases ht
    exact s.afterReset_deviceReset.lawful
  | portResetInputAssert p => exact h.inputAssert ht
  | portResetInputRelease p =>
    rw [exec_portResetInputRelease] at ht
    cases ht
    exact h.inputRelease p
  | heldAccessDiscard p a => exact h.access ht
  | dataAccess p a arrivals => exact h.access ht
  | unmappedAccess p a => exact h.access ht
  | commandWrite p a => exact h.access ht
  | paramWrite p a => exact h.access ht
  | bankWrite p a => exact h.access ht
  | eventsWrite p a => exact h.access ht
  | eventEnableWrite p a => exact h.access ht
  | ignoredWrite p a => exact h.access ht
  | controlMisalignedRead p a => exact h.access ht
  | takeCreate p => exact h.takeCommand (h.settles_create p) ht
  | takeOpen p => exact h.takeCommand (h.settles_open p) ht
  | takeClose p => exact h.takeCommand (h.settles_close p) ht
  | takeGrant p => exact h.takeCommand (h.settles_grant p) ht
  | takeRetire p => exact h.takeCommand (h.settles_retire p) ht
  | takeInquire p => exact h.takeCommand (by rw [inquireBody_state]; exact .refl h p) ht
  | takeCompact p => exact h.takeCommand (h.settles_compact p) ht
  | takeHalt p => exact h.takeCommand (h.settles_halt p) ht
  | takeSetPort p => exact h.takeCommand (h.settles_setPort p) ht
  | takeResetPort p => exact h.takeCommand (h.settles_resetPort p) ht
  | takeUnknown p => exact h.takeCommand (body := unknownBody) (.refl h p) ht
  | scrubStep arrivals => exact h.scrubStep ht
  | regionScrubEnd => exact h.regionScrubEnd ht
  | bootScrubEnd => exact h.bootScrubEnd ht
  | roundTest => exact h.roundTest ht
  | copyStep arrivals => exact h.copyStep ht
  | copyEnd => exact h.copyEnd ht
  | clearStep arrivals => exact h.clearStep ht
  | clearEnd => exact h.clearEnd ht

/-- The queue of commands that wait is no concern of the laws. -/
theorem withPending (h : s.Lawful) (l : List Instr) : ({ s with pending := l } : State).Lawful :=
  ⟨h.memory, h.records, h.bindings, h.rights, h.holdings, h.directory, h.jobs, h.ordered, h.moves, h.freeList, h.placement, h.clean,
    h.held, h.ports, h.claims⟩

/-- Every step keeps every law. -/
theorem step (h : s.Lawful) (ht : step s = .next t) : t.Lawful := by
  rcases step_cases ht with rfl | ⟨c, rest, -, hexec⟩
  · exact h
  · exact (h.withPending rest).exec hexec

end State.Lawful

/-! ### The statements about every step -/

/-- Settles O52: a part of the laws that every step keeps. -/
theorem stepKeepsTableLaws : Obligations.StepKeepsTableLaws := by
  unfold Obligations.StepKeepsTableLaws
  intro s t h ht
  have hlaws := h.step ht
  exact ⟨hlaws.records, hlaws.holdings, hlaws.directory⟩

/-- Settles O53: a part of the laws that every step keeps. -/
theorem stepKeepsBindingLaws : Obligations.StepKeepsBindingLaws := by
  unfold Obligations.StepKeepsBindingLaws
  intro s t h ht
  have hlaws := h.step ht
  exact ⟨hlaws.bindings, hlaws.rights⟩

/-- Settles O54: a part of the laws that every step keeps. -/
theorem stepKeepsJobLaws : Obligations.StepKeepsJobLaws := by
  unfold Obligations.StepKeepsJobLaws
  intro s t h ht
  have hlaws := h.step ht
  exact ⟨hlaws.jobs, hlaws.ordered, hlaws.moves⟩

/-- Settles O55: a part of the laws that every step keeps. -/
theorem stepKeepsSpaceLaws : Obligations.StepKeepsSpaceLaws := by
  unfold Obligations.StepKeepsSpaceLaws
  intro s t h ht
  have hlaws := h.step ht
  exact ⟨hlaws.placement, hlaws.freeList⟩

/-- Settles O56: a part of the laws that every step keeps. -/
theorem stepKeepsFreeSpaceClean : Obligations.StepKeepsFreeSpaceClean := by
  unfold Obligations.StepKeepsFreeSpaceClean
  intro s t h ht
  exact (h.step ht).clean

/-- Settles O57: a part of the laws that every step keeps. -/
theorem stepKeepsPortLaws : Obligations.StepKeepsPortLaws := by
  unfold Obligations.StepKeepsPortLaws
  intro s t h ht
  have hlaws := h.step ht
  exact ⟨hlaws.ports, hlaws.held, hlaws.claims⟩

end Sys2Proof.Machine
end

section
/-! PROOFS. What a port sees of a region in service: no two bytes seen lie at one place in the array, and no event but an access
changes one. -/
namespace Sys2Proof.Machine

/-! ### Places of seen bytes -/

theorem State.location_congr {s t : State} {r : RegionId} (hbase : (t.region r).base = (s.region r).base)
    (hmove : (t.region r).move = (s.region r).move) (x : Nat) : t.location r x = s.location r x := by
  rw [State.location, State.location, hbase, hmove]

theorem State.location_of_no_move {s : State} {r : RegionId} (h : (s.region r).move = none) (x : Nat) :
    s.location r x = (s.region r).base * 256 + x := by
  rw [State.location, h]

theorem State.location_of_move {s : State} {r : RegionId} {v : MoveRecord} (h : (s.region r).move = some v) (x : Nat) :
    s.location r x = (if x / 256 < v.cursor then v.dest else (s.region r).base) * 256 + x := by
  rw [State.location, h]

namespace State.Arranged

variable {s : State} {tasks : List Task} {r : RegionId} {x g : Nat}

/-- Only a copy's reservation holds bytes that are seen outside the regions' own extents. -/
theorem location_ne_of_task {task : Task} (h : s.Arranged tasks) (huse : (s.region r).state.inUse = true)
    (hx : x < (s.region r).length * 256) (ht : task ∈ tasks) (hsubject : task.subject? = none) (hg : task.count g = 1) :
    s.location r x / 256 ≠ g := by
  rintro rfl
  rcases h.location_cases huse hx with hown | ⟨m, v, rest, -, -, hperm, hin, -⟩
  · have := h.task_of_region hown ht
    omega
  · have hcopy : Task.count (.compaction (.copy m)) (s.location r x / 256) = 1 :=
      (Task.count_eq_one_iff ..).mpr ⟨m.extent, rfl, hin⟩
    have hsame := h.task_unique ht (hperm.mem_iff.mpr List.mem_cons_self) hg hcopy
    rw [← hsame] at hsubject
    cases hsubject

/-- No byte of a region in service lies in the extent of another region. -/
theorem location_ne_of_region {i : RegionId} (h : s.Arranged tasks) (huse : (s.region r).state.inUse = true)
    (hx : x < (s.region r).length * 256) (hi : i ≠ r) (hg : (s.region i).count g = 1) : s.location r x / 256 ≠ g := by
  rintro rfl
  rcases h.location_cases huse hx with hown | ⟨m, v, rest, -, -, hperm, hin, -⟩
  · exact hi (h.region_unique hown hg)
  · have hcopy : Task.count (.compaction (.copy m)) (s.location r x / 256) = 1 :=
      (Task.count_eq_one_iff ..).mpr ⟨m.extent, rfl, hin⟩
    have := h.task_of_region hg (hperm.mem_iff.mpr List.mem_cons_self)
    omega

/-- Beside the subject of the running copy no region has a move record. -/
theorem move_eq_none {m : Move} {rest : List Task} (h : s.Arranged (.compaction (.copy m) :: rest)) (hr : r ≠ m.subject) :
    (s.region r).move = none := by
  by_contra hmove
  obtain ⟨task, ht, hsubject⟩ := List.mem_filterMap.mp (h.moving r hmove)
  rcases List.mem_cons.mp ht with rfl | hrest
  · exact hr (Option.some.inj hsubject).symm
  · rw [h.subject?_of_rest hrest] at hsubject
    cases hsubject

/-- Within one region the places of two offsets differ. -/
theorem location_injective (h : s.Arranged tasks) {y : Nat} (heq : s.location r x = s.location r y) : x = y := by
  cases hmove : (s.region r).move with
  | none =>
    rw [location_of_no_move hmove, location_of_no_move hmove] at heq
    omega
  | some v =>
    obtain ⟨m, rest, -, -, ⟨hstop, -, hpos⟩, hbase, -, hdest, -⟩ := h.exists_copy hmove
    rw [Extent.stop] at hstop
    rw [location_of_move hmove, location_of_move hmove] at heq
    split at heq <;> split at heq <;> omega

/-- The places of bytes of two regions differ. -/
theorem region_eq_of_location (h : s.Arranged tasks) {i : RegionId} {y : Nat} (huse : (s.region r).state.inUse = true)
    (hx : x < (s.region r).length * 256) (hiuse : (s.region i).state.inUse = true) (hy : y < (s.region i).length * 256)
    (heq : s.location r x = s.location i y) : i = r := by
  by_contra hne
  rcases h.location_cases hiuse hy with hown | ⟨m, v, rest, hsubject, -, hperm, hin, -⟩
  · exact h.location_ne_of_region huse hx hne hown (by rw [heq])
  · have hcount : Task.count (.compaction (.copy m)) (s.location i y / 256) = 1 :=
      (Task.count_eq_one_iff ..).mpr ⟨m.extent, rfl, hin⟩
    have hcopy := hperm.mem_iff.mpr List.mem_cons_self
    rcases h.location_cases huse hx with hxown | ⟨m', -, rest', hsubject', -, hperm', hin', -⟩
    · have := h.task_of_region hxown hcopy
      rw [heq] at this
      omega
    · have hcount' : Task.count (.compaction (.copy m')) (s.location i y / 256) = 1 :=
        (Task.count_eq_one_iff ..).mpr ⟨m'.extent, rfl, by rw [← heq]; exact hin'⟩
      have hsame := h.task_unique hcopy (hperm'.mem_iff.mpr List.mem_cons_self) hcount hcount'
      injection hsame with hphase
      injection hphase with hmove
      exact hne (by rw [← hsubject, ← hsubject', hmove])

end State.Arranged

/-! ### What shows alike after an event -/

/-- A region in service before and after shows the same bytes. -/
def State.ShowsAlike (s t : State) : Prop :=
  ∀ r : RegionId, (s.region r).state.inUse = true → (t.region r).state.inUse = true →
    ∀ x < (s.region r).length * 256, t.regionByte r x = s.regionByte r x

/-- A region in service before and after has its base and its move. -/
def State.KeepsPlaces (s t : State) : Prop :=
  ∀ r : RegionId, (s.region r).state.inUse = true → (t.region r).state.inUse = true →
    (t.region r).base = (s.region r).base ∧ (t.region r).move = (s.region r).move

namespace State

variable {s t u : State}

theorem ShowsAlike.of_location (ha : t.array = s.array)
    (h : ∀ r : RegionId, (s.region r).state.inUse = true → (t.region r).state.inUse = true →
      ∀ x < (s.region r).length * 256, t.location r x = s.location r x) : s.ShowsAlike t := fun r hr ht x hx => by
  rw [regionByte, regionByte, h r hr ht x hx, byteAt, byteAt, ha]

theorem KeepsPlaces.showsAlike (h : s.KeepsPlaces t) (ha : t.array = s.array) : s.ShowsAlike t :=
  .of_location ha fun r hr ht x _ => location_congr (h r hr ht).1 (h r hr ht).2 x

theorem KeepsPlaces.of_region (h : ∀ r, t.region r = s.region r) : s.KeepsPlaces t := fun r _ _ => by rw [h r]; exact ⟨rfl, rfl⟩

/-- Only one record loses or gets its place, which is in service before or after but not both. -/
theorem KeepsPlaces.of_others {i : RegionId} (h : ∀ r, r ≠ i → t.region r = s.region r)
    (hi : (s.region i).state.inUse = false ∨ (t.region i).state.inUse = false) : s.KeepsPlaces t := fun r hr ht => by
  by_cases hri : r = i
  · subst hri
    rw [hr, ht] at hi
    exact hi.elim nofun nofun
  · rw [h r hri]
    exact ⟨rfl, rfl⟩

/-- Clearing a granule where no byte of a region in service lies changes none of them. -/
theorem ShowsAlike.of_clearGranule {g : Nat} (hr : ∀ r, t.region r = s.region r) (ha : t.array = s.array.clearGranule g)
    (h : ∀ r : RegionId, (s.region r).state.inUse = true → ∀ x < (s.region r).length * 256, s.location r x / 256 ≠ g) :
    s.ShowsAlike t := fun r huse _ x hx => by
  have hplace : t.location r x = s.location r x := location_congr (by rw [hr]) (by rw [hr]) x
  rw [regionByte, regionByte, hplace, byteAt, ha, Memory.read_clearGranule, if_neg (h r huse x hx), byteAt]

/-! ### Commands -/

theorem KeepsPlaces.retire (s : State) (r : RegionId) (cause : LapseCause) (level : Level) :
    s.KeepsPlaces (((s.lapseAll r cause).enterScrubbing r level).withEngine Engine.choose) :=
  .of_others (i := r) (fun i hi => by rw [withEngine_region, retire_region, if_neg hi])
    (.inr (by rw [withEngine_region, retire_region, if_pos rfl]; rfl))

theorem KeepsPlaces.create (s : State) (p : PortId) : s.KeepsPlaces (createBody s p).state := by
  rcases createBody_cases s p with h | ⟨h, -⟩ | ⟨r, base, rest, target, hchecks, h⟩
  · rw [h]; exact .of_region fun _ => rfl
  · rw [h]; exact .of_region fun r => by unfold watchFor; split <;> rfl
  · have hvacant : (s.region r).state = .vacant := by simpa using List.find?_some hchecks.record
    rw [h]
    exact .of_others (i := r) (fun i hi => by rw [createRegion_region, if_neg hi]) (.inl (by rw [hvacant]; rfl))

theorem KeepsPlaces.open (s : State) (p : PortId) : s.KeepsPlaces (openBody s p).state := by
  rcases openBody_cases s p with h | ⟨i, rights, r, -, -, -, -, h⟩
  · rw [h]; exact .of_region fun _ => rfl
  · rw [h]
    intro k _ _
    rw [bindSlot_region]
    split <;> exact ⟨rfl, rfl⟩

theorem KeepsPlaces.close (s : State) (p : PortId) : s.KeepsPlaces (closeBody s p).state := by
  have hunbind : ∀ i r, s.KeepsPlaces (s.unbindSlot p i r) := fun i r k _ _ => by
    rw [unbindSlot_region]
    split <;> exact ⟨rfl, rfl⟩
  rcases closeBody_cases s p with h | ⟨i, r, rights, origin, -, h⟩ | ⟨i, r, cause, -, h⟩
  · rw [h]; exact .of_region fun _ => rfl
  · rw [h, closeBound_eq]
    split
    · intro k hk ht
      have hregion := (s.unbindSlot p i r).enterScrubbing_region r (s.port p).level k
      rw [withEngine_region, hregion] at ht ⊢
      split at ht
      · cases ht
      · next hkr =>
        rw [if_neg hkr]
        exact hunbind i r k hk ht
    · exact hunbind i r
  · rw [h]; exact .of_region fun _ => rfl

theorem KeepsPlaces.grant (s : State) (p : PortId) : s.KeepsPlaces (grantBody s p).state := by
  have hset : ∀ r g asked, s.KeepsPlaces (s.setGrant r g asked) := fun r g asked k _ _ => by
    rw [setGrant_region]
    split <;> exact ⟨rfl, rfl⟩
  rcases grantBody_cases s p with h | ⟨g, r, asked, -, -, -, h⟩
  · rw [h]; exact .of_region fun _ => rfl
  rcases s.grantCase_cases r g ((s.region r).grants.get g) asked with ⟨-, -, hcase⟩ | ⟨-, -, hcase⟩ | ⟨-, hcase⟩
  · rw [h, hcase]
    exact hset r g asked
  · rw [h, hcase]
    intro k _ _
    rw [revokeSlots_region, setGrant_region]
    split <;> exact ⟨rfl, rfl⟩
  · rw [h, hcase]
    exact hset r g asked

theorem KeepsPlaces.retireGentle (s : State) (p : PortId) (r : RegionId) : s.KeepsPlaces (s.retireGentle p r) := by
  unfold State.retireGentle
  dsimp only
  split
  · intro k _ _
    have hregion := region_setRegion s r { s.region r with state := .draining, name := none } k
    change (State.region (s.setRegion r _) k).base = _ ∧ (State.region (s.setRegion r _) k).move = _
    rw [hregion]
    split
    · next hk => rw [hk]; exact ⟨rfl, rfl⟩
    · exact ⟨rfl, rfl⟩
  · have hregion := s.enterScrubbing_region r (s.port p).level
    exact .of_others (i := r) (fun i hi => by rw [withEngine_region, hregion, if_neg hi])
      (.inr (by rw [withEngine_region, hregion, if_pos rfl]; rfl))

theorem KeepsPlaces.retireCommand (s : State) (p : PortId) : s.KeepsPlaces (retireBody s p).state := by
  rcases retireBody_cases s p with h | ⟨r, -, -, ⟨-, h⟩ | h⟩
  · rw [h]; exact .of_region fun _ => rfl
  · rw [h]; exact .retireGentle s p r
  · rw [h]; exact .retire s r .retired (s.port p).level

theorem KeepsPlaces.compact (s : State) (p : PortId) : s.KeepsPlaces (compactBody s p).state := by
  rcases compactBody_cases s p with h | ⟨-, h⟩ <;> rw [h] <;> exact .of_region fun _ => rfl

theorem KeepsPlaces.halt (s : State) (p : PortId) : s.KeepsPlaces (haltBody s p).state := by
  rcases haltBody_cases s p with h | h <;> rw [h] <;> exact .of_region fun _ => rfl

theorem KeepsPlaces.setPort (s : State) (p : PortId) : s.KeepsPlaces (setPortBody s p).state := by
  rcases setPortBody_cases s p with h | ⟨x, level, -, h⟩ <;> rw [h] <;> exact .of_region fun _ => rfl

theorem Sound.keepsPlaces_portReset (h : s.Sound) (x : PortId) : s.KeepsPlaces (s.portReset x) := fun r _ ht => by
  rw [h.portReset_region] at ht ⊢
  dsimp only at ht ⊢
  split at ht
  · cases ht
  · next hr =>
    rw [if_neg hr, unitAndSlotsReset_region]
    exact ⟨rfl, rfl⟩

theorem Sound.keepsPlaces_resetPort (h : s.Sound) (p : PortId) : s.KeepsPlaces (resetPortBody s p).state := by
  rcases resetPortBody_cases s p with hstate | ⟨x, -, -, hstate⟩ <;> rw [hstate]
  · exact .of_region fun _ => rfl
  · exact h.keepsPlaces_portReset x

/-- A take shows alike what its command's body keeps in place. -/
theorem ShowsAlike.takeCommand {p : PortId} {code : Word → Bool} {body : State → PortId → Answer}
    (harray : ∀ s p, (body s p).state.array = s.array) (hplaces : s.KeepsPlaces (body s p).state)
    (h : s.takeCommand p code body = .next t) : s.ShowsAlike t := by
  rcases takeCommand_cases h with rfl | ⟨-, -, rfl⟩
  · exact fun _ _ _ _ _ => rfl
  · exact KeepsPlaces.showsAlike (t := (body s p).state.answered p _) hplaces (harray s p)

theorem Lawful.showsAlike_inputAssert (h : s.Lawful) {p : PortId} (ht : execPortResetInputAssert p s = .next t) :
    s.ShowsAlike t := by
  cases hp : (s.port p).portState with
  | held =>
    rw [execPortResetInputAssert_held hp] at ht
    cases ht
    exact fun _ _ _ _ _ => rfl
  | attached =>
    rw [execPortResetInputAssert_attached hp] at ht
    cases ht
    exact KeepsPlaces.showsAlike ((h.sound.inputAsserted p).keepsPlaces_portReset p) (portReset_array ..)

/-! ### The engine -/

theorem showsAlike_arriveAll (s : State) (l : List Claim) : s.ShowsAlike (s.arriveAll l) :=
  (KeepsPlaces.of_region (s.arriveAll_region l)).showsAlike (s.arriveAll_array l)

theorem Lawful.showsAlike_scrubStep (h : s.Lawful) {arrivals : List Claim} (ht : execScrubStep arrivals s = .next t) :
    s.ShowsAlike t := by
  rcases execScrubStep_cases ht with rfl | ⟨rfl, -⟩ | ⟨level, order, target, span, cursor, hrun, hcursor, -, -, rfl⟩
  · exact fun _ _ _ _ _ => rfl
  · exact s.showsAlike_arriveAll _
  have harranged := h.arranged_running hrun
  obtain ⟨hfits, -, -⟩ := harranged.task_of_head
  refine .of_clearGranule (g := span.base + cursor) (s.arriveAll_region _) rfl fun r huse x hx => ?_
  match target with
  | .region i =>
    obtain ⟨rfl, -⟩ := hfits
    have hscrub : (s.region i).state = .scrubbing :=
      (harranged.scrubbing_iff i).mpr (List.mem_filterMap.mpr ⟨_, List.mem_cons_self, rfl⟩)
    refine harranged.location_ne_of_region huse hx (i := i) (fun hir => ?_) ((Region.count_eq_one_iff ..).mpr
      ⟨by rw [hscrub]; nofun, Nat.le_add_right .., Nat.add_lt_add_left hcursor _⟩)
    rw [← hir, hscrub] at huse
    cases huse
  | .boot k =>
    exact harranged.location_ne_of_task huse hx List.mem_cons_self rfl ((Task.count_eq_one_iff ..).mpr
      ⟨span, rfl, (Extent.contains_iff ..).mpr ⟨Nat.le_add_right .., Nat.add_lt_add_left hcursor _⟩⟩)

theorem Lawful.showsAlike_clearStep (h : s.Lawful) {arrivals : List Claim} (ht : execClearStep arrivals s = .next t) :
    s.ShowsAlike t := by
  rcases execClearStep_cases ht with rfl | ⟨rfl, -⟩ | ⟨level, order, c, m, vacated, dirty, cursor, hrun, hphase, hcursor, -, -, rfl⟩
  · exact fun _ _ _ _ _ => rfl
  · exact s.showsAlike_arriveAll _
  have harranged := h.arranged_compaction hrun hphase
  obtain ⟨⟨⟨hstop, -, -⟩, rfl, rfl, -⟩, -, -⟩ := harranged.task_of_head
  refine .of_clearGranule (g := m.dirty.base + cursor) (s.arriveAll_region _) rfl fun r huse x hx =>
    harranged.location_ne_of_task huse hx List.mem_cons_self rfl ((Task.count_eq_one_iff ..).mpr
      ⟨m.vacated, rfl, (Extent.contains_iff ..).mpr ?_⟩)
  simp only [Move.vacated, Move.dirty, Extent.stop] at *
  omega

theorem Lawful.showsAlike_copyStep (h : s.Lawful) {arrivals : List Claim} (ht : execCopyStep arrivals s = .next t) :
    s.ShowsAlike t := by
  rcases execCopyStep_cases ht with rfl | ⟨rfl, -⟩ | ⟨level, order, c, m, v, hrun, hphase, hv, hcursor, -, -, -, rfl⟩
  · exact fun _ _ _ _ _ => rfl
  · exact s.showsAlike_arriveAll _
  have harranged := h.arranged_compaction hrun hphase
  obtain ⟨⟨⟨hstop, -, hpos⟩, huse, hbase, hlength, w, hw, hdest, -⟩, -, -⟩ := harranged.task_of_head
  rw [Option.mem_def, hv] at hw
  cases hw
  rw [Extent.stop] at hstop
  have hregion : ∀ i, (s.copied (s.arriveAll (.engine :: arrivals)) m v).region i =
      if i = m.subject then { s.region i with move := some { v with cursor := v.cursor + 1 } } else s.region i := fun i => by
    refine (region_modifyRegion (s.arriveAll (.engine :: arrivals)) m.subject
      (fun y => { y with move := some { v with cursor := v.cursor + 1 } }) i).trans ?_
    rw [arriveAll_region]
  have hbyte : ∀ a, (s.copied (s.arriveAll (.engine :: arrivals)) m v).byteAt a =
      if a / 256 = m.extent.base + v.cursor then s.byteAt (256 * (m.source + v.cursor) + a % 256) else s.byteAt a :=
    Memory.read_copyGranule s.array _ _
  intro r hr _ x hx
  rw [regionByte, regionByte, hbyte]
  by_cases hsubject : r = m.subject
  · subst hsubject
    have hmoved := hregion m.subject
    rw [if_pos rfl] at hmoved
    have hplace := location_of_move (congrArg Region.move hmoved) x
    rw [hmoved] at hplace
    dsimp only at hplace
    rw [hplace, location_of_move hv]
    rcases Nat.lt_trichotomy (x / 256) v.cursor with hlt | heq | hgt
    · rw [if_pos (Nat.lt_succ_of_lt hlt), if_pos hlt, if_neg (by omega)]
    · rw [if_pos (Nat.lt_succ_of_le heq.le), if_neg heq.not_lt, if_pos (by omega)]
      congr 1
      omega
    · rw [if_neg (Nat.not_lt_of_le hgt), if_neg hgt.not_gt, if_neg (by omega)]
  · have hother := hregion r
    rw [if_neg hsubject] at hother
    rw [location_congr (s := s) (by rw [hother]) (by rw [hother]), if_neg]
    by_cases hin : m.extent.base + v.cursor < m.source
    · refine fun hgranule => ?_
      rcases harranged.location_cases hr hx with hown | ⟨-, u, -, -, hmove, -⟩
      · have := harranged.task_of_region hown List.mem_cons_self
        rw [hgranule, Task.count_of_span (e := m.extent) rfl, Extent.count_eq, if_pos (by omega)] at this
        cases this
      · rw [harranged.move_eq_none hsubject] at hmove
        cases hmove
    · exact harranged.location_ne_of_region hr hx (Ne.symm hsubject) ((Region.count_eq_one_iff ..).mpr
        ⟨((RegionState.inUse_iff _).mp huse).1, by omega, by omega⟩)

theorem Lawful.showsAlike_copyEnd (h : s.Lawful) (ht : execCopyEnd s = .next t) : s.ShowsAlike t := by
  rcases execCopyEnd_cases ht with rfl | ⟨level, order, c, m, v, hrun, hphase, hv, hend, -, rfl⟩
  · exact fun _ _ _ _ _ => rfl
  have harranged := h.arranged_compaction hrun hphase
  obtain ⟨⟨-, -, -, hlength, -⟩, -, -⟩ := harranged.task_of_head
  have hregion : ∀ r, (s.copyEnded level order c m v.dest).region r =
      if r = m.subject then { s.region r with base := v.dest, move := none } else s.region r :=
    region_modifyRegion s m.subject (fun x => { x with base := v.dest, move := none })
  refine .of_location rfl fun r _ _ x hx => ?_
  by_cases hsubject : r = m.subject
  · subst hsubject
    have hmoved := hregion m.subject
    rw [if_pos rfl] at hmoved
    rw [location_of_no_move (by rw [hmoved]), location_of_move hv, hmoved, if_pos (by omega)]
  · have hother := hregion r
    rw [if_neg hsubject] at hother
    exact location_congr (by rw [hother]) (by rw [hother]) x

theorem showsAlike_roundTest (ht : execRoundTest s = .next t) : s.ShowsAlike t := by
  rcases execRoundTest_cases ht with rfl | ⟨level, order, c, -, -, -, rfl⟩
  · exact fun _ _ _ _ _ => rfl
  refine .of_location (roundTest_array s level order c) fun r _ _ x _ => ?_
  change (s.roundTest level order c).location r x = _
  rcases s.roundTest_cases level order c with ⟨ending, hcase⟩ | ⟨f, -, -, hcase | ⟨i, -, hmay, hcase⟩⟩ <;> rw [hcase]
  · have hregions := (Lawful.endCompaction_rest s c ending).1
    exact location_congr (by rw [region, hregions, region]) (by rw [region, hregions, region]) x
  · rfl
  · have hregion : (s.startMove level order c f i).region r =
        if r = i then { s.region i with move := some ⟨f.base, 0⟩ } else s.region r := region_setRegion s i _ r
    split at hregion
    · next hri =>
      subst hri
      obtain ⟨-, -, hnone⟩ : (s.region r).state = .live ∧ (s.region r).fixed = false ∧ (s.region r).move = none := by
        simpa [Region.mayMove] using hmay
      rw [location_of_move (congrArg Region.move hregion), location_of_no_move hnone, hregion, if_neg (Nat.not_lt_zero _)]
    · exact location_congr (by rw [hregion]) (by rw [hregion]) x

theorem showsAlike_regionScrubEnd (ht : execRegionScrubEnd s = .next t) : s.ShowsAlike t := by
  rcases execRegionScrubEnd_cases ht with rfl | ⟨level, order, r, span, cursor, -, -, -, rfl⟩
  · exact fun _ _ _ _ _ => rfl
  have hregion := region_setRegion s r (Region.cleared (s.region r).generation)
  exact (KeepsPlaces.of_others (i := r) (fun i hi => (hregion i).trans (if_neg hi))
    (.inr (congrArg (fun y => y.state.inUse) ((hregion r).trans (if_pos rfl))))).showsAlike rfl

/-- Every event but an access shows alike what stays in service. -/
theorem Lawful.showsAlike {c : Instr} (h : s.Lawful) (haccess : ∀ p a arrivals, c ∉ accessRows p a arrivals)
    (ht : Machine.exec c s = .next t) : s.ShowsAlike t := by
  cases c with
  | deviceReset =>
    rw [exec_deviceReset] at ht
    cases ht
    intro r _ hr
    rw [s.afterReset_deviceReset.region r] at hr
    cases hr
  | portResetInputAssert p => exact h.showsAlike_inputAssert ht
  | portResetInputRelease p =>
    rw [exec_portResetInputRelease] at ht
    cases ht
    exact (KeepsPlaces.of_region fun _ => rfl).showsAlike rfl
  | heldAccessDiscard p a => exact absurd (by simp [accessRows]) (haccess p a [])
  | dataAccess p a arrivals => exact absurd (by simp [accessRows]) (haccess p a arrivals)
  | unmappedAccess p a => exact absurd (by simp [accessRows]) (haccess p a [])
  | commandWrite p a => exact absurd (by simp [accessRows]) (haccess p a [])
  | paramWrite p a => exact absurd (by simp [accessRows]) (haccess p a [])
  | bankWrite p a => exact absurd (by simp [accessRows]) (haccess p a [])
  | eventsWrite p a => exact absurd (by simp [accessRows]) (haccess p a [])
  | eventEnableWrite p a => exact absurd (by simp [accessRows]) (haccess p a [])
  | ignoredWrite p a => exact absurd (by simp [accessRows]) (haccess p a [])
  | controlMisalignedRead p a => exact absurd (by simp [accessRows]) (haccess p a [])
  | takeCreate p => exact .takeCommand createBody_array (.create s p) ht
  | takeOpen p => exact .takeCommand openBody_array (.open s p) ht
  | takeClose p => exact .takeCommand closeBody_array (.close s p) ht
  | takeGrant p => exact .takeCommand grantBody_array (.grant s p) ht
  | takeRetire p => exact .takeCommand retireBody_array (.retireCommand s p) ht
  | takeInquire p =>
    exact .takeCommand (body := inquireBody) (fun s p => by rw [inquireBody_state])
      (.of_region fun _ => by rw [inquireBody_state]) ht
  | takeCompact p => exact .takeCommand compactBody_array (.compact s p) ht
  | takeHalt p => exact .takeCommand haltBody_array (.halt s p) ht
  | takeSetPort p => exact .takeCommand setPortBody_array (.setPort s p) ht
  | takeResetPort p => exact .takeCommand resetPortBody_array (h.sound.keepsPlaces_resetPort p) ht
  | takeUnknown p => exact .takeCommand (body := unknownBody) (fun _ _ => rfl) (.of_region fun _ => rfl) ht
  | scrubStep arrivals => exact h.showsAlike_scrubStep ht
  | regionScrubEnd => exact showsAlike_regionScrubEnd ht
  | bootScrubEnd =>
    rcases execBootScrubEnd_cases ht with rfl | ⟨level, order, k, span, cursor, -, -, -, rfl⟩ <;>
      exact (KeepsPlaces.of_region fun _ => rfl).showsAlike rfl
  | roundTest => exact showsAlike_roundTest ht
  | copyStep arrivals => exact h.showsAlike_copyStep ht
  | copyEnd => exact h.showsAlike_copyEnd ht
  | clearStep arrivals => exact h.showsAlike_clearStep ht
  | clearEnd =>
    rcases execClearEnd_cases ht with rfl | ⟨level, order, c, m, vacated, dirty, cursor, -, -, -, -, rfl⟩ <;>
      exact (KeepsPlaces.of_region fun _ => rfl).showsAlike rfl

end State

/-- Settles O58: each event keeps the places of seen bytes, or moves them with their places (a copy), or writes elsewhere. -/
theorem onlyAccessesChangeRegionData : Obligations.OnlyAccessesChangeRegionData := by
  unfold Obligations.OnlyAccessesChangeRegionData
  intro s t c h haccess ht
  exact h.showsAlike haccess ht

/-! ### What an access changes -/

/-- An access leaves the records, and the array but for the bytes that a served write addresses. -/
theorem State.access_bytes {s t : State} {p : PortId} {a : Access} {l : List Claim} (hm : s.array.wf)
    (h : s.access p a l = .next t) :
    (∀ r, t.region r = s.region r) ∧ ∀ b, t.byteAt b ≠ s.byteAt b → (s.port p).portState = .attached ∧ a.dir = .write ∧
      ∃ r e, s.checkAccess p a = .ok (r, e) ∧ (b = s.location r e ∨ (a.size = .word ∧ b = s.location r (e + 1))) := by
  rcases State.access_cases h with ⟨-, rfl⟩ | ⟨hpresents, ⟨-, hdata⟩ | ⟨r, high, -, rfl⟩ | ⟨-, rfl⟩ | ⟨-, rfl⟩⟩
  · exact ⟨fun _ => rfl, fun b hb => absurd rfl hb⟩
  · have hp := ((s.presents_iff p a).mp hpresents).1
    rcases State.dataAccess_cases hdata with ⟨cause, -, rfl⟩ | ⟨r, e, hcheck, -, hin, rfl⟩ | ⟨rfl, -⟩
    · exact ⟨fun _ => rfl, fun b hb => absurd rfl hb⟩
    · refine ⟨fun i => ?_, fun b hb => ⟨hp, ?_⟩⟩
      · obtain ⟨data, hserve⟩ := State.Lawful.serve_eq (s.arriveAll (.port p a :: l)) p a (s.region r) e
        rw [hserve]
        exact s.arriveAll_region _ i
      · rw [State.byteAt, State.serve_array, State.arriveAll_array] at hb
        simp only [State.location_eq_locate]
        rw [Region.lastByte, Nat.max_lt] at hin
        cases hdir : a.dir with
        | read => rw [hdir] at hb; exact absurd rfl hb
        | write =>
          refine ⟨rfl, r, e, hcheck, ?_⟩
          cases hsize : a.size with
          | byte =>
            rw [hdir, hsize] at hb
            dsimp only at hb
            rw [Memory.read_write _ _ _ _ hm] at hb
            exact .inl (of_not_not fun hne => hb (if_neg hne))
          | word =>
            rw [hdir, hsize] at hb
            dsimp only at hb
            rw [Memory.read_write _ _ _ _ (Memory.wf_write _ _ hin.1 hm), Memory.read_write _ _ _ _ hm] at hb
            by_cases hsecond : b = (s.region r).locate (e + 1)
            · exact .inr ⟨rfl, hsecond⟩
            · rw [if_neg hsecond] at hb
              exact .inl (of_not_not fun hne => hb (if_neg hne))
    · exact ⟨s.arriveAll_region _, fun b hb => absurd (State.arriveAll_byteAt ..) hb⟩
  · refine ⟨fun i => ?_, fun b hb => absurd ?_ hb⟩
    · rw [State.controlAccess_eq]
      cases a.dir <;> rfl
    · rw [State.byteAt, State.controlAccess_array, State.byteAt]
  · exact ⟨fun _ => rfl, fun b hb => absurd rfl hb⟩
  · exact ⟨fun _ => rfl, fun b hb => absurd rfl hb⟩

theorem one_le_bytes (size : Size) : 1 ≤ size.bytes := by cases size <;> decide

/-- Settles O59: a changed byte lies where a served write put one, and no other seen byte lies there. -/
theorem writeReachesOnlyItsBytes : Obligations.WriteReachesOnlyItsBytes := by
  unfold Obligations.WriteReachesOnlyItsBytes
  intro s t p a arrivals h c hc ht r huse x hx hchanged
  obtain ⟨l, hexec, -⟩ := exec_accessRow hc s
  obtain ⟨hregion, hbytes⟩ := State.access_bytes h.memory (hexec.symm.trans ht)
  rw [State.regionByte, State.regionByte, State.location_congr (s := s) (by rw [hregion]) (by rw [hregion])] at hchanged
  obtain ⟨hattached, hdir, i, e, hcheck, hplace⟩ := hbytes _ hchanged
  obtain ⟨hiuse, hbound⟩ := h.inUse_of_checkAccess hcheck
  obtain ⟨rights, origin, hslot, rfl, -, -, hrights⟩ := (s.checkAccess_eq_ok_iff p a i e).mp hcheck
  have hwrite : rights = .readWrite := by
    cases rights with
    | read => exact absurd ⟨hdir, rfl⟩ hrights
    | readWrite => rfl
  subst hwrite
  rw [Access.windowOffset_toNat] at hplace hbound
  obtain ⟨y, hy, hylength, hoffset⟩ : ∃ y, s.location r x = s.location i y ∧ y < (s.region i).length * 256 ∧
      (y = origin.toNat + a.addr.toNat % 65536 ∨ (a.size = .word ∧ y = origin.toNat + a.addr.toNat % 65536 + 1)) := by
    rcases hplace with hfirst | ⟨hsize, hsecond⟩
    · exact ⟨_, hfirst, Nat.lt_of_le_of_lt (Nat.le_sub_of_add_le (Nat.add_le_add_left (one_le_bytes a.size) _)) hbound, .inl rfl⟩
    · rw [hsize, Size.bytes] at hbound
      exact ⟨_, hsecond, hbound, .inr ⟨hsize, rfl⟩⟩
  obtain rfl := h.arranged.region_eq_of_location huse hx hiuse hylength hy
  obtain rfl := h.arranged.location_injective hy
  refine ⟨hdir, hattached, ?_, origin, hslot, hoffset⟩
  have hbinding := h.rights p (slotIndex (s.port p).bank a.slotNumber) (i, .readWrite) (by
    change (s.port p).slot _ = _ at hslot
    rw [hslot]
    rfl)
  refine hbinding.imp_right fun hcover => ?_
  dsimp only at hcover
  cases hgrant : (s.region i).grants.get p with
  | none => rw [hgrant] at hcover; cases hcover
  | some g =>
    cases g with
    | read => rw [hgrant] at hcover; cases hcover
    | readWrite => rfl

/-! ### A new region -/

/-- Settles O60: the granules a CREATE takes were free, and free space is clean. -/
theorem newRegionReadsZero : Obligations.NewRegionReadsZero := by
  unfold Obligations.NewRegionReadsZero
  intro s t p r h ht hvacant hlive x hx
  rcases State.takeCommand_cases (body := createBody) ht with rfl | ⟨-, -, rfl⟩
  · rw [hvacant] at hlive
    cases hlive
  rcases createBody_cases s p with hstate | ⟨hstate, -⟩ | ⟨i, base, rest, target, hchecks, hstate⟩ <;>
    simp only [hstate, State.answered_region] at hlive hx
  · rw [hvacant] at hlive
    cases hlive
  · have hregion : (s.watchFor p).region r = s.region r := by unfold State.watchFor; split <;> rfl
    rw [hregion, hvacant] at hlive
    cases hlive
  · rw [State.createRegion_region] at hlive hx
    split at hlive
    · next hri =>
      subst hri
      have hmade : (s.createRegion p r base rest target).region r = _ := State.createRegion_region ..
      rw [if_pos rfl] at hmade hx
      have hplace : (s.createRegion p r base rest target).location r x = base * 256 + x := by
        rw [State.location_of_no_move, hmade]
        · rfl
        · exact congrArg Region.move hmade
      have hbyte := (h.arranged_createRegion hchecks).2 (base * 256 + x)
      have hlength : ((s.region r).created p base (s.param p 0).toNat (nameField (s.param p 1)) ((s.param p 2).getLsbD 0)
        (if target.isSome then 1 else 0)).length = (s.param p 0).toNat := rfl
      rw [hlength] at hx
      rw [hstate]
      change (s.createRegion p r base rest target).byteAt ((s.createRegion p r base rest target).location r x) = 0
      rw [hplace]
      exact hbyte (by omega) (by omega)
    · rw [hvacant] at hlive
      cases hlive

end Sys2Proof.Machine
end

section
/-! PROOFS. The control window: what a write to each register does, and what each register shows. -/
namespace Sys2Proof.Machine

/-! ### Event flags (R175, R176) -/

theorem EventKind.getLsbD_mask (k j : EventKind) : k.mask.getLsbD j.bit = decide (j = k) := by
  cases k <;> cases j <;> decide

/-- Each of the six positions is that of a kind. -/
theorem EventKind.exists_bit {i : Nat} (h : i < 6) : ∃ k : EventKind, k.bit = i := by
  have hall : ∀ i : Fin 6, ∃ k ∈ [EventKind.done, .fault, .lapse, .space, .compactEnd, .overrun], k.bit = i.val := by decide
  obtain ⟨k, -, hk⟩ := hall ⟨i, h⟩
  exact ⟨k, hk⟩

theorem EventBlock.flag_and_enable {e : EventBlock} (k : EventKind) :
    (e.flags &&& e.enables).getLsbD k.bit = (e.flag k && e.enable k) := BitVec.getLsbD_and

/-- Settles O4: both follow flags and enables position by position. -/
theorem flagsAndEventLine : Obligations.FlagsAndEventLine := by
  unfold Obligations.FlagsAndEventLine
  refine ⟨fun e k j => ?_, fun q => ?_⟩
  · rw [EventBlock.flag, EventBlock.raise_flags, BitVec.getLsbD_or, EventKind.getLsbD_mask]
    rfl
  · rw [Port.eventLine, decide_eq_true_eq]
    refine and_congr_right fun _ => ⟨fun hset => ?_, fun ⟨k, hflag, henable⟩ hzero => ?_⟩
    · by_contra hnone
      refine hset (BitVec.eq_of_getLsbD_eq fun i hi => ?_)
      obtain ⟨k, rfl⟩ := EventKind.exists_bit hi
      rw [EventBlock.flag_and_enable]
      refine (Bool.eq_false_iff.mpr fun hboth => ?_).trans BitVec.getLsbD_zero.symm
      exact hnone ⟨k, (Bool.and_eq_true ..).mp hboth⟩
    · have hbit := EventBlock.flag_and_enable (e := q.events) k
      rw [hzero, hflag, henable] at hbit
      exact absurd (BitVec.getLsbD_zero.symm.trans hbit) nofun

/-! ### Writes -/

theorem exec_commandWrite (s : State) (p : PortId) (a : Access) : exec (.commandWrite p a) s = s.access p a [] := rfl
theorem exec_eventEnableWrite (s : State) (p : PortId) (a : Access) : exec (.eventEnableWrite p a) s = s.access p a [] := rfl
theorem exec_ignoredWrite (s : State) (p : PortId) (a : Access) : exec (.ignoredWrite p a) s = s.access p a [] := rfl
theorem exec_controlMisalignedRead (s : State) (p : PortId) (a : Access) :
    exec (.controlMisalignedRead p a) s = s.access p a [] := rfl

theorem exec_of_mem_controlWriteRows {p : PortId} {a : Access} {c : Instr} (h : c ∈ controlWriteRows p a) (s : State) :
    exec c s = s.access p a [] := by
  simp only [controlWriteRows, List.mem_cons, List.not_mem_nil, or_false] at h
  rcases h with rfl | rfl | rfl | rfl | rfl | rfl <;> rfl

theorem Register.ofWord_command : Register.ofWord 4 = .command := rfl
theorem Register.ofWord_eventEnable : Register.ofWord 2 = .eventEnable := rfl

/-- The code a write to COMMAND enters: the word, or the byte with a high byte of 0. -/
theorem mergeWrite_command (size : Size) (data : Word) :
    mergeWrite 0 size false data = if size = .word then data else data &&& 0x00FF := by
  cases size with
  | word => rfl
  | byte =>
    apply BitVec.eq_of_toNat_eq
    rw [if_neg nofun, BitVec.toNat_and]
    have hmask : data.toNat &&& 255 = data.toNat % 256 := Nat.and_two_pow_sub_one_eq_mod data.toNat 8
    have hmerge : mergeWrite 0 .byte false data = wordOf (lowByte data) 0 := rfl
    rw [hmerge, wordOf_toNat, lowByte_toNat]
    exact hmask.symm

theorem Port.writeCommand_of_idle {q : Port} (h : q.unit.state = .idle) (code : Word) :
    q.writeCommand code = { q with unit := { q.unit with state := .pending, lastCode := code, overrun := false } } := by
  rw [Port.writeCommand, h]
  rfl

theorem Port.writeCommand_of_pending {q : Port} (h : q.unit.state = .pending) (code : Word) :
    q.writeCommand code = q.discardWrite := by
  rw [Port.writeCommand, h]

theorem Port.writeParam_of_pending {q : Port} (h : q.unit.state = .pending) (i : Fin 6) (size : Size) (high : Bool) (data : Word) :
    q.writeParam i size high data = q.discardWrite := by
  rw [Port.writeParam, h]

theorem Port.discardWrite_eq (q : Port) : q.discardWrite =
    { q with unit := { q.unit with overrun := true }, events := { q.events with flags := q.events.flags ||| 32#6 } } := rfl

/-- Settles O12: COMMAND is word 4 of the control window, and its high byte is no part of it. -/
theorem commandWriteEffect : Obligations.CommandWriteEffect := by
  unfold Obligations.CommandWriteEffect
  rintro s p a q h hdir rfl
  have hlow : a.addr = 0x80008 → exec (.commandWrite p a) s =
      .next (s.served p ((s.port p).writeCommand (mergeWrite 0 a.size false a.data)) none) := fun ha => by
    rw [exec_commandWrite, State.access_registerWrite (k := 4) false h hdir (by decide) (by rw [ha]; rfl) nofun,
      Register.ofWord_command]
    rfl
  refine ⟨fun ha hidle => ?_, fun ha hpending => ?_, fun ha hbyte => ?_⟩
  · rw [hlow ha, Port.writeCommand_of_idle hidle, mergeWrite_command]
  · rw [hlow ha, Port.writeCommand_of_pending hpending, Port.discardWrite_eq]
  · rw [exec_commandWrite, State.access_registerWrite (k := 4) true h hdir (by decide) (by rw [ha]; rfl) fun _ => hbyte]
    rfl

/-- Settles O13: each parameter is a word of the control window, written whole or by its low or its high byte. -/
theorem paramWriteEffect : Obligations.ParamWriteEffect := by
  unfold Obligations.ParamWriteEffect
  rintro s p a q i h hdir rfl ha
  obtain ⟨high, haddr, hsize⟩ : ∃ high : Bool, a.addr.toNat = 0x80000 + 2 * (8 + i.val) + high.toNat ∧
      (high = true → a.size = .byte) := by
    rcases ha with ha | ⟨ha, hbyte⟩
    · exact ⟨false, by rw [ha, Bool.toNat_false]; omega, nofun⟩
    · exact ⟨true, by rw [ha, Bool.toNat_true]; omega, fun _ => hbyte⟩
  have hwrite : exec (.paramWrite p a) s = .next (s.served p ((s.port p).writeParam i a.size high a.data) none) := by
    rw [exec_paramWrite, State.access_registerWrite high h hdir (by omega) haddr hsize, Register.ofWord_param]
    rfl
  refine ⟨fun hidle => ?_, fun hpending => ?_⟩
  · have hmerge : ∀ old, mergeWrite old a.size high a.data = (if a.size = .word then a.data
        else if a.addr.toNat % 2 = 0 then wordOf (lowByte a.data) (highByte old) else wordOf (lowByte old) (lowByte a.data)) := by
      intro old
      cases hs : a.size with
      | word => rfl
      | byte =>
        rw [if_neg nofun, haddr]
        cases high with
        | false => rw [if_pos (by rw [Bool.toNat_false]; omega)]; rfl
        | true => rw [if_neg (by rw [Bool.toNat_true]; omega)]; rfl
    rw [hwrite, Port.writeParam, hidle, ← hmerge]
    rfl
  · rw [hwrite, Port.writeParam_of_pending hpending, Port.discardWrite_eq]

/-- Settles O16: EVENT_ENABLE is word 2 of the control window; all six positions lie in its low byte. -/
theorem eventEnableWriteEffect : Obligations.EventEnableWriteEffect := by
  unfold Obligations.EventEnableWriteEffect
  rintro s p a q h hdir rfl
  refine ⟨fun ha => ?_, fun ha hbyte => ?_⟩
  · rw [exec_eventEnableWrite, State.access_registerWrite (k := 2) false h hdir (by decide) (by rw [ha]; rfl) nofun,
      Register.ofWord_eventEnable, ← eventBits_eq_setWidth]
    rfl
  · rw [exec_eventEnableWrite, State.access_registerWrite (k := 2) true h hdir (by decide) (by rw [ha]; rfl) fun _ => hbyte]
    rfl

/-- The read-only and the unnamed words of the control window. -/
theorem Port.writeRegister_ignored {k : Nat} (hk : k < 64) (hrange : k < 1 ∨ (5 ≤ k ∧ k < 8) ∨ 14 ≤ k) (q : Port) (size : Size)
    (high : Bool) (data : Word) : q.writeRegister (Register.ofWord k) size high data = q := by
  have hregister : Register.ofWord k = .status ∨ Register.ofWord k = .faultInfo ∨ Register.ofWord k = .faultOffset ∨
      Register.ofWord k = .faultCount ∨ Register.ofWord k = .report0 ∨ Register.ofWord k = .report1 ∨
      Register.ofWord k = .report2 ∨ Register.ofWord k = .unnamed ∨ (∃ i, Register.ofWord k = .result i) ∨
      ∃ i, Register.ofWord k = .slotView i := by
    decide +revert
  rcases hregister with h | h | h | h | h | h | h | h | ⟨i, h⟩ | ⟨i, h⟩ <;> rw [h] <;> rfl

/-- Settles O17: the offsets are those of the read-only and the unnamed words. -/
theorem ignoredWriteEffect : Obligations.IgnoredWriteEffect := by
  unfold Obligations.IgnoredWriteEffect
  intro s p a off h hdir haligned ha hrange
  have hoff : off / 2 < 64 := by omega
  obtain ⟨high, haddr, hsize⟩ : ∃ high : Bool, a.addr.toNat = 0x80000 + 2 * (off / 2) + high.toNat ∧
      (high = true → a.size = .byte) := by
    refine ⟨decide (off % 2 = 1), ?_, fun hodd => ?_⟩
    · rcases Nat.mod_two_eq_zero_or_one off with hmod | hmod <;> simp only [hmod, ha] <;> simp <;> omega
    · cases hs : a.size with
      | byte => rfl
      | word => exact absurd ⟨hs, by have := of_decide_eq_true hodd; omega⟩ haligned
  rw [exec_ignoredWrite, State.access_registerWrite high h hdir hoff haddr hsize,
    Port.writeRegister_ignored hoff (by omega)]

theorem State.access_misaligned {s : State} {p : PortId} {a : Access} (h : s.presents p a = true) (hlow : 0x80000 ≤ a.addr.toNat)
    (hhigh : a.addr.toNat < 0x80080) (hword : a.size = .word) (hodd : a.addr.toNat % 2 = 1) (arrivals : List Claim) :
    s.access p a arrivals = .next (s.faulted p a .misaligned (.address a.addr)) := by
  rw [State.access, if_pos h, Access.target_of_misaligned hlow hhigh hword hodd]
  dsimp only
  rw [State.faultAccess_eq]

/-- Settles O18: the check goes before the choice of a register, for every row alike. -/
theorem controlMisalignedFaulted : Obligations.ControlMisalignedFaulted := by
  unfold Obligations.ControlMisalignedFaulted
  intro s p a h hword hodd hlow hhigh
  have haccess := State.access_misaligned h hlow hhigh hword hodd []
  refine ⟨fun _ => ?_, fun _ c hc => ?_⟩
  · rw [exec_controlMisalignedRead, haccess]
  · rw [exec_of_mem_controlWriteRows hc, haccess]

/-! ### Unknown codes -/

theorem exec_takeUnknown (s : State) (p : PortId) : exec (.takeUnknown p) s = s.takeCommand p unknownCode unknownBody := rfl

/-- Settles O39: the body refuses and looks at nothing. -/
theorem unknownCommandAnswered : Obligations.UnknownCommandAnswered := by
  unfold Obligations.UnknownCommandAnswered
  intro s p code hcode htaking
  refine ⟨?_, ?_⟩
  · rw [exec_takeUnknown, State.takeCommand_of_taking htaking (decide_eq_true (hcode.imp_left fun hzero => by rw [hzero]; rfl))]
    rfl
  · rw [State.answered_port, if_pos rfl]
    exact htaking.2.2

/-! ### Reads -/

theorem toNat_packFields {fields : List (Nat × Nat × Nat)}
    (h : (fields.map fun f => f.2.2 % 2 ^ f.2.1 * 2 ^ f.1).sum < 65536) :
    (packFields fields).toNat = (fields.map fun f => f.2.2 % 2 ^ f.2.1 * 2 ^ f.1).sum := by
  rw [packFields, BitVec.toNat_ofNat, Nat.mod_eq_of_lt h]

theorem yesNo_le_one (b : Bool) : yesNo b ≤ 1 := by cases b <;> decide

theorem ite_eq_yesNo_mul (b : Bool) (n : Nat) : (if b = true then n else 0) = yesNo b * n := by
  cases b <;> simp [yesNo]

theorem ite_eq_yesNo_decide_mul (P : Prop) [Decidable P] (n : Nat) : (if P then n else 0) = yesNo (decide P) * n := by
  rw [← ite_eq_yesNo_mul]
  simp only [decide_eq_true_eq]

theorem State.statusWord_toNat (s : State) (p : PortId) : (s.statusWord p).toNat =
    (if (s.port p).unit.state = .pending then 1 else 0) + (if (s.port p).unit.overrun then 2 else 0) +
    (if p = .p0 then 4 else 0) + (if (s.port .p0).portState = .held then 256 else 0) +
    (if (s.port .p1).portState = .held then 512 else 0) + (if (s.port .p2).portState = .held then 1024 else 0) +
    (if (s.port .p3).portState = .held then 2048 else 0) := by
  have hbit : ∀ b, yesNo b % 2 = yesNo b := fun b => Nat.mod_eq_of_lt (Nat.lt_succ_of_le (yesNo_le_one b))
  have hpending := yesNo_le_one (decide ((s.port p).unit.state = .pending))
  have hoverrun := yesNo_le_one (s.port p).unit.overrun
  have hsupervisor := yesNo_le_one (decide (p = .p0))
  have hheld : ∀ x, yesNo (decide ((s.port x).portState = .held)) ≤ 1 := fun x => yesNo_le_one _
  have h0 := hheld .p0
  have h1 := hheld .p1
  have h2 := hheld .p2
  have h3 := hheld .p3
  rw [State.statusWord, toNat_packFields]
  · simp only [List.map_cons, List.map_nil, List.sum_cons, List.sum_nil, Nat.pow_one, hbit,
      ite_eq_yesNo_decide_mul, Bool.decide_eq_true]
    omega
  · simp only [List.map_cons, List.map_nil, List.sum_cons, List.sum_nil, Nat.pow_one, hbit]
    omega

theorem Register.ofWord_result (i : Fin 6) : Register.ofWord (16 + i.val) = .result i := by decide +revert

theorem Register.ofWord_slotView (bank : Fin 4) (slot : Fin 8) :
    Register.ofWord (32 + bank.val * 8 + slot.val) = .slotView (slotIndex bank slot) := by decide +revert

theorem Register.ofWord_unnamed : ∀ k ∈ [5, 6, 7, 0xE, 0xF, 0x16, 0x17, 0x1B, 0x1F], Register.ofWord k = .unnamed := by decide

/-- The fields of FAULT_INFO that both forms have (Table 12-9). -/
def FaultRecord.commonNat (f : FaultRecord) : Nat :=
  (match f.cause with
    | .unmapped => 1
    | .emptySlot => 2
    | .lapsed => 3
    | .misaligned => 4
    | .bound => 5
    | .readOnly => 6) + (if f.dir = .write then 8 else 0) + (if f.size = .word then 16 else 0) + 32768

/-- Their places, below the fields of either form. -/
theorem FaultRecord.commonNat_eq (f : FaultRecord) :
    f.commonNat = f.cause.code + dirCode f.dir * 8 + sizeCode f.size * 16 + 32768 ∧
    f.cause.code < 8 ∧ dirCode f.dir < 2 ∧ sizeCode f.size < 2 := by
  obtain ⟨cause, dir, size, place⟩ := f
  refine ⟨?_, ?_, ?_, ?_⟩
  · unfold FaultRecord.commonNat
    cases cause <;> cases dir <;> cases size <;> rfl
  · show cause.code < 8
    cases cause <;> decide
  · show dirCode dir < 2
    cases dir <;> decide
  · show sizeCode size < 2
    cases size <;> decide

theorem FaultRecord.infoWord_slot {f : FaultRecord} {bank : Fin 4} {slot : Fin 8} {offset : Word}
    (h : f.place = .slot bank slot offset) : f.infoWord.toNat = f.commonNat + 64 * bank.val + 256 * slot.val := by
  obtain ⟨hcommon, hcause, hdir, hsize⟩ := f.commonNat_eq
  have hbank : bank.val % 4 = bank.val := Nat.mod_eq_of_lt bank.isLt
  have hslot : slot.val % 8 = slot.val := Nat.mod_eq_of_lt slot.isLt
  rw [FaultRecord.infoWord, h, toNat_packFields, hcommon] <;>
    simp only [List.map_cons, List.map_nil, List.cons_append, List.nil_append, List.sum_cons, List.sum_nil, Nat.pow_zero] <;> omega

theorem FaultRecord.infoWord_address {f : FaultRecord} {addr : BitVec 20} (h : f.place = .address addr) :
    f.infoWord.toNat = f.commonNat + 32 + 256 * (addr.toNat / 65536) := by
  obtain ⟨hcommon, hcause, hdir, hsize⟩ := f.commonNat_eq
  have haddr : addr.toNat / 65536 < 16 := by have := addr.isLt; omega
  rw [FaultRecord.infoWord, h, toNat_packFields, hcommon] <;>
    simp only [List.map_cons, List.map_nil, List.cons_append, List.nil_append, List.sum_cons, List.sum_nil, Nat.pow_zero] <;> omega

theorem Slot.viewWord_bound (r : RegionId) (rights : Rights) (origin : Word) :
    (Slot.bound r rights origin).viewWord.toNat = r.val + 256 + (if rights = .read then 1024 else 2048) := by
  have hr : r.val < 128 := r.isLt
  have hrights : rightsCode (some rights) * 1024 = (if rights = .read then 1024 else 2048) ∧ rightsCode (some rights) < 4 := by
    cases rights <;> decide
  rw [Slot.viewWord, toNat_packFields, ← hrights.1] <;>
    simp only [List.map_cons, List.map_nil, List.sum_cons, List.sum_nil, Nat.pow_zero, Slot.code] <;> omega

theorem Slot.viewWord_lapsed (r : RegionId) (cause : LapseCause) : (Slot.lapsed r cause).viewWord.toNat =
    r.val + 512 + 4096 * (match cause with
      | .revoked => 1
      | .retired => 2
      | .ownerReset => 3) := by
  have hr : r.val < 128 := r.isLt
  have hcause : cause.code = (match cause with
      | .revoked => 1
      | .retired => 2
      | .ownerReset => 3) ∧ cause.code < 4 := by
    cases cause <;> decide
  rw [Slot.viewWord, toNat_packFields, ← hcause.1] <;>
    simp only [List.map_cons, List.map_nil, List.sum_cons, List.sum_nil, Nat.pow_zero, Slot.code] <;> omega

/-- Settles O20: each word of the window shows its register, whose fields are summed at their places. -/
theorem controlReadsShowState : Obligations.ControlReadsShowState := by
  unfold Obligations.ControlReadsShowState
  refine ⟨fun s p a arrivals k h hdir hk => ⟨fun ha hsize => ?_, fun ha hsize => ?_, fun ha hsize => ?_⟩,
    fun s p => s.statusWord_toNat p, ?fields, ?noFault, ?fault, ?slot, ?report⟩
  · rw [State.access_register h hk (.inl ha), hdir, hsize]
    rfl
  · rw [State.access_byteRead_register (high := false) h hsize hdir hk ha]
    rfl
  · rw [State.access_byteRead_register (high := true) h hsize hdir hk ha]
    rfl
  case fields =>
    rintro s p q rfl
    refine ⟨?_, ?_, ?_, rfl, fun i => ?_, fun i => ?_, ?_, rfl, rfl, fun k hk => ?_⟩
    · exact BitVec.toNat_setWidth_of_le (by decide)
    · exact BitVec.toNat_setWidth_of_le (by decide)
    · exact (BitVec.toNat_ofNat ..).trans (Nat.mod_eq_of_lt (by have := (s.port p).bank.isLt; omega))
    · rw [Register.ofWord_param]; rfl
    · rw [Register.ofWord_result]; rfl
    · exact BitVec.toNat_setWidth_of_le (by decide)
    · rw [Register.ofWord_unnamed k hk]; rfl
  case noFault =>
    intro s p hnone
    change (match (s.port p).events.fault with
      | some f => f.infoWord
      | none => 0) = 0 ∧ (match (s.port p).events.fault with
      | some f => f.offsetWord
      | none => 0) = 0
    rw [hnone]
    exact ⟨rfl, rfl⟩
  case fault =>
    rintro s p f common hsome rfl
    have hinfo : s.registerWord p (Register.ofWord 0x18) = f.infoWord := by
      change State.registerWord s p .faultInfo = _
      simp only [State.registerWord, hsome]
    have hoffset : s.registerWord p (Register.ofWord 0x19) = f.offsetWord := by
      change State.registerWord s p .faultOffset = _
      simp only [State.registerWord, hsome]
    rw [hinfo, hoffset]
    refine ⟨fun bank slot offset hplace => ⟨FaultRecord.infoWord_slot hplace, ?_⟩,
      fun addr hplace => ⟨FaultRecord.infoWord_address hplace, ?_⟩⟩
    · rw [FaultRecord.offsetWord, hplace]
    · rw [FaultRecord.offsetWord, hplace]
      simp
  case slot =>
    rintro s p bank slot k rfl
    rw [Register.ofWord_slotView, State.registerWord]
    refine ⟨fun hslot => ?_, fun r rights origin hslot => ?_, fun r cause hslot => ?_⟩ <;> rw [hslot]
    · rfl
    · exact Slot.viewWord_bound r rights origin
    · exact Slot.viewWord_lapsed r cause
  case report =>
    rintro s p ⟨-, -, -, -, -, hfree⟩
    have hlargest : (s.port p).events.report.largestFree ≤ 2048 := hfree
    have hending : (s.port p).events.report.ending.code < 4 := by
      cases (s.port p).events.report.ending <;> decide
    have hshown : (State.registerWord s p .report2).toNat =
        (s.port p).events.report.largestFree + 4096 * (s.port p).events.report.ending.code := by
      rw [State.registerWord, toNat_packFields] <;>
        simp only [List.map_cons, List.map_nil, List.sum_cons, List.sum_nil, Nat.pow_zero] <;> omega
    refine hshown.trans ?_
    cases (s.port p).events.report.ending <;> rfl

end Sys2Proof.Machine
end

section
/-! PROOFS. Rotations and turns: the search for the next port and the next claimant, the rows whose turn it is not, and the order of
the job set. -/
namespace Sys2Proof.Machine

/-! ### The first of a list -/

/-- A search finds the member that meets its test and that no member which meets it goes before. -/
theorem find?_eq_some_iff_idxOf {α : Type} [DecidableEq α] {l : List α} {test : α → Bool} {a : α} (ha : a ∈ l) :
    l.find? test = some a ↔ test a = true ∧ ∀ b, l.idxOf b < l.idxOf a → test b = false := by
  constructor
  · intro h
    obtain ⟨htest, before, after, rfl, hbefore⟩ := List.find?_eq_some_iff_append.mp h
    refine ⟨htest, fun b hb => ?_⟩
    have hnot : a ∉ before := fun hmem => by have := hbefore a hmem; simp [htest] at this
    have hmem : b ∈ before := by
      by_contra hout
      rw [List.idxOf_append_of_notMem hnot, List.idxOf_append_of_notMem hout, List.idxOf_cons_self] at hb
      omega
    simpa using hbefore b hmem
  · rintro ⟨htest, hbefore⟩
    obtain ⟨before, after, rfl, hnot⟩ := List.eq_append_cons_of_mem ha
    refine List.find?_eq_some_iff_append.mpr ⟨htest, before, after, rfl, fun b hb => ?_⟩
    rw [hbefore b, Bool.not_false]
    rw [List.idxOf_append_of_mem hb, List.idxOf_append_of_notMem hnot, List.idxOf_cons_self]
    exact Nat.lt_of_lt_of_le (List.idxOf_lt_length_iff.mpr hb) (Nat.le_add_right _ _)

/-! ### The rotation of commands (R159) -/

theorem PortId.toNat_lt (p : PortId) : p.toNat < 4 := by cases p <;> decide

theorem PortId.toNat_injective {p q : PortId} (h : p.toNat = q.toNat) : p = q := by
  cases p <;> cases q <;> simp_all [PortId.toNat]

theorem idxOf_takeOrder (last p : PortId) : (takeOrder last).idxOf p = (p.toNat + 3 - last.toNat) % 4 := by
  cases last <;> cases p <;> decide

theorem State.nextTake_eq_some_iff (s : State) (p : PortId) : s.nextTake = some p ↔
    (s.port p).unit.state = .pending ∧
      ∀ q, (takeOrder s.lastPort).idxOf q < (takeOrder s.lastPort).idxOf p → (s.port q).unit.state = .idle := by
  rw [State.nextTake, find?_eq_some_iff_idxOf (PortId.mem_takeOrder _ _), decide_eq_true_eq]
  refine and_congr_right fun _ => forall₂_congr fun q _ => ?_
  rw [decide_eq_false_iff_not]
  cases (s.port q).unit.state <;> simp

/-- Each row of the take is the take of a command body, with the row's codes. -/
theorem exec_of_mem_takeRows {p : PortId} {c : Instr × (Word → Bool)} (h : c ∈ takeRows p) :
    ∃ body, ∀ s, exec c.1 s = s.takeCommand p c.2 body := by
  have hunknown : unknownCode = fun w : Word => decide (w = 0 ∨ 10 < w.toNat) := by
    funext w
    exact decide_eq_decide.mpr (or_congr_left ⟨fun hzero => BitVec.eq_of_toNat_eq hzero, fun hzero => by rw [hzero]; rfl⟩)
  simp only [takeRows, List.mem_cons, List.not_mem_nil, or_false] at h
  rcases h with rfl | rfl | rfl | rfl | rfl | rfl | rfl | rfl | rfl | rfl | rfl
  case inr.inr.inr.inr.inr.inr.inr.inr.inr.inr =>
    exact ⟨unknownBody, fun s => (exec_takeUnknown s p).trans (by rw [hunknown])⟩
  all_goals exact ⟨_, fun _ => rfl⟩

/-- Settles O22: the order is by distance from the port taken last, and a take makes that the port it takes. -/
theorem commandRotation : Obligations.CommandRotation := by
  unfold Obligations.CommandRotation
  refine ⟨fun s => by cases s.lastPort <;> rfl, State.nextTake_eq_some_iff, fun s p hpending hnone => ?_,
    fun s t p q c hc ht hmay hpending hq => ?_⟩
  · rw [(s.nextTake_eq_none_iff.mp hnone) p] at hpending
    cases hpending
  · obtain ⟨body, hexec⟩ := exec_of_mem_takeRows hc
    rw [hexec, State.takeCommand, if_pos hmay] at ht
    cases ht
    have hnext : s.nextTake = some p := by
      simp only [State.mayTake, decide_eq_true_eq] at hmay
      exact hmay.1
    have hfirst := ((s.nextTake_eq_some_iff p).mp hnext).2 q
    rw [Answer.finish_eq, State.answered_lastPort]
    refine ⟨rfl, ?_⟩
    have hne : q.toNat ≠ p.toNat := fun heq => hq (PortId.toNat_injective heq)
    have hle : ¬ (takeOrder s.lastPort).idxOf q < (takeOrder s.lastPort).idxOf p := fun hlt => by
      rw [hfirst hlt] at hpending
      cases hpending
    have hplast := PortId.toNat_lt s.lastPort
    have hp := PortId.toNat_lt p
    have hq' := PortId.toNat_lt q
    simp only [idxOf_takeOrder] at hle ⊢
    omega

/-! ### Rows whose turn it is not (log 2) -/

section
variable {s : State}

theorem execRegionScrubEnd_of_not_due (h : ∀ level order r span cursor,
    s.engine.running = some ⟨level, order, .scrub (.region r) span cursor⟩ → span.length ≤ cursor → s.completionTurn = false) :
    execRegionScrubEnd s = .next s := by
  unfold execRegionScrubEnd
  split
  · next hrun =>
    refine if_neg fun ⟨hend, hturn⟩ => ?_
    rw [h _ _ _ _ _ hrun hend] at hturn
    cases hturn
  · rfl

theorem execBootScrubEnd_of_not_due (h : ∀ level order k span cursor,
    s.engine.running = some ⟨level, order, .scrub (.boot k) span cursor⟩ → span.length ≤ cursor → s.completionTurn = false) :
    execBootScrubEnd s = .next s := by
  unfold execBootScrubEnd
  split
  · next hrun =>
    refine if_neg fun ⟨hend, hturn⟩ => ?_
    rw [h _ _ _ _ _ hrun hend] at hturn
    cases hturn
  · rfl

theorem execRoundTest_of_not_due (h : ∀ level order c,
    s.engine.running = some ⟨level, order, .compaction c⟩ → c.phase = .scan → s.completionTurn = false) :
    execRoundTest s = .next s := by
  unfold execRoundTest
  split
  · next hrun =>
    refine if_neg fun ⟨hphase, hturn⟩ => ?_
    rw [h _ _ _ hrun hphase] at hturn
    cases hturn
  · rfl

theorem execCopyEnd_of_not_due (h : ∀ level order c m v, s.engine.running = some ⟨level, order, .compaction c⟩ →
    c.phase = .copy m → (s.region m.subject).move = some v → m.length ≤ v.cursor → s.completionTurn = false) :
    execCopyEnd s = .next s := by
  unfold execCopyEnd
  split
  · next hrun =>
    split
    · next hphase =>
      split
      · next hv =>
        refine if_neg fun ⟨hend, hturn⟩ => ?_
        rw [h _ _ _ _ _ hrun hphase hv hend] at hturn
        cases hturn
      · rfl
    · rfl
  · rfl

theorem execClearEnd_of_not_due (h : ∀ level order c m vacated dirty cursor,
    s.engine.running = some ⟨level, order, .compaction c⟩ → c.phase = .clear m vacated dirty cursor → dirty.length ≤ cursor →
    s.completionTurn = false) : execClearEnd s = .next s := by
  unfold execClearEnd
  split
  · next hrun =>
    split
    · next hphase =>
      refine if_neg fun ⟨hend, hturn⟩ => ?_
      rw [h _ _ _ _ _ _ _ hrun hphase hend] at hturn
      cases hturn
    · rfl
  · rfl

end

theorem State.commandTurn_eq_false {s : State} (hwaits : s.completionWaits = true) (hlast : s.lastTaken = some .command) :
    s.commandTurn = false :=
  Bool.eq_false_iff.mpr fun hturn => by
    rw [State.commandTurn_eq] at hturn
    rw [hturn hlast] at hwaits
    cases hwaits

theorem State.completionTurn_eq_false {s : State} {p : PortId} (hpending : (s.port p).unit.state = .pending)
    (hlast : s.lastTaken = some .completion) : s.completionTurn = false :=
  Bool.eq_false_iff.mpr fun hturn => by
    rw [State.completionTurn_eq] at hturn
    rw [hturn hlast p] at hpending
    cases hpending

theorem exec_regionScrubEnd (s : State) : exec .regionScrubEnd s = execRegionScrubEnd s := rfl
theorem exec_bootScrubEnd (s : State) : exec .bootScrubEnd s = execBootScrubEnd s := rfl
theorem exec_roundTest (s : State) : exec .roundTest s = execRoundTest s := rfl
theorem exec_copyEnd (s : State) : exec .copyEnd s = execCopyEnd s := rfl
theorem exec_clearEnd (s : State) : exec .clearEnd s = execClearEnd s := rfl
theorem exec_scrubStep (arrivals : List Claim) (s : State) : exec (.scrubStep arrivals) s = execScrubStep arrivals s := rfl
theorem exec_copyStep (arrivals : List Claim) (s : State) : exec (.copyStep arrivals) s = execCopyStep arrivals s := rfl
theorem exec_clearStep (arrivals : List Claim) (s : State) : exec (.clearStep arrivals) s = execClearStep arrivals s := rfl

/-- A take that is not made changes nothing. -/
theorem exec_take_of_not_mayTake {s : State} {p : PortId} {c : Instr × (Word → Bool)} (hc : c ∈ takeRows p)
    (h : s.mayTake p c.2 = false) : exec c.1 s = .next s := by
  obtain ⟨body, hexec⟩ := exec_of_mem_takeRows hc
  rw [hexec, State.takeCommand_of_not_mayTake h]

/-- Settles O23: a take wants its port, its codes and its turn, a completion its turn. -/
theorem commandWaitsItsTurn : Obligations.CommandWaitsItsTurn := by
  unfold Obligations.CommandWaitsItsTurn
  refine ⟨fun s p c hc hnot => exec_take_of_not_mayTake hc (decide_eq_false fun ⟨hnext, _, hcode⟩ => ?_),
    fun s p c hc hwaits hlast => exec_take_of_not_mayTake hc (decide_eq_false fun ⟨_, hturn, _⟩ => ?_),
    fun s p hpending hlast c hc => ?_⟩
  · rcases hnot with hother | hforeign
    · exact hother hnext
    · rw [hforeign] at hcode
      cases hcode
  · rw [State.commandTurn_eq_false hwaits hlast] at hturn
    cases hturn
  · have hturn := State.completionTurn_eq_false hpending hlast
    simp only [List.mem_cons, List.not_mem_nil, or_false] at hc
    rcases hc with rfl | rfl | rfl | rfl | rfl
    · exact execRegionScrubEnd_of_not_due fun _ _ _ _ _ _ _ => hturn
    · exact execBootScrubEnd_of_not_due fun _ _ _ _ _ _ _ => hturn
    · exact execRoundTest_of_not_due fun _ _ _ _ _ => hturn
    · exact execCopyEnd_of_not_due fun _ _ _ _ _ _ _ _ _ => hturn
    · exact execClearEnd_of_not_due fun _ _ _ _ _ _ _ _ _ _ => hturn

/-! ### The arbiter's rotation (R86) -/

theorem Claimant.index_lt (c : Claimant) : c.index < 5 := by rcases c with p | _ <;> [cases p <;> decide; decide]

theorem Claimant.index_injective {c d : Claimant} (h : c.index = d.index) : c = d := by
  cases c with
  | engine =>
    cases d with
    | engine => rfl
    | port q => exact absurd h (ne_of_gt (PortId.toNat_lt q))
  | port p =>
    cases d with
    | engine => exact absurd h (ne_of_lt (PortId.toNat_lt p))
    | port q => rw [PortId.toNat_injective h]

theorem idxOf_claimOrder (last c : Claimant) : (claimOrder last).idxOf c = (c.index + 4 - last.index) % 5 := by
  rcases last with last | _ <;> rcases c with c | _
  · cases last <;> cases c <;> decide
  · cases last <;> decide
  · cases c <;> decide
  · decide

theorem mem_claimOrder (last c : Claimant) : c ∈ claimOrder last := by
  rw [claimOrder, List.mem_rotate]
  rcases c with c | _
  · cases c <;> decide
  · decide

theorem arbiterServes_iff {last c : Claimant} {claims : List Claimant} (hc : c ∈ claims) : arbiterServes last c claims = true ↔
    ∀ d ∈ claims, (claimOrder last).idxOf c ≤ (claimOrder last).idxOf d := by
  rw [arbiterServes, decide_eq_true_eq, find?_eq_some_iff_idxOf (mem_claimOrder _ _)]
  constructor
  · rintro ⟨-, hbefore⟩ d hd
    by_contra hlt
    have := hbefore d (Nat.lt_of_not_le hlt)
    simp [hd] at this
  · refine fun hall => ⟨by simp, fun d hlt => decide_eq_false ?_⟩
    rintro (rfl | hd)
    · exact Nat.lt_irrefl _ hlt
    · exact Nat.not_lt_of_le (hall d hd) hlt

/-- Of claims that wait the arbiter takes one. -/
theorem exists_arbiterServes (last : Claimant) {claims : List Claimant} (h : claims ≠ []) :
    ∃ c ∈ claims, arbiterServes last c claims = true := by
  obtain ⟨c, hc, hmin⟩ := claims.toFinset.exists_min_image (fun c => (claimOrder last).idxOf c)
    ((List.toFinset_nonempty_iff claims).mpr h)
  rw [List.mem_toFinset] at hc
  exact ⟨c, hc, (arbiterServes_iff hc).mpr fun d hd => hmin d (List.mem_toFinset.mpr hd)⟩

/-- What comes after a waiting claim does so until that claim is taken. -/
theorem fairness_of_arbiterServes {last c me x : Claimant} {claims : List Claimant} (hme : me ∈ claims)
    (hbefore : (claimOrder last).idxOf me < (claimOrder last).idxOf c) (hx : arbiterServes last x claims = true) (hne : x ≠ me) :
    x ≠ c ∧ (claimOrder x).idxOf me < (claimOrder x).idxOf c ∧
      (claimOrder x).idxOf me < (claimOrder last).idxOf me := by
  have hfirst := idxOf_le_of_arbiterServes hx hme
  have hxme : x.index ≠ me.index := fun h => hne (Claimant.index_injective h)
  have h1 := Claimant.index_lt last
  have h2 := Claimant.index_lt c
  have h3 := Claimant.index_lt me
  have h4 := Claimant.index_lt x
  simp only [idxOf_claimOrder] at *
  refine ⟨?_, ?_, ?_⟩
  · rintro rfl
    omega
  · omega
  · omega

theorem State.arriveAll_presented {s : State} {p : PortId} {a : Access} (h : s.presents p a = true)
    (ha : a.addr.toNat < 0x80000) :
    s.arriveAll [.port p a] = { s with waits := { s.waits with ports := s.waits.ports.set p (some a) } } :=
  (s.arrive_port p a).trans (if_pos ⟨h, ha⟩)

theorem State.arriveAll_not_presented {s : State} {p : PortId} {a : Access}
    (h : s.presents p a = false ∨ 0x80000 ≤ a.addr.toNat) : s.arriveAll [.port p a] = s :=
  (s.arrive_port p a).trans (if_neg fun ⟨hp, ha⟩ => h.elim (fun hf => by rw [hf] at hp; cases hp) (Nat.not_le_of_lt ha))

/-- The engine's claim is a scrub, copy or clear step (R115). -/
theorem State.granuleNext_iff (s : State) : s.granuleNext = true ↔
    ∃ j ∈ s.engine.running, (∃ w ∈ j.scrubWork?, w.2 < w.1.length) ∨
      ∃ c ∈ j.compaction?,
        (∃ m, c.phase = .copy m ∧ ∃ v ∈ (s.region m.subject).move, v.cursor < m.length) ∨
        ∃ m vacated dirty cursor, c.phase = .clear m vacated dirty cursor ∧ cursor < dirty.length := by
  unfold State.granuleNext
  cases hrun : s.engine.running with
  | none => simp
  | some j =>
    obtain ⟨level, order, work⟩ := j
    cases work with
    | scrub target span cursor => simp [Job.scrubWork?, Job.compaction?]
    | compaction c =>
      simp only [Option.mem_def, Option.some.injEq, exists_eq_left', Job.scrubWork?, Job.compaction?, reduceCtorEq, false_and,
        exists_false, false_or]
      cases hphase : c.phase with
      | scan => simp
      | copy m => simp [Option.any_eq_true]
      | clear m vacated dirty cursor => simp

/-- Settles O10: distances from the claimant served last decide, as for commands. -/
theorem arbiterRotation : Obligations.ArbiterRotation := by
  unfold Obligations.ArbiterRotation
  refine ⟨fun last => ?_, fun last claims h => exists_arbiterServes last h, fun last c claims hc => arbiterServes_iff hc,
    fun me c hne => ?_, fun last c me x claims => fairness_of_arbiterServes, fun s c => ?_, fun s p a => ⟨s.presents_iff p a,
    State.arriveAll_presented, State.arriveAll_not_presented⟩, fun s => ⟨rfl, fun _ _ => rfl, fun h => if_pos h, fun h => ?_⟩,
    State.granuleNext_iff⟩
  · cases last with
    | engine => rfl
    | port p => cases p <;> rfl
  · have hindex : me.index ≠ c.index := fun h => hne (Claimant.index_injective h)
    have h1 := Claimant.index_lt me
    have h2 := Claimant.index_lt c
    simp only [idxOf_claimOrder]
    omega
  · cases c with
    | port p => exact s.port_mem_claims_iff p
    | engine => exact s.engine_mem_claims_iff
  · exact if_neg fun hnext => by rw [h] at hnext; cases hnext

/-! ### The job set (R110, R112, R114, R117) -/

theorem queueJob_append {j : Job} {before after : List Job} (hbefore : ∀ k ∈ before, j.before k = false)
    (hafter : ∀ k ∈ after.head?, j.before k = true) : queueJob j (before ++ after) = before ++ j :: after := by
  induction before with
  | nil =>
    cases after with
    | nil => rfl
    | cons k after => exact if_pos (hafter k rfl)
  | cons k before ih =>
    rw [List.cons_append, queueJob, if_neg (by rw [hbefore k (by simp)]; nofun), ih fun i hi => hbefore i (by simp [hi])]
    rfl

/-- Settles O40: the job goes behind all that are as urgent, and choice and preemption look at queue head, stack top and the
running job. -/
theorem engineQueuesChoosesPreempts : Obligations.EngineQueuesChoosesPreempts := by
  unfold Obligations.EngineQueuesChoosesPreempts
  refine ⟨fun e level work before after hqueue hbefore hafter horder => ?_, fun e q qs hrun hqueue hstack => ?_,
    fun e t ts hrun hstack hqueue => ?_, fun e h => ?_, fun e j q qs hrun hqueue hlevel => ?_, fun e j hrun hhead => ?_⟩
  · rw [Engine.make, hqueue, queueJob_append]
    · intro k hk
      have hlow := hbefore k hk
      have hearlier := horder k (by rw [hqueue]; simp [hk])
      refine decide_eq_false ?_
      rintro (hlt | ⟨-, hlt⟩)
      · exact absurd hlow (not_le_of_gt hlt)
      · exact absurd hearlier (Nat.lt_asymm hlt)
    · intro k hk
      exact decide_eq_true (.inl (hafter k (List.mem_of_mem_head? hk)))
  · rcases hstack with hstack | ⟨t, ts, hstack, hlevel⟩
    · simp only [Engine.choose, hrun, hqueue, hstack]
    · simp only [Engine.choose, hrun, hqueue, hstack, if_pos hlevel]
  · rcases hqueue with hqueue | ⟨q, qs, hqueue, hlevel⟩
    · simp only [Engine.choose, hrun, hqueue, hstack]
    · simp only [Engine.choose, hrun, hqueue, hstack, if_neg (not_lt_of_ge hlevel)]
  · rcases h with hrun | ⟨hqueue, hstack⟩
    · exact Engine.choose_of_running (Option.isSome_iff_ne_none.mpr hrun)
    · cases hrun : e.running <;> simp only [Engine.choose, hrun, hqueue, hstack]
  · simp only [Engine.boundary, hrun, hqueue, if_pos hlevel]
  · cases hqueue : e.queue with
    | nil => simp only [Engine.boundary, hrun, hqueue]
    | cons q qs =>
      have hlevel := hhead q (by rw [hqueue]; rfl)
      simp only [Engine.boundary, hrun, hqueue, if_neg (not_lt_of_ge hlevel)]

end Sys2Proof.Machine
end

section
/-! PROOFS. What waits at the Array Arbiter over every event (R86, R107, R142), and the engine's events that are not called for. -/
namespace Sys2Proof.Machine

/-! ### What goes on waiting -/

/-- The claims of ports go on waiting, and the engine's while its job calls for it; no claim is served. -/
structure State.KeepsWaits (s t : State) : Prop where
  ports : t.waits.ports = s.waits.ports
  step : s.waits.step = true → t.waits.step = true ∨ t.granuleNext = false
  lastServed : t.lastServed = s.lastServed

/-- All claims but that of `but` go on waiting, the engine's while its job calls for it, and a claim served brings the others
nearer. -/
structure State.WaitsBut (s t : State) (but : Option Claimant) : Prop where
  ports : ∀ p a, but ≠ some (.port p) → s.waits.ports.get p = some a → t.waits.ports.get p = some a
  step : but ≠ some .engine → s.waits.step = true → t.waits.step = true ∨ t.granuleNext = false
  nearer : ∀ me ∈ s.claims, me ∈ t.claims → t.lastServed = s.lastServed ∨
    (claimOrder t.lastServed).idxOf me < (claimOrder s.lastServed).idxOf me

namespace State

variable {s t u : State} {p : PortId}

theorem KeepsWaits.of_waits (hw : t.waits = s.waits) (hl : t.lastServed = s.lastServed) : s.KeepsWaits t :=
  ⟨by rw [hw], fun h => .inl (by rw [hw]; exact h), hl⟩

theorem KeepsWaits.of_settled (h : s.StepSettled t) (hl : t.lastServed = s.lastServed) : s.KeepsWaits t := by
  refine ⟨by rw [h], fun hstep => ?_, hl⟩
  have hwaits : t.waits.step = (s.waits.step && t.granuleNext) := congrArg Waits.step h
  rw [hstep, Bool.true_and] at hwaits
  rw [hwaits]
  exact (Bool.eq_false_or_eq_true _)

theorem KeepsWaits.waitsBut (h : s.KeepsWaits t) (but : Option Claimant) : s.WaitsBut t but :=
  ⟨fun p a _ hp => by rw [h.ports]; exact hp, fun _ => h.step, fun _ _ _ => .inl h.lastServed⟩

theorem WaitsBut.arriveAll (s : State) (l : List Claim) (but : Option Claimant) : s.WaitsBut (s.arriveAll l) but :=
  ⟨fun p a _ => (s.arriveAll_keeps l).1 p a, fun _ h => .inl ((s.arriveAll_keeps l).2 h), fun _ _ _ => .inl (s.arriveAll_lastServed l)⟩

/-- Claim `c` is answered without the arbiter. -/
theorem WaitsBut.of_drop {c : Claimant} (hw : t.waits = s.waits.drop c) (hl : t.lastServed = s.lastServed) :
    s.WaitsBut t (some c) := by
  refine ⟨fun q a hq ha => ?_, fun hc hstep => .inl ?_, fun _ _ _ => .inl hl⟩
  · rw [hw]
    cases c with
    | port p => rw [Waits.get_drop_port, if_neg fun hqp => hq (by rw [hqp])]; exact ha
    | engine => exact ha
  · rw [hw]
    cases c with
    | port p => exact hstep
    | engine => exact absurd rfl hc

theorem not_mem_claims_of_drop {w : Waits} {c : Claimant} (hw : t.waits = w.drop c) : c ∉ t.claims := by
  cases c with
  | port p =>
    rw [port_mem_claims_iff, hw, Waits.get_drop_port, if_pos rfl]
    exact fun h => h rfl
  | engine =>
    rw [engine_mem_claims_iff, hw]
    exact nofun

/-- The arbiter takes claim `c` of those that wait and arrive. -/
theorem WaitsBut.of_served {c : Claimant} {l : List Claim} (hserves : (s.arriveAll l).serves c = true)
    (hw : t.waits = (s.arriveAll l).waits.drop c) (hl : t.lastServed = c) : s.WaitsBut t (some c) := by
  obtain ⟨hports, hstep⟩ := s.arriveAll_keeps l
  refine ⟨fun q a hq ha => ?_, fun hc h => .inl ?_, fun me hme ht => .inr ?_⟩
  · rw [hw]
    cases c with
    | port p => rw [Waits.get_drop_port, if_neg fun hqp => hq (by rw [hqp])]; exact hports q a ha
    | engine => exact hports q a ha
  · rw [hw]
    cases c with
    | port p => exact hstep h
    | engine => exact absurd rfl hc
  · rw [serves_arriveAll] at hserves
    rw [hl]
    exact nearer_of_arbiterServes hserves (mem_claims_arriveAll hme l) (ne_of_mem_of_not_mem ht (not_mem_claims_of_drop hw))

/-! ### Commands -/

theorem KeepsWaits.answered (h : s.KeepsWaits u) (words : List Word) : s.KeepsWaits (u.answered p words) :=
  ⟨h.ports, h.step, h.lastServed⟩

/-- A region enters SCRUBBING and an idle engine chooses: one that waits is not idle. -/
theorem stepSettled_scrubbing (h : s.ClaimLaw) (hw : u.waits = s.waits) (hn : u.granuleNext = s.granuleNext) (r : RegionId)
    (level : Level) : s.StepSettled ((u.enterScrubbing r level).withEngine Engine.choose) := by
  cases hstep : s.waits.step with
  | true =>
    have hrunning : (u.enterScrubbing r level).engine.running.isSome = true := by
      rw [enterScrubbing_engine, Engine.isSome_running_withScrub]
      cases hrun : u.engine.running with
      | some j => rfl
      | none =>
        have hnext := h.2 hstep
        rw [← hn, granuleNext_of_idle hrun] at hnext
        cases hnext
    rw [withEngine, Engine.choose_of_running hrunning]
    rw [StepSettled, ← hw]
    exact u.enterScrubbing_waits r level
  | false =>
    rw [StepSettled, withEngine_waits, enterScrubbing_waits, hw, hstep, Bool.false_and, Bool.false_and]

theorem KeepsWaits.create (s : State) (p : PortId) : s.KeepsWaits (createBody s p).state := by
  rcases createBody_cases s p with h | ⟨h, -⟩ | ⟨r, base, rest, target, -, h⟩ <;> rw [h]
  · exact .of_waits rfl rfl
  · unfold watchFor
    split <;> exact .of_waits rfl rfl
  · exact .of_waits rfl rfl

theorem KeepsWaits.open (s : State) (p : PortId) : s.KeepsWaits (openBody s p).state := by
  rcases openBody_cases s p with h | ⟨i, rights, r, -, -, -, -, h⟩ <;> rw [h] <;> exact .of_waits rfl rfl

theorem KeepsWaits.close (hc : s.ClaimLaw) (p : PortId) : s.KeepsWaits (closeBody s p).state := by
  rcases closeBody_cases s p with h | ⟨i, r, rights, origin, -, h⟩ | ⟨i, r, cause, -, h⟩ <;> rw [h]
  · exact .of_waits rfl rfl
  · rw [closeBound_eq]
    split
    · have hunbound : (s.unbindSlot p i r).granuleNext = s.granuleNext := granuleNext_congr rfl fun k => by
        rw [unbindSlot_region]
        split <;> rfl
      exact .of_settled (stepSettled_scrubbing (u := s.unbindSlot p i r) hc rfl hunbound r (s.port p).level) rfl
    · exact .of_waits rfl rfl
  · exact .of_waits rfl rfl

theorem KeepsWaits.grant (s : State) (p : PortId) : s.KeepsWaits (grantBody s p).state := by
  rcases grantBody_cases s p with h | ⟨g, r, asked, -, -, -, h⟩ <;> rw [h]
  · exact .of_waits rfl rfl
  · rcases s.grantCase_cases r g ((s.region r).grants.get g) asked with ⟨-, -, hcase⟩ | ⟨-, -, hcase⟩ | ⟨-, hcase⟩ <;> rw [hcase] <;>
      exact .of_waits rfl rfl

theorem KeepsWaits.retire (hc : s.ClaimLaw) (p : PortId) : s.KeepsWaits (retireBody s p).state := by
  rcases retireBody_cases s p with h | ⟨r, -, -, ⟨-, h⟩ | h⟩ <;> rw [h]
  · exact .of_waits rfl rfl
  · unfold retireGentle
    dsimp only
    split
    · exact .of_waits rfl rfl
    · exact .of_settled (stepSettled_scrubbing hc rfl rfl r (s.port p).level) rfl
  · exact .of_settled (stepSettled_scrubbing hc (s.lapseAll_waits r .retired) (s.granuleNext_lapseAll r .retired) r (s.port p).level) rfl

theorem KeepsWaits.compact (s : State) (p : PortId) : s.KeepsWaits (compactBody s p).state := by
  rcases compactBody_cases s p with h | ⟨-, h⟩ <;> rw [h] <;> exact .of_waits rfl rfl

theorem KeepsWaits.halt (s : State) (p : PortId) : s.KeepsWaits (haltBody s p).state := by
  rcases haltBody_cases s p with h | h <;> rw [h] <;> exact .of_waits rfl rfl

theorem KeepsWaits.setPort (s : State) (p : PortId) : s.KeepsWaits (setPortBody s p).state := by
  rcases setPortBody_cases s p with h | ⟨x, level, -, h⟩ <;> rw [h] <;> exact .of_waits rfl rfl

theorem Sound.keepsWaits_portReset (h : s.Sound) (x : PortId) : s.KeepsWaits (s.portReset x) := by
  obtain ⟨-, -, -, -, hlastServed, -⟩ := (h.portReset x).rest
  exact .of_settled (h.stepSettled_portReset x) hlastServed

theorem Sound.keepsWaits_resetPort (h : s.Sound) (p : PortId) : s.KeepsWaits (resetPortBody s p).state := by
  rcases resetPortBody_cases s p with hstate | ⟨x, -, -, hstate⟩ <;> rw [hstate]
  · exact .of_waits rfl rfl
  · exact h.keepsWaits_portReset x

theorem KeepsWaits.takeCommand {code : Word → Bool} {body : State → PortId → Answer} (hbody : s.KeepsWaits (body s p).state)
    (h : s.takeCommand p code body = .next t) : s.KeepsWaits t := by
  rcases takeCommand_cases h with rfl | ⟨-, -, rfl⟩
  · exact .of_waits rfl rfl
  · exact hbody.answered _

/-! ### Accesses, resets and the engine -/

/-- An access that its port can present ends its own claim and no other; one that it cannot changes nothing. -/
theorem waitsBut_access {a : Access} {l : List Claim} (h : s.access p a l = .next t) :
    t = s ∨ (s.presents p a = true ∧ s.WaitsBut t (some (.port p))) := by
  rcases access_cases h with ⟨-, rfl⟩ | ⟨hpresents, ⟨-, hdata⟩ | ⟨r, high, -, rfl⟩ | ⟨-, rfl⟩ | ⟨-, rfl⟩⟩
  · exact .inl rfl
  · refine .inr ⟨hpresents, ?_⟩
    rcases dataAccess_cases hdata with ⟨cause, -, rfl⟩ | ⟨r, e, -, hserves, -, rfl⟩ | ⟨rfl, -⟩
    · exact .of_drop rfl rfl
    · obtain ⟨data, hserve⟩ := Lawful.serve_eq (s.arriveAll (.port p a :: l)) p a (s.region r) e
      exact .of_served hserves (by rw [hserve]; rfl) (by rw [hserve]; rfl)
    · exact .arriveAll ..
  · refine .inr ⟨hpresents, ?_⟩
    rw [controlAccess_eq]
    cases a.dir <;> exact .of_drop rfl rfl
  · exact .inr ⟨hpresents, .of_drop rfl rfl⟩
  · exact .inr ⟨hpresents, .of_drop rfl rfl⟩

theorem waitsBut_scrubStep {l : List Claim} (h : execScrubStep l s = .next t) : s.WaitsBut t (some .engine) := by
  rcases execScrubStep_cases h with rfl | ⟨rfl, -⟩ | ⟨level, order, target, span, cursor, -, -, hserves, -, rfl⟩
  · exact (KeepsWaits.of_waits rfl rfl).waitsBut _
  · exact .arriveAll ..
  · exact .of_served hserves rfl rfl

theorem waitsBut_copyStep {l : List Claim} (h : execCopyStep l s = .next t) : s.WaitsBut t (some .engine) := by
  rcases execCopyStep_cases h with rfl | ⟨rfl, -⟩ | ⟨level, order, c, m, v, -, -, -, -, hserves, -, -, rfl⟩
  · exact (KeepsWaits.of_waits rfl rfl).waitsBut _
  · exact .arriveAll ..
  · exact .of_served hserves rfl rfl

theorem waitsBut_clearStep {l : List Claim} (h : execClearStep l s = .next t) : s.WaitsBut t (some .engine) := by
  rcases execClearStep_cases h with rfl | ⟨rfl, -⟩ | ⟨level, order, c, m, vacated, dirty, cursor, -, -, -, hserves, -, rfl⟩
  · exact (KeepsWaits.of_waits rfl rfl).waitsBut _
  · exact .arriveAll ..
  · exact .of_served hserves rfl rfl

theorem Lawful.waitsBut_inputAssert (h : s.Lawful) (ht : execPortResetInputAssert p s = .next t) : s.WaitsBut t (some (.port p)) := by
  cases hp : (s.port p).portState with
  | held =>
    rw [execPortResetInputAssert_held hp] at ht
    cases ht
    exact (KeepsWaits.of_waits rfl rfl).waitsBut _
  | attached =>
    rw [execPortResetInputAssert_attached hp] at ht
    cases ht
    have hdropped : s.WaitsBut (s.inputAsserted p) (some (.port p)) := .of_drop rfl rfl
    have hreset := (h.sound.inputAsserted p).keepsWaits_portReset p
    refine ⟨fun q a hq ha => ?_, fun hc hstep => hreset.step ?_, fun _ _ _ => .inl hreset.lastServed⟩
    · rw [hreset.ports]
      exact hdropped.ports q a hq ha
    · exact hstep

theorem roundTest_waits (s : State) (level : Level) (order : Nat) (c : Compaction) :
    (s.roundTest level order c).waits = s.waits ∧ (s.roundTest level order c).lastServed = s.lastServed := by
  rcases s.roundTest_cases level order c with ⟨ending, hcase⟩ | ⟨f, -, -, hcase | ⟨r, -, -, hcase⟩⟩ <;> rw [hcase]
  · unfold endCompaction
    cases c.issuer <;> exact ⟨rfl, rfl⟩
  · exact ⟨rfl, rfl⟩
  · exact ⟨rfl, rfl⟩

/-- The claims that an event may end: all at a device reset, else that of its own access, that of a port whose reset is asserted,
or the engine's. -/
def WaitsOver (s t : State) (c : Instr) : Prop :=
  (c = .deviceReset ∧ t.claims = []) ∨ s.WaitsBut t none ∨
  (∃ p, c = .portResetInputAssert p ∧ s.WaitsBut t (some (.port p))) ∨
  (∃ p a arrivals, c ∈ accessRows p a arrivals ∧ s.presents p a = true ∧ s.WaitsBut t (some (.port p))) ∨
  ∃ arrivals, (c = .scrubStep arrivals ∨ c = .copyStep arrivals ∨ c = .clearStep arrivals) ∧ s.WaitsBut t (some .engine)

theorem KeepsWaits.waitsOver (h : s.KeepsWaits t) (c : Instr) : s.WaitsOver t c := .inr (.inl (h.waitsBut none))

theorem WaitsOver.of_waits {c : Instr} (hw : t.waits = s.waits) (hl : t.lastServed = s.lastServed) : s.WaitsOver t c :=
  (KeepsWaits.of_waits hw hl).waitsOver c

theorem waitsOver_access {a : Access} {l : List Claim} {c : Instr} (hc : c ∈ accessRows p a l) (h : s.access p a l = .next t) :
    s.WaitsOver t c := by
  rcases waitsBut_access h with rfl | ⟨hpresents, hwaits⟩
  · exact .of_waits rfl rfl
  · exact .inr (.inr (.inr (.inl ⟨p, a, l, hc, hpresents, hwaits⟩)))

theorem Lawful.waitsOver {c : Instr} (h : s.Lawful) (ht : Machine.exec c s = .next t) : s.WaitsOver t c := by
  cases c with
  | deviceReset =>
    rw [exec_deviceReset] at ht
    cases ht
    refine .inl ⟨rfl, ?_⟩
    rw [State.claims, s.afterReset_deviceReset.waits]
    rfl
  | portResetInputAssert p => exact .inr (.inr (.inl ⟨p, rfl, h.waitsBut_inputAssert ht⟩))
  | portResetInputRelease p =>
    rw [exec_portResetInputRelease] at ht
    cases ht
    exact .of_waits rfl rfl
  | heldAccessDiscard p a => exact waitsOver_access (by simp [accessRows]) ht
  | dataAccess p a arrivals => exact waitsOver_access (by simp [accessRows]) ht
  | unmappedAccess p a => exact waitsOver_access (by simp [accessRows]) ht
  | commandWrite p a => exact waitsOver_access (by simp [accessRows]) ht
  | paramWrite p a => exact waitsOver_access (by simp [accessRows]) ht
  | bankWrite p a => exact waitsOver_access (by simp [accessRows]) ht
  | eventsWrite p a => exact waitsOver_access (by simp [accessRows]) ht
  | eventEnableWrite p a => exact waitsOver_access (by simp [accessRows]) ht
  | ignoredWrite p a => exact waitsOver_access (by simp [accessRows]) ht
  | controlMisalignedRead p a => exact waitsOver_access (by simp [accessRows]) ht
  | takeCreate p => exact KeepsWaits.waitsOver (.takeCommand (.create s p) ht) _
  | takeOpen p => exact KeepsWaits.waitsOver (.takeCommand (.open s p) ht) _
  | takeClose p => exact KeepsWaits.waitsOver (.takeCommand (.close h.claims p) ht) _
  | takeGrant p => exact KeepsWaits.waitsOver (.takeCommand (.grant s p) ht) _
  | takeRetire p => exact KeepsWaits.waitsOver (.takeCommand (.retire h.claims p) ht) _
  | takeInquire p => exact KeepsWaits.waitsOver (.takeCommand (body := inquireBody) (by rw [inquireBody_state]; exact .of_waits rfl rfl) ht) _
  | takeCompact p => exact KeepsWaits.waitsOver (.takeCommand (.compact s p) ht) _
  | takeHalt p => exact KeepsWaits.waitsOver (.takeCommand (.halt s p) ht) _
  | takeSetPort p => exact KeepsWaits.waitsOver (.takeCommand (.setPort s p) ht) _
  | takeResetPort p => exact KeepsWaits.waitsOver (.takeCommand (h.sound.keepsWaits_resetPort p) ht) _
  | takeUnknown p => exact KeepsWaits.waitsOver (.takeCommand (body := unknownBody) (.of_waits rfl rfl) ht) _
  | scrubStep arrivals => exact .inr (.inr (.inr (.inr ⟨arrivals, .inl rfl, waitsBut_scrubStep ht⟩)))
  | copyStep arrivals => exact .inr (.inr (.inr (.inr ⟨arrivals, .inr (.inl rfl), waitsBut_copyStep ht⟩)))
  | clearStep arrivals => exact .inr (.inr (.inr (.inr ⟨arrivals, .inr (.inr rfl), waitsBut_clearStep ht⟩)))
  | regionScrubEnd =>
    rcases execRegionScrubEnd_cases ht with rfl | ⟨level, order, r, span, cursor, -, -, -, rfl⟩ <;> exact .of_waits rfl rfl
  | bootScrubEnd =>
    rcases execBootScrubEnd_cases ht with rfl | ⟨level, order, k, span, cursor, -, -, -, rfl⟩ <;> exact .of_waits rfl rfl
  | roundTest =>
    rcases execRoundTest_cases ht with rfl | ⟨level, order, c, -, -, -, rfl⟩
    · exact .of_waits rfl rfl
    · obtain ⟨hwaits, hlast⟩ := s.roundTest_waits level order c
      exact .of_waits hwaits hlast
  | copyEnd =>
    rcases execCopyEnd_cases ht with rfl | ⟨level, order, c, m, v, -, -, -, -, -, rfl⟩ <;> exact .of_waits rfl rfl
  | clearEnd =>
    rcases execClearEnd_cases ht with rfl | ⟨level, order, c, m, vacated, dirty, cursor, -, -, -, -, rfl⟩ <;>
      exact .of_waits rfl rfl

/-! ### Waiting for a turn -/

theorem access_of_not_presents {a : Access} (h : s.presents p a = false) (l : List Claim) : s.access p a l = .next s := by
  rw [access, if_neg (by rw [h]; nofun)]

theorem dataAccess_of_waits {a : Access} {arrivals : List Claim} {r : RegionId} {e : Nat} (h : s.checkAccess p a = .ok (r, e))
    (hserves : arbiterServes s.lastServed (.port p) (s.arriveAll (.port p a :: arrivals)).claims = false) :
    s.dataAccess p a arrivals = .next (s.arriveAll (.port p a :: arrivals)) := by
  rw [← serves_arriveAll] at hserves
  simp only [dataAccess, h, hserves, Bool.false_eq_true, if_false]

theorem presents_eq_false_of_waiting {a b : Access} (hw : s.waits.ports.get p = some b) (hne : b ≠ a) : s.presents p a = false :=
  Bool.eq_false_iff.mpr fun h => hne (((s.presents_iff p a).mp h).2 b hw)

section
variable {level : Level} {order : Nat}

theorem execScrubStep_of_running {target : ScrubTarget} {span : Extent} {cursor : Nat}
    (hrun : s.engine.running = some ⟨level, order, .scrub target span cursor⟩) (arrivals : List Claim)
    (hturn : cursor < span.length → (s.arriveAll (.engine :: arrivals)).serves .engine = false) :
    execScrubStep arrivals s = .next (if cursor < span.length then s.arriveAll (.engine :: arrivals) else s) := by
  simp only [execScrubStep, hrun]
  split
  · next hcursor => rw [hturn hcursor]; rfl
  · rfl

theorem execCopyStep_of_running {c : Compaction} {m : Move} {v : MoveRecord}
    (hrun : s.engine.running = some ⟨level, order, .compaction c⟩) (hphase : c.phase = .copy m)
    (hv : (s.region m.subject).move = some v) (arrivals : List Claim)
    (hturn : v.cursor < m.length → (s.arriveAll (.engine :: arrivals)).serves .engine = false) :
    execCopyStep arrivals s = .next (if v.cursor < m.length then s.arriveAll (.engine :: arrivals) else s) := by
  obtain ⟨issuer, halt, point, phase, moved, granules⟩ := c
  cases hphase
  simp only [execCopyStep, hrun, hv]
  split
  · next hcursor => rw [hturn hcursor]; rfl
  · rfl

theorem execClearStep_of_running {c : Compaction} {m : Move} {vacated dirty : Extent} {cursor : Nat}
    (hrun : s.engine.running = some ⟨level, order, .compaction c⟩) (hphase : c.phase = .clear m vacated dirty cursor)
    (arrivals : List Claim) (hturn : cursor < dirty.length → (s.arriveAll (.engine :: arrivals)).serves .engine = false) :
    execClearStep arrivals s = .next (if cursor < dirty.length then s.arriveAll (.engine :: arrivals) else s) := by
  simp only [execClearStep, hrun, hphase]
  split
  · next hcursor => rw [hturn hcursor]; rfl
  · rfl

end

/-! ### Steps not called for -/

theorem execScrubStep_of_not_due {arrivals : List Claim} (h : ∀ level order target span cursor,
    s.engine.running = some ⟨level, order, .scrub target span cursor⟩ → span.length ≤ cursor) : execScrubStep arrivals s = .next s := by
  unfold execScrubStep
  split
  · next hrun => exact if_neg (Nat.not_lt.mpr (h _ _ _ _ _ hrun))
  · rfl

theorem execCopyStep_of_not_due {arrivals : List Claim} (h : ∀ level order c m v,
    s.engine.running = some ⟨level, order, .compaction c⟩ → c.phase = .copy m → (s.region m.subject).move = some v →
    m.length ≤ v.cursor) : execCopyStep arrivals s = .next s := by
  unfold execCopyStep
  split
  · next hrun =>
    split
    · next hv => exact if_neg (Nat.not_lt.mpr (h _ _ _ _ _ hrun rfl hv))
    · rfl
  · rfl

theorem execClearStep_of_not_due {arrivals : List Claim} (h : ∀ level order c m vacated dirty cursor,
    s.engine.running = some ⟨level, order, .compaction c⟩ → c.phase = .clear m vacated dirty cursor → dirty.length ≤ cursor) :
    execClearStep arrivals s = .next s := by
  unfold execClearStep
  split
  · next hrun =>
    split
    · next hphase => exact if_neg (Nat.not_lt.mpr (h _ _ _ _ _ _ _ hrun hphase))
    · rfl
  · rfl

end State

/-- Settles O50: what the arbiter does not take waits, what waits is ended by its own event only, and an engine event that is not
called for changes nothing. -/
theorem stepWaitsItsTurn : Obligations.StepWaitsItsTurn := by
  unfold Obligations.StepWaitsItsTurn
  refine ⟨⟨?access, ?otherAccess, ?engine⟩, ?waits, ?notCalled⟩
  case access =>
    rintro s u p a arrivals r e hpresents ha hcheck rfl hserves
    rw [exec_dataAccess, State.access_dataWindow hpresents ha, State.dataAccess_of_waits hcheck hserves]
  case otherAccess =>
    intro s p a b arrivals hw hne c hc
    obtain ⟨l, hexec, -⟩ := exec_accessRow hc s
    rw [hexec, State.access_of_not_presents (State.presents_eq_false_of_waiting hw hne)]
  case engine =>
    rintro s u arrivals ⟨level, order, work⟩ hrun rfl hserves
    rw [← State.serves_arriveAll] at hserves
    cases work with
    | scrub target span cursor =>
      refine ⟨fun w hw hcursor => ?_, nofun, nofun⟩
      cases hw
      rw [exec_scrubStep, State.execScrubStep_of_running hrun arrivals fun _ => hserves, if_pos hcursor]
    | compaction c =>
      refine ⟨nofun, fun c' hc m hphase v hv hcursor => ?_, fun c' hc m vacated dirty cursor hphase hcursor => ?_⟩
      · cases hc
        rw [exec_copyStep, State.execCopyStep_of_running hrun hphase hv arrivals fun _ => hserves, if_pos hcursor]
      · cases hc
        rw [exec_clearStep, State.execClearStep_of_running hrun hphase arrivals fun _ => hserves, if_pos hcursor]
  case waits =>
    intro s t c h ht
    rcases h.waitsOver ht with ⟨rfl, hnone⟩ | hwaits | ⟨q, rfl, hwaits⟩ | ⟨q, b, arrivals, hc, hpresents, hwaits⟩ | ⟨arrivals, hc, hwaits⟩
    · refine ⟨fun _ _ _ => .inr (.inr (.inl rfl)), fun _ => .inr (.inr (.inl rfl)), fun me _ hme => ?_⟩
      rw [hnone] at hme
      cases hme
    · exact ⟨fun p a ha => .inl (hwaits.ports p a nofun ha), fun hstep => (hwaits.step nofun hstep).imp_right .inl, hwaits.nearer⟩
    · refine ⟨fun p a ha => ?_, fun hstep => (hwaits.step nofun hstep).imp_right .inl, hwaits.nearer⟩
      by_cases hpq : p = q
      · exact .inr (.inl (by rw [hpq]))
      · exact .inl (hwaits.ports p a (by simpa using Ne.symm hpq) ha)
    · refine ⟨fun p a ha => ?_, fun hstep => (hwaits.step nofun hstep).imp_right .inl, hwaits.nearer⟩
      by_cases hpq : p = q
      · subst hpq
        obtain rfl := ((s.presents_iff p b).mp hpresents).2 a ha
        exact .inr (.inr (.inr ⟨arrivals, hc⟩))
      · exact .inl (hwaits.ports p a (by simpa using Ne.symm hpq) ha)
    · exact ⟨fun p a ha => .inl (hwaits.ports p a nofun ha), fun _ => .inr (.inr (.inr ⟨arrivals, hc⟩)), hwaits.nearer⟩
  case notCalled =>
    intro s arrivals
    refine ⟨fun h => ?_, fun h => ?_, fun h => ?_, fun h => ?_, fun h => ?_, fun h => ?_, fun h => ?_, fun h => ?_⟩
    · exact State.execScrubStep_of_not_due fun _ _ _ span cursor hrun => h _ hrun (span, cursor) rfl
    · exact execRegionScrubEnd_of_not_due fun _ _ _ span cursor hrun hend =>
        absurd (h _ hrun (span, cursor) rfl nofun) (Nat.not_lt.mpr hend)
    · exact execBootScrubEnd_of_not_due fun _ _ _ span cursor hrun hend =>
        absurd (h _ hrun (span, cursor) rfl rfl) (Nat.not_lt.mpr hend)
    · exact execRoundTest_of_not_due fun _ _ c hrun hphase => absurd hphase (h _ hrun c rfl)
    · exact State.execCopyStep_of_not_due fun _ _ c m v hrun hphase hv => h _ hrun c rfl m hphase v hv
    · exact execCopyEnd_of_not_due fun _ _ c m v hrun hphase hv hend =>
        absurd (h _ hrun c rfl m hphase v hv) (Nat.not_lt.mpr hend)
    · exact State.execClearStep_of_not_due fun _ _ c m vacated dirty cursor hrun hphase => h _ hrun c rfl m vacated dirty cursor hphase
    · exact execClearEnd_of_not_due fun _ _ c m vacated dirty cursor hrun hphase hend =>
        absurd (h _ hrun c rfl m vacated dirty cursor hphase) (Nat.not_lt.mpr hend)

end Sys2Proof.Machine
end

section
/-! PROOFS. Accesses of the data window: the checks of R91 one by one, and an access that passes them served. -/
namespace Sys2Proof.Machine

namespace State

variable {s : State} {p : PortId} {a : Access} {r : RegionId} {rights : Rights} {origin : Word}

/-! ### The checks in order (R91) -/

theorem checkAccess_of_empty (h : (s.port p).slot (slotIndex (s.port p).bank a.slotNumber) = .empty) :
    s.checkAccess p a = .error .emptySlot := by
  rw [checkAccess, Port.addressedSlot, h]

theorem checkAccess_of_lapsed {cause : LapseCause}
    (h : (s.port p).slot (slotIndex (s.port p).bank a.slotNumber) = .lapsed r cause) : s.checkAccess p a = .error .lapsed := by
  rw [checkAccess, Port.addressedSlot, h]

/-- The three checks of a BOUND slot. -/
theorem checkAccess_of_bound (h : (s.port p).slot (slotIndex (s.port p).bank a.slotNumber) = .bound r rights origin) :
    s.checkAccess p a =
      if a.size = .word ∧ a.addr.toNat % 2 = 1 then .error .misaligned
      else if (s.region r).length * 256 ≤ origin.toNat + a.addr.toNat % 65536 + a.size.bytes - 1 then .error .bound
      else if a.dir = .write ∧ rights = .read then .error .readOnly
      else .ok (r, origin.toNat + a.addr.toNat % 65536) := by
  simp only [checkAccess, Port.addressedSlot, h, Access.windowOffset_toNat, Access.odd_eq, decide_eq_true_eq]

theorem checkAccess_ok (h : (s.port p).slot (slotIndex (s.port p).bank a.slotNumber) = .bound r rights origin)
    (haligned : ¬ (a.size = .word ∧ a.addr.toNat % 2 = 1))
    (hbound : origin.toNat + a.addr.toNat % 65536 + a.size.bytes - 1 < (s.region r).length * 256)
    (hrights : ¬ (a.dir = .write ∧ rights = .read)) :
    s.checkAccess p a = .ok (r, origin.toNat + a.addr.toNat % 65536) := by
  rw [checkAccess_of_bound h, if_neg haligned, if_neg (Nat.not_le_of_lt hbound), if_neg hrights]

theorem exec_dataAccess_of_error (hpresents : s.presents p a = true) (ha : a.addr.toNat < 0x80000) {cause : FaultCause}
    (h : s.checkAccess p a = .error cause) (arrivals : List Claim) :
    Machine.exec (.dataAccess p a arrivals) s =
      .next (s.faulted p a cause (.slot (s.port p).bank a.slotNumber (a.addr.setWidth 16))) := by
  rw [exec_dataAccess, access_dataWindow hpresents ha, dataAccess_of_error h, Port.faultSlot, Access.windowOffset_eq]

end State

/-- Settles O9: each premise picks out the first check that fails. -/
theorem dataAccessFaulted : Obligations.DataAccessFaulted := by
  unfold Obligations.DataAccessFaulted
  rintro s p a arrivals slot place hpresents ha rfl rfl
  refine ⟨fun hslot => ?_, fun r cause hslot => ?_, fun r rights origin hslot => ⟨fun hodd => ?_, fun haligned =>
    ⟨fun hbound => ?_, fun hbound hdir hrights => ?_⟩⟩⟩ <;> refine State.exec_dataAccess_of_error hpresents ha ?_ arrivals
  · exact State.checkAccess_of_empty hslot
  · exact State.checkAccess_of_lapsed hslot
  · rw [State.checkAccess_of_bound hslot, if_pos hodd]
  · rw [State.checkAccess_of_bound hslot, if_neg haligned, if_pos hbound]
  · rw [State.checkAccess_of_bound hslot, if_neg haligned, if_neg (Nat.not_le_of_lt hbound), if_pos ⟨hdir, hrights⟩]

/-! ### A served access -/

namespace State

variable {s : State} {p : PortId} {a : Access} {r : RegionId} {e : Nat} {arrivals : List Claim}

/-- The access is served with the claims that have arrived. -/
theorem Lawful.exec_dataAccess_served (h : s.Lawful) (hpresents : s.presents p a = true) (ha : a.addr.toNat < 0x80000)
    (hcheck : s.checkAccess p a = .ok (r, e))
    (hserves : arbiterServes s.lastServed (.port p) (s.arriveAll (.port p a :: arrivals)).claims = true) :
    Machine.exec (.dataAccess p a arrivals) s = .next ((s.arriveAll (.port p a :: arrivals)).serve p a (s.region r) e) := by
  rw [exec_dataAccess, access_dataWindow hpresents ha, dataAccess_of_ok hcheck hserves, if_pos (h.lastByte_lt hcheck)]

/-- What a served access leaves: the array, the answer and the claimant served last. -/
theorem serve_of_byteRead (hdir : a.dir = .read) (hsize : a.size = .byte) (y : Region) : s.serve p a y e =
    { s.served p (s.port p) (some (.byte (s.byteAt (y.locate e)))) with lastServed := .port p } := by
  rw [serve, hdir, hsize]
  rfl

theorem serve_of_wordRead (hdir : a.dir = .read) (hsize : a.size = .word) (y : Region) : s.serve p a y e =
    { s.served p (s.port p) (some (.word (wordOf (s.byteAt (y.locate e)) (s.byteAt (y.locate (e + 1)))))) with
      lastServed := .port p } := by
  rw [serve, hdir, hsize]
  rfl

theorem serve_of_write (hdir : a.dir = .write) (y : Region) : s.serve p a y e =
    { s.served p (s.port p) none with lastServed := .port p, array := (s.serve p a y e).array } := by
  unfold serve
  rw [hdir]
  cases a.size <;> rfl

/-- The bytes of a served write at their locations, and every other byte as it was. -/
theorem Lawful.serve_write_read (h : s.Lawful) (hdir : a.dir = .write) (hcheck : s.checkAccess p a = .ok (r, e)) (b : Nat) :
    (s.serve p a (s.region r) e).array.read b =
      if a.size = .word ∧ b = s.location r (e + 1) then highByte a.data
      else if b = s.location r e then lowByte a.data else s.byteAt b := by
  have hin := h.lastByte_lt hcheck
  rw [Region.lastByte, Nat.max_lt] at hin
  simp only [serve_array, hdir, location_eq_locate]
  cases hsize : a.size with
  | byte =>
    rw [if_neg (fun hword => nomatch hword.1)]
    exact Memory.read_write _ _ _ _ h.memory
  | word =>
    dsimp only
    rw [Memory.read_write _ _ _ _ (Memory.wf_write _ _ hin.1 h.memory), Memory.read_write _ _ _ _ h.memory]
    simp only [true_and, byteAt]

end State

/-- Settles O7: the bytes are read at the locations of their offsets. -/
theorem dataReadServed : Obligations.DataReadServed := by
  unfold Obligations.DataReadServed
  intro s p a arrivals r rights origin h hpresents ha hdir hslot haligned hbound hserves
  have hcheck := State.checkAccess_ok hslot haligned hbound fun hwrite => by rw [hdir] at hwrite; cases hwrite.1
  rw [h.exec_dataAccess_served hpresents ha hcheck hserves]
  cases hsize : a.size with
  | byte =>
    rw [State.serve_of_byteRead hdir hsize, State.arriveAll_port, State.arriveAll_byteAt]
    simp only [State.regionByte, State.location_eq_locate]
  | word =>
    rw [State.serve_of_wordRead hdir hsize, State.arriveAll_port, State.arriveAll_byteAt, State.arriveAll_byteAt]
    simp only [State.regionByte, State.location_eq_locate]

/-- Settles O8: the array after the write is read at the two locations and elsewhere. -/
theorem dataWriteServed : Obligations.DataWriteServed := by
  unfold Obligations.DataWriteServed
  rintro s p a arrivals r origin e h hpresents ha hdir hslot haligned rfl hbound hserves
  have hcheck := State.checkAccess_ok hslot haligned hbound nofun
  have harray : ((s.arriveAll (.port p a :: arrivals)).serve p a (s.region r) (origin.toNat + a.addr.toNat % 65536)).array =
      (s.serve p a (s.region r) (origin.toNat + a.addr.toNat % 65536)).array := by
    rw [State.serve_array, State.serve_array, State.arriveAll_array]
  have hread := h.serve_write_read hdir hcheck
  refine ⟨(s.serve p a (s.region r) (origin.toNat + a.addr.toNat % 65536)).array, ?_, ?_, fun hword => ?_, fun x hx hx' => ?_⟩
  · rw [h.exec_dataAccess_served hpresents ha hcheck hserves, State.serve_of_write hdir, State.arriveAll_port, harray]
  · rw [hread, if_neg, if_pos rfl]
    rintro ⟨-, hsame⟩
    have := h.arranged.location_injective hsame
    omega
  · rw [hread, if_pos ⟨hword, rfl⟩]
  · rw [hread, if_neg fun ⟨hword, hsame⟩ => hx' hword hsame, if_neg hx]

end Sys2Proof.Machine
end

section
/-! PROOFS. The rows of the Granule Engine when their turn has come: granule steps, the ends of jobs and round tests. -/
namespace Sys2Proof.Machine

namespace State

variable {s : State} {level : Level} {order : Nat} {c : Compaction} {m : Move} {arrivals : List Claim}

/-! ### Granule steps that the arbiter takes (R120, R138, R140) -/

theorem execScrubStep_of_served {target : ScrubTarget} {span : Extent} {cursor : Nat}
    (hrun : s.engine.running = some ⟨level, order, .scrub target span cursor⟩) (hcursor : cursor < span.length)
    (hserves : arbiterServes s.lastServed .engine (s.arriveAll (.engine :: arrivals)).claims = true)
    (hin : span.base + cursor < 2048) :
    execScrubStep arrivals s = .next (s.scrubbed (s.arriveAll (.engine :: arrivals)) level order target span cursor) := by
  rw [← serves_arriveAll] at hserves
  simp only [execScrubStep, hrun, if_pos hcursor, hserves, if_true, Config.granules, if_pos hin]
  rfl

theorem execClearStep_of_served {vacated dirty : Extent} {cursor : Nat}
    (hrun : s.engine.running = some ⟨level, order, .compaction c⟩) (hphase : c.phase = .clear m vacated dirty cursor)
    (hcursor : cursor < dirty.length)
    (hserves : arbiterServes s.lastServed .engine (s.arriveAll (.engine :: arrivals)).claims = true)
    (hin : dirty.base + cursor < 2048) : execClearStep arrivals s =
      .next (s.cleared (s.arriveAll (.engine :: arrivals)) level order c m vacated dirty cursor) := by
  rw [← serves_arriveAll] at hserves
  simp only [execClearStep, hrun, hphase, if_pos hcursor, hserves, if_true, Config.granules, if_pos hin]
  rfl

theorem execCopyStep_of_served {v : MoveRecord} (hrun : s.engine.running = some ⟨level, order, .compaction c⟩)
    (hphase : c.phase = .copy m) (hv : (s.region m.subject).move = some v) (hcursor : v.cursor < m.length)
    (hserves : arbiterServes s.lastServed .engine (s.arriveAll (.engine :: arrivals)).claims = true)
    (hin : m.source + v.cursor < 2048 ∧ m.extent.base + v.cursor < 2048) :
    execCopyStep arrivals s = .next (s.copied (s.arriveAll (.engine :: arrivals)) m v) := by
  obtain ⟨issuer, halt, point, phase, moved, granules⟩ := c
  cases hphase
  rw [← serves_arriveAll] at hserves
  simp only [execCopyStep, hrun, hv, if_pos hcursor, hserves, if_true, Config.granules, if_pos hin]
  rw [copied, arriveAll_eq]
  rfl

end State

/-- Settles O41: the granule lies in the span, which ends in the array. -/
theorem scrubStepClearsGranule : Obligations.ScrubStepClearsGranule := by
  unfold Obligations.ScrubStepClearsGranule
  rintro s arrivals level order target span cursor e u h hrun hcursor rfl hserves rfl
  have hspan := h.scrub_span_le (by rw [Engine.jobs_of_running hrun]; exact List.mem_cons_self)
  rw [Extent.stop] at hspan
  refine ⟨s.array.clearGranule (span.base + cursor), ?_, Memory.read_clearGranule s.array _⟩
  rw [exec_scrubStep, State.execScrubStep_of_served hrun hcursor hserves (by omega)]
  rfl

/-- Settles O48: the dirty part lies in the vacated span. -/
theorem clearStepClearsGranule : Obligations.ClearStepClearsGranule := by
  unfold Obligations.ClearStepClearsGranule
  rintro s arrivals level order c m vacated dirty cursor u h hrun hphase hcursor rfl hserves
  obtain ⟨⟨⟨hstop, -, -⟩, rfl, rfl, -⟩, hends, -⟩ := (h.arranged_compaction hrun hphase).task_of_head
  have hend := hends m.vacated rfl
  simp only [Move.vacated, Move.dirty, Extent.stop] at hend hstop hcursor
  refine ⟨s.array.clearGranule (m.dirty.base + cursor), ?_, Memory.read_clearGranule s.array _⟩
  rw [exec_clearStep, State.execClearStep_of_served hrun hphase hcursor hserves (by simp only [Move.dirty]; omega)]
  rfl

/-- Settles O46: source and destination lie in the subject and the reservation below it. -/
theorem copyStepCopiesGranule : Obligations.CopyStepCopiesGranule := by
  unfold Obligations.CopyStepCopiesGranule
  rintro s arrivals level order c m x v u h hrun hphase rfl hv hcursor rfl hserves
  have harranged := h.arranged_compaction hrun hphase
  obtain ⟨⟨⟨hstop, -, -⟩, huse, hbase, hlength, -⟩, -, -⟩ := harranged.task_of_head
  have hend := harranged.regionEnds m.subject ((RegionState.inUse_iff _).mp huse).1
  rw [Extent.stop] at hstop
  refine ⟨s.array.copyGranule (m.source + v.cursor) (m.extent.base + v.cursor), ?_, Memory.read_copyGranule s.array _ _⟩
  rw [exec_copyStep, State.execCopyStep_of_served hrun hphase hv hcursor hserves (by omega), State.copied, State.modifyRegion,
    State.arriveAll_region]

/-! ### Completions (R124, R125, R139, R141) -/

/-- Settles O42: the turn of R160 is the completion's. -/
theorem scrubJobEnds : Obligations.ScrubJobEnds := by
  unfold Obligations.ScrubJobEnds
  intro s level order target span cursor hrun hend hturn
  rw [← State.completionTurn_eq] at hturn
  refine ⟨?_, ?_⟩
  · rintro r x rfl rfl
    simp only [exec_regionScrubEnd, execRegionScrubEnd, hrun, if_pos (And.intro hend hturn), State.returnExtent_eq]
    rfl
  · rintro k rfl
    simp only [exec_bootScrubEnd, execBootScrubEnd, hrun, if_pos (And.intro hend hturn), State.returnExtent_eq]
    rfl

/-- Settles O47: the old extent and the vacated span end at the same granule. -/
theorem copyEndMovesRegion : Obligations.CopyEndMovesRegion := by
  unfold Obligations.CopyEndMovesRegion
  rintro s level order c m x v h hrun hphase rfl hv hcursor hturn
  rw [← State.completionTurn_eq] at hturn
  obtain ⟨⟨⟨hstop, -, -⟩, -, -, -, w, hw, hdest, -⟩, -, -⟩ := (h.arranged_compaction hrun hphase).task_of_head
  rw [Option.mem_def, hv] at hw
  cases hw
  rw [Extent.stop] at hstop
  refine ⟨m.dirty, ?_, rfl, ?_, ?_⟩
  · simp only [exec_copyEnd, execCopyEnd, hrun, hphase, hv, if_pos (And.intro hcursor.ge hturn), hdest]
    rfl
  · simp only [Move.dirty]
    omega
  · simp only [Move.dirty]
    omega

theorem Compaction.countMove_eq (c : Compaction) (m : Move) : c.countMove m =
    { c with
      phase := .scan, scanPoint := m.extent.base
      regionsMoved := if c.regionsMoved < 128 then c.regionsMoved + 1 else 128
      granulesMoved := if c.granulesMoved + m.length < 2048 then c.granulesMoved + m.length else 2048 } := by
  have hmoved : min (c.regionsMoved + 1) 128 = if c.regionsMoved < 128 then c.regionsMoved + 1 else 128 := by split <;> omega
  have hgranules : min (c.granulesMoved + m.length) 2048 =
      if c.granulesMoved + m.length < 2048 then c.granulesMoved + m.length else 2048 := by split <;> omega
  rw [← hmoved, ← hgranules]
  rfl

/-- Settles O49: the counts stop at the sizes of the table and the array. -/
theorem clearEndFreesSpan : Obligations.ClearEndFreesSpan := by
  unfold Obligations.ClearEndFreesSpan
  intro s level order c m vacated dirty cursor hrun hphase hend hturn
  rw [← State.completionTurn_eq] at hturn
  rw [← Compaction.countMove_eq]
  simp only [exec_clearEnd, execClearEnd, hrun, hphase, if_pos (And.intro hend hturn), State.returnExtent_eq]
  rfl

/-! ### Round tests (R135) -/

theorem execRoundTest_of_due {s : State} {level : Level} {order : Nat} {c : Compaction}
    (hrun : s.engine.running = some ⟨level, order, .compaction c⟩) (hphase : c.phase = .scan)
    (hturn : s.lastTaken = some .completion → ∀ p, (s.port p).unit.state = .idle) :
    execRoundTest s = .next (s.roundTest level order c).noteCompletion := by
  rw [← State.completionTurn_eq] at hturn
  simp only [execRoundTest, hrun, if_pos (And.intro hphase hturn)]

theorem largestFree_eq_foldl (l : List Extent) : largestFree l = (l.map fun f => f.length).foldl max 0 :=
  (List.foldl_eq_foldr ..).symm

/-- The end of the job, with the report written out. -/
theorem State.endCompaction_eq (s : State) (c : Compaction) (ending : Ending) : s.endCompaction c ending =
    { s with
      ports := s.ports.map fun p q =>
        if c.issuer = some p then
          { q with events := { q.events with
              flags := q.events.flags ||| 16#6
              report := { regionsMoved := c.regionsMoved, granulesMoved := c.granulesMoved,
                          largestFree := (s.freeList.map fun f => f.length).foldl max 0, ending := ending } } }
        else q
      engine := { s.engine with running := none }.choose } := by
  obtain ⟨hregions, hdirectory, hfree, hwaits, hengine⟩ := State.Lawful.endCompaction_rest s c ending
  refine State.ext_blocks (fun p => ?_) (fun r => ?_) hdirectory hfree ?_ ?_ hengine (s.endCompaction_array c ending) ?_ hwaits ?_ ?_
  · rw [State.Lawful.endCompaction_port, largestFree_eq_foldl]
    refine Eq.trans ?_ (PerPort.get_map s.ports _ p).symm
    rfl
  · rw [State.region, hregions]
    rfl
  all_goals
    unfold State.endCompaction
    cases c.issuer <;> rfl

theorem State.roundTest_of_ending {s : State} {level : Level} {order : Nat} {c : Compaction} {ending : Ending}
    (h : c.halt = true ∧ ending = .halted ∨ c.halt = false ∧ (∀ f ∈ s.freeList, f.base < c.scanPoint) ∧ ending = .complete) :
    s.roundTest level order c = s.endCompaction c ending := by
  rcases h with ⟨hhalt, rfl⟩ | ⟨hhalt, hbelow, rfl⟩
  · rw [State.roundTest, if_pos hhalt]
  · have hnone : nextFree s.freeList c.scanPoint = none :=
      List.find?_eq_none.mpr fun f hf => by simpa using hbelow f hf
    rw [State.roundTest, if_neg (by rw [hhalt]; nofun), hnone]

/-- Settles O44: the ending is the one the halt request or the free-extent list calls for. -/
theorem roundTestEndsJob : Obligations.RoundTestEndsJob := by
  unfold Obligations.RoundTestEndsJob
  intro s level order c ending hrun hphase hturn hending
  rw [exec_roundTest, execRoundTest_of_due hrun hphase hturn, State.roundTest_of_ending hending, State.endCompaction_eq]
  rfl

theorem nextFree_of_split {l low high : List Extent} {f : Extent} {point : Nat} (hlist : l = low ++ f :: high)
    (hlow : ∀ y ∈ low, y.base < point) (hf : point ≤ f.base) : nextFree l point = some f := by
  rw [hlist]
  exact List.find?_eq_some_iff_append.mpr ⟨decide_eq_true hf, low, high, rfl, fun y hy => by simpa using hlow y hy⟩

/-- At most one region stands at a base. -/
theorem State.Lawful.regionAt_eq {s : State} (h : s.Lawful) {r : RegionId} (hr : (s.region r).state ≠ .vacant) :
    s.regionAt (s.region r).base = some r := by
  cases hat : s.regionAt (s.region r).base with
  | none =>
    have := List.find?_eq_none.mp hat r (List.mem_finRange r)
    simp [hr] at this
  | some i =>
    have hi : (s.region i).state ≠ .vacant ∧ (s.region i).base = (s.region r).base := by simpa using List.find?_some hat
    rw [h.eq_of_base hi.1 hr hi.2]

theorem State.roundTest_of_mayMove {s : State} {level : Level} {order : Nat} {c : Compaction} {f : Extent} {r : RegionId}
    (hhalt : c.halt = false) (hnext : nextFree s.freeList c.scanPoint = some f) (hat : s.regionAt f.stop = some r)
    (hmay : (s.region r).mayMove = true) : s.roundTest level order c = s.startMove level order c f r := by
  simp only [State.roundTest, hhalt, Bool.false_eq_true, if_false, hnext, hat, if_pos hmay]

theorem State.roundTest_of_passBy {s : State} {level : Level} {order : Nat} {c : Compaction} {f : Extent}
    (hhalt : c.halt = false) (hnext : nextFree s.freeList c.scanPoint = some f)
    (hnot : ∀ r, s.regionAt f.stop = some r → (s.region r).mayMove = false) :
    s.roundTest level order c = s.passBy level order c f := by
  cases hat : s.regionAt f.stop with
  | none => simp only [State.roundTest, hhalt, Bool.false_eq_true, if_false, hnext, hat]
  | some r => simp only [State.roundTest, hhalt, Bool.false_eq_true, if_false, hnext, hat, hnot r hat]

/-- Settles O45: the region directly above the extent is the one that stands at its end. -/
theorem roundTestMovesOrPasses : Obligations.RoundTestMovesOrPasses := by
  unfold Obligations.RoundTestMovesOrPasses
  intro s level order c low high f h hrun hphase hturn hhalt hlist hlow hf
  have hnext := nextFree_of_split hlist hlow hf
  rw [exec_roundTest, execRoundTest_of_due hrun hphase hturn]
  refine ⟨?_, fun hnone => ?_⟩
  · rintro r x rfl hlive hbase hfixed hmove
    have hat := h.regionAt_eq (r := r) (by rw [hlive]; nofun)
    rw [hbase] at hat
    rw [State.roundTest_of_mayMove hhalt hnext hat (decide_eq_true ⟨hlive, hfixed, hmove⟩), State.startMove, h.filter_ne hlist]
    rfl
  · have hnot : ∀ r, s.regionAt f.stop = some r → (s.region r).mayMove = false := fun r hat => by
      have hbase : (s.region r).state ≠ .vacant ∧ (s.region r).base = f.stop := by simpa using List.find?_some hat
      refine decide_eq_false fun ⟨hlive, hfixed, hmove⟩ => ?_
      rcases hnone r hlive hbase.2 with hyes | hyes
      · rw [hyes] at hfixed
        cases hfixed
      · exact hyes hmove
    rw [State.roundTest_of_passBy hhalt hnext hnot]
    rfl

end Sys2Proof.Machine
end

section
/-! PROOFS. Refusals in the order of a command's checks, and the command CREATE. -/
namespace Sys2Proof.Machine

/-! ### Checks in order -/

@[simp] theorem firstFailing_nil : firstFailing [] = none := rfl

@[simp] theorem firstFailing_cons (b : Bool) (code : Word) (checks : List (Bool × Word)) :
    firstFailing ((b, code) :: checks) = if b = true then some code else firstFailing checks := by
  unfold firstFailing
  cases b <;> rfl

/-- A take whose body refuses answers the code, with what the body has changed. -/
theorem State.take_of_refuse {s u : State} {p : PortId} {w : Word} {code : Word → Bool} {body : State → PortId → Answer} {c : Code}
    (htaking : s.taking p w) (hcode : code w = true) (h : body s p = refuse u c) :
    s.takeCommand p code body = .next (u.answered p [c.word]) := by
  rw [State.takeCommand_of_taking htaking hcode, h]
  rfl

/-- A take whose body accepts answers OK and its values. -/
theorem State.take_of_accept {s u : State} {p : PortId} {w : Word} {code : Word → Bool} {body : State → PortId → Answer}
    {values : List Word} (htaking : s.taking p w) (hcode : code w = true) (h : body s p = accept u values) :
    s.takeCommand p code body = .next (u.answered p (1 :: values)) := by
  rw [State.takeCommand_of_taking htaking hcode, h]
  rfl

/-! ### CREATE: the target slot (R15, steps 1 and 2) -/

theorem exec_takeCreate (s : State) (p : PortId) :
    exec (.takeCreate p) s = s.takeCommand p (fun w => w = 1) createBody := rfl

theorem createTarget_eq (w : Word) : createTarget w = slotNamed (w.toNat / 256) (w.toNat % 16) := by
  rw [createTarget, highByte_toNat]

theorem createBinds_iff (w : Word) : createBinds w = true ↔ w.toNat % 16 < 8 := decide_eq_true_iff

theorem slotNamed_eq_none_of_slot {bank slot : Nat} (h : 8 ≤ slot) : slotNamed bank slot = none := by
  unfold slotNamed
  split
  · exact dif_neg (Nat.not_lt.mpr h)
  · rfl

theorem slotNamed_eq_none_of_bank {bank slot : Nat} (h : 4 ≤ bank) : slotNamed bank slot = none :=
  dif_neg (Nat.not_lt.mpr h)

theorem slotNamed_of_lt {bank slot : Nat} (hbank : bank < 4) (hslot : slot < 8) :
    slotNamed bank slot = some (slotIndex ⟨bank, hbank⟩ ⟨slot, hslot⟩) :=
  slotNamed_eq_some ⟨bank, hbank⟩ ⟨slot, hslot⟩

section
variable {s : State} {p : PortId}

theorem createBody_of_bad_param (h : (s.param p 0).toNat = 0 ∨ 256 < (s.param p 0).toNat ∨
    ((s.param p 3).toNat % 16 < 8 ∧ 4 ≤ (s.param p 3).toNat / 256)) : createBody s p = refuse s .badParam := by
  unfold createBody
  dsimp only
  by_cases hlength : (s.param p 0).toNat = 0 ∨ Config.maxLength < (s.param p 0).toNat
  · rw [if_pos hlength]
  · obtain ⟨hfield, hbank⟩ := h.resolve_left (fun hzero => hlength (.inl hzero)) |>.resolve_left fun hlong => hlength (.inr hlong)
    rw [if_neg hlength, if_pos ((createBinds_iff _).mpr hfield), createTarget_eq, slotNamed_eq_none_of_bank hbank]

theorem createBody_of_slot_busy (hpos : 1 ≤ (s.param p 0).toNat) (hle : (s.param p 0).toNat ≤ 256) {i : SlotIndex}
    (hi : slotNamed ((s.param p 3).toNat / 256) ((s.param p 3).toNat % 16) = some i) (hbound : ((s.port p).slot i).isBound = true) :
    createBody s p = refuse s .slotBusy := by
  have hfield : (s.param p 3).toNat % 16 < 8 := by
    by_contra hnot
    rw [slotNamed_eq_none_of_slot (Nat.le_of_not_lt hnot)] at hi
    cases hi
  unfold createBody
  dsimp only
  rw [if_neg (show ¬ (_ ∨ 256 < _) by omega), if_pos ((createBinds_iff _).mpr hfield), createTarget_eq, hi]
  exact if_pos hbound

/-- Past its first two checks a CREATE goes on with the slot it names, or with none. -/
theorem createBody_of_target (hpos : 1 ≤ (s.param p 0).toNat) (hle : (s.param p 0).toNat ≤ 256)
    (hbank : (s.param p 3).toNat % 16 < 8 → (s.param p 3).toNat / 256 < 4)
    (hslot : ∀ i, slotNamed ((s.param p 3).toNat / 256) ((s.param p 3).toNat % 16) = some i →
      ((s.port p).slot i).isBound = false) :
    createBody s p = createPlaced s p (slotNamed ((s.param p 3).toNat / 256) ((s.param p 3).toNat % 16)) := by
  unfold createBody
  dsimp only
  rw [if_neg (show ¬ (_ ∨ 256 < _) by omega), createTarget_eq]
  by_cases hfield : (s.param p 3).toNat % 16 < 8
  · have hnamed := slotNamed_of_lt (hbank hfield) hfield
    rw [if_pos ((createBinds_iff _).mpr hfield), hnamed]
    exact if_neg (by rw [hslot _ hnamed]; nofun)
  · rw [if_neg fun hbinds => hfield ((createBinds_iff _).mp hbinds), slotNamed_eq_none_of_slot (Nat.le_of_not_lt hfield)]

/-! ### CREATE: quota, name, record and space (R15, steps 3 to 8) -/

theorem State.lookupName_isSome_iff (s : State) (name : Word) : (s.lookupName name).isSome = true ↔ ∃ e ∈ s.directory, e.name = name := by
  simp [State.lookupName]

theorem State.lowestVacant_eq_none_iff (s : State) : s.lowestVacant = none ↔ ∀ r : RegionId, (s.region r).state ≠ .vacant := by
  simp [State.lowestVacant, List.find?_eq_none]

theorem State.lowestVacant_eq_some_iff (s : State) (r : RegionId) : s.lowestVacant = some r ↔
    (s.region r).state = .vacant ∧ ∀ i : RegionId, i < r → (s.region i).state ≠ .vacant := by
  rw [State.lowestVacant, find?_eq_some_iff_idxOf (List.mem_finRange r)]
  simp only [decide_eq_true_eq, decide_eq_false_iff_not, List.idxOf_finRange, Fin.val_fin_lt]

/-- What a CREATE past its first two checks answers: the checks left in their order. -/
theorem createPlaced_eq (target : Option SlotIndex) : createPlaced s p target =
    if (s.port p).quota < (s.port p).holdings + (s.param p 0).toNat then refuse s .quota
    else if s.param p 1 ≠ 0 ∧ ∃ e ∈ s.directory, e.name = s.param p 1 then refuse s .nameTaken
    else if s.param p 1 ≠ 0 ∧ 64 ≤ s.directory.length then refuse s .nameFull
    else match s.lowestVacant with
      | none => refuse s .noRecord
      | some r =>
        if (s.freeList.map fun y => y.length).sum < (s.param p 0).toNat then refuse (s.watchFor p) .noSpace
        else match firstFit s.freeList (s.param p 0).toNat with
          | none => refuse (s.watchFor p) .fragmented
          | some (base, rest) => accept (s.createRegion p r base rest target)
              [toWord r.val, toWord ((s.region r).generation + 1).toNat, toWord base] := by
  unfold createPlaced
  simp only [State.lookupName_isSome_iff] <;> rfl

theorem State.watchFor_eq (s : State) (p : PortId) : s.watchFor p =
    if (s.param p 2).getLsbD 1 = true then s.setPort p { s.port p with watch := some (s.param p 0).toNat } else s := rfl

theorem State.exec_takeCreate_refused {code : Word} {c : Code} (htaking : s.taking p 1) (hword : c.word = code)
    (hcode : code ≠ 5 ∧ code ≠ 6) (h : createBody s p = refuse s c) :
    exec (.takeCreate p) s = .next
      ((if (code = 5 ∨ code = 6) ∧ (s.param p 2).getLsbD 1 = true then
        s.setPort p { s.port p with watch := some (s.param p 0).toNat } else s).answered p [code]) := by
  rw [exec_takeCreate, State.take_of_refuse htaking (by decide) h, hword, if_neg fun hspace => hspace.1.elim hcode.1 hcode.2]

theorem State.exec_takeCreate_no_place {code : Word} {c : Code} (htaking : s.taking p 1) (hword : c.word = code)
    (hcode : code = 5 ∨ code = 6) (h : createBody s p = refuse (s.watchFor p) c) :
    exec (.takeCreate p) s = .next
      ((if (code = 5 ∨ code = 6) ∧ (s.param p 2).getLsbD 1 = true then
        s.setPort p { s.port p with watch := some (s.param p 0).toNat } else s).answered p [code]) := by
  rw [exec_takeCreate, State.take_of_refuse htaking (by decide) h, hword, State.watchFor_eq]
  simp only [hcode, true_and]

end

/-- Settles O25: the checks stand in the body in the order of the list. -/
theorem createRefused : Obligations.CreateRefused := by
  unfold Obligations.CreateRefused
  rintro s p q n name field bank code htaking rfl rfl rfl rfl rfl hfail
  simp only [firstFailing_cons, firstFailing_nil, decide_eq_true_eq] at hfail
  split at hfail
  · next hparam =>
    cases hfail
    exact State.exec_takeCreate_refused htaking (c := .badParam) rfl (by decide) (createBody_of_bad_param hparam)
  next hparam =>
  simp only [not_or, not_and, Nat.not_le] at hparam
  obtain ⟨hzero, hle, hbank⟩ := hparam
  have hpos : 1 ≤ (s.param p 0).toNat := Nat.one_le_iff_ne_zero.mpr hzero
  have hle : (s.param p 0).toNat ≤ 256 := Nat.le_of_not_lt hle
  split at hfail
  · next hbusy =>
    cases hfail
    obtain ⟨i, hi, hbound⟩ := (Option.any_eq_true ..).mp hbusy
    exact State.exec_takeCreate_refused htaking (c := .slotBusy) rfl (by decide) (createBody_of_slot_busy hpos hle hi hbound)
  next hfree =>
  have hbody := createBody_of_target hpos hle hbank fun i hi => by
    rw [hi] at hfree
    simpa using hfree
  rw [createPlaced_eq] at hbody
  split at hfail
  · next hquota =>
    cases hfail
    exact State.exec_takeCreate_refused htaking (c := .quota) rfl (by decide) (hbody.trans (if_pos hquota))
  next hquota =>
  rw [if_neg hquota] at hbody
  split at hfail
  · next htaken =>
    cases hfail
    exact State.exec_takeCreate_refused htaking (c := .nameTaken) rfl (by decide) (hbody.trans (if_pos htaken))
  next htaken =>
  rw [if_neg htaken] at hbody
  split at hfail
  · next hfull =>
    cases hfail
    exact State.exec_takeCreate_refused htaking (c := .nameFull) rfl (by decide) (hbody.trans (if_pos hfull))
  next hfull =>
  rw [if_neg hfull] at hbody
  split at hfail
  · next hrecord =>
    cases hfail
    rw [(s.lowestVacant_eq_none_iff).mpr hrecord] at hbody
    exact State.exec_takeCreate_refused htaking (c := .noRecord) rfl (by decide) hbody
  next hrecord =>
  obtain ⟨r, hr⟩ := Option.ne_none_iff_exists'.mp fun hnone => hrecord ((s.lowestVacant_eq_none_iff).mp hnone)
  rw [hr] at hbody
  dsimp only at hbody
  split at hfail
  · next hspace =>
    cases hfail
    exact State.exec_takeCreate_no_place htaking (c := .noSpace) rfl (by decide) (hbody.trans (if_pos hspace))
  next hspace =>
  rw [if_neg hspace] at hbody
  split at hfail
  · next hfit =>
    cases hfail
    rw [(firstFit_eq_none_iff ..).mpr hfit] at hbody
    exact State.exec_takeCreate_no_place htaking (c := .fragmented) rfl (by decide) hbody
  · cases hfail

/-- The region, the slot and the entry of a CREATE that passed its checks, written out (R16). -/
theorem State.createRegion_eq {s : State} {p : PortId} {bank field : Nat} (hbank : field < 8 → bank < 4) (r : RegionId) (base : Nat)
    (rest : List Extent) (hdirectory : s.DirectoryLaw) (hname : s.param p 1 ≠ 0 → ∀ e ∈ s.directory, e.name ≠ s.param p 1) :
    s.createRegion p r base rest (slotNamed bank field) =
      { (s.setPort p { s.port p with
            holdings := (s.port p).holdings + (s.param p 0).toNat
            slots := match slotNamed bank field with
              | some i => (s.port p).slots.set i.val (.bound r .readWrite 0)
              | none => (s.port p).slots }).setRegion r
          { state := .live, owner := p, base := base, length := (s.param p 0).toNat,
            generation := (s.region r).generation + 1, name := if s.param p 1 = 0 then none else some (s.param p 1),
            fixed := (s.param p 2).getLsbD 0, grants := ⟨none, none, none, none⟩,
            bindings := if field < 8 then 1 else 0, move := none } with
        freeList := rest
        directory := if s.param p 1 = 0 then s.directory
          else (s.directory.filter fun e => e.name.toNat < (s.param p 1).toNat) ++ ⟨s.param p 1, r⟩ ::
            s.directory.filter fun e => (s.param p 1).toNat < e.name.toNat } := by
  have hbind : (if (slotNamed bank field).isSome then 1 else 0) = if field < 8 then 1 else 0 := by
    by_cases hfield : field < 8
    · rw [slotNamed_of_lt (hbank hfield) hfield, if_pos hfield]
      rfl
    · rw [slotNamed_eq_none_of_slot (Nat.le_of_not_lt hfield), if_neg hfield]
      rfl
  have hentry : (match nameField (s.param p 1) with
      | some n => addName ⟨n, r⟩ s.directory
      | none => s.directory) = if s.param p 1 = 0 then s.directory
          else (s.directory.filter fun e => e.name.toNat < (s.param p 1).toNat) ++ ⟨s.param p 1, r⟩ ::
            s.directory.filter fun e => (s.param p 1).toNat < e.name.toNat := by
    unfold nameField
    split
    · next hsome =>
      split at hsome
      · cases hsome
      · next hne =>
        cases hsome
        rw [if_neg hne]
        exact addName_eq hdirectory.1 (hname hne)
    · next hnone =>
      split at hnone
      · next hzero => rw [if_pos hzero]
      · cases hnone
  rw [← hbind, ← hentry]
  cases slotNamed bank field <;> rfl

/-- Settles O24: the lowest extent that is long enough is the one first fit takes. -/
theorem createAccepted : Obligations.CreateAccepted := by
  unfold Obligations.CreateAccepted
  rintro s p q n name field bank r x low high f hdirectory htaking rfl rfl rfl rfl rfl hpos hle hbank hslot hquota hname rfl hvacant
    hlowest hlist hlow hf
  have hfit : firstFit s.freeList (s.param p 0).toNat = some (f.base, low ++ (if f.length = (s.param p 0).toNat then []
      else [⟨f.base + (s.param p 0).toNat, f.length - (s.param p 0).toNat⟩]) ++ high) := by
    rw [hlist, firstFit_append hlow hf]
  have hspace : ¬ (s.freeList.map fun y => y.length).sum < (s.param p 0).toNat := by
    rw [hlist, List.map_append, List.sum_append, List.map_cons, List.sum_cons]
    omega
  have hbody : createBody s p = accept (s.createRegion p r f.base (low ++ (if f.length = (s.param p 0).toNat then []
      else [⟨f.base + (s.param p 0).toNat, f.length - (s.param p 0).toNat⟩]) ++ high) (slotNamed ((s.param p 3).toNat / 256) ((s.param p 3).toNat % 16)))
      [toWord r.val, toWord ((s.region r).generation + 1).toNat, toWord f.base] := by
    rw [createBody_of_target hpos hle hbank hslot, createPlaced_eq, if_neg (Nat.not_lt.mpr hquota),
      if_neg fun ⟨hne, e, he, heq⟩ => (hname hne).1 e he heq, if_neg fun ⟨hne, hfull⟩ => Nat.not_lt.mpr hfull (hname hne).2,
      (s.lowestVacant_eq_some_iff r).mpr ⟨hvacant, hlowest⟩]
    dsimp only
    rw [if_neg hspace, hfit]
  rw [exec_takeCreate, State.take_of_accept htaking (by decide) hbody,
    State.createRegion_eq hbank r f.base _ hdirectory fun hne => (hname hne).1]
  rfl

end Sys2Proof.Machine
end

section
/-! PROOFS. The commands OPEN, CLOSE and GRANT: each check that can refuse them, and what they change when none does. -/
namespace Sys2Proof.Machine

section
variable {s : State} {p : PortId}

/-! ### OPEN (R61, R62) -/

theorem exec_takeOpen (s : State) (p : PortId) : exec (.takeOpen p) s = s.takeCommand p (fun w => w = 2) openBody := rfl

theorem rightsWanted_eq_some_iff (w : Word) (rights : Rights) :
    rightsWanted w = some rights ↔ w = 1 ∧ rights = .read ∨ w = 2 ∧ rights = .readWrite := by
  unfold rightsWanted
  by_cases h1 : w = 1
  · subst h1
    simp [eq_comm]
  · by_cases h2 : w = 2
    · subst h2
      simp [eq_comm]
    · simp only [h1, h2, if_false, false_and, or_self, reduceCtorEq]

theorem rightsWanted_eq_none_iff (w : Word) : rightsWanted w = none ↔ w ≠ 1 ∧ w ≠ 2 := by
  unfold rightsWanted
  by_cases h1 : w = 1
  · simp [h1]
  · by_cases h2 : w = 2
    · simp [h2]
    · simp only [h1, h2, if_false, ne_eq, not_false_eq_true, and_self]

theorem rightsCover_bindable_iff (x : Region) (p : PortId) (rights : Rights) : rightsCover (x.bindable p) rights = true ↔
    x.owner = p ∨ x.grants.get p = some .readWrite ∨ (x.grants.get p = some .read ∧ rights = .read) := by
  unfold Region.bindable
  by_cases howner : x.owner = p
  · rw [if_pos howner]
    cases rights <;> simp [howner, rightsCover, rightsCode]
  · rw [if_neg howner]
    cases x.grants.get p with
    | none => cases rights <;> simp [howner, rightsCover, rightsCode]
    | some g => cases g <;> cases rights <;> simp [howner, rightsCover, rightsCode]

theorem openBody_of_bad_param (h : targetSlot (s.param p 4) = none ∨ rightsWanted (s.param p 3) = none) :
    openBody s p = refuse s .badParam := by
  unfold openBody
  rcases h with h | h
  · rw [h]
  · rw [h]
    cases targetSlot (s.param p 4) <;> rfl

section
variable {i : SlotIndex} {rights : Rights} (htarget : targetSlot (s.param p 4) = some i)
  (hrights : rightsWanted (s.param p 3) = some rights)
include htarget hrights

theorem openBody_of_slot_busy (h : ((s.port p).slot i).isBound = true) : openBody s p = refuse s .slotBusy := by
  simp only [openBody, htarget, hrights, if_pos h]

theorem openBody_of_error (hfree : ((s.port p).slot i).isBound = false) {c : Code} (h : s.resolveParams p = .error c) :
    openBody s p = refuse s c := by
  simp only [openBody, htarget, hrights, hfree, Bool.false_eq_true, if_false, h]

/-- The checks of OPEN on the region it names, in order. -/
theorem openBody_of_region (hfree : ((s.port p).slot i).isBound = false) {r : RegionId} (h : s.resolveParams p = .ok r) :
    openBody s p =
      if (s.region r).state ≠ .live then refuse s .notLive
      else if ¬ rightsCover ((s.region r).bindable p) rights = true then refuse s .noRight
      else if (s.region r).length * 256 ≤ (s.param p 5).toNat then refuse s .badParam
      else accept (s.bindSlot p i r rights (s.param p 5))
        [toWord r.val, toWord (s.region r).generation.toNat, toWord (s.region r).length] := by
  simp only [openBody, htarget, hrights, hfree, Bool.false_eq_true, if_false, h]

end

theorem toWord_byte (b : Byte) : toWord b.toNat = b.setWidth 16 := BitVec.ofNat_toNat ..

end

/-- Settles O26: with every check passed the body binds the slot. -/
theorem openAccepted : Obligations.OpenAccepted := by
  unfold Obligations.OpenAccepted
  rintro s p q bank slot rights r x htaking rfl htarget hrights hfree hresolve rfl hlive hright hlength
  have hbody := openBody_of_region (targetSlot_eq htarget) ((rightsWanted_eq_some_iff ..).mpr hrights) hfree hresolve
  rw [if_neg (not_not.mpr hlive), if_neg (not_not.mpr ((rightsCover_bindable_iff ..).mpr hright)), if_neg (Nat.not_le.mpr hlength),
    toWord_byte] at hbody
  rw [exec_takeOpen, State.take_of_accept htaking (by decide) hbody]
  rfl

/-- A command whose body refuses with nothing changed. -/
theorem State.exec_refused {s : State} {p : PortId} {w : Word} {instr : Instr} {code : Word → Bool} {body : State → PortId → Answer}
    (hexec : exec instr s = s.takeCommand p code body) (htaking : s.taking p w) (hcode : code w = true) (c : Code)
    (h : body s p = refuse s c) : exec instr s = .next (s.answered p [c.word]) := by
  rw [hexec, State.take_of_refuse htaking hcode h]

/-- Settles O27: the slot and the rights first, then the reference, then the region. -/
theorem openRefused : Obligations.OpenRefused := by
  unfold Obligations.OpenRefused
  intro s p code htaking
  have refused := fun c => State.exec_refused (exec_takeOpen s p) htaking (by decide) c
  refine ⟨fun hfail => ?_, ?_⟩
  · simp only [firstFailing_cons, firstFailing_nil, decide_eq_true_eq] at hfail
    split at hfail
    · next hparam =>
      cases hfail
      refine refused .badParam (openBody_of_bad_param ?_)
      rw [targetSlot_eq_none_iff, rightsWanted_eq_none_iff]
      exact or_assoc.mpr hparam
    next hparam =>
    have htarget : targetSlot (s.param p 4) ≠ none := fun hnone => hparam (or_assoc.mp (.inl ((targetSlot_eq_none_iff _).mp hnone)))
    have hrights : rightsWanted (s.param p 3) ≠ none := fun hnone => hparam (.inr (.inr ((rightsWanted_eq_none_iff _).mp hnone)))
    obtain ⟨i, htarget⟩ := Option.ne_none_iff_exists'.mp htarget
    obtain ⟨rights, hrights⟩ := Option.ne_none_iff_exists'.mp hrights
    rw [htarget, Option.any_some] at hfail
    split at hfail
    · next hbusy =>
      cases hfail
      exact refused .slotBusy (openBody_of_slot_busy htarget hrights hbusy)
    next hfree =>
    have hfree : ((s.port p).slot i).isBound = false := by simpa using hfree
    split at hfail
    · next herror =>
      cases hfail
      exact refused .notFound (openBody_of_error htarget hrights hfree herror)
    split at hfail
    · next herror =>
      cases hfail
      exact refused .stale (openBody_of_error htarget hrights hfree herror)
    · cases hfail
  · rintro i r x htarget hparam hfree hresolve rfl hfail
    obtain ⟨rights, hrights⟩ : ∃ rights, rightsWanted (s.param p 3) = some rights :=
      Option.ne_none_iff_exists'.mp fun hnone =>
        hparam.elim ((rightsWanted_eq_none_iff _).mp hnone).1 ((rightsWanted_eq_none_iff _).mp hnone).2
    have hbody := openBody_of_region htarget hrights hfree hresolve
    simp only [firstFailing_cons, firstFailing_nil, decide_eq_true_eq] at hfail
    split at hfail
    · next hlive =>
      cases hfail
      exact refused .notLive (hbody.trans (if_pos hlive))
    next hlive =>
    rw [if_neg hlive] at hbody
    have hcover : rightsCover ((s.region r).bindable p) rights = true ↔ ¬ ((s.region r).owner ≠ p ∧
        ((s.region r).grants.get p = none ∨ ((s.region r).grants.get p = some .read ∧ s.param p 3 = 2))) := by
      rw [rightsCover_bindable_iff]
      rcases (rightsWanted_eq_some_iff ..).mp hrights with ⟨hone, rfl⟩ | ⟨htwo, rfl⟩
      · rw [hone]
        rcases (s.region r).grants.get p with _ | _ | _ <;> simp
      · rw [htwo]
        rcases (s.region r).grants.get p with _ | _ | _ <;> simp
    split at hfail
    · next hright =>
      cases hfail
      exact refused .noRight (hbody.trans (if_pos fun hcovers => hcover.mp hcovers hright))
    next hright =>
    rw [if_neg (not_not.mpr (hcover.mpr hright))] at hbody
    split at hfail
    · next hlength =>
      cases hfail
      exact refused .badParam (hbody.trans (if_pos hlength))
    · cases hfail

/-! ### CLOSE (R64) -/

section
variable {s : State} {p : PortId} {i : SlotIndex} {r : RegionId} {rights : Rights} {origin : Word}

theorem closeBody_of_no_target (h : targetSlot (s.param p 0) = none) : closeBody s p = refuse s .badParam := by
  simp only [closeBody, h]

theorem closeBody_of_empty (h : targetSlot (s.param p 0) = some i) (hslot : (s.port p).slot i = .empty) :
    closeBody s p = refuse s .slotEmpty := by
  simp only [closeBody, h, hslot]

theorem closeBody_of_bound (h : targetSlot (s.param p 0) = some i) (hslot : (s.port p).slot i = .bound r rights origin) :
    closeBody s p = accept (s.closeBound p i r)
      [1, toWord r.val, toWord ((s.closeBound p i r).region r).state.code, 0] := by
  simp only [closeBody, h, hslot]
  rfl

/-- Where bindings are left, or the region is LIVE, the slot and the count change and nothing else. -/
theorem State.closeBound_of_kept (h : (s.region r).state = .live ∨ 1 < (s.region r).bindings) :
    s.closeBound p i r = s.unbindSlot p i r := by
  rw [State.closeBound_eq, if_neg]
  rw [State.unbindSlot_region, if_pos rfl]
  rintro ⟨hdraining, hzero⟩
  dsimp only at hdraining hzero
  rcases h with hlive | hmore
  · rw [hlive] at hdraining
    cases hdraining
  · omega

theorem State.closeBound_of_drained (hdraining : (s.region r).state = .draining) (hlast : (s.region r).bindings = 1) :
    s.closeBound p i r = ((s.unbindSlot p i r).enterScrubbing r (s.port p).level).withEngine Engine.choose := by
  rw [State.closeBound_eq, if_pos]
  rw [State.unbindSlot_region, if_pos rfl]
  exact ⟨hdraining, by dsimp only; omega⟩

end

/-- Settles O28: the record after the unbinding decides whether the drain ends. -/
theorem closeRefusedOrUnbinds : Obligations.CloseRefusedOrUnbinds := by
  unfold Obligations.CloseRefusedOrUnbinds
  refine ⟨fun s p htaking => ⟨fun hparam => ?_, fun bank slot hparam hempty => ?_⟩, ?_⟩
  · exact State.exec_refused (exec_takeClose s p) htaking (by decide) .badParam
      (closeBody_of_no_target ((targetSlot_eq_none_iff _).mpr hparam))
  · exact State.exec_refused (exec_takeClose s p) htaking (by decide) .slotEmpty (closeBody_of_empty (targetSlot_eq hparam) hempty)
  · rintro s p q i r x rights origin h htaking rfl htarget hslot rfl
    have hexec := State.take_of_accept (code := fun w => w = 3) htaking (by decide) (closeBody_of_bound htarget hslot)
    rw [← exec_takeClose] at hexec
    refine ⟨fun hkept => ?_, fun hdraining hlast => ?_⟩
    · have hstate : toWord ((s.unbindSlot p i r).region r).state.code = if (s.region r).state = .live then 1 else 2 := by
        rw [State.unbindSlot_region, if_pos rfl]
        dsimp only
        have huse := (RegionState.inUse_iff _).mp (h.inUse_of_bound hslot)
        cases hs : (s.region r).state with
        | live => rfl
        | draining => rfl
        | vacant => exact absurd hs huse.1
        | scrubbing => exact absurd hs huse.2
      rw [hexec, State.closeBound_of_kept hkept, hstate]
      rfl
    · have hunbound : (s.unbindSlot p i r).region r = { s.region r with bindings := 0 } := by
        rw [State.unbindSlot_region, if_pos rfl, hlast]
      have hname : (s.region r).name = none := (h.records r).2.2.1 (by rw [hdraining]; nofun)
      have hnext : (s.unbindSlot p i r).granuleNext = s.granuleNext := State.granuleNext_congr rfl fun k => by
        rw [State.unbindSlot_region]
        split <;> rfl
      rw [State.closeBound_of_drained hdraining hlast] at hexec
      refine ⟨((s.unbindSlot p i r).enterScrubbing r (s.port p).level).withEngine Engine.choose, ?_, fun y => ?_, fun k => ?_,
        ?_, ?_, rfl, rfl, rfl,
        State.stepSettled_scrubbing (u := s.unbindSlot p i r) h.claims rfl hnext r (s.port p).level, rfl, rfl⟩
      · rw [hexec, State.withEngine_region, State.enterScrubbing_region, if_pos rfl]
        rfl
      · rw [State.withEngine_port, State.enterScrubbing_port, hunbound, State.unbindSlot_port, State.port_setPort]
        by_cases hyp : y = p
        · subst hyp
          rw [if_pos rfl]
          by_cases howner : y = (s.region r).owner
          · rw [if_pos howner, if_pos howner, if_pos rfl]
            rfl
          · rw [if_neg howner, if_neg howner, if_pos rfl]
            rfl
        · rw [if_neg hyp]
          by_cases howner : y = (s.region r).owner
          · rw [if_pos howner, if_pos howner, if_neg hyp]
          · rw [if_neg howner, if_neg howner, if_neg hyp]
      · rw [State.withEngine_region, State.enterScrubbing_region, hunbound, State.unbindSlot_region]
        split
        · exact Region.toScrubbing_eq_gone _ rfl
        · rfl
      · show dropName s.directory ((s.unbindSlot p i r).region r).name = s.directory
        rw [hunbound]
        dsimp only
        rw [hname]
        rfl
      · rw [State.withEngine_engine, State.enterScrubbing_engine, hunbound]
        rfl

/-! ### GRANT (R75 to R79) -/

section
variable {s : State} {p g : PortId} {r : RegionId} {asked : Option Rights}

theorem exec_takeGrant (s : State) (p : PortId) : exec (.takeGrant p) s = s.takeCommand p (fun w => w = 4) grantBody := rfl

theorem rightsGiven_eq_some_iff (w : Word) (asked : Option Rights) : rightsGiven w = some asked ↔ w.toNat = rightsCode asked := by
  unfold rightsGiven
  have hvalue : ∀ n < 3, w = BitVec.ofNat 16 n ↔ w.toNat = n := fun n hn => by
    rw [← BitVec.toNat_inj, BitVec.toNat_ofNat, Nat.mod_eq_of_lt (by omega)]
  have h0 : w = 0 ↔ w.toNat = 0 := hvalue 0 (by decide)
  have h1 : w = 1 ↔ w.toNat = 1 := hvalue 1 (by decide)
  have h2 : w = 2 ↔ w.toNat = 2 := hvalue 2 (by decide)
  simp only [h0, h1, h2]
  rcases asked with _ | _ | _ <;> simp only [rightsCode] <;> split_ifs <;> simp <;> omega

theorem rightsGiven_eq_none_iff (w : Word) : rightsGiven w = none ↔ 2 < w.toNat := by
  constructor
  · intro h
    by_contra hle
    have hcode : ∃ asked, w.toNat = rightsCode asked := by
      have : w.toNat = 0 ∨ w.toNat = 1 ∨ w.toNat = 2 := by omega
      rcases this with h0 | h1 | h2
      · exact ⟨none, h0⟩
      · exact ⟨some .read, h1⟩
      · exact ⟨some .readWrite, h2⟩
    obtain ⟨asked, hasked⟩ := hcode
    rw [(rightsGiven_eq_some_iff w asked).mpr hasked] at h
    cases h
  · intro h
    cases hgiven : rightsGiven w with
    | none => rfl
    | some asked =>
      have hcode := (rightsGiven_eq_some_iff w asked).mp hgiven
      rcases asked with _ | _ | _ <;> simp only [rightsCode] at hcode <;> omega

theorem grantBody_of_bad_param (h : portNamed (s.param p 3) = none ∨ portNamed (s.param p 3) = some p ∨
    rightsGiven (s.param p 4) = none) : grantBody s p = refuse s .badParam := by
  unfold grantBody
  rcases h with h | h | h
  · rw [h]
  · rw [h]
    cases rightsGiven (s.param p 4) with
    | none => rfl
    | some asked => exact if_pos rfl
  · rw [h]
    cases portNamed (s.param p 3) <;> rfl

theorem grantBody_of_error (hg : portNamed (s.param p 3) = some g) (hne : g ≠ p) (hasked : rightsGiven (s.param p 4) = some asked)
    {c : Code} (h : s.resolveParams p = .error c) : grantBody s p = refuse s c := by
  simp only [grantBody, hg, hasked, if_neg hne, h]

/-- The checks of GRANT on the region it names, in order. -/
theorem grantBody_of_region (hg : portNamed (s.param p 3) = some g) (hne : g ≠ p) (hasked : rightsGiven (s.param p 4) = some asked)
    (h : s.resolveParams p = .ok r) :
    grantBody s p =
      if (s.region r).owner ≠ p then refuse s .notOwner
      else if (s.region r).state ≠ .live then refuse s .notLive
      else accept (s.grantCase r g ((s.region r).grants.get g) asked).1
        [toWord g.toNat, toWord (rightsCode ((s.region r).grants.get g)), toWord (rightsCode asked),
          toWord (s.grantCase r g ((s.region r).grants.get g) asked).2] := by
  simp only [grantBody, hg, hasked, if_neg hne, h]

theorem State.grantCase_revoke {previous : Option Rights} (h : previous ≠ none) :
    s.grantCase r g previous none = ((s.setGrant r g none).revokeSlots g r, (s.port g).boundCount r) := by
  rcases previous with _ | _ | _
  · exact absurd rfl h
  · rfl
  · rfl

theorem State.grantCase_other {previous : Option Rights} (hrevoke : ¬ (asked = none ∧ previous ≠ none))
    (hnarrow : ¬ (asked = some .read ∧ previous = some .readWrite)) : s.grantCase r g previous asked = (s.setGrant r g asked, 0) := by
  rcases previous with _ | _ | _
  · rcases asked with _ | _ | _ <;> rfl
  · rcases asked with _ | _ | _
    · exact absurd ⟨rfl, nofun⟩ hrevoke
    · rfl
    · rfl
  · rcases asked with _ | _ | _
    · exact absurd ⟨rfl, nofun⟩ hrevoke
    · exact absurd ⟨rfl, rfl⟩ hnarrow
    · rfl

/-- The bindings with READ_WRITE, counted over the slot numbers. -/
theorem Port.writableCount_eq (q : Port) (r : RegionId) :
    q.writableCount r = ((List.finRange 32).filter fun i => (q.slot i).binding? = some (r, .readWrite)).length := by
  have hslot : ∀ c : Slot, (match c with
      | .bound r' .readWrite _ => decide (r' = r)
      | _ => false) = decide (c.binding? = some (r, .readWrite)) := by
    rintro (_ | ⟨r', _ | _, origin⟩ | _) <;> simp [Slot.binding?]
  rw [← Port.countP_slots q fun c => decide (c.binding? = some (r, .readWrite))]
  exact congrArg (fun f => q.slots.toList.countP f) (funext hslot)

/-- A revocation, written out (R78). -/
theorem State.revoked_eq (s : State) (r : RegionId) (g : PortId) : (s.setGrant r g none).revokeSlots g r =
    (s.setPort g { s.port g with
        slots := (s.port g).slots.map (Slot.lapsedFrom r .revoked)
        events := if (s.port g).slotsOn r = [] then (s.port g).events
          else { (s.port g).events with flags := (s.port g).events.flags ||| 4#6 } }).setRegion r
      { s.region r with grants := (s.region r).grants.set g none,
                        bindings := (s.region r).bindings - ((s.port g).slotsOn r).length } := by
  rw [← Port.lapse_eq, ← Port.boundCount_eq]
  refine State.ext_blocks (fun x => ?_) (fun k => ?_) rfl rfl rfl rfl rfl rfl rfl rfl rfl rfl
  · rw [State.revokeSlots_port]
    exact (State.port_setPort s g ((s.port g).lapse r .revoked) x).symm ▸ by
      split
      · next hx => rw [hx]; rfl
      · rfl
  · rw [State.revokeSlots_region, State.setGrant_region, State.region_setRegion]
    split
    · next hk => rw [hk]; rfl
    · rfl

end

/-- Settles O30: the three cases of Table 5-1 that change a slot or none. -/
theorem grantAccepted : Obligations.GrantAccepted := by
  unfold Obligations.GrantAccepted
  rintro s p g q r x asked htaking hg hne hasked hresolve rfl howner hlive rfl
  have hbody := grantBody_of_region ((portNamed_eq_some_iff ..).mpr hg) hne ((rightsGiven_eq_some_iff ..).mpr hasked) hresolve
  rw [if_neg (not_not.mpr howner), if_neg (not_not.mpr hlive)] at hbody
  have hexec := State.take_of_accept (code := fun w => w = 4) htaking (by decide) hbody
  rw [← exec_takeGrant] at hexec
  refine ⟨?_, ?_, fun hrevoke hnarrow => ?_⟩
  · rintro rfl hprevious
    rw [hexec, State.grantCase_revoke hprevious, State.revoked_eq, Port.boundCount_eq]
    rfl
  · rintro rfl hprevious
    have hmap : (s.port g).slots.map (Slot.narrow r) = (s.port g).slots.map fun c => match c with
        | .bound k .readWrite origin => if k = r then .bound k .read origin else c
        | _ => c := by
      refine congrArg (fun f => (s.port g).slots.map f) (funext fun c => ?_)
      rcases c with _ | ⟨k, _ | _, origin⟩ | _
      · rfl
      · exact ite_self _
      · rfl
      · rfl
    rw [hexec, hprevious]
    have hcase : s.grantCase r g (some .readWrite) (some .read) =
        ((s.setGrant r g (some .read)).narrowSlots g r, (s.port g).writableCount r) := rfl
    rw [hcase, Port.writableCount_eq]
    have hstate : (s.setGrant r g (some .read)).narrowSlots g r =
        (s.setPort g { s.port g with slots := (s.port g).slots.map (Slot.narrow r) }).setRegion r
          { s.region r with grants := (s.region r).grants.set g (some .read) } := rfl
    rw [hstate, hmap]
    rfl
  · rw [hexec, State.grantCase_other hrevoke hnarrow, ← hasked, toWord_toNat]
    rfl

/-- Settles O31: the parameters first, then the reference, then the region. -/
theorem grantRefused : Obligations.GrantRefused := by
  unfold Obligations.GrantRefused
  intro s p code htaking
  have refused := fun c => State.exec_refused (exec_takeGrant s p) htaking (by decide) c
  have hparams : ¬ (4 ≤ (s.param p 3).toNat ∨ (s.param p 3).toNat = p.toNat ∨ 2 < (s.param p 4).toNat) →
      ∃ g asked, portNamed (s.param p 3) = some g ∧ g ≠ p ∧ rightsGiven (s.param p 4) = some asked := fun hgood => by
    simp only [← portNamed_eq_none_iff, ← portNamed_eq_some_iff, ← rightsGiven_eq_none_iff, not_or] at hgood
    obtain ⟨hport, hself, hgiven⟩ := hgood
    obtain ⟨g, hg⟩ := Option.ne_none_iff_exists'.mp hport
    obtain ⟨asked, hasked⟩ := Option.ne_none_iff_exists'.mp hgiven
    exact ⟨g, asked, hg, fun heq => hself (by rw [hg, heq]), hasked⟩
  refine ⟨fun hfail => ?_, ?_⟩
  · simp only [firstFailing_cons, firstFailing_nil, decide_eq_true_eq] at hfail
    split at hfail
    · next hbad =>
      cases hfail
      rw [← portNamed_eq_none_iff, ← portNamed_eq_some_iff, ← rightsGiven_eq_none_iff] at hbad
      exact refused .badParam (grantBody_of_bad_param hbad)
    next hgood =>
    obtain ⟨g, asked, hg, hne, hasked⟩ := hparams hgood
    split at hfail
    · next herror =>
      cases hfail
      exact refused .notFound (grantBody_of_error hg hne hasked herror)
    split at hfail
    · next herror =>
      cases hfail
      exact refused .stale (grantBody_of_error hg hne hasked herror)
    · cases hfail
  · rintro r x hport hself hgiven hresolve rfl hfail
    obtain ⟨g, asked, hg, hne, hasked⟩ := hparams (by omega)
    have hbody := grantBody_of_region hg hne hasked hresolve
    simp only [firstFailing_cons, firstFailing_nil, decide_eq_true_eq] at hfail
    split at hfail
    · next howner =>
      cases hfail
      exact refused .notOwner (hbody.trans (if_pos howner))
    next howner =>
    rw [if_neg howner] at hbody
    split at hfail
    · next hlive =>
      cases hfail
      exact refused .notLive (hbody.trans (if_pos hlive))
    · cases hfail

end Sys2Proof.Machine
end

section
/-! PROOFS. The commands RETIRE, INQUIRE, COMPACT, HALT and SET_PORT: each check that can refuse them, and what they change when none does. -/
namespace Sys2Proof.Machine

/-! ### RETIRE (R18, R19) -/

section
variable {s : State} {p : PortId} {r : RegionId}

theorem exec_takeRetire (s : State) (p : PortId) : exec (.takeRetire p) s = s.takeCommand p (fun w => w = 5) retireBody := rfl

theorem retireBody_of_bad_mode (h : s.param p 3 ≠ 1 ∧ s.param p 3 ≠ 2) : retireBody s p = refuse s .badParam := if_pos h

theorem retireBody_of_error (hmode : s.param p 3 = 1 ∨ s.param p 3 = 2) {c : Code} (h : s.resolveParams p = .error c) :
    retireBody s p = refuse s c := by
  have hgood : ¬ (s.param p 3 ≠ 1 ∧ s.param p 3 ≠ 2) := fun hbad => hmode.elim hbad.1 hbad.2
  simp only [retireBody, if_neg hgood, h]

/-- The checks of RETIRE on the region it names, in order. -/
theorem retireBody_of_region (hmode : s.param p 3 = 1 ∨ s.param p 3 = 2) (h : s.resolveParams p = .ok r) :
    retireBody s p =
      if (s.region r).owner ≠ p ∧ ¬ (p = .p0 ∧ s.param p 3 = 2) then refuse s .notOwner
      else if (s.region r).state = .scrubbing ∨ (s.param p 3 = 1 ∧ (s.region r).state = .draining) then refuse s .notLive
      else if s.param p 3 = 1 then retireAnswer (s.retireGentle p r) r (s.region r).bindings
      else retireAnswer (s.retireForce p r) r (s.boundCount r) := by
  have hgood : ¬ (s.param p 3 ≠ 1 ∧ s.param p 3 ≠ 2) := fun hbad => hmode.elim hbad.1 hbad.2
  simp only [retireBody, if_neg hgood, h]

theorem retireBody_gentle (hmode : s.param p 3 = 1) (h : s.resolveParams p = .ok r) (howner : (s.region r).owner = p)
    (hlive : (s.region r).state = .live) : retireBody s p = retireAnswer (s.retireGentle p r) r (s.region r).bindings := by
  rw [retireBody_of_region (.inl hmode) h, if_neg (fun hbad => hbad.1 howner), if_neg, if_pos hmode]
  rw [hlive]
  nofun

theorem retireBody_force (hmode : s.param p 3 = 2) (h : s.resolveParams p = .ok r) (howner : (s.region r).owner = p ∨ p = .p0)
    (hstate : (s.region r).state = .live ∨ (s.region r).state = .draining) :
    retireBody s p = retireAnswer (s.retireForce p r) r (s.boundCount r) := by
  have hone : s.param p 3 ≠ 1 := by rw [hmode]; decide
  rw [retireBody_of_region (.inr hmode) h, if_neg (fun hbad => howner.elim hbad.1 fun hp => hbad.2 ⟨hp, hmode⟩), if_neg, if_neg hone]
  rcases hstate with hs | hs <;> simp only [hs, hone, reduceCtorEq, false_and, or_self, not_false_eq_true]

theorem State.retireGentle_of_bound (h : 0 < (s.region r).bindings) : s.retireGentle p r =
    { s.setRegion r { s.region r with state := .draining, name := none } with
      directory := dropName s.directory (s.region r).name } := if_pos h

/-- Without bindings GENTLE ends as FORCE does, which then has none to lapse. -/
theorem State.Sound.retireGentle_eq_retireForce (h : s.Sound) (hzero : (s.region r).bindings = 0) :
    s.retireGentle p r = s.retireForce p r := by
  rw [State.retireForce, h.lapseAll_eq_self hzero]
  exact if_neg (by omega)

/-- Both ways in which a RETIRE sends its region to SCRUBBING. -/
theorem State.Sound.retireBody_scrubs (h : s.Sound) (hresolve : s.resolveParams p = .ok r)
    (hmode : (s.param p 3 = 1 ∧ (s.region r).owner = p ∧ (s.region r).state = .live ∧ (s.region r).bindings = 0) ∨
      (s.param p 3 = 2 ∧ ((s.region r).owner = p ∨ p = .p0) ∧ ((s.region r).state = .live ∨ (s.region r).state = .draining))) :
    retireBody s p = retireAnswer (s.retireForce p r) r (s.region r).bindings := by
  rcases hmode with ⟨hone, howner, hlive, hzero⟩ | ⟨htwo, howner, hstate⟩
  · rw [retireBody_gentle hone hresolve howner hlive, h.retireGentle_eq_retireForce hzero]
  · rw [retireBody_force htwo hresolve howner hstate, h.tables.bindings.1 r]

end

/-- Settles O32: with a binding left the region only drains. -/
theorem retireGentleDrains : Obligations.RetireGentleDrains := by
  unfold Obligations.RetireGentleDrains
  rintro s p r x hdirectory htaking hmode hresolve rfl howner hlive hbound
  have hbody := retireBody_gentle hmode hresolve howner hlive
  rw [State.retireGentle_of_bound hbound, hdirectory.dropName_eq] at hbody
  rw [exec_takeRetire, State.take_of_accept htaking (by decide) hbody]
  have hstate : ∀ l, ((State.region { s.setRegion r { s.region r with state := .draining, name := none } with directory := l } r)) =
      { s.region r with state := .draining, name := none } := fun l => by
    exact (State.region_setRegion ..).trans (if_pos rfl)
  rw [hstate]
  rfl

/-- Settles O33: the bindings lapse, the region enters SCRUBBING, the engine chooses. -/
theorem retireToScrubbing : Obligations.RetireToScrubbing := by
  unfold Obligations.RetireToScrubbing
  rintro s p r x h htaking hresolve rfl hmode
  have hexec := State.take_of_accept (code := fun w => w = 5) htaking (by decide) (h.sound.retireBody_scrubs hresolve hmode)
  rw [← exec_takeRetire] at hexec
  refine ⟨s.retireForce p r, ?_, fun y => State.retire_port s r .retired (s.port p).level y,
    fun k => State.retire_region s r .retired (s.port p).level k, ?_, ?_, rfl, rfl, rfl,
    State.stepSettled_scrubbing (u := s.lapseAll r .retired) h.claims rfl (State.granuleNext_lapseAll s r .retired) r
      (s.port p).level, rfl, rfl⟩
  · have hstate : ((s.retireForce p r).region r).state = .scrubbing :=
      congrArg Region.state ((State.retire_region s r .retired (s.port p).level r).trans (if_pos rfl))
    rw [hexec, hstate]
    rfl
  · rw [← h.directory.dropName_eq, State.retireForce, State.withEngine_directory, State.enterScrubbing_directory,
      State.lapseAll_region, if_pos rfl]
    rfl
  · rw [← State.retire_engine s r .retired]
    rfl

/-- Settles O34: the mode first, then the reference, then the region. -/
theorem retireRefused : Obligations.RetireRefused := by
  unfold Obligations.RetireRefused
  intro s p code htaking
  have refused := fun c => State.exec_refused (exec_takeRetire s p) htaking (by decide) c
  refine ⟨fun hfail => ?_, ?_⟩
  · simp only [firstFailing_cons, firstFailing_nil, decide_eq_true_eq] at hfail
    split at hfail
    · next hmode =>
      cases hfail
      exact refused .badParam (retireBody_of_bad_mode hmode)
    next hmode =>
    have hmode : s.param p 3 = 1 ∨ s.param p 3 = 2 := by tauto
    split at hfail
    · next herror =>
      cases hfail
      exact refused .notFound (retireBody_of_error hmode herror)
    split at hfail
    · next herror =>
      cases hfail
      exact refused .stale (retireBody_of_error hmode herror)
    · cases hfail
  · rintro r x hmode hresolve rfl hfail
    have hbody := retireBody_of_region hmode hresolve
    simp only [firstFailing_cons, firstFailing_nil, decide_eq_true_eq] at hfail
    split at hfail
    · next howner =>
      cases hfail
      exact refused .notOwner (hbody.trans (if_pos howner))
    next howner =>
    rw [if_neg howner] at hbody
    split at hfail
    · next hstate =>
      cases hfail
      exact refused .notLive (hbody.trans (if_pos hstate))
    · cases hfail

/-! ### INQUIRE (R21) -/

section
variable {s : State} {p : PortId} {r : RegionId}

theorem exec_takeInquire (s : State) (p : PortId) : exec (.takeInquire p) s = s.takeCommand p (fun w => w = 6) inquireBody := rfl

theorem inquireBody_of_error {c : Code} (h : s.resolveParams p = .error c) : inquireBody s p = refuse s c := by
  simp only [inquireBody, h]

theorem inquireBody_of_region (h : s.resolveParams p = .ok r) : inquireBody s p = accept s ((s.region r).report r p) := by
  simp only [inquireBody, h]

theorem Region.entitlement_lt (x : Region) (p : PortId) : x.entitlement p < 4 := by
  unfold Region.entitlement
  split
  · decide
  · rcases x.grants.get p with _ | _ | _ <;> decide

theorem RegionState.code_lt (state : RegionState) : state.code < 4 := by cases state <;> decide

theorem Region.identityWord (x : Region) (r : RegionId) :
    (packFields [(0, 8, r.val), (8, 8, x.generation.toNat)]).toNat = r.val + 256 * x.generation.toNat := by
  have hr : r.val < 128 := r.isLt
  have hgen := x.generation.isLt
  rw [toNat_packFields] <;> simp only [List.map_cons, List.map_nil, List.sum_cons, List.sum_nil, Nat.pow_zero] <;> omega

theorem Region.stateWord (x : Region) (p : PortId) (hbindings : x.bindings < 256) :
    (packFields [(0, 2, x.state.code), (2, 2, x.owner.toNat), (4, 2, x.entitlement p), (6, 1, yesNo x.move.isSome),
        (8, 8, x.bindings)]).toNat =
      x.state.code + 4 * x.owner.toNat + 16 * x.entitlement p + 64 * yesNo x.move.isSome + 256 * x.bindings := by
  have hstate := x.state.code_lt
  have howner := PortId.toNat_lt x.owner
  have hentitled := x.entitlement_lt p
  have hmove := yesNo_le_one x.move.isSome
  rw [toNat_packFields] <;> simp only [List.map_cons, List.map_nil, List.sum_cons, List.sum_nil, Nat.pow_zero] <;> omega

end

/-- Settles O35: the fields of the two packed words do not overlap. -/
theorem inquireAnswered : Obligations.InquireAnswered := by
  unfold Obligations.InquireAnswered
  intro s p htaking
  refine ⟨fun herror => State.exec_refused (exec_takeInquire s p) htaking (by decide) .notFound (inquireBody_of_error herror),
    fun herror => State.exec_refused (exec_takeInquire s p) htaking (by decide) .stale (inquireBody_of_error herror), ?_⟩
  rintro r x hresolve rfl hbindings
  have hexec := State.take_of_accept (code := fun w => w = 6) htaking (by decide) (inquireBody_of_region hresolve)
  rw [← exec_takeInquire] at hexec
  refine ⟨_, _, hexec, (s.region r).identityWord r, ?_⟩
  have hmoving : (if (s.region r).move = none then 0 else 64) = 64 * yesNo (s.region r).move.isSome := by
    cases (s.region r).move <;> rfl
  rw [(s.region r).stateWord p hbindings, hmoving]
  rfl

/-! ### COMPACT and HALT (R133, R144) -/

section
variable {s : State} {p : PortId}

theorem exec_takeCompact (s : State) (p : PortId) : exec (.takeCompact p) s = s.takeCommand p (fun w => w = 7) compactBody := rfl

theorem exec_takeHalt (s : State) (p : PortId) : exec (.takeHalt p) s = s.takeCommand p (fun w => w = 8) haltBody := rfl

theorem Job.compaction?_eq_some_iff (j : Job) (c : Compaction) : j.compaction? = some c ↔ j.work = .compaction c := by
  unfold Job.compaction?
  cases j.work with
  | scrub target span cursor => simp
  | compaction d => simp

theorem Engine.compaction?_eq_none_iff (e : Engine) : e.compaction? = none ↔ ∀ j ∈ e.jobs, ∀ c, j.work ≠ .compaction c := by
  rw [Engine.compaction?, List.findSome?_eq_none_iff]
  refine forall₂_congr fun j _ => ?_
  simp only [Option.eq_none_iff_forall_ne_some, ne_eq, Job.compaction?_eq_some_iff]

theorem compactBody_of_some {c : Compaction} (h : s.engine.compaction? = some c) : compactBody s p = refuse s .already := by
  simp only [compactBody, h]

theorem compactBody_of_none (h : s.engine.compaction? = none) : compactBody s p =
    accept
      { s with
        engine := (s.engine.make (s.port p).level
          (.compaction { issuer := some p, halt := false, scanPoint := 0, phase := .scan, regionsMoved := 0,
                         granulesMoved := 0 })).choose }
      [toWord (s.port p).level.val] := by
  simp only [compactBody, h]
  rfl

theorem haltBody_of_none (h : s.engine.compaction? = none) : haltBody s p = refuse s .noCompaction := by
  simp only [haltBody, h]

theorem haltBody_of_some {c : Compaction} (h : s.engine.compaction? = some c) : haltBody s p =
    if c.issuer ≠ some p ∧ p ≠ .p0 then refuse s .notOwner
    else accept { s with engine := s.engine.withCompaction fun d => { d with halt := true } }
      [toWord c.phase.code, toWord c.phase.subjectNumber, toWord (yesNo c.halt)] := by
  simp only [haltBody, h]
  rfl

end

/-- Settles O36: the engine's one compaction job, or that there is none, decides both commands. -/
theorem compactAndHaltAnswered : Obligations.CompactAndHaltAnswered := by
  unfold Obligations.CompactAndHaltAnswered
  refine ⟨fun s p htaking => ⟨?_, fun hnone => ?_⟩, fun s p htaking hone => ⟨fun hnone => ?_, fun j hj c hwork => ?_⟩⟩
  · rintro ⟨j, hj, c, hwork⟩
    have hsome : s.engine.compaction? ≠ none := fun hnone => (Engine.compaction?_eq_none_iff _).mp hnone j hj c hwork
    obtain ⟨d, hd⟩ := Option.ne_none_iff_exists'.mp hsome
    exact State.exec_refused (exec_takeCompact s p) htaking (by decide) .already (compactBody_of_some hd)
  · rw [exec_takeCompact,
      State.take_of_accept htaking (by decide) (compactBody_of_none ((Engine.compaction?_eq_none_iff _).mpr hnone))]
    rfl
  · exact State.exec_refused (exec_takeHalt s p) htaking (by decide) .noCompaction
      (haltBody_of_none ((Engine.compaction?_eq_none_iff _).mpr hnone))
  · have hc : s.engine.compaction? = some c :=
      (Engine.compaction?_eq_some_iff hone c).mpr ⟨j, hj, (j.compaction?_eq_some_iff c).mpr hwork⟩
    have hbody := haltBody_of_some (p := p) hc
    refine ⟨fun hissuer hp => ?_, fun hadmitted => ?_⟩
    · exact State.exec_refused (exec_takeHalt s p) htaking (by decide) .notOwner (hbody.trans (if_pos ⟨hissuer, hp⟩))
    · rw [if_neg (fun hbad => hadmitted.elim hbad.1 hbad.2)] at hbody
      rw [exec_takeHalt, State.take_of_accept htaking (by decide) hbody]
      cases c.phase <;> cases c.halt <;> rfl

/-! ### SET_PORT (R172, R173) -/

section
variable {s : State} {p : PortId}

theorem exec_takeSetPort (s : State) (p : PortId) : exec (.takeSetPort p) s = s.takeCommand p (fun w => w = 9) setPortBody := rfl

theorem levelNamed_eq_none_iff (w : Word) : levelNamed w = none ↔ 4 ≤ w.toNat := by
  unfold levelNamed
  split <;> simp <;> omega

theorem levelNamed_eq_some_iff (w : Word) (level : Level) : levelNamed w = some level ↔ w.toNat = level.val := by
  unfold levelNamed
  have := level.isLt
  split
  · rw [Option.some.injEq, Fin.ext_iff]
  · simp only [reduceCtorEq, false_iff]
    omega

theorem setPortBody_of_not_supervisor (h : p ≠ .p0) : setPortBody s p = refuse s .notSupervisor := if_pos h

theorem setPortBody_of_unnamed (h : portNamed (s.param .p0 0) = none ∨ levelNamed (s.param .p0 1) = none) :
    setPortBody s .p0 = refuse s .badParam := by
  rw [setPortBody, if_neg (not_not.mpr rfl)]
  rcases h with h | h
  · rw [h]
  · rw [h]
    cases portNamed (s.param .p0 0) <;> rfl

theorem setPortBody_of_named {x : PortId} {level : Level} (hx : portNamed (s.param .p0 0) = some x)
    (hlevel : levelNamed (s.param .p0 1) = some level) : setPortBody s .p0 =
      if 2048 < (s.param .p0 2).toNat then refuse s .badParam
      else accept (s.setPort x { s.port x with level := level, quota := (s.param .p0 2).toNat })
        [toWord x.toNat, toWord (s.port x).level.val, toWord (s.port x).quota,
          toWord (yesNo ((s.param .p0 2).toNat < (s.port x).holdings))] := by
  rw [setPortBody, if_neg (not_not.mpr rfl), hx, hlevel]
  rfl

end

/-- Settles O37: the supervisor first, then the three values. -/
theorem setPortAnswered : Obligations.SetPortAnswered := by
  unfold Obligations.SetPortAnswered
  intro s p code htaking
  have refused := fun c => State.exec_refused (exec_takeSetPort s p) htaking (by decide) c
  refine ⟨fun hfail => ?_, ?_⟩
  · simp only [firstFailing_cons, firstFailing_nil, decide_eq_true_eq] at hfail
    split at hfail
    · next hp =>
      cases hfail
      exact refused .notSupervisor (setPortBody_of_not_supervisor hp)
    next hp =>
    obtain rfl := not_not.mp hp
    split at hfail
    · next hbad =>
      cases hfail
      refine refused .badParam ?_
      by_cases hnamed : portNamed (s.param .p0 0) = none ∨ levelNamed (s.param .p0 1) = none
      · exact setPortBody_of_unnamed hnamed
      · obtain ⟨hport, hlevel⟩ := not_or.mp hnamed
        obtain ⟨x, hx⟩ := Option.ne_none_iff_exists'.mp hport
        obtain ⟨level, hl⟩ := Option.ne_none_iff_exists'.mp hlevel
        rw [← portNamed_eq_none_iff, ← levelNamed_eq_none_iff] at hbad
        exact (setPortBody_of_named hx hl).trans (if_pos ((hbad.resolve_left hport).resolve_left hlevel))
    · cases hfail
  · rintro x level quota rfl hx hlevel rfl hquota
    have hbody := setPortBody_of_named ((portNamed_eq_some_iff ..).mpr hx) ((levelNamed_eq_some_iff ..).mpr hlevel)
    rw [if_neg (Nat.not_lt.mpr hquota), yesNo_toWord, ← hx, toWord_toNat] at hbody
    rw [exec_takeSetPort, State.take_of_accept htaking (by decide) hbody]
    rfl

end Sys2Proof.Machine
end
